-- ==== Sys2Proof/Word.lean ====
section
/-!
DEFINITION. The word types of the machine (R3, R16): 64-bit registers and addresses, 32-bit instruction words, bytes,
and the 1,024-byte vector register taken as one number whose byte 0 is least significant.
-/
namespace Sys2Proof

abbrev W64 := BitVec 64
abbrev W32 := BitVec 32
abbrev Byte := BitVec 8

/-- One vector register or tangent plane: 128 lanes of 64 bits. -/
abbrev VReg := BitVec 8192

/-- One mask register. -/
abbrev MReg := BitVec 1024

end Sys2Proof
end

