-- ==== Sys2Proof/Syntax.lean ====
section
/-!
DEFINITION. The abstract syntax: one constructor of `Instr` per row of the opcode table (R35-R44 and the device and
host steps the table lists). Fields are the bit fields of word 0 (R26) and of the extended field E (R29).
-/
namespace Sys2Proof

/-- The extended field E of an instruction, with the layout of R29. -/
structure Ext where
  fd : BitVec 4
  fa : BitVec 4
  rm : BitVec 3
  vs3 : BitVec 6
  wtk : BitVec 8
  lvl : BitVec 4
  sub : BitVec 3
  imm32 : BitVec 32
  deriving DecidableEq, Repr

/-- The four framings of R20, for the instructions that accept a literal (R33). Under `extLit` the literal's low half
is the imm32 field of E. -/
inductive LForm where
  | word
  | ext (x : Ext)
  | lit (v : BitVec 64)
  | extLit (x : Ext) (hi : BitVec 32)
  deriving DecidableEq, Repr

/-- d, a, b: three scalar register fields (format R). -/
structure OpR where
  d : BitVec 5
  a : BitVec 5
  b : BitVec 5
  x : Option Ext
  deriving DecidableEq, Repr

/-- format R, extended form only; sc stands in E. -/
structure OpRX where
  d : BitVec 5
  a : BitVec 5
  b : BitVec 5
  x : Ext
  deriving DecidableEq, Repr

/-- format R with sd and sa. -/
structure OpDA where
  d : BitVec 5
  a : BitVec 5
  x : Option Ext
  deriving DecidableEq, Repr

/-- format R with sa and sb. -/
structure OpAB where
  a : BitVec 5
  b : BitVec 5
  x : Option Ext
  deriving DecidableEq, Repr

/-- format R with sd and sb (MACZ). -/
structure OpDB where
  d : BitVec 5
  b : BitVec 5
  x : Option Ext
  deriving DecidableEq, Repr

/-- format R with sa and sb, extended only (CPY). -/
structure OpABX where
  a : BitVec 5
  b : BitVec 5
  x : Ext
  deriving DecidableEq, Repr

/-- no field of word 0, extended only (MCFG). -/
structure OpX where
  x : Ext
  deriving DecidableEq, Repr

/-- one source register sa. -/
structure OpA where
  a : BitVec 5
  x : Option Ext
  deriving DecidableEq, Repr

/-- one destination register sd. -/
structure OpD where
  d : BitVec 5
  x : Option Ext
  deriving DecidableEq, Repr

/-- no operand. -/
structure OpN where
  x : Option Ext
  deriving DecidableEq, Repr

/-- a level index in sb. -/
structure OpL where
  l : BitVec 5
  x : Option Ext
  deriving DecidableEq, Repr

/-- sd and a level index in sb. -/
structure OpDL where
  d : BitVec 5
  l : BitVec 5
  x : Option Ext
  deriving DecidableEq, Repr

/-- format I with a signed imm12 or a literal. -/
structure OpI where
  d : BitVec 5
  a : BitVec 5
  i : BitVec 12
  form : LForm
  deriving DecidableEq, Repr

/-- format I with a shift amount in imm12 5:0 or a literal. -/
structure OpSh where
  d : BitVec 5
  a : BitVec 5
  n : BitVec 6
  form : LForm
  deriving DecidableEq, Repr

/-- LIT: sd and a literal. -/
structure OpLit where
  d : BitVec 5
  form : LForm
  deriving DecidableEq, Repr

/-- FPU: sd, sa, sb and the width bit (0 binary64, 1 binary32). -/
structure OpF where
  d : BitVec 5
  a : BitVec 5
  b : BitVec 5
  w : BitVec 1
  x : Option Ext
  deriving DecidableEq, Repr

/-- FMA: extended only, addend sc in E. -/
structure OpFX where
  d : BitVec 5
  a : BitVec 5
  b : BitVec 5
  w : BitVec 1
  x : Ext
  deriving DecidableEq, Repr

/-- FPU with one source. -/
structure OpF2 where
  d : BitVec 5
  a : BitVec 5
  w : BitVec 1
  x : Option Ext
  deriving DecidableEq, Repr

/-- scalar memory: register, base and disp9. -/
structure OpMS where
  d : BitVec 5
  a : BitVec 5
  p : BitVec 9
  x : Option Ext
  deriving DecidableEq, Repr

/-- LDFE, STFE: register, base, access size code 0-3, disp9. -/
structure OpFE where
  d : BitVec 5
  a : BitVec 5
  s : BitVec 2
  p : BitVec 9
  x : Option Ext
  deriving DecidableEq, Repr

/-- LDFE.CLR: extended only. -/
structure OpFEX where
  d : BitVec 5
  a : BitVec 5
  s : BitVec 2
  p : BitVec 9
  x : Ext
  deriving DecidableEq, Repr

/-- base and disp9 (PREF, CLWB, CLINV). -/
structure OpAP where
  a : BitVec 5
  p : BitVec 9
  x : Option Ext
  deriving DecidableEq, Repr

/-- format B: two registers and disp12. -/
structure OpB where
  a : BitVec 5
  b : BitVec 5
  p : BitVec 12
  x : Option Ext
  deriving DecidableEq, Repr

/-- format J: disp22. -/
structure OpJ where
  p : BitVec 22
  x : Option Ext
  deriving DecidableEq, Repr

/-- JR: link, base, imm12. -/
structure OpJR where
  d : BitVec 5
  a : BitVec 5
  i : BitVec 12
  x : Option Ext
  deriving DecidableEq, Repr

/-- queue reads: sd and the queue number. -/
structure OpQ where
  d : BitVec 5
  q : BitVec 2
  x : Option Ext
  deriving DecidableEq, Repr

/-- CSRR: sd and the CSR number. -/
structure OpCsrR where
  d : BitVec 5
  i : BitVec 12
  x : Option Ext
  deriving DecidableEq, Repr

/-- CSRW: sa and the CSR number. -/
structure OpCsrW where
  a : BitVec 5
  i : BitVec 12
  x : Option Ext
  deriving DecidableEq, Repr

/-- CSRW to BND0-BND2: sa and the low two bits of the number (1, 2, 3). -/
structure OpBnd where
  a : BitVec 5
  k : BitVec 2
  x : Option Ext
  deriving DecidableEq, Repr

/-- SETVL: sd, sa and the format code. -/
structure OpSetvl where
  d : BitVec 5
  a : BitVec 5
  f : BitVec 4
  x : Option Ext
  deriving DecidableEq, Repr

/-- format V: vd, vs1, vs2, mk. -/
structure OpV where
  d : BitVec 6
  a : BitVec 6
  b : BitVec 6
  m : BitVec 4
  x : Option Ext
  deriving DecidableEq, Repr

/-- format V, extended only. -/
structure OpVX where
  d : BitVec 6
  a : BitVec 6
  b : BitVec 6
  m : BitVec 4
  x : Ext
  deriving DecidableEq, Repr

/-- format V with vs2 fixed by the encoding. -/
structure OpV2 where
  d : BitVec 6
  a : BitVec 6
  m : BitVec 4
  x : Option Ext
  deriving DecidableEq, Repr

/-- format V with vs2 zero, extended only. -/
structure OpV2X where
  d : BitVec 6
  a : BitVec 6
  m : BitVec 4
  x : Ext
  deriving DecidableEq, Repr

/-- compares: md, vs1, vs2, mk. -/
structure OpCmp where
  n : BitVec 4
  a : BitVec 6
  b : BitVec 6
  m : BitVec 4
  x : Option Ext
  deriving DecidableEq, Repr

/-- MASK: md, ma, mb. -/
structure OpM3 where
  n : BitVec 4
  a : BitVec 4
  b : BitVec 4
  x : Option Ext
  deriving DecidableEq, Repr

/-- MASK: md, ma. -/
structure OpM2 where
  n : BitVec 4
  a : BitVec 4
  x : Option Ext
  deriving DecidableEq, Repr

/-- MASK: md. -/
structure OpM1 where
  n : BitVec 4
  x : Option Ext
  deriving DecidableEq, Repr

/-- MASK: queue and ma. -/
structure OpMQ where
  q : BitVec 2
  a : BitVec 4
  x : Option Ext
  deriving DecidableEq, Repr

/-- VBCAST: vd and sb or a literal. -/
structure OpBc where
  d : BitVec 6
  b : BitVec 5
  form : LForm
  deriving DecidableEq, Repr

/-- VIOTA: vd, sb, mk. -/
structure OpIota where
  d : BitVec 6
  b : BitVec 5
  m : BitVec 4
  x : Option Ext
  deriving DecidableEq, Repr

/-- VTOQ: queue, vs1, sb. -/
structure OpToq where
  q : BitVec 2
  a : BitVec 6
  b : BitVec 5
  x : Option Ext
  deriving DecidableEq, Repr

/-- VTID: vd, level index, mk. -/
structure OpTid where
  d : BitVec 6
  l : BitVec 5
  m : BitVec 4
  x : Option Ext
  deriving DecidableEq, Repr

/-- format VS: vd, vs1, sb, mk. -/
structure OpVS where
  d : BitVec 6
  a : BitVec 6
  b : BitVec 5
  m : BitVec 4
  x : Option Ext
  deriving DecidableEq, Repr

/-- format VS, extended only. -/
structure OpVSX where
  d : BitVec 6
  a : BitVec 6
  b : BitVec 5
  m : BitVec 4
  x : Ext
  deriving DecidableEq, Repr

/-- VGRED: vd, vs1, group exponent g, mk. -/
structure OpVG where
  d : BitVec 6
  a : BitVec 6
  g : BitVec 4
  m : BitVec 4
  x : Option Ext
  deriving DecidableEq, Repr

/-- DUAL: the plane count n. -/
structure OpDual where
  n : BitVec 3
  deriving DecidableEq, Repr

/-- TSEED, TGET: vd, vs1, plane k, mk. -/
structure OpTan where
  d : BitVec 6
  a : BitVec 6
  k : BitVec 6
  m : BitVec 4
  x : Option Ext
  deriving DecidableEq, Repr

/-- TCLR: vd, plane k (0 = all), mk. -/
structure OpTclr where
  d : BitVec 6
  k : BitVec 6
  m : BitVec 4
  x : Option Ext
  deriving DecidableEq, Repr

/-- format M: vd or vs, sa, sb, mk. -/
structure OpM where
  d : BitVec 6
  a : BitVec 5
  b : BitVec 5
  m : BitVec 4
  x : Option Ext
  deriving DecidableEq, Repr

/-- format M, extended only. -/
structure OpMX where
  d : BitVec 6
  a : BitVec 5
  b : BitVec 5
  m : BitVec 4
  x : Ext
  deriving DecidableEq, Repr

/-- CPYR: first register, sa, sb. -/
structure OpCpyR where
  d : BitVec 6
  a : BitVec 5
  b : BitVec 5
  x : Ext
  deriving DecidableEq, Repr

/-- CPYX: first register, sb. -/
structure OpCpyX where
  d : BitVec 6
  b : BitVec 5
  x : Ext
  deriving DecidableEq, Repr

/-- FENCE: the level index. -/
structure OpFence where
  l : BitVec 5
  x : Option Ext
  deriving DecidableEq, Repr

/-- TKWAIT: the token mask. -/
structure OpTk where
  k : BitVec 8
  x : Option Ext
  deriving DecidableEq, Repr

/-- COLL: vd, vs1, group register, mk. -/
structure OpColl where
  d : BitVec 6
  a : BitVec 6
  g : BitVec 3
  m : BitVec 4
  x : Ext
  deriving DecidableEq, Repr

/-- GRPSET: group register, sa. -/
structure OpGA where
  g : BitVec 5
  a : BitVec 5
  x : Option Ext
  deriving DecidableEq, Repr

/-- CWAIT: group register. -/
structure OpG where
  g : BitVec 5
  x : Option Ext
  deriving DecidableEq, Repr

/-- The instructions and the device and host steps of the opcode table, one constructor per row, in its order. A
constructor with an operand structure is an instruction of the word stream; the others are the table's steps of the
device, the links and the host, which no instruction word encodes. -/
inductive Instr where
  /-- ADD (R113). -/
  | add (o : OpR)
  /-- SUB (R113). -/
  | sub (o : OpR)
  /-- AND (R113). -/
  | and (o : OpR)
  /-- OR (R113). -/
  | or (o : OpR)
  /-- XOR (R113). -/
  | xor (o : OpR)
  /-- ANDN (R113). -/
  | andn (o : OpR)
  /-- SHL (R113). -/
  | shl (o : OpR)
  /-- SHR (R113). -/
  | shr (o : OpR)
  /-- SAR (R113). -/
  | sar (o : OpR)
  /-- ROTR (R113). -/
  | rotr (o : OpR)
  /-- MIN (R113). -/
  | min (o : OpR)
  /-- MAX (R113). -/
  | max (o : OpR)
  /-- MINU (R113). -/
  | minu (o : OpR)
  /-- MAXU (R113). -/
  | maxu (o : OpR)
  /-- MUL (R113). -/
  | mul (o : OpR)
  /-- MULH (R113). -/
  | mulh (o : OpR)
  /-- MULHU (R113). -/
  | mulhu (o : OpR)
  /-- DIV (R114). -/
  | div (o : OpR)
  /-- DIVU (R114). -/
  | divu (o : OpR)
  /-- REM (R114). -/
  | rem (o : OpR)
  /-- REMU (R114). -/
  | remu (o : OpR)
  /-- CLZ (R113). -/
  | clz (o : OpDA)
  /-- CTZ (R113). -/
  | ctz (o : OpDA)
  /-- POPC (R113). -/
  | popc (o : OpDA)
  /-- CMPEQ (R113). -/
  | cmpeq (o : OpR)
  /-- CMPNE (R113). -/
  | cmpne (o : OpR)
  /-- CMPLT (R113). -/
  | cmplt (o : OpR)
  /-- CMPGE (R113). -/
  | cmpge (o : OpR)
  /-- CMPLTU (R113). -/
  | cmpltu (o : OpR)
  /-- CMPGEU (R113). -/
  | cmpgeu (o : OpR)
  /-- SEL (R113). -/
  | sel (o : OpRX)
  /-- ADDI (R115). -/
  | addi (o : OpI)
  /-- ANDI (R115). -/
  | andi (o : OpI)
  /-- ORI (R115). -/
  | ori (o : OpI)
  /-- XORI (R115). -/
  | xori (o : OpI)
  /-- SHLI (R115). -/
  | shli (o : OpSh)
  /-- SHRI (R115). -/
  | shri (o : OpSh)
  /-- SARI (R115). -/
  | sari (o : OpSh)
  /-- LIT (R116). -/
  | lit (o : OpLit)
  /-- FADD (R117). -/
  | fadd (o : OpF)
  /-- FSUB (R117). -/
  | fsub (o : OpF)
  /-- FMUL (R117). -/
  | fmul (o : OpF)
  /-- FDIV (R117). -/
  | fdiv (o : OpF)
  /-- FSQRT (R117). -/
  | fsqrt (o : OpF2)
  /-- FMIN (R117). -/
  | fmin (o : OpF)
  /-- FMAX (R117). -/
  | fmax (o : OpF)
  /-- FCMPEQ (R117). -/
  | fcmpeq (o : OpF)
  /-- FCMPLT (R117). -/
  | fcmplt (o : OpF)
  /-- FCMPLE (R117). -/
  | fcmple (o : OpF)
  /-- FMA (R117). -/
  | fma (o : OpFX)
  /-- FCVTI (R117). -/
  | fcvti (o : OpF2)
  /-- FCVTF (R117). -/
  | fcvtf (o : OpF2)
  /-- FCVTDS (R117). -/
  | fcvtds (o : OpDA)
  /-- FCVTSD (R117). -/
  | fcvtsd (o : OpDA)
  /-- FABS (R117). -/
  | fabs (o : OpF2)
  /-- FNEG (R117). -/
  | fneg (o : OpF2)
  /-- FCLASS (R117). -/
  | fclass (o : OpF2)
  /-- LD (R119). -/
  | ld (o : OpMS)
  /-- LDH (R119). -/
  | ldh (o : OpMS)
  /-- LDW (R119). -/
  | ldw (o : OpMS)
  /-- LDD (R119). -/
  | ldd (o : OpMS)
  /-- LDBU (R119). -/
  | ldbu (o : OpMS)
  /-- LDHU (R119). -/
  | ldhu (o : OpMS)
  /-- LDWU (R119). -/
  | ldwu (o : OpMS)
  /-- ST (R119). -/
  | st (o : OpMS)
  /-- STH (R119). -/
  | sth (o : OpMS)
  /-- STW (R119). -/
  | stw (o : OpMS)
  /-- STD (R119). -/
  | std (o : OpMS)
  /-- BEQ (R120). -/
  | beq (o : OpB)
  /-- BNE (R120). -/
  | bne (o : OpB)
  /-- BLT (R120). -/
  | blt (o : OpB)
  /-- BGE (R120). -/
  | bge (o : OpB)
  /-- BLTU (R120). -/
  | bltu (o : OpB)
  /-- BGEU (R120). -/
  | bgeu (o : OpB)
  /-- JMP (R121). -/
  | jmp (o : OpJ)
  /-- CALL (R121). -/
  | call (o : OpJ)
  /-- JR (R122). -/
  | jr (o : OpJR)
  /-- QPOP (R112). -/
  | qpop (o : OpQ)
  /-- QPEEK (R112). -/
  | qpeek (o : OpQ)
  /-- QCNT (R112). -/
  | qcnt (o : OpQ)
  /-- CSRR (R125). -/
  | csrr (o : OpCsrR)
  /-- CSRW (R125). -/
  | csrw (o : OpCsrW)
  /-- CSRW_CF (R49). -/
  | csrwCf (o : OpA)
  /-- CSRW_VLCAP (R49). -/
  | csrwVlcap (o : OpA)
  /-- CSRW_BND (R169). -/
  | csrwBnd (o : OpBnd)
  /-- CSRW_VSTART (R130). -/
  | csrwVstart (o : OpA)
  /-- CSRW_CTXID (R360). -/
  | csrwCtxid (o : OpA)
  /-- TID (R98). -/
  | tid (o : OpDL)
  /-- TSZ (R98). -/
  | tsz (o : OpDL)
  /-- TDEPTH (R98). -/
  | tdepth (o : OpD)
  /-- BARL (R99). -/
  | barl (o : OpL)
  /-- FARMNEXT (R100). -/
  | farmnext (o : OpDL)
  /-- PHASE (R96). -/
  | phase (o : OpL)
  /-- YIELD (R102). -/
  | yield (o : OpN)
  /-- EXIT (R103). -/
  | exit (o : OpN)
  /-- LAUNCH (R104). -/
  | launch (o : OpDA)
  /-- LWAIT (R105). -/
  | lwait (o : OpA)
  /-- SETVL (R132). -/
  | setvl (o : OpSetvl)
  /-- VADD (R137). -/
  | vadd (o : OpV)
  /-- VSUB (R137). -/
  | vsub (o : OpV)
  /-- VMUL (R137). -/
  | vmul (o : OpV)
  /-- VMULH (R137). -/
  | vmulh (o : OpV)
  /-- VMIN (R137). -/
  | vmin (o : OpV)
  /-- VMAX (R137). -/
  | vmax (o : OpV)
  /-- VAND (R138). -/
  | vand (o : OpV)
  /-- VOR (R138). -/
  | vor (o : OpV)
  /-- VXOR (R138). -/
  | vxor (o : OpV)
  /-- VSHL (R139). -/
  | vshl (o : OpV)
  /-- VSHR (R139). -/
  | vshr (o : OpV)
  /-- VSAR (R139). -/
  | vsar (o : OpV)
  /-- VFMA (R140). -/
  | vfma (o : OpV)
  /-- VFMS (R140). -/
  | vfms (o : OpVX)
  /-- VFNMA (R140). -/
  | vfnma (o : OpVX)
  /-- VFNMS (R140). -/
  | vfnms (o : OpVX)
  /-- VDIV (R141). -/
  | vdiv (o : OpV)
  /-- VSQRT (R141). -/
  | vsqrt (o : OpV2)
  /-- VABS (R142). -/
  | vabs (o : OpV2)
  /-- VNEG (R142). -/
  | vneg (o : OpV2)
  /-- VCLZ (R142). -/
  | vclz (o : OpV2)
  /-- VPOPC (R142). -/
  | vpopc (o : OpV2)
  /-- VRCPE (R143). -/
  | vrcpe (o : OpV2)
  /-- VRSQE (R143). -/
  | vrsqe (o : OpV2)
  /-- VEXP2 (R142). -/
  | vexp2 (o : OpV2)
  /-- VLOG2 (R142). -/
  | vlog2 (o : OpV2)
  /-- VFLOOR (R142). -/
  | vfloor (o : OpV2)
  /-- VCEIL (R142). -/
  | vceil (o : OpV2)
  /-- VRINT (R142). -/
  | vrint (o : OpV2)
  /-- VCLASS (R142). -/
  | vclass (o : OpV2)
  /-- VCMPEQ (R144). -/
  | vcmpeq (o : OpCmp)
  /-- VCMPNE (R144). -/
  | vcmpne (o : OpCmp)
  /-- VCMPLT (R144). -/
  | vcmplt (o : OpCmp)
  /-- VCMPLE (R144). -/
  | vcmple (o : OpCmp)
  /-- VCMPGT (R144). -/
  | vcmpgt (o : OpCmp)
  /-- VCMPGE (R144). -/
  | vcmpge (o : OpCmp)
  /-- VSEL (R145). -/
  | vsel (o : OpV)
  /-- MAND (R146). -/
  | mand (o : OpM3)
  /-- MOR (R146). -/
  | mor (o : OpM3)
  /-- MXOR (R146). -/
  | mxor (o : OpM3)
  /-- MANDN (R146). -/
  | mandn (o : OpM3)
  /-- MNOT (R146). -/
  | mnot (o : OpM2)
  /-- MSET (R146). -/
  | mset (o : OpM3)
  /-- MCLR (R146). -/
  | mclr (o : OpM1)
  /-- MMOV (R146). -/
  | mmov (o : OpM2)
  /-- MPOP (R146). -/
  | mpop (o : OpMQ)
  /-- MFIRST (R146). -/
  | mfirst (o : OpMQ)
  /-- VBCAST (R147). -/
  | vbcast (o : OpBc)
  /-- VIOTA (R148). -/
  | viota (o : OpIota)
  /-- VTOQ (R149). -/
  | vtoq (o : OpToq)
  /-- VTID (R150). -/
  | vtid (o : OpTid)
  /-- VPERM (R155). -/
  | vperm (o : OpV)
  /-- VSLIDE.DN (R156). -/
  | vslideDn (o : OpVS)
  /-- VSLIDE.UP (R156). -/
  | vslideUp (o : OpVSX)
  /-- VCOMPR (R157). -/
  | vcompr (o : OpV2)
  /-- VEXPND (R157). -/
  | vexpnd (o : OpV2)
  /-- VZIP.LO (R158). -/
  | vzipLo (o : OpV)
  /-- VZIP.HI (R158). -/
  | vzipHi (o : OpVX)
  /-- VUNZIP.EV (R158). -/
  | vunzipEv (o : OpVX)
  /-- VUNZIP.OD (R158). -/
  | vunzipOd (o : OpVX)
  /-- VRED.SUM (R159). -/
  | vredSum (o : OpV2)
  /-- VRED.MIN (R159). -/
  | vredMin (o : OpV2)
  /-- VRED.MAX (R159). -/
  | vredMax (o : OpV2)
  /-- VRED.AND (R159). -/
  | vredAnd (o : OpV2)
  /-- VRED.OR (R159). -/
  | vredOr (o : OpV2)
  /-- VRED.XOR (R159). -/
  | vredXor (o : OpV2)
  /-- VSCAN.SUM (R160). -/
  | vscanSum (o : OpV2)
  /-- VSCAN.MIN (R160). -/
  | vscanMin (o : OpV2)
  /-- VSCAN.MAX (R160). -/
  | vscanMax (o : OpV2)
  /-- VSCAN.AND (R160). -/
  | vscanAnd (o : OpV2)
  /-- VSCAN.OR (R160). -/
  | vscanOr (o : OpV2)
  /-- VSCAN.XOR (R160). -/
  | vscanXor (o : OpV2)
  /-- VGRED.SUM (R161). -/
  | vgredSum (o : OpVG)
  /-- VGRED.MIN (R161). -/
  | vgredMin (o : OpVG)
  /-- VGRED.MAX (R161). -/
  | vgredMax (o : OpVG)
  /-- VGRED.OR (R161). -/
  | vgredOr (o : OpVG)
  /-- VCVT (R162). -/
  | vcvt (o : OpV2)
  /-- VRETAG (R163). -/
  | vretag (o : OpV2)
  /-- VFUNR (R164). -/
  | vfunr (o : OpVX)
  /-- VFUNL (R164). -/
  | vfunl (o : OpVX)
  /-- VEXT (R165). -/
  | vext (o : OpV)
  /-- VEXT (R165). -/
  | vextUniform (o : OpV2X)
  /-- VEXT.S (R165). -/
  | vextS (o : OpVX)
  /-- VEXT.S (R165). -/
  | vextSUniform (o : OpV2X)
  /-- DUAL (R236). -/
  | dual (o : OpDual)
  /-- TSEED (R243). -/
  | tseed (o : OpTan)
  /-- TGET (R243). -/
  | tget (o : OpTan)
  /-- TCLR (R243). -/
  | tclr (o : OpTclr)
  /-- VLD (R181). -/
  | vld (o : OpM)
  /-- VLD.STR (R181). -/
  | vldStr (o : OpM)
  /-- VLD.2D (R181). -/
  | vld2d (o : OpMX)
  /-- VST (R181). -/
  | vst (o : OpM)
  /-- VST.STR (R181). -/
  | vstStr (o : OpM)
  /-- VST.2D (R181). -/
  | vst2d (o : OpMX)
  /-- VLDO (R182). -/
  | vldo (o : OpM)
  /-- VLDO.STR (R182). -/
  | vldoStr (o : OpM)
  /-- VLDO.2D (R182). -/
  | vldo2d (o : OpMX)
  /-- VSTO (R182). -/
  | vsto (o : OpM)
  /-- VSTO.STR (R182). -/
  | vstoStr (o : OpM)
  /-- VSTO.2D (R182). -/
  | vsto2d (o : OpMX)
  /-- VLDSC (R183). -/
  | vldsc (o : OpM)
  /-- VLDSC.STR (R183). -/
  | vldscStr (o : OpM)
  /-- VLDSC.2D (R183). -/
  | vldsc2d (o : OpMX)
  /-- VSTSC (R183). -/
  | vstsc (o : OpM)
  /-- VSTSC.STR (R183). -/
  | vstscStr (o : OpM)
  /-- VSTSC.2D (R183). -/
  | vstsc2d (o : OpMX)
  /-- VSTB (R184). -/
  | vstb (o : OpM)
  /-- SIDE_LOG_REPLAY (R368). -/
  | sideLogReplay (core : Nat)
  /-- LDFE (R185). -/
  | ldfe (o : OpFE)
  /-- LDFE.CLR (R179). -/
  | ldfeClr (o : OpFEX)
  /-- STFE (R185). -/
  | stfe (o : OpFE)
  /-- VLDFE (R186). -/
  | vldfe (o : OpM)
  /-- VLDFE.CLR (R186). -/
  | vldfeClr (o : OpMX)
  /-- SPCTEST (R187). -/
  | spctest (o : OpDA)
  /-- SPCCAST.TO (R187). -/
  | spccastTo (o : OpR)
  /-- SPCCAST.FROM (R187). -/
  | spccastFrom (o : OpR)
  /-- PREF.L1 (R188). -/
  | prefL1 (o : OpAP)
  /-- PREF.L2 (R188). -/
  | prefL2 (o : OpAP)
  /-- CLWB (R189). -/
  | clwb (o : OpAP)
  /-- CLINV (R189). -/
  | clinv (o : OpAP)
  /-- ATOM.ADD (R205). -/
  | atomAdd (o : OpR)
  /-- ATOM.AND (R205). -/
  | atomAnd (o : OpR)
  /-- ATOM.OR (R205). -/
  | atomOr (o : OpR)
  /-- ATOM.XOR (R205). -/
  | atomXor (o : OpR)
  /-- ATOM.MIN (R205). -/
  | atomMin (o : OpR)
  /-- ATOM.MAX (R205). -/
  | atomMax (o : OpR)
  /-- ATOM.MINU (R205). -/
  | atomMinu (o : OpR)
  /-- ATOM.MAXU (R205). -/
  | atomMaxu (o : OpR)
  /-- ATOM.SWAP (R205). -/
  | atomSwap (o : OpR)
  /-- ATOM.FADDD (R205). -/
  | atomFaddd (o : OpR)
  /-- ATOM.FADDS (R205). -/
  | atomFadds (o : OpR)
  /-- CAS (R206). -/
  | cas (o : OpRX)
  /-- FENCE.ACQ (R207). -/
  | fenceAcq (o : OpFence)
  /-- FENCE.REL (R207). -/
  | fenceRel (o : OpFence)
  /-- FENCE.ACQREL (R207). -/
  | fenceAcqrel (o : OpFence)
  /-- FENCE.SC (R207). -/
  | fenceSc (o : OpFence)
  /-- BOINIT (R210). -/
  | boinit (o : OpR)
  /-- BOARRIVE (R211). -/
  | boarrive (o : OpR)
  /-- BOWAIT (R212). -/
  | bowait (o : OpR)
  /-- BOTEST (R214). -/
  | botest (o : OpR)
  /-- TKWAIT (R215). -/
  | tkwait (o : OpTk)
  /-- LNSET (R230). -/
  | lnset (o : OpR)
  /-- CPY (R231). -/
  | cpy (o : OpABX)
  /-- CPYR (R232). -/
  | cpyrLoad (o : OpCpyR)
  /-- CPYR (R232). -/
  | cpyrStore (o : OpCpyR)
  /-- CPYX (R233). -/
  | cpyx (o : OpCpyX)
  /-- COPY_COMPLETE (R222). -/
  | copyComplete (hart : Nat) (token : Nat)
  /-- COPY_FAIL (R224). -/
  | copyFail (hart : Nat) (token : Nat) (j : Nat)
  /-- MATT (R263). -/
  | matt (o : OpAB)
  /-- MDET (R264). -/
  | mdet (o : OpN)
  /-- MCFG (R265). -/
  | mcfg (o : OpX)
  /-- MLDS (R266). -/
  | mlds (o : OpAB)
  /-- MSWAP (R267). -/
  | mswap (o : OpN)
  /-- MSTRM (R268). -/
  | mstrm (o : OpR)
  /-- MATRIX_STEP (R254). -/
  | matrixStep (quad : Nat)
  /-- MATRIX_CLASS_AGING (R255). -/
  | matrixClassAging (quad : Nat) (hart : Nat)
  /-- MACZ (R269). -/
  | macz (o : OpDB)
  /-- MACST (R269). -/
  | macst (o : OpR)
  /-- MACLD (R269). -/
  | macld (o : OpR)
  /-- XRUN (R290). -/
  | xrun (o : OpDA)
  /-- XMRG (R291). -/
  | xmrg (o : OpDA)
  /-- XSEND (R292). -/
  | xsend (o : OpA)
  /-- XRECV (R293). -/
  | xrecv (o : OpR)
  /-- SWITCH_EMIT (R281). -/
  | switchEmit (pkg : Nat) (group : Nat) (dest : Nat)
  /-- RECORD_DELIVERY (R293). -/
  | recordDelivery (pkg : Nat) (group : Nat) (dest : Nat)
  /-- XOPEN (R295). -/
  | xopen (o : OpAB)
  /-- XCLOSE (R295). -/
  | xclose (o : OpN)
  /-- MONARCH_COPY (R309). -/
  | monarchCopy (pkg : Nat) (group : Nat)
  /-- PREFETCH_COPY (R311). -/
  | prefetchCopy (pkg : Nat) (group : Nat) (core : Nat)
  /-- XSPLT (R296). -/
  | xsplt (o : OpAB)
  /-- XCOMB (R297). -/
  | xcomb (o : OpAB)
  /-- XSAMP (R298). -/
  | xsamp (o : OpDA)
  /-- XROUND (R299). -/
  | xround (o : OpAB)
  /-- XCAPSET (R297). -/
  | xcapset (o : OpAB)
  /-- XTOPK (R303). -/
  | xtopk (o : OpMX)
  /-- XRTAB (R315). -/
  | xrtab (o : OpAB)
  /-- XLOAD (R316). -/
  | xload (o : OpDA)
  /-- XPFT (R317). -/
  | xpft (o : OpAB)
  /-- COLL.REDUCE (R324). -/
  | collReduce (o : OpColl)
  /-- COLL.ALLRED (R324). -/
  | collAllred (o : OpColl)
  /-- COLL.GATHER (R324). -/
  | collGather (o : OpColl)
  /-- COLL.SCATTER (R324). -/
  | collScatter (o : OpColl)
  /-- COLL.BCAST (R324). -/
  | collBcast (o : OpColl)
  /-- STAGING_RESERVATION (R332). -/
  | stagingReservation (inst : Nat)
  /-- COLLECTIVE_COMPLETE (R330). -/
  | collectiveComplete (inst : Nat) (rank : Nat)
  /-- GRPSET (R322). -/
  | grpset (o : OpGA)
  /-- CWAIT (R329). -/
  | cwait (o : OpG)
  /-- CLD (R347). -/
  | cld (o : OpR)
  /-- CST (R348). -/
  | cst (o : OpR)
  /-- CSCAN (R349). -/
  | cscan (o : OpR)
  /-- CDENSE (R350). -/
  | cdense (o : OpAB)
  /-- CRINIT (R346). -/
  | crinit (o : OpDA)
  /-- GTH (R352). -/
  | gth (o : OpR)
  /-- SCT (R352). -/
  | sct (o : OpR)
  /-- SCTADD (R352). -/
  | sctadd (o : OpR)
  /-- HAZEL_COMPLETE (R353). -/
  | hazelComplete (hart : Nat) (token : Nat)
  /-- VSTC (R354). -/
  | vstc (o : OpM)
  /-- SYSCALL (R373). -/
  | syscall (o : OpN)
  /-- BRK (R373). -/
  | brk (o : OpN)
  /-- URET (R362). -/
  | uret (o : OpN)
  /-- ERET (R362). -/
  | eret (o : OpN)
  /-- HALT (R374). -/
  | halt (o : OpN)
  /-- WFI (R374). -/
  | wfi (o : OpN)
  /-- TLBINV (R367). -/
  | tlbinv (o : OpAB)
  /-- VHTINV (R368). -/
  | vhtinv (o : OpAB)
  /-- CTXSAVE (R374). -/
  | ctxsave (o : OpDA)
  /-- CTXLOAD (R374). -/
  | ctxload (o : OpR)
  /-- SLDRAIN (R374). -/
  | sldrain (o : OpD)
  /-- LAUNCH_QUEUE_DOORBELL (R379). -/
  | launchQueueDoorbell (pkg : Nat) (queue : Nat) (tail : Nat)
  /-- TEAM_PLACEMENT (R90). -/
  | teamPlacement (launch : Nat) (cores : List Nat)
  /-- DEADLINE_EXPIRY (R94). -/
  | deadlineExpiry (launch : Nat)
  /-- PREEMPTION_TIMEOUT (R369). -/
  | preemptionTimeout (launch : Nat)
  /-- TEAM_SWAP_OUT (R369). -/
  | teamSwapOut (core : Nat)
  /-- TEAM_RESUME (R369). -/
  | teamResume (image : Nat) (core : Nat)
  /-- REMOTE_ACCESS (R173). -/
  | remoteAccess (op : Nat)
  /-- REMOTE_ACK (R201). -/
  | remoteAck (op : Nat)
  /-- ENGINE_UNCORRECTABLE_ERROR (R371). -/
  | engineUncorrectableError (pkg : Nat) (ctx : Nat) (engine : Nat) (addr : Nat)
  /-- MODULE_RESET (R384). -/
  | moduleReset (pkg : Nat)
  /-- ATTESTATION_REQUEST (R384). -/
  | attestationRequest (pkg : Nat) (nonce : Nat)
  /-- CONTEXT_CREATE (R378). -/
  | contextCreate (pkg : Nat) (slot : Nat)
  /-- CONTEXT_END_BY_HOST (R378). -/
  | contextEndByHost (pkg : Nat) (slot : Nat)
  /-- EPOCH_WRITE (R382). -/
  | epochWrite (pkg : Nat) (value : Nat)
  /-- BAR0_REGISTER_WRITE (R377). -/
  | bar0RegisterWrite (pkg : Nat) (offset : Nat) (value : Nat)
  /-- BAR2_WRITE (R377). -/
  | bar2Write (pkg : Nat) (addr : Nat) (bytes : List Byte)
  /-- BAR2_READ (R377). -/
  | bar2Read (pkg : Nat) (addr : Nat) (len : Nat)
  /-- GTIME_SYNC (R382). -/
  | gtimeSync (pkg : Nat)
  /-- LINK_CRC_REPLAY (R381). -/
  | linkCrcReplay (pkg : Nat) (port : Nat)
  /-- PORT_REMOVAL (R381). -/
  | portRemoval (pkg : Nat) (port : Nat)
  /-- DIE_IDLE_ENTRY (R385). -/
  | dieIdleEntry (pkg : Nat) (die : Nat)
  /-- DIE_IDLE_EXIT (R385). -/
  | dieIdleExit (pkg : Nat) (die : Nat)
  /-- POWER_OFF (R385). -/
  | powerOff (pkg : Nat)
  /-- POWER_TRIP (R385). -/
  | powerTrip (pkg : Nat)
  /-- PLIM_WRITE (R385). -/
  | plimWrite (pkg : Nat) (value : Nat)
  /-- ILLEGAL_INSTRUCTION (R46). -/
  | illegalInstruction (addr : Nat)
  /-- INSTRUCTION_FETCH_FAULT (R21). -/
  | instructionFetchFault (cause : Nat) (addr : Nat)
  /-- REMOTE_LOAD_RETURN (R173). -/
  | remoteLoadReturn (op : Nat)
  /-- COPY_PERFORMED (R226). -/
  | copyPerformed (hart : Nat) (token : Nat) (j : Nat)
  /-- LANE_CLUSTER_RETIREMENT (R369). -/
  | laneClusterRetirement (core : Nat) (clusters : Nat)
  deriving DecidableEq, Repr

end Sys2Proof
end

