-- ==== Sys2Proof/WellFormed.lean ====
section
/-!
DEFINITION. Which terms of the syntax are instructions: the checks decoding makes after it has split the words into
fields (R27, R29-R34, R40-R46, R153), each with the name an encoding is rejected by. Every one of them raises
Illegal-instruction (R46).
-/
namespace Sys2Proof

/-- Why a word sequence is no instruction (R46). Every reason raises Illegal-instruction. -/
inductive DecodeErr where
  /-- MAJ 0x00 or 0x7F. -/
  | neverMajor
  /-- A reserved major. -/
  | reservedMajor
  /-- A minor, selector, kind, mode or sub value that is not assigned. -/
  | badMinor
  /-- A nonzero reserved field of word 0 or of E, or a fixed field of another value. -/
  | reservedField
  /-- A literal where R33 forbids one. -/
  | literalForbidden
  /-- LIT without a literal. -/
  | literalMissing
  /-- A nonzero imm12 or sb field beside a literal (R33). -/
  | literalField
  /-- A one-word form of an instruction of R34. -/
  | oneWordForbidden
  /-- fd, fa and XF against R30, or fd and fa that R136 and the entries require equal. -/
  | badFormats
  /-- An rm of 5-7. -/
  | badRounding
  /-- A vs3 value outside R32. -/
  | badVs3
  /-- A vector register field of 48-63, or a group that passes v47 (R27). -/
  | badVReg
  /-- A mask field outside R27, or a masked-only VSEL with mk = 15. -/
  | badMask
  /-- A 5-bit level field of 16 or more (R32). -/
  | badLevel
  /-- An imm32 value, or a shift literal, outside its range. -/
  | badImm
  /-- A destination named as a source of a whole-vector member or of VCVT (R153). -/
  | overlap
  /-- A DUAL word of more than one word or with C = 1 (R25). -/
  | badPrefix
  /-- Fewer words than the length field asks for. -/
  | short
  deriving DecidableEq, Repr

/-- How a class uses fd and fa (R30, R136). -/
inductive FmtUse where
  /-- fd and fa are reserved. -/
  | none
  /-- Both are used. -/
  | both
  /-- Both are used and must be equal. -/
  | same
  /-- Only fd is used; fa is 0xF. -/
  | fd
  /-- Only fa is used; fd is 0xF. -/
  | fa
  deriving DecidableEq, Repr

/-- How a class uses the vs3 field of E (R29, R32). -/
inductive Vs3Use where
  | none
  /-- A scalar register in bits 51:47, bit 52 zero. -/
  | sc
  /-- A vector register v0-v47. -/
  | vreg
  /-- A vector register, or 63 for vd. -/
  | vregOrVd
  deriving DecidableEq, Repr

/-- The fields of E a constructor uses: the row of column E of R35, with the sub values that stay within it. -/
structure ExtUse where
  fmts   : FmtUse
  rounds : Bool
  v3     : Vs3Use
  lvl    : Bool
  subs   : List Nat
  imm    : Bool
  deriving DecidableEq, Repr

/-- fd, fa and XF (the high bit of sub) as R30 and R136 require them. -/
def fmtsOk (u : FmtUse) (x : Ext) : Bool :=
  let xf := x.sub.toNat / 4 == 1
  match u with
  | .none => x.fd == 0 && x.fa == 0
  | .both => xf || (x.fd == 15 && x.fa == 15)
  | .same => if xf then x.fd == x.fa else x.fd == 15 && x.fa == 15
  | .fd => x.fa == 15 && (xf || x.fd == 15)
  | .fa => x.fd == 15 && (xf || x.fa == 15)

/-- The low bits of sub that select a variant or an order: XF is left out where the class takes formats. -/
def subBits (u : FmtUse) (x : Ext) : Nat :=
  match u with
  | .none => x.sub.toNat
  | _ => x.sub.toNat % 4

def vs3Ok (u : Vs3Use) (x : Ext) : Bool :=
  match u with
  | .none => x.vs3 == 0
  | .sc => decide (x.vs3.toNat < 32)
  | .vreg => decide (x.vs3.toNat < 48)
  | .vregOrVd => decide (x.vs3.toNat < 48) || x.vs3 == 63

/-- `some e` when a check fails, for the lists below. -/
def need (ok : Bool) (e : DecodeErr) : Option DecodeErr := if ok then none else some e

/-- The first failing check of a list. -/
def firstErr : List (Option DecodeErr) → Option DecodeErr
  | [] => none
  | some e :: _ => some e
  | none :: r => firstErr r

/-- The reserved and range checks on E for a class (R29-R32). `lit` tells that imm32 is half of a literal. -/
def extCheck (u : ExtUse) (lit : Bool) (x : Ext) : Option DecodeErr :=
  firstErr [
    need (fmtsOk u.fmts x) .badFormats,
    need (if u.rounds then decide (x.rm.toNat ≤ 4) else x.rm == 0) .badRounding,
    need (vs3Ok u.v3 x) .badVs3,
    need (u.lvl || x.lvl == 0) .reservedField,
    need (u.subs.contains (subBits u.fmts x)) .badMinor,
    need (u.imm || lit || x.imm32 == 0) .reservedField]

/-- A form without a literal, from an optional E. -/
def ofOption (x : Option Ext) : LForm :=
  match x with
  | none => .word
  | some e => .ext e

/-- 6-bit vector register fields name v0-v47 (R27). -/
def vreg (r : BitVec 6) : Bool := decide (r.toNat < 48)

/-- mk names m0-m11, or 15 for unmasked (R27). -/
def maskField (m : BitVec 4) : Bool := decide (m.toNat < 12) || m == 15

/-- md, ma and mb, and the selector of VSEL, name m0-m11 (R27, R35). -/
def maskReg (m : BitVec 4) : Bool := decide (m.toNat < 12)

/-- A 5-bit level field names index 0-15 (R32). -/
def levelField (l : BitVec 5) : Bool := decide (l.toNat < 16)

/-- The plane of TSEED and TGET, 1-4 (R242). -/
def planeField (k : BitVec 6) : Bool := decide (1 ≤ k.toNat ∧ k.toNat ≤ 4)

/-- The plane of TCLR, 0-4 (R242). -/
def planeFieldOrAll (k : BitVec 6) : Bool := decide (k.toNat ≤ 4)

/-- DUAL's n, 1-4 (R25). -/
def planeCount (n : BitVec 3) : Bool := decide (1 ≤ n.toNat ∧ n.toNat ≤ 4)

/-- The group exponent of VGRED, 1-10 (R39). -/
def groupExp (g : BitVec 4) : Bool := decide (1 ≤ g.toNat ∧ g.toNat ≤ 10)

/-- A collective group register in the sd field, 0-7 (R35). -/
def groupReg (g : BitVec 5) : Bool := decide (g.toNat < 8)

/-- A copy token in the sd field, 0-7 (R353). -/
def tokenField (k : BitVec 5) : Bool := decide (k.toNat < 8)

/-- The nest level of LNSET, 0-5 (R230). -/
def nestLevel (l : BitVec 5) : Bool := decide (l.toNat < 6)

/-- The window number of SPCCAST, 0-4 (R187). -/
def windowField (w : BitVec 5) : Bool := decide (w.toNat ≤ 4)

/-- The low two bits of BND0-BND2's numbers. -/
def bndNumber (k : BitVec 2) : Bool := k != 0

/-- CSR numbers that the plain CSRW constructor stands for: all but CF, VSTART, VLCAP, BND0-BND2 and CTXID, which have
rows of their own in the opcode table. -/
def plainCsr (i : BitVec 12) : Bool :=
  !([0x001, 0x003, 0x800, 0x801, 0x802, 0x803, 0x820].contains i.toNat)

/-- The registers a CPYR or CPYX names end at or below v47 (R27, R232). -/
def copyGroup (d : BitVec 6) (x : Ext) : Bool := decide (d.toNat + x.imm32.toNat % 16 ≤ 48)

/-- An imm32 check that holds of the one-word form. -/
def immHolds (x : Option Ext) (p : BitVec 32 → Bool) : Bool :=
  match x with
  | none => true
  | some e => p e.imm32

/-- VEXT's uniform variants: position in 5:0, width in 13:8, other bits zero (R40). -/
def vextImm (i : BitVec 32) : Bool := decide (i.toNat % 256 < 64 ∧ i.toNat < 16384)

/-- CPY: element bytes 1-4096 in 12:0, depth 0-6 in 15:13, token in 18:16 (R42). -/
def cpyImm (i : BitVec 32) : Bool :=
  let e := i.toNat % 8192
  decide (1 ≤ e ∧ e ≤ 4096 ∧ i.toNat / 8192 % 8 ≤ 6 ∧ i.toNat < 524288)

/-- CPYR, CPYX: register count 1-8 in 3:0, token in 6:4 (R42). -/
def cpyrImm (i : BitVec 32) : Bool :=
  decide (1 ≤ i.toNat % 16 ∧ i.toNat % 16 ≤ 8 ∧ i.toNat < 128)

/-- MCFG: input format, accumulate format, order, split and SYSORD bit (R43). -/
def mcfgImm (i : BitVec 32) : Bool :=
  let n := i.toNat
  let inf := n % 16
  let acc := n / 16 % 16
  decide (8 ≤ inf ∧ (acc = 8 ∨ (acc = 9 ∧ inf ≠ 8)) ∧ n / 512 % 4 ≠ 3 ∧
    (n / 2048 % 2 = 0 ∨ n / 256 % 8 = 0) ∧ n < 4096)

/-- XTOPK: k in 4:0, columns in 15:5 (R43, R303). -/
def topkImm (i : BitVec 32) : Bool :=
  let k := i.toNat % 32
  let c := i.toNat / 32 % 2048
  decide (1 ≤ k ∧ k ≤ 16 ∧ 1 ≤ c ∧ c ≤ 1024 ∧ k ≤ c ∧ i.toNat < 65536)

/-- ATOM and CAS: the size bit, other bits zero (R41). -/
def atomImm (i : BitVec 32) : Bool := decide (i.toNat < 2)

def zeroImm (i : BitVec 32) : Bool := i == 0

/-- COLL of kind `k`: operator, order and root as R44 and R335 allow them. -/
def collImm (k : Nat) (i : BitVec 32) : Bool :=
  let n := i.toNat
  let op := n / 8 % 8
  let ord := n / 64 % 2
  decide (n % 8 = k ∧ op ≤ 4 ∧ n / 128 % 2 = 0 ∧
    (k ≤ 1 ∨ (op = 0 ∧ ord = 0)) ∧ (k ≠ 1 ∨ n / 256 = 0))

/-- LNSET with sub 00 leaves sc zero (R230). -/
def lnsetSc (x : Option Ext) : Bool :=
  match x with
  | none => true
  | some e => e.sub != 0 || e.vs3 == 0

/-- A literal replaces the field, which is then zero (R33). -/
def litZero {w : Nat} (f : LForm) (i : BitVec w) : Bool :=
  match f with
  | .word => true
  | .ext _ => true
  | .lit _ => i == 0
  | .extLit _ _ => i == 0

/-- The 64-bit literal of a form, if it has one (R20). -/
def LForm.literal (f : LForm) : Option (BitVec 64) :=
  match f with
  | .word => none
  | .ext _ => none
  | .lit v => some v
  | .extLit x hi => some (hi ++ x.imm32)

/-- A shift literal has bits 63:6 zero (R33). -/
def shiftLit (f : LForm) : Bool :=
  match f.literal with
  | none => true
  | some v => decide (v.toNat < 64)

def isLit (f : LForm) : Bool := f.literal.isSome

/-- The part of E each constructor's class uses (column E of R35, R136, R180, R335, R354). `none` for the device and
host steps and for DUAL, which have no extended form. -/
def extUse (i : Instr) : Option ExtUse :=
  match i with
  | .add _ => some ⟨.none, false, .none, false, [0], false⟩
  | .sub _ => some ⟨.none, false, .none, false, [0], false⟩
  | .and _ => some ⟨.none, false, .none, false, [0], false⟩
  | .or _ => some ⟨.none, false, .none, false, [0], false⟩
  | .xor _ => some ⟨.none, false, .none, false, [0], false⟩
  | .andn _ => some ⟨.none, false, .none, false, [0], false⟩
  | .shl _ => some ⟨.none, false, .none, false, [0], false⟩
  | .shr _ => some ⟨.none, false, .none, false, [0], false⟩
  | .sar _ => some ⟨.none, false, .none, false, [0], false⟩
  | .rotr _ => some ⟨.none, false, .none, false, [0], false⟩
  | .min _ => some ⟨.none, false, .none, false, [0], false⟩
  | .max _ => some ⟨.none, false, .none, false, [0], false⟩
  | .minu _ => some ⟨.none, false, .none, false, [0], false⟩
  | .maxu _ => some ⟨.none, false, .none, false, [0], false⟩
  | .mul _ => some ⟨.none, false, .none, false, [0], false⟩
  | .mulh _ => some ⟨.none, false, .none, false, [0], false⟩
  | .mulhu _ => some ⟨.none, false, .none, false, [0], false⟩
  | .div _ => some ⟨.none, false, .none, false, [0], false⟩
  | .divu _ => some ⟨.none, false, .none, false, [0], false⟩
  | .rem _ => some ⟨.none, false, .none, false, [0], false⟩
  | .remu _ => some ⟨.none, false, .none, false, [0], false⟩
  | .clz _ => some ⟨.none, false, .none, false, [0], false⟩
  | .ctz _ => some ⟨.none, false, .none, false, [0], false⟩
  | .popc _ => some ⟨.none, false, .none, false, [0], false⟩
  | .cmpeq _ => some ⟨.none, false, .none, false, [0], false⟩
  | .cmpne _ => some ⟨.none, false, .none, false, [0], false⟩
  | .cmplt _ => some ⟨.none, false, .none, false, [0], false⟩
  | .cmpge _ => some ⟨.none, false, .none, false, [0], false⟩
  | .cmpltu _ => some ⟨.none, false, .none, false, [0], false⟩
  | .cmpgeu _ => some ⟨.none, false, .none, false, [0], false⟩
  | .sel _ => some ⟨.none, false, .sc, false, [0], false⟩
  | .addi _ => some ⟨.none, false, .none, false, [0], false⟩
  | .andi _ => some ⟨.none, false, .none, false, [0], false⟩
  | .ori _ => some ⟨.none, false, .none, false, [0], false⟩
  | .xori _ => some ⟨.none, false, .none, false, [0], false⟩
  | .shli _ => some ⟨.none, false, .none, false, [0], false⟩
  | .shri _ => some ⟨.none, false, .none, false, [0], false⟩
  | .sari _ => some ⟨.none, false, .none, false, [0], false⟩
  | .lit _ => some ⟨.none, false, .none, false, [0], false⟩
  | .fadd _ => some ⟨.none, true, .none, false, [0], false⟩
  | .fsub _ => some ⟨.none, true, .none, false, [0], false⟩
  | .fmul _ => some ⟨.none, true, .none, false, [0], false⟩
  | .fdiv _ => some ⟨.none, true, .none, false, [0], false⟩
  | .fsqrt _ => some ⟨.none, true, .none, false, [0], false⟩
  | .fmin _ => some ⟨.none, false, .none, false, [0], false⟩
  | .fmax _ => some ⟨.none, false, .none, false, [0], false⟩
  | .fcmpeq _ => some ⟨.none, false, .none, false, [0], false⟩
  | .fcmplt _ => some ⟨.none, false, .none, false, [0], false⟩
  | .fcmple _ => some ⟨.none, false, .none, false, [0], false⟩
  | .fma _ => some ⟨.none, true, .sc, false, [0], false⟩
  | .fcvti _ => some ⟨.none, true, .none, false, [0], false⟩
  | .fcvtf _ => some ⟨.none, true, .none, false, [0], false⟩
  | .fcvtds _ => some ⟨.none, true, .none, false, [0], false⟩
  | .fcvtsd _ => some ⟨.none, false, .none, false, [0], false⟩
  | .fabs _ => some ⟨.none, false, .none, false, [0], false⟩
  | .fneg _ => some ⟨.none, false, .none, false, [0], false⟩
  | .fclass _ => some ⟨.none, false, .none, false, [0], false⟩
  | .ld _ => some ⟨.none, false, .none, false, [0], false⟩
  | .ldh _ => some ⟨.none, false, .none, false, [0], false⟩
  | .ldw _ => some ⟨.none, false, .none, false, [0], false⟩
  | .ldd _ => some ⟨.none, false, .none, false, [0], false⟩
  | .ldbu _ => some ⟨.none, false, .none, false, [0], false⟩
  | .ldhu _ => some ⟨.none, false, .none, false, [0], false⟩
  | .ldwu _ => some ⟨.none, false, .none, false, [0], false⟩
  | .st _ => some ⟨.none, false, .none, false, [0], false⟩
  | .sth _ => some ⟨.none, false, .none, false, [0], false⟩
  | .stw _ => some ⟨.none, false, .none, false, [0], false⟩
  | .std _ => some ⟨.none, false, .none, false, [0], false⟩
  | .beq _ => some ⟨.none, false, .none, false, [0], false⟩
  | .bne _ => some ⟨.none, false, .none, false, [0], false⟩
  | .blt _ => some ⟨.none, false, .none, false, [0], false⟩
  | .bge _ => some ⟨.none, false, .none, false, [0], false⟩
  | .bltu _ => some ⟨.none, false, .none, false, [0], false⟩
  | .bgeu _ => some ⟨.none, false, .none, false, [0], false⟩
  | .jmp _ => some ⟨.none, false, .none, false, [0], false⟩
  | .call _ => some ⟨.none, false, .none, false, [0], false⟩
  | .jr _ => some ⟨.none, false, .none, false, [0], false⟩
  | .qpop _ => some ⟨.none, false, .none, false, [0], false⟩
  | .qpeek _ => some ⟨.none, false, .none, false, [0], false⟩
  | .qcnt _ => some ⟨.none, false, .none, false, [0], false⟩
  | .csrr _ => some ⟨.none, false, .none, false, [0], false⟩
  | .csrw _ => some ⟨.none, false, .none, false, [0], false⟩
  | .csrwCf _ => some ⟨.none, false, .none, false, [0], false⟩
  | .csrwVlcap _ => some ⟨.none, false, .none, false, [0], false⟩
  | .csrwBnd _ => some ⟨.none, false, .none, false, [0], false⟩
  | .csrwVstart _ => some ⟨.none, false, .none, false, [0], false⟩
  | .csrwCtxid _ => some ⟨.none, false, .none, false, [0], false⟩
  | .tid _ => some ⟨.none, false, .none, false, [0], false⟩
  | .tsz _ => some ⟨.none, false, .none, false, [0], false⟩
  | .tdepth _ => some ⟨.none, false, .none, false, [0], false⟩
  | .barl _ => some ⟨.none, false, .none, false, [0], false⟩
  | .farmnext _ => some ⟨.none, false, .none, false, [0], false⟩
  | .phase _ => some ⟨.none, false, .none, false, [0], false⟩
  | .yield _ => some ⟨.none, false, .none, false, [0], false⟩
  | .exit _ => some ⟨.none, false, .none, false, [0], false⟩
  | .launch _ => some ⟨.none, false, .none, false, [0], false⟩
  | .lwait _ => some ⟨.none, false, .none, false, [0], false⟩
  | .setvl _ => some ⟨.none, false, .none, false, [0], false⟩
  | .vadd _ => some ⟨.both, true, .none, false, [0, 1], false⟩
  | .vsub _ => some ⟨.both, true, .none, false, [0, 1], false⟩
  | .vmul _ => some ⟨.both, true, .none, false, [0, 1], false⟩
  | .vmulh _ => some ⟨.both, true, .none, false, [0], false⟩
  | .vmin _ => some ⟨.both, true, .none, false, [0], false⟩
  | .vmax _ => some ⟨.both, true, .none, false, [0], false⟩
  | .vand _ => some ⟨.same, false, .none, false, [0], false⟩
  | .vor _ => some ⟨.same, false, .none, false, [0], false⟩
  | .vxor _ => some ⟨.same, false, .none, false, [0], false⟩
  | .vshl _ => some ⟨.both, false, .none, false, [0], false⟩
  | .vshr _ => some ⟨.both, false, .none, false, [0], false⟩
  | .vsar _ => some ⟨.both, false, .none, false, [0], false⟩
  | .vfma _ => some ⟨.both, true, .vregOrVd, false, [0], false⟩
  | .vfms _ => some ⟨.both, true, .vregOrVd, false, [1], false⟩
  | .vfnma _ => some ⟨.both, true, .vregOrVd, false, [2], false⟩
  | .vfnms _ => some ⟨.both, true, .vregOrVd, false, [3], false⟩
  | .vdiv _ => some ⟨.both, true, .none, false, [0], false⟩
  | .vsqrt _ => some ⟨.both, true, .none, false, [0], false⟩
  | .vabs _ => some ⟨.both, true, .none, false, [0], false⟩
  | .vneg _ => some ⟨.both, true, .none, false, [0], false⟩
  | .vclz _ => some ⟨.same, true, .none, false, [0], false⟩
  | .vpopc _ => some ⟨.same, true, .none, false, [0], false⟩
  | .vrcpe _ => some ⟨.both, true, .none, false, [0], false⟩
  | .vrsqe _ => some ⟨.both, true, .none, false, [0], false⟩
  | .vexp2 _ => some ⟨.both, true, .none, false, [0], false⟩
  | .vlog2 _ => some ⟨.both, true, .none, false, [0], false⟩
  | .vfloor _ => some ⟨.both, true, .none, false, [0], false⟩
  | .vceil _ => some ⟨.both, true, .none, false, [0], false⟩
  | .vrint _ => some ⟨.both, true, .none, false, [0], false⟩
  | .vclass _ => some ⟨.same, true, .none, false, [0], false⟩
  | .vcmpeq _ => some ⟨.fa, false, .none, false, [0], false⟩
  | .vcmpne _ => some ⟨.fa, false, .none, false, [0], false⟩
  | .vcmplt _ => some ⟨.fa, false, .none, false, [0], false⟩
  | .vcmple _ => some ⟨.fa, false, .none, false, [0], false⟩
  | .vcmpgt _ => some ⟨.fa, false, .none, false, [0], false⟩
  | .vcmpge _ => some ⟨.fa, false, .none, false, [0], false⟩
  | .vsel _ => some ⟨.fa, false, .none, false, [0], false⟩
  | .mand _ => some ⟨.none, false, .none, false, [0], false⟩
  | .mor _ => some ⟨.none, false, .none, false, [0], false⟩
  | .mxor _ => some ⟨.none, false, .none, false, [0], false⟩
  | .mandn _ => some ⟨.none, false, .none, false, [0], false⟩
  | .mnot _ => some ⟨.none, false, .none, false, [0], false⟩
  | .mset _ => some ⟨.none, false, .none, false, [0], false⟩
  | .mclr _ => some ⟨.none, false, .none, false, [0], false⟩
  | .mmov _ => some ⟨.none, false, .none, false, [0], false⟩
  | .mpop _ => some ⟨.none, false, .none, false, [0], false⟩
  | .mfirst _ => some ⟨.none, false, .none, false, [0], false⟩
  | .vbcast _ => some ⟨.fd, false, .none, false, [0], false⟩
  | .viota _ => some ⟨.fd, false, .none, false, [0], false⟩
  | .vtoq _ => some ⟨.none, false, .none, false, [0], false⟩
  | .vtid _ => some ⟨.none, false, .none, false, [0], false⟩
  | .vperm _ => some ⟨.none, false, .none, false, [0], false⟩
  | .vslideDn _ => some ⟨.none, false, .none, false, [0], false⟩
  | .vslideUp _ => some ⟨.none, false, .none, false, [1], false⟩
  | .vcompr _ => some ⟨.none, false, .none, false, [0], false⟩
  | .vexpnd _ => some ⟨.none, false, .none, false, [0], false⟩
  | .vzipLo _ => some ⟨.none, false, .none, false, [0], false⟩
  | .vzipHi _ => some ⟨.none, false, .none, false, [1], false⟩
  | .vunzipEv _ => some ⟨.none, false, .none, false, [2], false⟩
  | .vunzipOd _ => some ⟨.none, false, .none, false, [3], false⟩
  | .vredSum _ => some ⟨.both, true, .none, false, [0], false⟩
  | .vredMin _ => some ⟨.both, true, .none, false, [0], false⟩
  | .vredMax _ => some ⟨.both, true, .none, false, [0], false⟩
  | .vredAnd _ => some ⟨.both, true, .none, false, [0], false⟩
  | .vredOr _ => some ⟨.both, true, .none, false, [0], false⟩
  | .vredXor _ => some ⟨.both, true, .none, false, [0], false⟩
  | .vscanSum _ => some ⟨.same, true, .none, false, [0], false⟩
  | .vscanMin _ => some ⟨.same, true, .none, false, [0], false⟩
  | .vscanMax _ => some ⟨.same, true, .none, false, [0], false⟩
  | .vscanAnd _ => some ⟨.same, true, .none, false, [0], false⟩
  | .vscanOr _ => some ⟨.same, true, .none, false, [0], false⟩
  | .vscanXor _ => some ⟨.same, true, .none, false, [0], false⟩
  | .vgredSum _ => some ⟨.same, true, .none, false, [0], false⟩
  | .vgredMin _ => some ⟨.same, true, .none, false, [0], false⟩
  | .vgredMax _ => some ⟨.same, true, .none, false, [0], false⟩
  | .vgredOr _ => some ⟨.same, true, .none, false, [0], false⟩
  | .vcvt _ => some ⟨.both, true, .none, false, [0], false⟩
  | .vretag _ => some ⟨.fd, false, .none, false, [0], false⟩
  | .vfunr _ => some ⟨.same, false, .vreg, false, [0], false⟩
  | .vfunl _ => some ⟨.same, false, .vreg, false, [1], false⟩
  | .vext _ => some ⟨.both, false, .none, false, [0], false⟩
  | .vextUniform _ => some ⟨.both, false, .none, false, [1], true⟩
  | .vextS _ => some ⟨.both, false, .none, false, [2], false⟩
  | .vextSUniform _ => some ⟨.both, false, .none, false, [3], true⟩
  | .dual _ => none
  | .tseed _ => some ⟨.none, false, .none, false, [0], false⟩
  | .tget _ => some ⟨.none, false, .none, false, [0], false⟩
  | .tclr _ => some ⟨.none, false, .none, false, [0], false⟩
  | .vld _ => some ⟨.fd, false, .none, false, [0], false⟩
  | .vldStr _ => some ⟨.fd, false, .none, false, [0], false⟩
  | .vld2d _ => some ⟨.fd, false, .none, false, [0], true⟩
  | .vst _ => some ⟨.fa, false, .none, false, [0], false⟩
  | .vstStr _ => some ⟨.fa, false, .none, false, [0], false⟩
  | .vst2d _ => some ⟨.fa, false, .none, false, [0], true⟩
  | .vldo _ => some ⟨.fd, false, .none, false, [0], false⟩
  | .vldoStr _ => some ⟨.fd, false, .none, false, [0], false⟩
  | .vldo2d _ => some ⟨.fd, false, .none, false, [0], true⟩
  | .vsto _ => some ⟨.fa, false, .none, false, [0], false⟩
  | .vstoStr _ => some ⟨.fa, false, .none, false, [0], false⟩
  | .vsto2d _ => some ⟨.fa, false, .none, false, [0], true⟩
  | .vldsc _ => some ⟨.fd, false, .none, false, [0], false⟩
  | .vldscStr _ => some ⟨.fd, false, .none, false, [0], false⟩
  | .vldsc2d _ => some ⟨.fd, false, .none, false, [0], true⟩
  | .vstsc _ => some ⟨.fa, false, .none, false, [0], false⟩
  | .vstscStr _ => some ⟨.fa, false, .none, false, [0], false⟩
  | .vstsc2d _ => some ⟨.fa, false, .none, false, [0], true⟩
  | .vstb _ => some ⟨.none, false, .none, false, [0], false⟩
  | .sideLogReplay _ => none
  | .ldfe _ => some ⟨.none, false, .none, false, [0], false⟩
  | .ldfeClr _ => some ⟨.none, false, .none, false, [1], false⟩
  | .stfe _ => some ⟨.none, false, .none, false, [0], false⟩
  | .vldfe _ => some ⟨.fd, false, .none, false, [0], false⟩
  | .vldfeClr _ => some ⟨.fd, false, .none, false, [1], false⟩
  | .spctest _ => some ⟨.none, false, .none, false, [0], false⟩
  | .spccastTo _ => some ⟨.none, false, .none, false, [0], false⟩
  | .spccastFrom _ => some ⟨.none, false, .none, false, [0], false⟩
  | .prefL1 _ => some ⟨.none, false, .none, false, [0], false⟩
  | .prefL2 _ => some ⟨.none, false, .none, false, [0], false⟩
  | .clwb _ => some ⟨.none, false, .none, false, [0], false⟩
  | .clinv _ => some ⟨.none, false, .none, false, [0], false⟩
  | .atomAdd _ => some ⟨.none, false, .none, true, [0, 1, 2, 3, 4], true⟩
  | .atomAnd _ => some ⟨.none, false, .none, true, [0, 1, 2, 3, 4], true⟩
  | .atomOr _ => some ⟨.none, false, .none, true, [0, 1, 2, 3, 4], true⟩
  | .atomXor _ => some ⟨.none, false, .none, true, [0, 1, 2, 3, 4], true⟩
  | .atomMin _ => some ⟨.none, false, .none, true, [0, 1, 2, 3, 4], true⟩
  | .atomMax _ => some ⟨.none, false, .none, true, [0, 1, 2, 3, 4], true⟩
  | .atomMinu _ => some ⟨.none, false, .none, true, [0, 1, 2, 3, 4], true⟩
  | .atomMaxu _ => some ⟨.none, false, .none, true, [0, 1, 2, 3, 4], true⟩
  | .atomSwap _ => some ⟨.none, false, .none, true, [0, 1, 2, 3, 4], true⟩
  | .atomFaddd _ => some ⟨.none, false, .none, true, [0, 1, 2, 3, 4], true⟩
  | .atomFadds _ => some ⟨.none, false, .none, true, [0, 1, 2, 3, 4], true⟩
  | .cas _ => some ⟨.none, false, .sc, true, [0, 1, 2, 3, 4], true⟩
  | .fenceAcq _ => some ⟨.none, false, .none, false, [0], false⟩
  | .fenceRel _ => some ⟨.none, false, .none, false, [0], false⟩
  | .fenceAcqrel _ => some ⟨.none, false, .none, false, [0], false⟩
  | .fenceSc _ => some ⟨.none, false, .none, false, [0], false⟩
  | .boinit _ => some ⟨.none, false, .none, false, [0], false⟩
  | .boarrive _ => some ⟨.none, false, .none, false, [0], false⟩
  | .bowait _ => some ⟨.none, false, .none, false, [0], false⟩
  | .botest _ => some ⟨.none, false, .none, false, [0], false⟩
  | .tkwait _ => some ⟨.none, false, .none, false, [0], false⟩
  | .lnset _ => some ⟨.none, false, .sc, false, [0, 1], false⟩
  | .cpy _ => some ⟨.none, false, .sc, false, [0], true⟩
  | .cpyrLoad _ => some ⟨.none, false, .none, false, [0], true⟩
  | .cpyrStore _ => some ⟨.none, false, .none, false, [0], true⟩
  | .cpyx _ => some ⟨.none, false, .none, false, [0], true⟩
  | .copyComplete _ _ => none
  | .copyFail _ _ _ => none
  | .matt _ => some ⟨.none, false, .none, false, [0], false⟩
  | .mdet _ => some ⟨.none, false, .none, false, [0], false⟩
  | .mcfg _ => some ⟨.none, false, .none, false, [0], true⟩
  | .mlds _ => some ⟨.none, false, .none, false, [0], false⟩
  | .mswap _ => some ⟨.none, false, .none, false, [0], false⟩
  | .mstrm _ => some ⟨.none, false, .none, false, [0], true⟩
  | .matrixStep _ => none
  | .matrixClassAging _ _ => none
  | .macz _ => some ⟨.none, false, .none, false, [0], false⟩
  | .macst _ => some ⟨.none, false, .none, false, [0], false⟩
  | .macld _ => some ⟨.none, false, .none, false, [0], false⟩
  | .xrun _ => some ⟨.none, false, .none, false, [0], false⟩
  | .xmrg _ => some ⟨.none, false, .none, false, [0], false⟩
  | .xsend _ => some ⟨.none, false, .none, false, [0], false⟩
  | .xrecv _ => some ⟨.none, false, .none, false, [0], false⟩
  | .switchEmit _ _ _ => none
  | .recordDelivery _ _ _ => none
  | .xopen _ => some ⟨.none, false, .none, false, [0], false⟩
  | .xclose _ => some ⟨.none, false, .none, false, [0], false⟩
  | .monarchCopy _ _ => none
  | .prefetchCopy _ _ _ => none
  | .xsplt _ => some ⟨.none, false, .none, false, [0], false⟩
  | .xcomb _ => some ⟨.none, false, .none, false, [0], false⟩
  | .xsamp _ => some ⟨.none, false, .none, false, [0], false⟩
  | .xround _ => some ⟨.none, false, .none, false, [0], false⟩
  | .xcapset _ => some ⟨.none, false, .none, false, [0], false⟩
  | .xtopk _ => some ⟨.none, false, .none, false, [0], true⟩
  | .xrtab _ => some ⟨.none, false, .none, false, [0], false⟩
  | .xload _ => some ⟨.none, false, .none, false, [0], false⟩
  | .xpft _ => some ⟨.none, false, .none, false, [0], false⟩
  | .collReduce _ => some ⟨.same, false, .none, false, [0], true⟩
  | .collAllred _ => some ⟨.same, false, .none, false, [0], true⟩
  | .collGather _ => some ⟨.same, false, .none, false, [0], true⟩
  | .collScatter _ => some ⟨.same, false, .none, false, [0], true⟩
  | .collBcast _ => some ⟨.same, false, .none, false, [0], true⟩
  | .stagingReservation _ => none
  | .collectiveComplete _ _ => none
  | .grpset _ => some ⟨.none, false, .none, false, [0], false⟩
  | .cwait _ => some ⟨.none, false, .none, false, [0], false⟩
  | .cld _ => some ⟨.none, false, .none, false, [0], false⟩
  | .cst _ => some ⟨.none, false, .none, false, [0], false⟩
  | .cscan _ => some ⟨.none, false, .none, false, [0], false⟩
  | .cdense _ => some ⟨.none, false, .none, false, [0], false⟩
  | .crinit _ => some ⟨.none, false, .none, false, [0], false⟩
  | .gth _ => some ⟨.none, false, .none, false, [0], false⟩
  | .sct _ => some ⟨.none, false, .none, false, [0], false⟩
  | .sctadd _ => some ⟨.none, false, .none, false, [0], false⟩
  | .hazelComplete _ _ => none
  | .vstc _ => some ⟨.fa, false, .none, false, [0], false⟩
  | .syscall _ => some ⟨.none, false, .none, false, [0], false⟩
  | .brk _ => some ⟨.none, false, .none, false, [0], false⟩
  | .uret _ => some ⟨.none, false, .none, false, [0], false⟩
  | .eret _ => some ⟨.none, false, .none, false, [0], false⟩
  | .halt _ => some ⟨.none, false, .none, false, [0], false⟩
  | .wfi _ => some ⟨.none, false, .none, false, [0], false⟩
  | .tlbinv _ => some ⟨.none, false, .none, false, [0], false⟩
  | .vhtinv _ => some ⟨.none, false, .none, false, [0], false⟩
  | .ctxsave _ => some ⟨.none, false, .none, false, [0], false⟩
  | .ctxload _ => some ⟨.none, false, .none, false, [0], false⟩
  | .sldrain _ => some ⟨.none, false, .none, false, [0], false⟩
  | .launchQueueDoorbell _ _ _ => none
  | .teamPlacement _ _ => none
  | .deadlineExpiry _ => none
  | .preemptionTimeout _ => none
  | .teamSwapOut _ => none
  | .teamResume _ _ => none
  | .remoteAccess _ => none
  | .remoteAck _ => none
  | .engineUncorrectableError _ _ _ _ => none
  | .moduleReset _ => none
  | .attestationRequest _ _ => none
  | .contextCreate _ _ => none
  | .contextEndByHost _ _ => none
  | .epochWrite _ _ => none
  | .bar0RegisterWrite _ _ _ => none
  | .bar2Write _ _ _ => none
  | .bar2Read _ _ _ => none
  | .gtimeSync _ => none
  | .linkCrcReplay _ _ => none
  | .portRemoval _ _ => none
  | .dieIdleEntry _ _ => none
  | .dieIdleExit _ _ => none
  | .powerOff _ => none
  | .powerTrip _ => none
  | .plimWrite _ _ => none
  | .illegalInstruction _ => none
  | .instructionFetchFault _ _ => none
  | .remoteLoadReturn _ => none
  | .copyPerformed _ _ _ => none
  | .laneClusterRetirement _ _ => none

/-- The framing of an instruction: its L field and E or literal (R20). -/
def Instr.form (i : Instr) : LForm :=
  match i with
  | .add o => ofOption o.x
  | .sub o => ofOption o.x
  | .and o => ofOption o.x
  | .or o => ofOption o.x
  | .xor o => ofOption o.x
  | .andn o => ofOption o.x
  | .shl o => ofOption o.x
  | .shr o => ofOption o.x
  | .sar o => ofOption o.x
  | .rotr o => ofOption o.x
  | .min o => ofOption o.x
  | .max o => ofOption o.x
  | .minu o => ofOption o.x
  | .maxu o => ofOption o.x
  | .mul o => ofOption o.x
  | .mulh o => ofOption o.x
  | .mulhu o => ofOption o.x
  | .div o => ofOption o.x
  | .divu o => ofOption o.x
  | .rem o => ofOption o.x
  | .remu o => ofOption o.x
  | .clz o => ofOption o.x
  | .ctz o => ofOption o.x
  | .popc o => ofOption o.x
  | .cmpeq o => ofOption o.x
  | .cmpne o => ofOption o.x
  | .cmplt o => ofOption o.x
  | .cmpge o => ofOption o.x
  | .cmpltu o => ofOption o.x
  | .cmpgeu o => ofOption o.x
  | .sel o => .ext o.x
  | .addi o => o.form
  | .andi o => o.form
  | .ori o => o.form
  | .xori o => o.form
  | .shli o => o.form
  | .shri o => o.form
  | .sari o => o.form
  | .lit o => o.form
  | .fadd o => ofOption o.x
  | .fsub o => ofOption o.x
  | .fmul o => ofOption o.x
  | .fdiv o => ofOption o.x
  | .fsqrt o => ofOption o.x
  | .fmin o => ofOption o.x
  | .fmax o => ofOption o.x
  | .fcmpeq o => ofOption o.x
  | .fcmplt o => ofOption o.x
  | .fcmple o => ofOption o.x
  | .fma o => .ext o.x
  | .fcvti o => ofOption o.x
  | .fcvtf o => ofOption o.x
  | .fcvtds o => ofOption o.x
  | .fcvtsd o => ofOption o.x
  | .fabs o => ofOption o.x
  | .fneg o => ofOption o.x
  | .fclass o => ofOption o.x
  | .ld o => ofOption o.x
  | .ldh o => ofOption o.x
  | .ldw o => ofOption o.x
  | .ldd o => ofOption o.x
  | .ldbu o => ofOption o.x
  | .ldhu o => ofOption o.x
  | .ldwu o => ofOption o.x
  | .st o => ofOption o.x
  | .sth o => ofOption o.x
  | .stw o => ofOption o.x
  | .std o => ofOption o.x
  | .beq o => ofOption o.x
  | .bne o => ofOption o.x
  | .blt o => ofOption o.x
  | .bge o => ofOption o.x
  | .bltu o => ofOption o.x
  | .bgeu o => ofOption o.x
  | .jmp o => ofOption o.x
  | .call o => ofOption o.x
  | .jr o => ofOption o.x
  | .qpop o => ofOption o.x
  | .qpeek o => ofOption o.x
  | .qcnt o => ofOption o.x
  | .csrr o => ofOption o.x
  | .csrw o => ofOption o.x
  | .csrwCf o => ofOption o.x
  | .csrwVlcap o => ofOption o.x
  | .csrwBnd o => ofOption o.x
  | .csrwVstart o => ofOption o.x
  | .csrwCtxid o => ofOption o.x
  | .tid o => ofOption o.x
  | .tsz o => ofOption o.x
  | .tdepth o => ofOption o.x
  | .barl o => ofOption o.x
  | .farmnext o => ofOption o.x
  | .phase o => ofOption o.x
  | .yield o => ofOption o.x
  | .exit o => ofOption o.x
  | .launch o => ofOption o.x
  | .lwait o => ofOption o.x
  | .setvl o => ofOption o.x
  | .vadd o => ofOption o.x
  | .vsub o => ofOption o.x
  | .vmul o => ofOption o.x
  | .vmulh o => ofOption o.x
  | .vmin o => ofOption o.x
  | .vmax o => ofOption o.x
  | .vand o => ofOption o.x
  | .vor o => ofOption o.x
  | .vxor o => ofOption o.x
  | .vshl o => ofOption o.x
  | .vshr o => ofOption o.x
  | .vsar o => ofOption o.x
  | .vfma o => ofOption o.x
  | .vfms o => .ext o.x
  | .vfnma o => .ext o.x
  | .vfnms o => .ext o.x
  | .vdiv o => ofOption o.x
  | .vsqrt o => ofOption o.x
  | .vabs o => ofOption o.x
  | .vneg o => ofOption o.x
  | .vclz o => ofOption o.x
  | .vpopc o => ofOption o.x
  | .vrcpe o => ofOption o.x
  | .vrsqe o => ofOption o.x
  | .vexp2 o => ofOption o.x
  | .vlog2 o => ofOption o.x
  | .vfloor o => ofOption o.x
  | .vceil o => ofOption o.x
  | .vrint o => ofOption o.x
  | .vclass o => ofOption o.x
  | .vcmpeq o => ofOption o.x
  | .vcmpne o => ofOption o.x
  | .vcmplt o => ofOption o.x
  | .vcmple o => ofOption o.x
  | .vcmpgt o => ofOption o.x
  | .vcmpge o => ofOption o.x
  | .vsel o => ofOption o.x
  | .mand o => ofOption o.x
  | .mor o => ofOption o.x
  | .mxor o => ofOption o.x
  | .mandn o => ofOption o.x
  | .mnot o => ofOption o.x
  | .mset o => ofOption o.x
  | .mclr o => ofOption o.x
  | .mmov o => ofOption o.x
  | .mpop o => ofOption o.x
  | .mfirst o => ofOption o.x
  | .vbcast o => o.form
  | .viota o => ofOption o.x
  | .vtoq o => ofOption o.x
  | .vtid o => ofOption o.x
  | .vperm o => ofOption o.x
  | .vslideDn o => ofOption o.x
  | .vslideUp o => .ext o.x
  | .vcompr o => ofOption o.x
  | .vexpnd o => ofOption o.x
  | .vzipLo o => ofOption o.x
  | .vzipHi o => .ext o.x
  | .vunzipEv o => .ext o.x
  | .vunzipOd o => .ext o.x
  | .vredSum o => ofOption o.x
  | .vredMin o => ofOption o.x
  | .vredMax o => ofOption o.x
  | .vredAnd o => ofOption o.x
  | .vredOr o => ofOption o.x
  | .vredXor o => ofOption o.x
  | .vscanSum o => ofOption o.x
  | .vscanMin o => ofOption o.x
  | .vscanMax o => ofOption o.x
  | .vscanAnd o => ofOption o.x
  | .vscanOr o => ofOption o.x
  | .vscanXor o => ofOption o.x
  | .vgredSum o => ofOption o.x
  | .vgredMin o => ofOption o.x
  | .vgredMax o => ofOption o.x
  | .vgredOr o => ofOption o.x
  | .vcvt o => ofOption o.x
  | .vretag o => ofOption o.x
  | .vfunr o => .ext o.x
  | .vfunl o => .ext o.x
  | .vext o => ofOption o.x
  | .vextUniform o => .ext o.x
  | .vextS o => .ext o.x
  | .vextSUniform o => .ext o.x
  | .dual _ => .word
  | .tseed o => ofOption o.x
  | .tget o => ofOption o.x
  | .tclr o => ofOption o.x
  | .vld o => ofOption o.x
  | .vldStr o => ofOption o.x
  | .vld2d o => .ext o.x
  | .vst o => ofOption o.x
  | .vstStr o => ofOption o.x
  | .vst2d o => .ext o.x
  | .vldo o => ofOption o.x
  | .vldoStr o => ofOption o.x
  | .vldo2d o => .ext o.x
  | .vsto o => ofOption o.x
  | .vstoStr o => ofOption o.x
  | .vsto2d o => .ext o.x
  | .vldsc o => ofOption o.x
  | .vldscStr o => ofOption o.x
  | .vldsc2d o => .ext o.x
  | .vstsc o => ofOption o.x
  | .vstscStr o => ofOption o.x
  | .vstsc2d o => .ext o.x
  | .vstb o => ofOption o.x
  | .sideLogReplay _ => .word
  | .ldfe o => ofOption o.x
  | .ldfeClr o => .ext o.x
  | .stfe o => ofOption o.x
  | .vldfe o => ofOption o.x
  | .vldfeClr o => .ext o.x
  | .spctest o => ofOption o.x
  | .spccastTo o => ofOption o.x
  | .spccastFrom o => ofOption o.x
  | .prefL1 o => ofOption o.x
  | .prefL2 o => ofOption o.x
  | .clwb o => ofOption o.x
  | .clinv o => ofOption o.x
  | .atomAdd o => ofOption o.x
  | .atomAnd o => ofOption o.x
  | .atomOr o => ofOption o.x
  | .atomXor o => ofOption o.x
  | .atomMin o => ofOption o.x
  | .atomMax o => ofOption o.x
  | .atomMinu o => ofOption o.x
  | .atomMaxu o => ofOption o.x
  | .atomSwap o => ofOption o.x
  | .atomFaddd o => ofOption o.x
  | .atomFadds o => ofOption o.x
  | .cas o => .ext o.x
  | .fenceAcq o => ofOption o.x
  | .fenceRel o => ofOption o.x
  | .fenceAcqrel o => ofOption o.x
  | .fenceSc o => ofOption o.x
  | .boinit o => ofOption o.x
  | .boarrive o => ofOption o.x
  | .bowait o => ofOption o.x
  | .botest o => ofOption o.x
  | .tkwait o => ofOption o.x
  | .lnset o => ofOption o.x
  | .cpy o => .ext o.x
  | .cpyrLoad o => .ext o.x
  | .cpyrStore o => .ext o.x
  | .cpyx o => .ext o.x
  | .copyComplete _ _ => .word
  | .copyFail _ _ _ => .word
  | .matt o => ofOption o.x
  | .mdet o => ofOption o.x
  | .mcfg o => .ext o.x
  | .mlds o => ofOption o.x
  | .mswap o => ofOption o.x
  | .mstrm o => ofOption o.x
  | .matrixStep _ => .word
  | .matrixClassAging _ _ => .word
  | .macz o => ofOption o.x
  | .macst o => ofOption o.x
  | .macld o => ofOption o.x
  | .xrun o => ofOption o.x
  | .xmrg o => ofOption o.x
  | .xsend o => ofOption o.x
  | .xrecv o => ofOption o.x
  | .switchEmit _ _ _ => .word
  | .recordDelivery _ _ _ => .word
  | .xopen o => ofOption o.x
  | .xclose o => ofOption o.x
  | .monarchCopy _ _ => .word
  | .prefetchCopy _ _ _ => .word
  | .xsplt o => ofOption o.x
  | .xcomb o => ofOption o.x
  | .xsamp o => ofOption o.x
  | .xround o => ofOption o.x
  | .xcapset o => ofOption o.x
  | .xtopk o => .ext o.x
  | .xrtab o => ofOption o.x
  | .xload o => ofOption o.x
  | .xpft o => ofOption o.x
  | .collReduce o => .ext o.x
  | .collAllred o => .ext o.x
  | .collGather o => .ext o.x
  | .collScatter o => .ext o.x
  | .collBcast o => .ext o.x
  | .stagingReservation _ => .word
  | .collectiveComplete _ _ => .word
  | .grpset o => ofOption o.x
  | .cwait o => ofOption o.x
  | .cld o => ofOption o.x
  | .cst o => ofOption o.x
  | .cscan o => ofOption o.x
  | .cdense o => ofOption o.x
  | .crinit o => ofOption o.x
  | .gth o => ofOption o.x
  | .sct o => ofOption o.x
  | .sctadd o => ofOption o.x
  | .hazelComplete _ _ => .word
  | .vstc o => ofOption o.x
  | .syscall o => ofOption o.x
  | .brk o => ofOption o.x
  | .uret o => ofOption o.x
  | .eret o => ofOption o.x
  | .halt o => ofOption o.x
  | .wfi o => ofOption o.x
  | .tlbinv o => ofOption o.x
  | .vhtinv o => ofOption o.x
  | .ctxsave o => ofOption o.x
  | .ctxload o => ofOption o.x
  | .sldrain o => ofOption o.x
  | .launchQueueDoorbell _ _ _ => .word
  | .teamPlacement _ _ => .word
  | .deadlineExpiry _ => .word
  | .preemptionTimeout _ => .word
  | .teamSwapOut _ => .word
  | .teamResume _ _ => .word
  | .remoteAccess _ => .word
  | .remoteAck _ => .word
  | .engineUncorrectableError _ _ _ _ => .word
  | .moduleReset _ => .word
  | .attestationRequest _ _ => .word
  | .contextCreate _ _ => .word
  | .contextEndByHost _ _ => .word
  | .epochWrite _ _ => .word
  | .bar0RegisterWrite _ _ _ => .word
  | .bar2Write _ _ _ => .word
  | .bar2Read _ _ _ => .word
  | .gtimeSync _ => .word
  | .linkCrcReplay _ _ => .word
  | .portRemoval _ _ => .word
  | .dieIdleEntry _ _ => .word
  | .dieIdleExit _ _ => .word
  | .powerOff _ => .word
  | .powerTrip _ => .word
  | .plimWrite _ _ => .word
  | .illegalInstruction _ => .word
  | .instructionFetchFault _ _ => .word
  | .remoteLoadReturn _ => .word
  | .copyPerformed _ _ _ => .word
  | .laneClusterRetirement _ _ => .word

/-- The checks on word 0's register, mask, level and selector fields and on imm32 (R27, R32, R40-R44, R153), each with
the name decoding rejects it by: the first that fails is answered. -/
def fieldCheck (i : Instr) : Option DecodeErr :=
  match i with
  | .add _ => none
  | .sub _ => none
  | .and _ => none
  | .or _ => none
  | .xor _ => none
  | .andn _ => none
  | .shl _ => none
  | .shr _ => none
  | .sar _ => none
  | .rotr _ => none
  | .min _ => none
  | .max _ => none
  | .minu _ => none
  | .maxu _ => none
  | .mul _ => none
  | .mulh _ => none
  | .mulhu _ => none
  | .div _ => none
  | .divu _ => none
  | .rem _ => none
  | .remu _ => none
  | .clz _ => none
  | .ctz _ => none
  | .popc _ => none
  | .cmpeq _ => none
  | .cmpne _ => none
  | .cmplt _ => none
  | .cmpge _ => none
  | .cmpltu _ => none
  | .cmpgeu _ => none
  | .sel _ => none
  | .addi o => firstErr [need (litZero o.form o.i) .literalField]
  | .andi o => firstErr [need (litZero o.form o.i) .literalField]
  | .ori o => firstErr [need (litZero o.form o.i) .literalField]
  | .xori o => firstErr [need (litZero o.form o.i) .literalField]
  | .shli o => firstErr [need (litZero o.form o.n) .literalField, need (shiftLit o.form) .badImm]
  | .shri o => firstErr [need (litZero o.form o.n) .literalField, need (shiftLit o.form) .badImm]
  | .sari o => firstErr [need (litZero o.form o.n) .literalField, need (shiftLit o.form) .badImm]
  | .lit o => firstErr [need (isLit o.form) .literalMissing]
  | .fadd _ => none
  | .fsub _ => none
  | .fmul _ => none
  | .fdiv _ => none
  | .fsqrt _ => none
  | .fmin _ => none
  | .fmax _ => none
  | .fcmpeq _ => none
  | .fcmplt _ => none
  | .fcmple _ => none
  | .fma _ => none
  | .fcvti _ => none
  | .fcvtf _ => none
  | .fcvtds _ => none
  | .fcvtsd _ => none
  | .fabs _ => none
  | .fneg _ => none
  | .fclass _ => none
  | .ld _ => none
  | .ldh _ => none
  | .ldw _ => none
  | .ldd _ => none
  | .ldbu _ => none
  | .ldhu _ => none
  | .ldwu _ => none
  | .st _ => none
  | .sth _ => none
  | .stw _ => none
  | .std _ => none
  | .beq _ => none
  | .bne _ => none
  | .blt _ => none
  | .bge _ => none
  | .bltu _ => none
  | .bgeu _ => none
  | .jmp _ => none
  | .call _ => none
  | .jr _ => none
  | .qpop _ => none
  | .qpeek _ => none
  | .qcnt _ => none
  | .csrr _ => none
  | .csrw o => firstErr [need (plainCsr o.i) .badMinor]
  | .csrwCf _ => none
  | .csrwVlcap _ => none
  | .csrwBnd o => firstErr [need (bndNumber o.k) .badMinor]
  | .csrwVstart _ => none
  | .csrwCtxid _ => none
  | .tid o => firstErr [need (levelField o.l) .badLevel]
  | .tsz o => firstErr [need (levelField o.l) .badLevel]
  | .tdepth _ => none
  | .barl o => firstErr [need (levelField o.l) .badLevel]
  | .farmnext o => firstErr [need (levelField o.l) .badLevel]
  | .phase o => firstErr [need (levelField o.l) .badLevel]
  | .yield _ => none
  | .exit _ => none
  | .launch _ => none
  | .lwait _ => none
  | .setvl _ => none
  | .vadd o => firstErr [need (vreg o.d) .badVReg, need (vreg o.a) .badVReg, need (vreg o.b) .badVReg, need (maskField o.m) .badMask]
  | .vsub o => firstErr [need (vreg o.d) .badVReg, need (vreg o.a) .badVReg, need (vreg o.b) .badVReg, need (maskField o.m) .badMask]
  | .vmul o => firstErr [need (vreg o.d) .badVReg, need (vreg o.a) .badVReg, need (vreg o.b) .badVReg, need (maskField o.m) .badMask]
  | .vmulh o => firstErr [need (vreg o.d) .badVReg, need (vreg o.a) .badVReg, need (vreg o.b) .badVReg, need (maskField o.m) .badMask]
  | .vmin o => firstErr [need (vreg o.d) .badVReg, need (vreg o.a) .badVReg, need (vreg o.b) .badVReg, need (maskField o.m) .badMask]
  | .vmax o => firstErr [need (vreg o.d) .badVReg, need (vreg o.a) .badVReg, need (vreg o.b) .badVReg, need (maskField o.m) .badMask]
  | .vand o => firstErr [need (vreg o.d) .badVReg, need (vreg o.a) .badVReg, need (vreg o.b) .badVReg, need (maskField o.m) .badMask]
  | .vor o => firstErr [need (vreg o.d) .badVReg, need (vreg o.a) .badVReg, need (vreg o.b) .badVReg, need (maskField o.m) .badMask]
  | .vxor o => firstErr [need (vreg o.d) .badVReg, need (vreg o.a) .badVReg, need (vreg o.b) .badVReg, need (maskField o.m) .badMask]
  | .vshl o => firstErr [need (vreg o.d) .badVReg, need (vreg o.a) .badVReg, need (vreg o.b) .badVReg, need (maskField o.m) .badMask]
  | .vshr o => firstErr [need (vreg o.d) .badVReg, need (vreg o.a) .badVReg, need (vreg o.b) .badVReg, need (maskField o.m) .badMask]
  | .vsar o => firstErr [need (vreg o.d) .badVReg, need (vreg o.a) .badVReg, need (vreg o.b) .badVReg, need (maskField o.m) .badMask]
  | .vfma o => firstErr [need (vreg o.d) .badVReg, need (vreg o.a) .badVReg, need (vreg o.b) .badVReg, need (maskField o.m) .badMask]
  | .vfms o => firstErr [need (vreg o.d) .badVReg, need (vreg o.a) .badVReg, need (vreg o.b) .badVReg, need (maskField o.m) .badMask]
  | .vfnma o => firstErr [need (vreg o.d) .badVReg, need (vreg o.a) .badVReg, need (vreg o.b) .badVReg, need (maskField o.m) .badMask]
  | .vfnms o => firstErr [need (vreg o.d) .badVReg, need (vreg o.a) .badVReg, need (vreg o.b) .badVReg, need (maskField o.m) .badMask]
  | .vdiv o => firstErr [need (vreg o.d) .badVReg, need (vreg o.a) .badVReg, need (vreg o.b) .badVReg, need (maskField o.m) .badMask]
  | .vsqrt o => firstErr [need (vreg o.d) .badVReg, need (vreg o.a) .badVReg, need (maskField o.m) .badMask]
  | .vabs o => firstErr [need (vreg o.d) .badVReg, need (vreg o.a) .badVReg, need (maskField o.m) .badMask]
  | .vneg o => firstErr [need (vreg o.d) .badVReg, need (vreg o.a) .badVReg, need (maskField o.m) .badMask]
  | .vclz o => firstErr [need (vreg o.d) .badVReg, need (vreg o.a) .badVReg, need (maskField o.m) .badMask]
  | .vpopc o => firstErr [need (vreg o.d) .badVReg, need (vreg o.a) .badVReg, need (maskField o.m) .badMask]
  | .vrcpe o => firstErr [need (vreg o.d) .badVReg, need (vreg o.a) .badVReg, need (maskField o.m) .badMask]
  | .vrsqe o => firstErr [need (vreg o.d) .badVReg, need (vreg o.a) .badVReg, need (maskField o.m) .badMask]
  | .vexp2 o => firstErr [need (vreg o.d) .badVReg, need (vreg o.a) .badVReg, need (maskField o.m) .badMask]
  | .vlog2 o => firstErr [need (vreg o.d) .badVReg, need (vreg o.a) .badVReg, need (maskField o.m) .badMask]
  | .vfloor o => firstErr [need (vreg o.d) .badVReg, need (vreg o.a) .badVReg, need (maskField o.m) .badMask]
  | .vceil o => firstErr [need (vreg o.d) .badVReg, need (vreg o.a) .badVReg, need (maskField o.m) .badMask]
  | .vrint o => firstErr [need (vreg o.d) .badVReg, need (vreg o.a) .badVReg, need (maskField o.m) .badMask]
  | .vclass o => firstErr [need (vreg o.d) .badVReg, need (vreg o.a) .badVReg, need (maskField o.m) .badMask]
  | .vcmpeq o => firstErr [need (maskReg o.n) .badMask, need (vreg o.a) .badVReg, need (vreg o.b) .badVReg, need (maskField o.m) .badMask]
  | .vcmpne o => firstErr [need (maskReg o.n) .badMask, need (vreg o.a) .badVReg, need (vreg o.b) .badVReg, need (maskField o.m) .badMask]
  | .vcmplt o => firstErr [need (maskReg o.n) .badMask, need (vreg o.a) .badVReg, need (vreg o.b) .badVReg, need (maskField o.m) .badMask]
  | .vcmple o => firstErr [need (maskReg o.n) .badMask, need (vreg o.a) .badVReg, need (vreg o.b) .badVReg, need (maskField o.m) .badMask]
  | .vcmpgt o => firstErr [need (maskReg o.n) .badMask, need (vreg o.a) .badVReg, need (vreg o.b) .badVReg, need (maskField o.m) .badMask]
  | .vcmpge o => firstErr [need (maskReg o.n) .badMask, need (vreg o.a) .badVReg, need (vreg o.b) .badVReg, need (maskField o.m) .badMask]
  | .vsel o => firstErr [need (vreg o.d) .badVReg, need (vreg o.a) .badVReg, need (vreg o.b) .badVReg, need (maskReg o.m) .badMask]
  | .mand o => firstErr [need (maskReg o.n) .badMask, need (maskReg o.a) .badMask, need (maskReg o.b) .badMask]
  | .mor o => firstErr [need (maskReg o.n) .badMask, need (maskReg o.a) .badMask, need (maskReg o.b) .badMask]
  | .mxor o => firstErr [need (maskReg o.n) .badMask, need (maskReg o.a) .badMask, need (maskReg o.b) .badMask]
  | .mandn o => firstErr [need (maskReg o.n) .badMask, need (maskReg o.a) .badMask, need (maskReg o.b) .badMask]
  | .mnot o => firstErr [need (maskReg o.n) .badMask, need (maskReg o.a) .badMask]
  | .mset o => firstErr [need (maskReg o.n) .badMask, need (maskReg o.a) .badMask, need (maskReg o.b) .badMask]
  | .mclr o => firstErr [need (maskReg o.n) .badMask]
  | .mmov o => firstErr [need (maskReg o.n) .badMask, need (maskReg o.a) .badMask]
  | .mpop o => firstErr [need (maskReg o.a) .badMask]
  | .mfirst o => firstErr [need (maskReg o.a) .badMask]
  | .vbcast o => firstErr [need (vreg o.d) .badVReg, need (litZero o.form o.b) .literalField]
  | .viota o => firstErr [need (vreg o.d) .badVReg, need (maskField o.m) .badMask]
  | .vtoq o => firstErr [need (vreg o.a) .badVReg]
  | .vtid o => firstErr [need (vreg o.d) .badVReg, need (levelField o.l) .badLevel, need (maskField o.m) .badMask]
  | .vperm o => firstErr [need (vreg o.d) .badVReg, need (vreg o.a) .badVReg, need (vreg o.b) .badVReg, need (maskField o.m) .badMask, need (o.d != o.a) .overlap, need (o.d != o.b) .overlap]
  | .vslideDn o => firstErr [need (vreg o.d) .badVReg, need (vreg o.a) .badVReg, need (maskField o.m) .badMask, need (o.d != o.a) .overlap]
  | .vslideUp o => firstErr [need (vreg o.d) .badVReg, need (vreg o.a) .badVReg, need (maskField o.m) .badMask, need (o.d != o.a) .overlap]
  | .vcompr o => firstErr [need (vreg o.d) .badVReg, need (vreg o.a) .badVReg, need (maskField o.m) .badMask, need (o.d != o.a) .overlap]
  | .vexpnd o => firstErr [need (vreg o.d) .badVReg, need (vreg o.a) .badVReg, need (maskField o.m) .badMask, need (o.d != o.a) .overlap]
  | .vzipLo o => firstErr [need (vreg o.d) .badVReg, need (vreg o.a) .badVReg, need (vreg o.b) .badVReg, need (maskField o.m) .badMask, need (o.d != o.a) .overlap, need (o.d != o.b) .overlap]
  | .vzipHi o => firstErr [need (vreg o.d) .badVReg, need (vreg o.a) .badVReg, need (vreg o.b) .badVReg, need (maskField o.m) .badMask, need (o.d != o.a) .overlap, need (o.d != o.b) .overlap]
  | .vunzipEv o => firstErr [need (vreg o.d) .badVReg, need (vreg o.a) .badVReg, need (vreg o.b) .badVReg, need (maskField o.m) .badMask, need (o.d != o.a) .overlap, need (o.d != o.b) .overlap]
  | .vunzipOd o => firstErr [need (vreg o.d) .badVReg, need (vreg o.a) .badVReg, need (vreg o.b) .badVReg, need (maskField o.m) .badMask, need (o.d != o.a) .overlap, need (o.d != o.b) .overlap]
  | .vredSum o => firstErr [need (vreg o.d) .badVReg, need (vreg o.a) .badVReg, need (maskField o.m) .badMask]
  | .vredMin o => firstErr [need (vreg o.d) .badVReg, need (vreg o.a) .badVReg, need (maskField o.m) .badMask]
  | .vredMax o => firstErr [need (vreg o.d) .badVReg, need (vreg o.a) .badVReg, need (maskField o.m) .badMask]
  | .vredAnd o => firstErr [need (vreg o.d) .badVReg, need (vreg o.a) .badVReg, need (maskField o.m) .badMask]
  | .vredOr o => firstErr [need (vreg o.d) .badVReg, need (vreg o.a) .badVReg, need (maskField o.m) .badMask]
  | .vredXor o => firstErr [need (vreg o.d) .badVReg, need (vreg o.a) .badVReg, need (maskField o.m) .badMask]
  | .vscanSum o => firstErr [need (vreg o.d) .badVReg, need (vreg o.a) .badVReg, need (maskField o.m) .badMask]
  | .vscanMin o => firstErr [need (vreg o.d) .badVReg, need (vreg o.a) .badVReg, need (maskField o.m) .badMask]
  | .vscanMax o => firstErr [need (vreg o.d) .badVReg, need (vreg o.a) .badVReg, need (maskField o.m) .badMask]
  | .vscanAnd o => firstErr [need (vreg o.d) .badVReg, need (vreg o.a) .badVReg, need (maskField o.m) .badMask]
  | .vscanOr o => firstErr [need (vreg o.d) .badVReg, need (vreg o.a) .badVReg, need (maskField o.m) .badMask]
  | .vscanXor o => firstErr [need (vreg o.d) .badVReg, need (vreg o.a) .badVReg, need (maskField o.m) .badMask]
  | .vgredSum o => firstErr [need (vreg o.d) .badVReg, need (vreg o.a) .badVReg, need (maskField o.m) .badMask, need (groupExp o.g) .badMinor, need (o.d != o.a) .overlap]
  | .vgredMin o => firstErr [need (vreg o.d) .badVReg, need (vreg o.a) .badVReg, need (maskField o.m) .badMask, need (groupExp o.g) .badMinor, need (o.d != o.a) .overlap]
  | .vgredMax o => firstErr [need (vreg o.d) .badVReg, need (vreg o.a) .badVReg, need (maskField o.m) .badMask, need (groupExp o.g) .badMinor, need (o.d != o.a) .overlap]
  | .vgredOr o => firstErr [need (vreg o.d) .badVReg, need (vreg o.a) .badVReg, need (maskField o.m) .badMask, need (groupExp o.g) .badMinor, need (o.d != o.a) .overlap]
  | .vcvt o => firstErr [need (vreg o.d) .badVReg, need (vreg o.a) .badVReg, need (maskField o.m) .badMask, need (o.d != o.a) .overlap]
  | .vretag o => firstErr [need (vreg o.d) .badVReg, need (vreg o.a) .badVReg, need (maskField o.m) .badMask]
  | .vfunr o => firstErr [need (vreg o.d) .badVReg, need (vreg o.a) .badVReg, need (vreg o.b) .badVReg, need (maskField o.m) .badMask]
  | .vfunl o => firstErr [need (vreg o.d) .badVReg, need (vreg o.a) .badVReg, need (vreg o.b) .badVReg, need (maskField o.m) .badMask]
  | .vext o => firstErr [need (vreg o.d) .badVReg, need (vreg o.a) .badVReg, need (vreg o.b) .badVReg, need (maskField o.m) .badMask]
  | .vextUniform o => firstErr [need (vreg o.d) .badVReg, need (vreg o.a) .badVReg, need (maskField o.m) .badMask, need (vextImm o.x.imm32) .badImm]
  | .vextS o => firstErr [need (vreg o.d) .badVReg, need (vreg o.a) .badVReg, need (vreg o.b) .badVReg, need (maskField o.m) .badMask]
  | .vextSUniform o => firstErr [need (vreg o.d) .badVReg, need (vreg o.a) .badVReg, need (maskField o.m) .badMask, need (vextImm o.x.imm32) .badImm]
  | .dual o => firstErr [need (planeCount o.n) .badMinor]
  | .tseed o => firstErr [need (vreg o.d) .badVReg, need (vreg o.a) .badVReg, need (maskField o.m) .badMask, need (planeField o.k) .badMinor]
  | .tget o => firstErr [need (vreg o.d) .badVReg, need (vreg o.a) .badVReg, need (maskField o.m) .badMask, need (planeField o.k) .badMinor]
  | .tclr o => firstErr [need (vreg o.d) .badVReg, need (maskField o.m) .badMask, need (planeFieldOrAll o.k) .badMinor]
  | .vld o => firstErr [need (vreg o.d) .badVReg, need (maskField o.m) .badMask]
  | .vldStr o => firstErr [need (vreg o.d) .badVReg, need (maskField o.m) .badMask]
  | .vld2d o => firstErr [need (vreg o.d) .badVReg, need (maskField o.m) .badMask]
  | .vst o => firstErr [need (vreg o.d) .badVReg, need (maskField o.m) .badMask]
  | .vstStr o => firstErr [need (vreg o.d) .badVReg, need (maskField o.m) .badMask]
  | .vst2d o => firstErr [need (vreg o.d) .badVReg, need (maskField o.m) .badMask]
  | .vldo o => firstErr [need (vreg o.d) .badVReg, need (maskField o.m) .badMask]
  | .vldoStr o => firstErr [need (vreg o.d) .badVReg, need (maskField o.m) .badMask]
  | .vldo2d o => firstErr [need (vreg o.d) .badVReg, need (maskField o.m) .badMask]
  | .vsto o => firstErr [need (vreg o.d) .badVReg, need (maskField o.m) .badMask]
  | .vstoStr o => firstErr [need (vreg o.d) .badVReg, need (maskField o.m) .badMask]
  | .vsto2d o => firstErr [need (vreg o.d) .badVReg, need (maskField o.m) .badMask]
  | .vldsc o => firstErr [need (vreg o.d) .badVReg, need (maskField o.m) .badMask]
  | .vldscStr o => firstErr [need (vreg o.d) .badVReg, need (maskField o.m) .badMask]
  | .vldsc2d o => firstErr [need (vreg o.d) .badVReg, need (maskField o.m) .badMask]
  | .vstsc o => firstErr [need (vreg o.d) .badVReg, need (maskField o.m) .badMask]
  | .vstscStr o => firstErr [need (vreg o.d) .badVReg, need (maskField o.m) .badMask]
  | .vstsc2d o => firstErr [need (vreg o.d) .badVReg, need (maskField o.m) .badMask]
  | .vstb o => firstErr [need (vreg o.d) .badVReg, need (maskField o.m) .badMask]
  | .sideLogReplay _ => none
  | .ldfe _ => none
  | .ldfeClr _ => none
  | .stfe _ => none
  | .vldfe o => firstErr [need (vreg o.d) .badVReg, need (maskField o.m) .badMask]
  | .vldfeClr o => firstErr [need (vreg o.d) .badVReg, need (maskField o.m) .badMask]
  | .spctest _ => none
  | .spccastTo o => firstErr [need (windowField o.b) .badMinor]
  | .spccastFrom o => firstErr [need (windowField o.b) .badMinor]
  | .prefL1 _ => none
  | .prefL2 _ => none
  | .clwb _ => none
  | .clinv _ => none
  | .atomAdd o => firstErr [need (immHolds o.x (atomImm)) .badImm]
  | .atomAnd o => firstErr [need (immHolds o.x (atomImm)) .badImm]
  | .atomOr o => firstErr [need (immHolds o.x (atomImm)) .badImm]
  | .atomXor o => firstErr [need (immHolds o.x (atomImm)) .badImm]
  | .atomMin o => firstErr [need (immHolds o.x (atomImm)) .badImm]
  | .atomMax o => firstErr [need (immHolds o.x (atomImm)) .badImm]
  | .atomMinu o => firstErr [need (immHolds o.x (atomImm)) .badImm]
  | .atomMaxu o => firstErr [need (immHolds o.x (atomImm)) .badImm]
  | .atomSwap o => firstErr [need (immHolds o.x (atomImm)) .badImm]
  | .atomFaddd o => firstErr [need (immHolds o.x (zeroImm)) .badImm]
  | .atomFadds o => firstErr [need (immHolds o.x (zeroImm)) .badImm]
  | .cas o => firstErr [need (atomImm o.x.imm32) .badImm]
  | .fenceAcq o => firstErr [need (levelField o.l) .badLevel]
  | .fenceRel o => firstErr [need (levelField o.l) .badLevel]
  | .fenceAcqrel o => firstErr [need (levelField o.l) .badLevel]
  | .fenceSc o => firstErr [need (levelField o.l) .badLevel]
  | .boinit o => firstErr [need (levelField o.d) .badLevel]
  | .boarrive _ => none
  | .bowait _ => none
  | .botest _ => none
  | .tkwait _ => none
  | .lnset o => firstErr [need (nestLevel o.d) .badLevel, need (lnsetSc o.x) .reservedField]
  | .cpy o => firstErr [need (cpyImm o.x.imm32) .badImm]
  | .cpyrLoad o => firstErr [need (vreg o.d) .badVReg, need (copyGroup o.d o.x) .badVReg, need (cpyrImm o.x.imm32) .badImm]
  | .cpyrStore o => firstErr [need (vreg o.d) .badVReg, need (copyGroup o.d o.x) .badVReg, need (cpyrImm o.x.imm32) .badImm]
  | .cpyx o => firstErr [need (vreg o.d) .badVReg, need (copyGroup o.d o.x) .badVReg, need (cpyrImm o.x.imm32) .badImm]
  | .copyComplete _ _ => none
  | .copyFail _ _ _ => none
  | .matt _ => none
  | .mdet _ => none
  | .mcfg o => firstErr [need (mcfgImm o.x.imm32) .badImm]
  | .mlds _ => none
  | .mswap _ => none
  | .mstrm _ => none
  | .matrixStep _ => none
  | .matrixClassAging _ _ => none
  | .macz _ => none
  | .macst _ => none
  | .macld _ => none
  | .xrun _ => none
  | .xmrg _ => none
  | .xsend _ => none
  | .xrecv _ => none
  | .switchEmit _ _ _ => none
  | .recordDelivery _ _ _ => none
  | .xopen _ => none
  | .xclose _ => none
  | .monarchCopy _ _ => none
  | .prefetchCopy _ _ _ => none
  | .xsplt _ => none
  | .xcomb _ => none
  | .xsamp _ => none
  | .xround _ => none
  | .xcapset _ => none
  | .xtopk o => firstErr [need (vreg o.d) .badVReg, need (maskField o.m) .badMask, need (o.d != 47) .badVReg, need (topkImm o.x.imm32) .badImm]
  | .xrtab _ => none
  | .xload _ => none
  | .xpft _ => none
  | .collReduce o => firstErr [need (vreg o.d) .badVReg, need (vreg o.a) .badVReg, need (maskField o.m) .badMask, need (collImm 0 o.x.imm32) .badImm]
  | .collAllred o => firstErr [need (vreg o.d) .badVReg, need (vreg o.a) .badVReg, need (maskField o.m) .badMask, need (collImm 1 o.x.imm32) .badImm]
  | .collGather o => firstErr [need (vreg o.d) .badVReg, need (vreg o.a) .badVReg, need (maskField o.m) .badMask, need (collImm 2 o.x.imm32) .badImm]
  | .collScatter o => firstErr [need (vreg o.d) .badVReg, need (vreg o.a) .badVReg, need (maskField o.m) .badMask, need (collImm 3 o.x.imm32) .badImm]
  | .collBcast o => firstErr [need (vreg o.d) .badVReg, need (vreg o.a) .badVReg, need (maskField o.m) .badMask, need (collImm 4 o.x.imm32) .badImm]
  | .stagingReservation _ => none
  | .collectiveComplete _ _ => none
  | .grpset o => firstErr [need (groupReg o.g) .badMinor]
  | .cwait o => firstErr [need (groupReg o.g) .badMinor]
  | .cld _ => none
  | .cst _ => none
  | .cscan _ => none
  | .cdense _ => none
  | .crinit _ => none
  | .gth o => firstErr [need (tokenField o.d) .badMinor]
  | .sct o => firstErr [need (tokenField o.d) .badMinor]
  | .sctadd o => firstErr [need (tokenField o.d) .badMinor]
  | .hazelComplete _ _ => none
  | .vstc o => firstErr [need (vreg o.d) .badVReg, need (maskField o.m) .badMask]
  | .syscall _ => none
  | .brk _ => none
  | .uret _ => none
  | .eret _ => none
  | .halt _ => none
  | .wfi _ => none
  | .tlbinv _ => none
  | .vhtinv _ => none
  | .ctxsave _ => none
  | .ctxload _ => none
  | .sldrain _ => none
  | .launchQueueDoorbell _ _ _ => none
  | .teamPlacement _ _ => none
  | .deadlineExpiry _ => none
  | .preemptionTimeout _ => none
  | .teamSwapOut _ => none
  | .teamResume _ _ => none
  | .remoteAccess _ => none
  | .remoteAck _ => none
  | .engineUncorrectableError _ _ _ _ => none
  | .moduleReset _ => none
  | .attestationRequest _ _ => none
  | .contextCreate _ _ => none
  | .contextEndByHost _ _ => none
  | .epochWrite _ _ => none
  | .bar0RegisterWrite _ _ _ => none
  | .bar2Write _ _ _ => none
  | .bar2Read _ _ _ => none
  | .gtimeSync _ => none
  | .linkCrcReplay _ _ => none
  | .portRemoval _ _ => none
  | .dieIdleEntry _ _ => none
  | .dieIdleExit _ _ => none
  | .powerOff _ => none
  | .powerTrip _ => none
  | .plimWrite _ _ => none
  | .illegalInstruction _ => none
  | .instructionFetchFault _ _ => none
  | .remoteLoadReturn _ => none
  | .copyPerformed _ _ _ => none
  | .laneClusterRetirement _ _ => none
/-- All the checks on E that an instruction's class asks for. -/
def extFormCheck (i : Instr) : Option DecodeErr :=
  match extUse i with
  | none => none
  | some u =>
    match i.form with
    | .word => none
    | .lit _ => none
    | .ext x => extCheck u false x
    | .extLit x _ => extCheck u true x

/-- The first check an instruction fails, or `none` when it is well formed. -/
def Instr.check (i : Instr) : Option DecodeErr :=
  match fieldCheck i with
  | some e => some e
  | none => extFormCheck i

/-- Well-formed instructions: those whose encodings decode to them. -/
def Instr.wellFormed (i : Instr) : Bool := (i.check).isNone

end Sys2Proof
end

