-- ==== Sys2Proof/Decode.lean ====
section
/-!
DEFINITION. Decoding, total on any words, and the encoder. Word 0's framing is R20 and R23, the formats R26, the
majors and minors R35-R44; an encoding that is no instruction is rejected by name (R46). The encoder follows the same
tables in the other direction.
-/
namespace Sys2Proof

/-- What a step of decoding answers: a value, or the reason the words are no instruction. -/
inductive Res (α : Type) where
  | ok (a : α)
  | bad (e : DecodeErr)
  deriving DecidableEq, Repr

/-- A `w`-bit field of the body whose lowest bit is bit `lo`. -/
def fld (w lo body : Nat) : BitVec w := BitVec.ofNat w (body / 2 ^ lo)

/-- Requires a `w`-bit field at `lo` to hold `v`: a fixed or reserved field of word 0. -/
def fixed (w lo v body : Nat) (r : Res Instr) : Res Instr :=
  if body / 2 ^ lo % 2 ^ w = v then r else .bad .reservedField

/-- The variant bits 1:0 of E sub; the one-word form is the 00 variant (R40). -/
def LForm.sub2 (f : LForm) : Nat :=
  match f with
  | .word => 0
  | .lit _ => 0
  | .ext x => x.sub.toNat % 4
  | .extLit x _ => x.sub.toNat % 4

/-- Instructions with a one-word and an extended form and no literal. -/
def withX (form : LForm) (k : Option Ext → Instr) : Res Instr :=
  match form with
  | .word => .ok (k none)
  | .ext x => .ok (k (some x))
  | .lit _ => .bad .literalForbidden
  | .extLit _ _ => .bad .literalForbidden

/-- Instructions with an extended form only (R34). -/
def withExt (form : LForm) (k : Ext → Instr) : Res Instr :=
  match form with
  | .word => .bad .oneWordForbidden
  | .ext x => .ok (k x)
  | .lit _ => .bad .literalForbidden
  | .extLit _ _ => .bad .literalForbidden

/-- DUAL is always one word (R25). -/
def onlyWord (form : LForm) (i : Instr) : Res Instr :=
  match form with
  | .word => .ok i
  | .ext _ => .bad .badPrefix
  | .lit _ => .bad .badPrefix
  | .extLit _ _ => .bad .badPrefix

/-- What the encoder writes of an instruction: major, body bits 21:0 and framing. -/
structure Packed where
  maj  : Nat
  body : Nat
  form : LForm
  deriving DecidableEq, Repr

/-- Major 0x01: ADD, SUB, AND, OR, XOR, ANDN, SHL, SHR, SAR, ROTR, MIN, MAX, MINU, MAXU, MUL, MULH, MULHU, DIV, DIVU, REM, REMU, CLZ, CTZ, POPC, CMPEQ, CMPNE, CMPLT, CMPGE, CMPLTU, CMPGEU, SEL. -/
def parse01 (body : Nat) (form : LForm) : Res Instr :=
  match body / 1 % 128 with
  | 0 => withX form fun x => .add ⟨fld 5 17 body, fld 5 12 body, fld 5 7 body, x⟩
  | 1 => withX form fun x => .sub ⟨fld 5 17 body, fld 5 12 body, fld 5 7 body, x⟩
  | 2 => withX form fun x => .and ⟨fld 5 17 body, fld 5 12 body, fld 5 7 body, x⟩
  | 3 => withX form fun x => .or ⟨fld 5 17 body, fld 5 12 body, fld 5 7 body, x⟩
  | 4 => withX form fun x => .xor ⟨fld 5 17 body, fld 5 12 body, fld 5 7 body, x⟩
  | 5 => withX form fun x => .andn ⟨fld 5 17 body, fld 5 12 body, fld 5 7 body, x⟩
  | 6 => withX form fun x => .shl ⟨fld 5 17 body, fld 5 12 body, fld 5 7 body, x⟩
  | 7 => withX form fun x => .shr ⟨fld 5 17 body, fld 5 12 body, fld 5 7 body, x⟩
  | 8 => withX form fun x => .sar ⟨fld 5 17 body, fld 5 12 body, fld 5 7 body, x⟩
  | 9 => withX form fun x => .rotr ⟨fld 5 17 body, fld 5 12 body, fld 5 7 body, x⟩
  | 10 => withX form fun x => .min ⟨fld 5 17 body, fld 5 12 body, fld 5 7 body, x⟩
  | 11 => withX form fun x => .max ⟨fld 5 17 body, fld 5 12 body, fld 5 7 body, x⟩
  | 12 => withX form fun x => .minu ⟨fld 5 17 body, fld 5 12 body, fld 5 7 body, x⟩
  | 13 => withX form fun x => .maxu ⟨fld 5 17 body, fld 5 12 body, fld 5 7 body, x⟩
  | 16 => withX form fun x => .mul ⟨fld 5 17 body, fld 5 12 body, fld 5 7 body, x⟩
  | 17 => withX form fun x => .mulh ⟨fld 5 17 body, fld 5 12 body, fld 5 7 body, x⟩
  | 18 => withX form fun x => .mulhu ⟨fld 5 17 body, fld 5 12 body, fld 5 7 body, x⟩
  | 19 => withX form fun x => .div ⟨fld 5 17 body, fld 5 12 body, fld 5 7 body, x⟩
  | 20 => withX form fun x => .divu ⟨fld 5 17 body, fld 5 12 body, fld 5 7 body, x⟩
  | 21 => withX form fun x => .rem ⟨fld 5 17 body, fld 5 12 body, fld 5 7 body, x⟩
  | 22 => withX form fun x => .remu ⟨fld 5 17 body, fld 5 12 body, fld 5 7 body, x⟩
  | 24 => fixed 5 7 0 body (withX form fun x => .clz ⟨fld 5 17 body, fld 5 12 body, x⟩)
  | 25 => fixed 5 7 0 body (withX form fun x => .ctz ⟨fld 5 17 body, fld 5 12 body, x⟩)
  | 26 => fixed 5 7 0 body (withX form fun x => .popc ⟨fld 5 17 body, fld 5 12 body, x⟩)
  | 32 => withX form fun x => .cmpeq ⟨fld 5 17 body, fld 5 12 body, fld 5 7 body, x⟩
  | 33 => withX form fun x => .cmpne ⟨fld 5 17 body, fld 5 12 body, fld 5 7 body, x⟩
  | 34 => withX form fun x => .cmplt ⟨fld 5 17 body, fld 5 12 body, fld 5 7 body, x⟩
  | 35 => withX form fun x => .cmpge ⟨fld 5 17 body, fld 5 12 body, fld 5 7 body, x⟩
  | 36 => withX form fun x => .cmpltu ⟨fld 5 17 body, fld 5 12 body, fld 5 7 body, x⟩
  | 37 => withX form fun x => .cmpgeu ⟨fld 5 17 body, fld 5 12 body, fld 5 7 body, x⟩
  | 48 => withExt form fun x => .sel ⟨fld 5 17 body, fld 5 12 body, fld 5 7 body, x⟩
  | _ => .bad .badMinor

/-- Major 0x02: ADDI. -/
def parse02 (body : Nat) (form : LForm) : Res Instr :=
  .ok (.addi ⟨fld 5 17 body, fld 5 12 body, fld 12 0 body, form⟩)

/-- Major 0x03: ANDI. -/
def parse03 (body : Nat) (form : LForm) : Res Instr :=
  .ok (.andi ⟨fld 5 17 body, fld 5 12 body, fld 12 0 body, form⟩)

/-- Major 0x04: ORI. -/
def parse04 (body : Nat) (form : LForm) : Res Instr :=
  .ok (.ori ⟨fld 5 17 body, fld 5 12 body, fld 12 0 body, form⟩)

/-- Major 0x05: XORI. -/
def parse05 (body : Nat) (form : LForm) : Res Instr :=
  .ok (.xori ⟨fld 5 17 body, fld 5 12 body, fld 12 0 body, form⟩)

/-- Major 0x06: SHLI. -/
def parse06 (body : Nat) (form : LForm) : Res Instr :=
  fixed 6 6 0 body (.ok (.shli ⟨fld 5 17 body, fld 5 12 body, fld 6 0 body, form⟩))

/-- Major 0x07: SHRI. -/
def parse07 (body : Nat) (form : LForm) : Res Instr :=
  fixed 6 6 0 body (.ok (.shri ⟨fld 5 17 body, fld 5 12 body, fld 6 0 body, form⟩))

/-- Major 0x08: SARI. -/
def parse08 (body : Nat) (form : LForm) : Res Instr :=
  fixed 6 6 0 body (.ok (.sari ⟨fld 5 17 body, fld 5 12 body, fld 6 0 body, form⟩))

/-- Major 0x09: LIT. -/
def parse09 (body : Nat) (form : LForm) : Res Instr :=
  fixed 17 0 0 body (.ok (.lit ⟨fld 5 17 body, form⟩))

/-- Major 0x0A: FADD, FSUB, FMUL, FDIV, FSQRT, FMIN, FMAX, FCMPEQ, FCMPLT, FCMPLE, FMA, FCVTI, FCVTF, FCVTDS, FCVTSD, FABS, FNEG, FCLASS. -/
def parse0A (body : Nat) (form : LForm) : Res Instr :=
  match body / 1 % 64 with
  | 0 => withX form fun x => .fadd ⟨fld 5 17 body, fld 5 12 body, fld 5 7 body, fld 1 6 body, x⟩
  | 1 => withX form fun x => .fsub ⟨fld 5 17 body, fld 5 12 body, fld 5 7 body, fld 1 6 body, x⟩
  | 2 => withX form fun x => .fmul ⟨fld 5 17 body, fld 5 12 body, fld 5 7 body, fld 1 6 body, x⟩
  | 3 => withX form fun x => .fdiv ⟨fld 5 17 body, fld 5 12 body, fld 5 7 body, fld 1 6 body, x⟩
  | 4 => fixed 5 7 0 body (withX form fun x => .fsqrt ⟨fld 5 17 body, fld 5 12 body, fld 1 6 body, x⟩)
  | 5 => withX form fun x => .fmin ⟨fld 5 17 body, fld 5 12 body, fld 5 7 body, fld 1 6 body, x⟩
  | 6 => withX form fun x => .fmax ⟨fld 5 17 body, fld 5 12 body, fld 5 7 body, fld 1 6 body, x⟩
  | 7 => withX form fun x => .fcmpeq ⟨fld 5 17 body, fld 5 12 body, fld 5 7 body, fld 1 6 body, x⟩
  | 8 => withX form fun x => .fcmplt ⟨fld 5 17 body, fld 5 12 body, fld 5 7 body, fld 1 6 body, x⟩
  | 9 => withX form fun x => .fcmple ⟨fld 5 17 body, fld 5 12 body, fld 5 7 body, fld 1 6 body, x⟩
  | 10 => withExt form fun x => .fma ⟨fld 5 17 body, fld 5 12 body, fld 5 7 body, fld 1 6 body, x⟩
  | 11 => fixed 5 7 0 body (withX form fun x => .fcvti ⟨fld 5 17 body, fld 5 12 body, fld 1 6 body, x⟩)
  | 12 => fixed 5 7 0 body (withX form fun x => .fcvtf ⟨fld 5 17 body, fld 5 12 body, fld 1 6 body, x⟩)
  | 13 => fixed 6 6 0 body (withX form fun x => .fcvtds ⟨fld 5 17 body, fld 5 12 body, x⟩)
  | 14 => fixed 6 6 0 body (withX form fun x => .fcvtsd ⟨fld 5 17 body, fld 5 12 body, x⟩)
  | 15 => fixed 5 7 0 body (withX form fun x => .fabs ⟨fld 5 17 body, fld 5 12 body, fld 1 6 body, x⟩)
  | 16 => fixed 5 7 0 body (withX form fun x => .fneg ⟨fld 5 17 body, fld 5 12 body, fld 1 6 body, x⟩)
  | 17 => fixed 5 7 0 body (withX form fun x => .fclass ⟨fld 5 17 body, fld 5 12 body, fld 1 6 body, x⟩)
  | _ => .bad .badMinor

/-- Major 0x0B: LD, LDH, LDW, LDD, LDBU, LDHU, LDWU. -/
def parse0B (body : Nat) (form : LForm) : Res Instr :=
  match body / 512 % 8 with
  | 0 => withX form fun x => .ld ⟨fld 5 17 body, fld 5 12 body, fld 9 0 body, x⟩
  | 1 => withX form fun x => .ldh ⟨fld 5 17 body, fld 5 12 body, fld 9 0 body, x⟩
  | 2 => withX form fun x => .ldw ⟨fld 5 17 body, fld 5 12 body, fld 9 0 body, x⟩
  | 3 => withX form fun x => .ldd ⟨fld 5 17 body, fld 5 12 body, fld 9 0 body, x⟩
  | 4 => withX form fun x => .ldbu ⟨fld 5 17 body, fld 5 12 body, fld 9 0 body, x⟩
  | 5 => withX form fun x => .ldhu ⟨fld 5 17 body, fld 5 12 body, fld 9 0 body, x⟩
  | 6 => withX form fun x => .ldwu ⟨fld 5 17 body, fld 5 12 body, fld 9 0 body, x⟩
  | _ => .bad .badMinor

/-- Major 0x0C: ST, STH, STW, STD. -/
def parse0C (body : Nat) (form : LForm) : Res Instr :=
  match body / 512 % 8 with
  | 0 => withX form fun x => .st ⟨fld 5 17 body, fld 5 12 body, fld 9 0 body, x⟩
  | 1 => withX form fun x => .sth ⟨fld 5 17 body, fld 5 12 body, fld 9 0 body, x⟩
  | 2 => withX form fun x => .stw ⟨fld 5 17 body, fld 5 12 body, fld 9 0 body, x⟩
  | 3 => withX form fun x => .std ⟨fld 5 17 body, fld 5 12 body, fld 9 0 body, x⟩
  | _ => .bad .badMinor

/-- Major 0x0D: BEQ. -/
def parse0D (body : Nat) (form : LForm) : Res Instr :=
  withX form fun x => .beq ⟨fld 5 17 body, fld 5 12 body, fld 12 0 body, x⟩

/-- Major 0x0E: BNE. -/
def parse0E (body : Nat) (form : LForm) : Res Instr :=
  withX form fun x => .bne ⟨fld 5 17 body, fld 5 12 body, fld 12 0 body, x⟩

/-- Major 0x0F: BLT. -/
def parse0F (body : Nat) (form : LForm) : Res Instr :=
  withX form fun x => .blt ⟨fld 5 17 body, fld 5 12 body, fld 12 0 body, x⟩

/-- Major 0x10: BGE. -/
def parse10 (body : Nat) (form : LForm) : Res Instr :=
  withX form fun x => .bge ⟨fld 5 17 body, fld 5 12 body, fld 12 0 body, x⟩

/-- Major 0x11: BLTU. -/
def parse11 (body : Nat) (form : LForm) : Res Instr :=
  withX form fun x => .bltu ⟨fld 5 17 body, fld 5 12 body, fld 12 0 body, x⟩

/-- Major 0x12: BGEU. -/
def parse12 (body : Nat) (form : LForm) : Res Instr :=
  withX form fun x => .bgeu ⟨fld 5 17 body, fld 5 12 body, fld 12 0 body, x⟩

/-- Major 0x13: JMP. -/
def parse13 (body : Nat) (form : LForm) : Res Instr :=
  withX form fun x => .jmp ⟨fld 22 0 body, x⟩

/-- Major 0x14: CALL. -/
def parse14 (body : Nat) (form : LForm) : Res Instr :=
  withX form fun x => .call ⟨fld 22 0 body, x⟩

/-- Major 0x15: JR. -/
def parse15 (body : Nat) (form : LForm) : Res Instr :=
  withX form fun x => .jr ⟨fld 5 17 body, fld 5 12 body, fld 12 0 body, x⟩

/-- Major 0x18: QPOP, QPEEK, QCNT. -/
def parse18 (body : Nat) (form : LForm) : Res Instr :=
  match body / 1 % 128 with
  | 0 => fixed 8 9 0 body (withX form fun x => .qpop ⟨fld 5 17 body, fld 2 7 body, x⟩)
  | 1 => fixed 8 9 0 body (withX form fun x => .qpeek ⟨fld 5 17 body, fld 2 7 body, x⟩)
  | 2 => fixed 8 9 0 body (withX form fun x => .qcnt ⟨fld 5 17 body, fld 2 7 body, x⟩)
  | _ => .bad .badMinor

/-- Major 0x19: CSRR. -/
def parse19 (body : Nat) (form : LForm) : Res Instr :=
  fixed 5 12 0 body (withX form fun x => .csrr ⟨fld 5 17 body, fld 12 0 body, x⟩)

/-- Major 0x1A: CSRW, CSRW_CF, CSRW_VLCAP, CSRW_BND, CSRW_VSTART, CSRW_CTXID. -/
def parse1A (body : Nat) (form : LForm) : Res Instr :=
  match body % 4096 with
  | 1 => fixed 5 17 0 body (withX form fun x => .csrwCf ⟨fld 5 12 body, x⟩)
  | 2048 => fixed 5 17 0 body (withX form fun x => .csrwVlcap ⟨fld 5 12 body, x⟩)
  | 3 => fixed 5 17 0 body (withX form fun x => .csrwVstart ⟨fld 5 12 body, x⟩)
  | 2080 => fixed 5 17 0 body (withX form fun x => .csrwCtxid ⟨fld 5 12 body, x⟩)
  | 2049 => fixed 5 17 0 body (withX form fun x => .csrwBnd ⟨fld 5 12 body, fld 2 0 body, x⟩)
  | 2050 => fixed 5 17 0 body (withX form fun x => .csrwBnd ⟨fld 5 12 body, fld 2 0 body, x⟩)
  | 2051 => fixed 5 17 0 body (withX form fun x => .csrwBnd ⟨fld 5 12 body, fld 2 0 body, x⟩)
  | _ => fixed 5 17 0 body (withX form fun x => .csrw ⟨fld 5 12 body, fld 12 0 body, x⟩)

/-- Major 0x1C: TID, TSZ, TDEPTH, BARL, FARMNEXT, PHASE, YIELD, EXIT, LAUNCH, LWAIT. -/
def parse1C (body : Nat) (form : LForm) : Res Instr :=
  match body / 1 % 128 with
  | 0 => fixed 5 12 0 body (withX form fun x => .tid ⟨fld 5 17 body, fld 5 7 body, x⟩)
  | 1 => fixed 5 12 0 body (withX form fun x => .tsz ⟨fld 5 17 body, fld 5 7 body, x⟩)
  | 2 => fixed 10 7 0 body (withX form fun x => .tdepth ⟨fld 5 17 body, x⟩)
  | 3 => fixed 10 12 0 body (withX form fun x => .barl ⟨fld 5 7 body, x⟩)
  | 4 => fixed 5 12 0 body (withX form fun x => .farmnext ⟨fld 5 17 body, fld 5 7 body, x⟩)
  | 5 => fixed 10 12 0 body (withX form fun x => .phase ⟨fld 5 7 body, x⟩)
  | 6 => fixed 15 7 0 body (withX form fun x => .yield ⟨x⟩)
  | 7 => fixed 15 7 0 body (withX form fun x => .exit ⟨x⟩)
  | 8 => fixed 5 7 0 body (withX form fun x => .launch ⟨fld 5 17 body, fld 5 12 body, x⟩)
  | 9 => fixed 5 17 0 body (fixed 5 7 0 body (withX form fun x => .lwait ⟨fld 5 12 body, x⟩))
  | _ => .bad .badMinor

/-- Major 0x20: SETVL. -/
def parse20 (body : Nat) (form : LForm) : Res Instr :=
  fixed 8 0 0 body (withX form fun x => .setvl ⟨fld 5 17 body, fld 5 12 body, fld 4 8 body, x⟩)

/-- Major 0x21: VADD. -/
def parse21 (body : Nat) (form : LForm) : Res Instr :=
  withX form fun x => .vadd ⟨fld 6 16 body, fld 6 10 body, fld 6 4 body, fld 4 0 body, x⟩

/-- Major 0x22: VSUB. -/
def parse22 (body : Nat) (form : LForm) : Res Instr :=
  withX form fun x => .vsub ⟨fld 6 16 body, fld 6 10 body, fld 6 4 body, fld 4 0 body, x⟩

/-- Major 0x23: VMUL. -/
def parse23 (body : Nat) (form : LForm) : Res Instr :=
  withX form fun x => .vmul ⟨fld 6 16 body, fld 6 10 body, fld 6 4 body, fld 4 0 body, x⟩

/-- Major 0x24: VMULH. -/
def parse24 (body : Nat) (form : LForm) : Res Instr :=
  withX form fun x => .vmulh ⟨fld 6 16 body, fld 6 10 body, fld 6 4 body, fld 4 0 body, x⟩

/-- Major 0x25: VMIN. -/
def parse25 (body : Nat) (form : LForm) : Res Instr :=
  withX form fun x => .vmin ⟨fld 6 16 body, fld 6 10 body, fld 6 4 body, fld 4 0 body, x⟩

/-- Major 0x26: VMAX. -/
def parse26 (body : Nat) (form : LForm) : Res Instr :=
  withX form fun x => .vmax ⟨fld 6 16 body, fld 6 10 body, fld 6 4 body, fld 4 0 body, x⟩

/-- Major 0x27: VAND. -/
def parse27 (body : Nat) (form : LForm) : Res Instr :=
  withX form fun x => .vand ⟨fld 6 16 body, fld 6 10 body, fld 6 4 body, fld 4 0 body, x⟩

/-- Major 0x28: VOR. -/
def parse28 (body : Nat) (form : LForm) : Res Instr :=
  withX form fun x => .vor ⟨fld 6 16 body, fld 6 10 body, fld 6 4 body, fld 4 0 body, x⟩

/-- Major 0x29: VXOR. -/
def parse29 (body : Nat) (form : LForm) : Res Instr :=
  withX form fun x => .vxor ⟨fld 6 16 body, fld 6 10 body, fld 6 4 body, fld 4 0 body, x⟩

/-- Major 0x2A: VSHL. -/
def parse2A (body : Nat) (form : LForm) : Res Instr :=
  withX form fun x => .vshl ⟨fld 6 16 body, fld 6 10 body, fld 6 4 body, fld 4 0 body, x⟩

/-- Major 0x2B: VSHR. -/
def parse2B (body : Nat) (form : LForm) : Res Instr :=
  withX form fun x => .vshr ⟨fld 6 16 body, fld 6 10 body, fld 6 4 body, fld 4 0 body, x⟩

/-- Major 0x2C: VSAR. -/
def parse2C (body : Nat) (form : LForm) : Res Instr :=
  withX form fun x => .vsar ⟨fld 6 16 body, fld 6 10 body, fld 6 4 body, fld 4 0 body, x⟩

/-- Major 0x2D: VFMA, VFMS, VFNMA, VFNMS. -/
def parse2D (body : Nat) (form : LForm) : Res Instr :=
  match form.sub2 with
  | 0 => withX form fun x => .vfma ⟨fld 6 16 body, fld 6 10 body, fld 6 4 body, fld 4 0 body, x⟩
  | 1 => withExt form fun x => .vfms ⟨fld 6 16 body, fld 6 10 body, fld 6 4 body, fld 4 0 body, x⟩
  | 2 => withExt form fun x => .vfnma ⟨fld 6 16 body, fld 6 10 body, fld 6 4 body, fld 4 0 body, x⟩
  | 3 => withExt form fun x => .vfnms ⟨fld 6 16 body, fld 6 10 body, fld 6 4 body, fld 4 0 body, x⟩
  | _ => .bad .badMinor

/-- Major 0x2E: VDIV. -/
def parse2E (body : Nat) (form : LForm) : Res Instr :=
  withX form fun x => .vdiv ⟨fld 6 16 body, fld 6 10 body, fld 6 4 body, fld 4 0 body, x⟩

/-- Major 0x2F: VSQRT. -/
def parse2F (body : Nat) (form : LForm) : Res Instr :=
  fixed 6 4 0 body (withX form fun x => .vsqrt ⟨fld 6 16 body, fld 6 10 body, fld 4 0 body, x⟩)

/-- Major 0x30: VABS, VNEG, VCLZ, VPOPC, VRCPE, VRSQE, VEXP2, VLOG2, VFLOOR, VCEIL, VRINT, VCLASS. -/
def parse30 (body : Nat) (form : LForm) : Res Instr :=
  match body / 16 % 64 with
  | 0 => withX form fun x => .vabs ⟨fld 6 16 body, fld 6 10 body, fld 4 0 body, x⟩
  | 1 => withX form fun x => .vneg ⟨fld 6 16 body, fld 6 10 body, fld 4 0 body, x⟩
  | 2 => withX form fun x => .vclz ⟨fld 6 16 body, fld 6 10 body, fld 4 0 body, x⟩
  | 3 => withX form fun x => .vpopc ⟨fld 6 16 body, fld 6 10 body, fld 4 0 body, x⟩
  | 4 => withX form fun x => .vrcpe ⟨fld 6 16 body, fld 6 10 body, fld 4 0 body, x⟩
  | 5 => withX form fun x => .vrsqe ⟨fld 6 16 body, fld 6 10 body, fld 4 0 body, x⟩
  | 6 => withX form fun x => .vexp2 ⟨fld 6 16 body, fld 6 10 body, fld 4 0 body, x⟩
  | 7 => withX form fun x => .vlog2 ⟨fld 6 16 body, fld 6 10 body, fld 4 0 body, x⟩
  | 8 => withX form fun x => .vfloor ⟨fld 6 16 body, fld 6 10 body, fld 4 0 body, x⟩
  | 9 => withX form fun x => .vceil ⟨fld 6 16 body, fld 6 10 body, fld 4 0 body, x⟩
  | 10 => withX form fun x => .vrint ⟨fld 6 16 body, fld 6 10 body, fld 4 0 body, x⟩
  | 11 => withX form fun x => .vclass ⟨fld 6 16 body, fld 6 10 body, fld 4 0 body, x⟩
  | _ => .bad .badMinor

/-- Major 0x31: VCMPEQ. -/
def parse31 (body : Nat) (form : LForm) : Res Instr :=
  fixed 2 16 0 body (withX form fun x => .vcmpeq ⟨fld 4 18 body, fld 6 10 body, fld 6 4 body, fld 4 0 body, x⟩)

/-- Major 0x32: VCMPNE. -/
def parse32 (body : Nat) (form : LForm) : Res Instr :=
  fixed 2 16 0 body (withX form fun x => .vcmpne ⟨fld 4 18 body, fld 6 10 body, fld 6 4 body, fld 4 0 body, x⟩)

/-- Major 0x33: VCMPLT. -/
def parse33 (body : Nat) (form : LForm) : Res Instr :=
  fixed 2 16 0 body (withX form fun x => .vcmplt ⟨fld 4 18 body, fld 6 10 body, fld 6 4 body, fld 4 0 body, x⟩)

/-- Major 0x34: VCMPLE. -/
def parse34 (body : Nat) (form : LForm) : Res Instr :=
  fixed 2 16 0 body (withX form fun x => .vcmple ⟨fld 4 18 body, fld 6 10 body, fld 6 4 body, fld 4 0 body, x⟩)

/-- Major 0x35: VCMPGT. -/
def parse35 (body : Nat) (form : LForm) : Res Instr :=
  fixed 2 16 0 body (withX form fun x => .vcmpgt ⟨fld 4 18 body, fld 6 10 body, fld 6 4 body, fld 4 0 body, x⟩)

/-- Major 0x36: VCMPGE. -/
def parse36 (body : Nat) (form : LForm) : Res Instr :=
  fixed 2 16 0 body (withX form fun x => .vcmpge ⟨fld 4 18 body, fld 6 10 body, fld 6 4 body, fld 4 0 body, x⟩)

/-- Major 0x37: VSEL. -/
def parse37 (body : Nat) (form : LForm) : Res Instr :=
  withX form fun x => .vsel ⟨fld 6 16 body, fld 6 10 body, fld 6 4 body, fld 4 0 body, x⟩

/-- Major 0x38: MAND, MOR, MXOR, MANDN, MNOT, MSET, MCLR, MMOV, MPOP, MFIRST. -/
def parse38 (body : Nat) (form : LForm) : Res Instr :=
  match body / 64 % 16 with
  | 0 => fixed 6 0 0 body (withX form fun x => .mand ⟨fld 4 18 body, fld 4 14 body, fld 4 10 body, x⟩)
  | 1 => fixed 6 0 0 body (withX form fun x => .mor ⟨fld 4 18 body, fld 4 14 body, fld 4 10 body, x⟩)
  | 2 => fixed 6 0 0 body (withX form fun x => .mxor ⟨fld 4 18 body, fld 4 14 body, fld 4 10 body, x⟩)
  | 3 => fixed 6 0 0 body (withX form fun x => .mandn ⟨fld 4 18 body, fld 4 14 body, fld 4 10 body, x⟩)
  | 4 => fixed 4 10 0 body (fixed 6 0 0 body (withX form fun x => .mnot ⟨fld 4 18 body, fld 4 14 body, x⟩))
  | 5 => fixed 6 0 0 body (withX form fun x => .mset ⟨fld 4 18 body, fld 4 14 body, fld 4 10 body, x⟩)
  | 6 => fixed 8 10 0 body (fixed 6 0 0 body (withX form fun x => .mclr ⟨fld 4 18 body, x⟩))
  | 7 => fixed 4 10 0 body (fixed 6 0 0 body (withX form fun x => .mmov ⟨fld 4 18 body, fld 4 14 body, x⟩))
  | 8 => fixed 2 18 0 body (fixed 4 10 0 body (fixed 6 0 0 body (withX form fun x => .mpop ⟨fld 2 20 body, fld 4 14 body, x⟩)))
  | 9 => fixed 2 18 0 body (fixed 4 10 0 body (fixed 6 0 0 body (withX form fun x => .mfirst ⟨fld 2 20 body, fld 4 14 body, x⟩)))
  | _ => .bad .badMinor

/-- Major 0x39: VBCAST. -/
def parse39 (body : Nat) (form : LForm) : Res Instr :=
  fixed 6 10 0 body (fixed 5 0 30 body (.ok (.vbcast ⟨fld 6 16 body, fld 5 5 body, form⟩)))

/-- Major 0x3A: VIOTA. -/
def parse3A (body : Nat) (form : LForm) : Res Instr :=
  fixed 6 10 0 body (fixed 1 0 0 body (withX form fun x => .viota ⟨fld 6 16 body, fld 5 5 body, fld 4 1 body, x⟩))

/-- Major 0x3B: VTOQ. -/
def parse3B (body : Nat) (form : LForm) : Res Instr :=
  fixed 4 16 0 body (fixed 5 0 30 body (withX form fun x => .vtoq ⟨fld 2 20 body, fld 6 10 body, fld 5 5 body, x⟩))

/-- Major 0x3C: VTID. -/
def parse3C (body : Nat) (form : LForm) : Res Instr :=
  fixed 6 10 0 body (fixed 1 0 0 body (withX form fun x => .vtid ⟨fld 6 16 body, fld 5 5 body, fld 4 1 body, x⟩))

/-- Major 0x40: VPERM. -/
def parse40 (body : Nat) (form : LForm) : Res Instr :=
  withX form fun x => .vperm ⟨fld 6 16 body, fld 6 10 body, fld 6 4 body, fld 4 0 body, x⟩

/-- Major 0x41: VSLIDE.DN, VSLIDE.UP. -/
def parse41 (body : Nat) (form : LForm) : Res Instr :=
  match form.sub2 with
  | 0 => fixed 1 0 0 body (withX form fun x => .vslideDn ⟨fld 6 16 body, fld 6 10 body, fld 5 5 body, fld 4 1 body, x⟩)
  | 1 => fixed 1 0 0 body (withExt form fun x => .vslideUp ⟨fld 6 16 body, fld 6 10 body, fld 5 5 body, fld 4 1 body, x⟩)
  | _ => .bad .badMinor

/-- Major 0x42: VCOMPR. -/
def parse42 (body : Nat) (form : LForm) : Res Instr :=
  fixed 6 4 0 body (withX form fun x => .vcompr ⟨fld 6 16 body, fld 6 10 body, fld 4 0 body, x⟩)

/-- Major 0x43: VEXPND. -/
def parse43 (body : Nat) (form : LForm) : Res Instr :=
  fixed 6 4 0 body (withX form fun x => .vexpnd ⟨fld 6 16 body, fld 6 10 body, fld 4 0 body, x⟩)

/-- Major 0x44: VZIP.LO, VZIP.HI, VUNZIP.EV, VUNZIP.OD. -/
def parse44 (body : Nat) (form : LForm) : Res Instr :=
  match form.sub2 with
  | 0 => withX form fun x => .vzipLo ⟨fld 6 16 body, fld 6 10 body, fld 6 4 body, fld 4 0 body, x⟩
  | 1 => withExt form fun x => .vzipHi ⟨fld 6 16 body, fld 6 10 body, fld 6 4 body, fld 4 0 body, x⟩
  | 2 => withExt form fun x => .vunzipEv ⟨fld 6 16 body, fld 6 10 body, fld 6 4 body, fld 4 0 body, x⟩
  | 3 => withExt form fun x => .vunzipOd ⟨fld 6 16 body, fld 6 10 body, fld 6 4 body, fld 4 0 body, x⟩
  | _ => .bad .badMinor

/-- Major 0x45: VRED.SUM, VRED.MIN, VRED.MAX, VRED.AND, VRED.OR, VRED.XOR. -/
def parse45 (body : Nat) (form : LForm) : Res Instr :=
  match body / 16 % 64 with
  | 0 => withX form fun x => .vredSum ⟨fld 6 16 body, fld 6 10 body, fld 4 0 body, x⟩
  | 1 => withX form fun x => .vredMin ⟨fld 6 16 body, fld 6 10 body, fld 4 0 body, x⟩
  | 2 => withX form fun x => .vredMax ⟨fld 6 16 body, fld 6 10 body, fld 4 0 body, x⟩
  | 3 => withX form fun x => .vredAnd ⟨fld 6 16 body, fld 6 10 body, fld 4 0 body, x⟩
  | 4 => withX form fun x => .vredOr ⟨fld 6 16 body, fld 6 10 body, fld 4 0 body, x⟩
  | 5 => withX form fun x => .vredXor ⟨fld 6 16 body, fld 6 10 body, fld 4 0 body, x⟩
  | _ => .bad .badMinor

/-- Major 0x46: VSCAN.SUM, VSCAN.MIN, VSCAN.MAX, VSCAN.AND, VSCAN.OR, VSCAN.XOR. -/
def parse46 (body : Nat) (form : LForm) : Res Instr :=
  match body / 16 % 64 with
  | 0 => withX form fun x => .vscanSum ⟨fld 6 16 body, fld 6 10 body, fld 4 0 body, x⟩
  | 1 => withX form fun x => .vscanMin ⟨fld 6 16 body, fld 6 10 body, fld 4 0 body, x⟩
  | 2 => withX form fun x => .vscanMax ⟨fld 6 16 body, fld 6 10 body, fld 4 0 body, x⟩
  | 3 => withX form fun x => .vscanAnd ⟨fld 6 16 body, fld 6 10 body, fld 4 0 body, x⟩
  | 4 => withX form fun x => .vscanOr ⟨fld 6 16 body, fld 6 10 body, fld 4 0 body, x⟩
  | 5 => withX form fun x => .vscanXor ⟨fld 6 16 body, fld 6 10 body, fld 4 0 body, x⟩
  | _ => .bad .badMinor

/-- Major 0x47: VGRED.SUM, VGRED.MIN, VGRED.MAX, VGRED.OR. -/
def parse47 (body : Nat) (form : LForm) : Res Instr :=
  match body / 256 % 4 with
  | 0 => withX form fun x => .vgredSum ⟨fld 6 16 body, fld 6 10 body, fld 4 4 body, fld 4 0 body, x⟩
  | 1 => withX form fun x => .vgredMin ⟨fld 6 16 body, fld 6 10 body, fld 4 4 body, fld 4 0 body, x⟩
  | 2 => withX form fun x => .vgredMax ⟨fld 6 16 body, fld 6 10 body, fld 4 4 body, fld 4 0 body, x⟩
  | 3 => withX form fun x => .vgredOr ⟨fld 6 16 body, fld 6 10 body, fld 4 4 body, fld 4 0 body, x⟩
  | _ => .bad .badMinor

/-- Major 0x48: VCVT. -/
def parse48 (body : Nat) (form : LForm) : Res Instr :=
  fixed 6 4 0 body (withX form fun x => .vcvt ⟨fld 6 16 body, fld 6 10 body, fld 4 0 body, x⟩)

/-- Major 0x49: VRETAG. -/
def parse49 (body : Nat) (form : LForm) : Res Instr :=
  fixed 6 4 0 body (withX form fun x => .vretag ⟨fld 6 16 body, fld 6 10 body, fld 4 0 body, x⟩)

/-- Major 0x4A: VFUNR, VFUNL. -/
def parse4A (body : Nat) (form : LForm) : Res Instr :=
  match form.sub2 with
  | 0 => withExt form fun x => .vfunr ⟨fld 6 16 body, fld 6 10 body, fld 6 4 body, fld 4 0 body, x⟩
  | 1 => withExt form fun x => .vfunl ⟨fld 6 16 body, fld 6 10 body, fld 6 4 body, fld 4 0 body, x⟩
  | _ => .bad .badMinor

/-- Major 0x4B: VEXT, VEXT, VEXT.S, VEXT.S. -/
def parse4B (body : Nat) (form : LForm) : Res Instr :=
  match form.sub2 with
  | 0 => withX form fun x => .vext ⟨fld 6 16 body, fld 6 10 body, fld 6 4 body, fld 4 0 body, x⟩
  | 1 => fixed 6 4 0 body (withExt form fun x => .vextUniform ⟨fld 6 16 body, fld 6 10 body, fld 4 0 body, x⟩)
  | 2 => withExt form fun x => .vextS ⟨fld 6 16 body, fld 6 10 body, fld 6 4 body, fld 4 0 body, x⟩
  | 3 => fixed 6 4 0 body (withExt form fun x => .vextSUniform ⟨fld 6 16 body, fld 6 10 body, fld 4 0 body, x⟩)
  | _ => .bad .badMinor

/-- Major 0x4C: DUAL. -/
def parse4C (body : Nat) (form : LForm) : Res Instr :=
  fixed 19 0 0 body (onlyWord form (.dual ⟨fld 3 19 body⟩))

/-- Major 0x4D: TSEED. -/
def parse4D (body : Nat) (form : LForm) : Res Instr :=
  withX form fun x => .tseed ⟨fld 6 16 body, fld 6 10 body, fld 6 4 body, fld 4 0 body, x⟩

/-- Major 0x4E: TGET. -/
def parse4E (body : Nat) (form : LForm) : Res Instr :=
  withX form fun x => .tget ⟨fld 6 16 body, fld 6 10 body, fld 6 4 body, fld 4 0 body, x⟩

/-- Major 0x4F: TCLR. -/
def parse4F (body : Nat) (form : LForm) : Res Instr :=
  fixed 6 10 0 body (withX form fun x => .tclr ⟨fld 6 16 body, fld 6 4 body, fld 4 0 body, x⟩)

/-- Major 0x50: VLD, VLD.STR, VLD.2D. -/
def parse50 (body : Nat) (form : LForm) : Res Instr :=
  match body / 1 % 4 with
  | 0 => withX form fun x => .vld ⟨fld 6 16 body, fld 5 11 body, fld 5 6 body, fld 4 2 body, x⟩
  | 1 => withX form fun x => .vldStr ⟨fld 6 16 body, fld 5 11 body, fld 5 6 body, fld 4 2 body, x⟩
  | 2 => withExt form fun x => .vld2d ⟨fld 6 16 body, fld 5 11 body, fld 5 6 body, fld 4 2 body, x⟩
  | _ => .bad .badMinor

/-- Major 0x51: VST, VST.STR, VST.2D. -/
def parse51 (body : Nat) (form : LForm) : Res Instr :=
  match body / 1 % 4 with
  | 0 => withX form fun x => .vst ⟨fld 6 16 body, fld 5 11 body, fld 5 6 body, fld 4 2 body, x⟩
  | 1 => withX form fun x => .vstStr ⟨fld 6 16 body, fld 5 11 body, fld 5 6 body, fld 4 2 body, x⟩
  | 2 => withExt form fun x => .vst2d ⟨fld 6 16 body, fld 5 11 body, fld 5 6 body, fld 4 2 body, x⟩
  | _ => .bad .badMinor

/-- Major 0x52: VLDO, VLDO.STR, VLDO.2D. -/
def parse52 (body : Nat) (form : LForm) : Res Instr :=
  match body / 1 % 4 with
  | 0 => withX form fun x => .vldo ⟨fld 6 16 body, fld 5 11 body, fld 5 6 body, fld 4 2 body, x⟩
  | 1 => withX form fun x => .vldoStr ⟨fld 6 16 body, fld 5 11 body, fld 5 6 body, fld 4 2 body, x⟩
  | 2 => withExt form fun x => .vldo2d ⟨fld 6 16 body, fld 5 11 body, fld 5 6 body, fld 4 2 body, x⟩
  | _ => .bad .badMinor

/-- Major 0x53: VSTO, VSTO.STR, VSTO.2D. -/
def parse53 (body : Nat) (form : LForm) : Res Instr :=
  match body / 1 % 4 with
  | 0 => withX form fun x => .vsto ⟨fld 6 16 body, fld 5 11 body, fld 5 6 body, fld 4 2 body, x⟩
  | 1 => withX form fun x => .vstoStr ⟨fld 6 16 body, fld 5 11 body, fld 5 6 body, fld 4 2 body, x⟩
  | 2 => withExt form fun x => .vsto2d ⟨fld 6 16 body, fld 5 11 body, fld 5 6 body, fld 4 2 body, x⟩
  | _ => .bad .badMinor

/-- Major 0x54: VLDSC, VLDSC.STR, VLDSC.2D. -/
def parse54 (body : Nat) (form : LForm) : Res Instr :=
  match body / 1 % 4 with
  | 0 => withX form fun x => .vldsc ⟨fld 6 16 body, fld 5 11 body, fld 5 6 body, fld 4 2 body, x⟩
  | 1 => withX form fun x => .vldscStr ⟨fld 6 16 body, fld 5 11 body, fld 5 6 body, fld 4 2 body, x⟩
  | 2 => withExt form fun x => .vldsc2d ⟨fld 6 16 body, fld 5 11 body, fld 5 6 body, fld 4 2 body, x⟩
  | _ => .bad .badMinor

/-- Major 0x55: VSTSC, VSTSC.STR, VSTSC.2D. -/
def parse55 (body : Nat) (form : LForm) : Res Instr :=
  match body / 1 % 4 with
  | 0 => withX form fun x => .vstsc ⟨fld 6 16 body, fld 5 11 body, fld 5 6 body, fld 4 2 body, x⟩
  | 1 => withX form fun x => .vstscStr ⟨fld 6 16 body, fld 5 11 body, fld 5 6 body, fld 4 2 body, x⟩
  | 2 => withExt form fun x => .vstsc2d ⟨fld 6 16 body, fld 5 11 body, fld 5 6 body, fld 4 2 body, x⟩
  | _ => .bad .badMinor

/-- Major 0x56: VSTB. -/
def parse56 (body : Nat) (form : LForm) : Res Instr :=
  match body / 1 % 4 with
  | 0 => withX form fun x => .vstb ⟨fld 6 16 body, fld 5 11 body, fld 5 6 body, fld 4 2 body, x⟩
  | _ => .bad .badMinor

/-- Major 0x57: LDFE, LDFE.CLR, STFE. -/
def parse57 (body : Nat) (form : LForm) : Res Instr :=
  match body / 2048 % 2 with
  | 0 => (match form.sub2 with
    | 0 => withX form fun x => .ldfe ⟨fld 5 17 body, fld 5 12 body, fld 2 9 body, fld 9 0 body, x⟩
    | 1 => withExt form fun x => .ldfeClr ⟨fld 5 17 body, fld 5 12 body, fld 2 9 body, fld 9 0 body, x⟩
    | _ => .bad .badMinor)
  | 1 => withX form fun x => .stfe ⟨fld 5 17 body, fld 5 12 body, fld 2 9 body, fld 9 0 body, x⟩
  | _ => .bad .badMinor

/-- Major 0x58: VLDFE, VLDFE.CLR. -/
def parse58 (body : Nat) (form : LForm) : Res Instr :=
  match body / 1 % 4 with
  | 0 => (match form.sub2 with
    | 0 => withX form fun x => .vldfe ⟨fld 6 16 body, fld 5 11 body, fld 5 6 body, fld 4 2 body, x⟩
    | 1 => withExt form fun x => .vldfeClr ⟨fld 6 16 body, fld 5 11 body, fld 5 6 body, fld 4 2 body, x⟩
    | _ => .bad .badMinor)
  | _ => .bad .badMinor

/-- Major 0x59: SPCTEST, SPCCAST.TO, SPCCAST.FROM. -/
def parse59 (body : Nat) (form : LForm) : Res Instr :=
  match body / 1 % 128 with
  | 0 => fixed 5 7 0 body (withX form fun x => .spctest ⟨fld 5 17 body, fld 5 12 body, x⟩)
  | 1 => withX form fun x => .spccastTo ⟨fld 5 17 body, fld 5 12 body, fld 5 7 body, x⟩
  | 2 => withX form fun x => .spccastFrom ⟨fld 5 17 body, fld 5 12 body, fld 5 7 body, x⟩
  | _ => .bad .badMinor

/-- Major 0x5A: PREF.L1, PREF.L2. -/
def parse5A (body : Nat) (form : LForm) : Res Instr :=
  match body / 131072 % 32 with
  | 0 => fixed 3 9 0 body (withX form fun x => .prefL1 ⟨fld 5 12 body, fld 9 0 body, x⟩)
  | 1 => fixed 3 9 0 body (withX form fun x => .prefL2 ⟨fld 5 12 body, fld 9 0 body, x⟩)
  | _ => .bad .badMinor

/-- Major 0x5B: CLWB, CLINV. -/
def parse5B (body : Nat) (form : LForm) : Res Instr :=
  match body / 131072 % 32 with
  | 0 => fixed 3 9 0 body (withX form fun x => .clwb ⟨fld 5 12 body, fld 9 0 body, x⟩)
  | 1 => fixed 3 9 0 body (withX form fun x => .clinv ⟨fld 5 12 body, fld 9 0 body, x⟩)
  | _ => .bad .badMinor

/-- Major 0x5C: ATOM.ADD, ATOM.AND, ATOM.OR, ATOM.XOR, ATOM.MIN, ATOM.MAX, ATOM.MINU, ATOM.MAXU, ATOM.SWAP, ATOM.FADDD, ATOM.FADDS. -/
def parse5C (body : Nat) (form : LForm) : Res Instr :=
  match body / 1 % 128 with
  | 0 => withX form fun x => .atomAdd ⟨fld 5 17 body, fld 5 12 body, fld 5 7 body, x⟩
  | 1 => withX form fun x => .atomAnd ⟨fld 5 17 body, fld 5 12 body, fld 5 7 body, x⟩
  | 2 => withX form fun x => .atomOr ⟨fld 5 17 body, fld 5 12 body, fld 5 7 body, x⟩
  | 3 => withX form fun x => .atomXor ⟨fld 5 17 body, fld 5 12 body, fld 5 7 body, x⟩
  | 4 => withX form fun x => .atomMin ⟨fld 5 17 body, fld 5 12 body, fld 5 7 body, x⟩
  | 5 => withX form fun x => .atomMax ⟨fld 5 17 body, fld 5 12 body, fld 5 7 body, x⟩
  | 6 => withX form fun x => .atomMinu ⟨fld 5 17 body, fld 5 12 body, fld 5 7 body, x⟩
  | 7 => withX form fun x => .atomMaxu ⟨fld 5 17 body, fld 5 12 body, fld 5 7 body, x⟩
  | 8 => withX form fun x => .atomSwap ⟨fld 5 17 body, fld 5 12 body, fld 5 7 body, x⟩
  | 9 => withX form fun x => .atomFaddd ⟨fld 5 17 body, fld 5 12 body, fld 5 7 body, x⟩
  | 10 => withX form fun x => .atomFadds ⟨fld 5 17 body, fld 5 12 body, fld 5 7 body, x⟩
  | _ => .bad .badMinor

/-- Major 0x5D: CAS. -/
def parse5D (body : Nat) (form : LForm) : Res Instr :=
  fixed 7 0 0 body (withExt form fun x => .cas ⟨fld 5 17 body, fld 5 12 body, fld 5 7 body, x⟩)

/-- Major 0x5E: FENCE.ACQ, FENCE.REL, FENCE.ACQREL, FENCE.SC. -/
def parse5E (body : Nat) (form : LForm) : Res Instr :=
  match body / 262144 % 16 with
  | 0 => fixed 13 0 0 body (withX form fun x => .fenceAcq ⟨fld 5 13 body, x⟩)
  | 1 => fixed 13 0 0 body (withX form fun x => .fenceRel ⟨fld 5 13 body, x⟩)
  | 2 => fixed 13 0 0 body (withX form fun x => .fenceAcqrel ⟨fld 5 13 body, x⟩)
  | 3 => fixed 13 0 0 body (withX form fun x => .fenceSc ⟨fld 5 13 body, x⟩)
  | _ => .bad .badMinor

/-- Major 0x5F: BOINIT. -/
def parse5F (body : Nat) (form : LForm) : Res Instr :=
  fixed 7 0 0 body (withX form fun x => .boinit ⟨fld 5 17 body, fld 5 12 body, fld 5 7 body, x⟩)

/-- Major 0x60: BOARRIVE. -/
def parse60 (body : Nat) (form : LForm) : Res Instr :=
  fixed 7 0 0 body (withX form fun x => .boarrive ⟨fld 5 17 body, fld 5 12 body, fld 5 7 body, x⟩)

/-- Major 0x61: BOWAIT. -/
def parse61 (body : Nat) (form : LForm) : Res Instr :=
  fixed 7 0 0 body (withX form fun x => .bowait ⟨fld 5 17 body, fld 5 12 body, fld 5 7 body, x⟩)

/-- Major 0x62: BOTEST. -/
def parse62 (body : Nat) (form : LForm) : Res Instr :=
  fixed 7 0 0 body (withX form fun x => .botest ⟨fld 5 17 body, fld 5 12 body, fld 5 7 body, x⟩)

/-- Major 0x63: TKWAIT. -/
def parse63 (body : Nat) (form : LForm) : Res Instr :=
  fixed 14 8 0 body (withX form fun x => .tkwait ⟨fld 8 0 body, x⟩)

/-- Major 0x64: LNSET. -/
def parse64 (body : Nat) (form : LForm) : Res Instr :=
  fixed 7 0 0 body (withX form fun x => .lnset ⟨fld 5 17 body, fld 5 12 body, fld 5 7 body, x⟩)

/-- Major 0x65: CPY. -/
def parse65 (body : Nat) (form : LForm) : Res Instr :=
  fixed 5 17 0 body (fixed 7 0 0 body (withExt form fun x => .cpy ⟨fld 5 12 body, fld 5 7 body, x⟩))

/-- Major 0x66: CPYR, CPYR. -/
def parse66 (body : Nat) (form : LForm) : Res Instr :=
  match body / 1 % 4 with
  | 0 => fixed 4 2 15 body (withExt form fun x => .cpyrLoad ⟨fld 6 16 body, fld 5 11 body, fld 5 6 body, x⟩)
  | 1 => fixed 4 2 15 body (withExt form fun x => .cpyrStore ⟨fld 6 16 body, fld 5 11 body, fld 5 6 body, x⟩)
  | _ => .bad .badMinor

/-- Major 0x67: CPYX. -/
def parse67 (body : Nat) (form : LForm) : Res Instr :=
  match body / 1 % 4 with
  | 0 => fixed 5 11 0 body (fixed 4 2 15 body (withExt form fun x => .cpyx ⟨fld 6 16 body, fld 5 6 body, x⟩))
  | _ => .bad .badMinor

/-- Major 0x68: MATT. -/
noncomputable def parse68 (body : Nat) (form : LForm) : Res Instr :=
  fixed 5 17 0 body (fixed 7 0 0 body (withX form fun x => .matt ⟨fld 5 12 body, fld 5 7 body, x⟩))

/-- Major 0x69: MDET. -/
noncomputable def parse69 (body : Nat) (form : LForm) : Res Instr :=
  fixed 22 0 0 body (withX form fun x => .mdet ⟨x⟩)

/-- Major 0x6A: MCFG. -/
noncomputable def parse6A (body : Nat) (form : LForm) : Res Instr :=
  fixed 22 0 0 body (withExt form fun x => .mcfg ⟨x⟩)

/-- Major 0x6B: MLDS. -/
noncomputable def parse6B (body : Nat) (form : LForm) : Res Instr :=
  fixed 5 17 0 body (fixed 7 0 0 body (withX form fun x => .mlds ⟨fld 5 12 body, fld 5 7 body, x⟩))

/-- Major 0x6C: MSWAP. -/
noncomputable def parse6C (body : Nat) (form : LForm) : Res Instr :=
  fixed 22 0 0 body (withX form fun x => .mswap ⟨x⟩)

/-- Major 0x6D: MSTRM. -/
noncomputable def parse6D (body : Nat) (form : LForm) : Res Instr :=
  fixed 7 0 0 body (withX form fun x => .mstrm ⟨fld 5 17 body, fld 5 12 body, fld 5 7 body, x⟩)

/-- Major 0x6E: MACZ, MACST, MACLD. -/
noncomputable def parse6E (body : Nat) (form : LForm) : Res Instr :=
  match body / 1 % 128 with
  | 0 => fixed 5 12 0 body (withX form fun x => .macz ⟨fld 5 17 body, fld 5 7 body, x⟩)
  | 1 => withX form fun x => .macst ⟨fld 5 17 body, fld 5 12 body, fld 5 7 body, x⟩
  | 2 => withX form fun x => .macld ⟨fld 5 17 body, fld 5 12 body, fld 5 7 body, x⟩
  | _ => .bad .badMinor

/-- Major 0x70: XRUN. -/
noncomputable def parse70 (body : Nat) (form : LForm) : Res Instr :=
  fixed 12 0 0 body (withX form fun x => .xrun ⟨fld 5 17 body, fld 5 12 body, x⟩)

/-- Major 0x71: XMRG. -/
noncomputable def parse71 (body : Nat) (form : LForm) : Res Instr :=
  fixed 12 0 0 body (withX form fun x => .xmrg ⟨fld 5 17 body, fld 5 12 body, x⟩)

/-- Major 0x72: XSEND. -/
noncomputable def parse72 (body : Nat) (form : LForm) : Res Instr :=
  fixed 5 17 0 body (fixed 12 0 0 body (withX form fun x => .xsend ⟨fld 5 12 body, x⟩))

/-- Major 0x73: XRECV. -/
noncomputable def parse73 (body : Nat) (form : LForm) : Res Instr :=
  fixed 7 0 0 body (withX form fun x => .xrecv ⟨fld 5 17 body, fld 5 12 body, fld 5 7 body, x⟩)

/-- Major 0x74: XOPEN, XCLOSE, XSPLT, XCOMB, XSAMP, XROUND, XCAPSET. -/
noncomputable def parse74 (body : Nat) (form : LForm) : Res Instr :=
  match body / 1 % 128 with
  | 0 => fixed 5 17 0 body (withX form fun x => .xopen ⟨fld 5 12 body, fld 5 7 body, x⟩)
  | 1 => fixed 15 7 0 body (withX form fun x => .xclose ⟨x⟩)
  | 2 => fixed 5 17 0 body (withX form fun x => .xsplt ⟨fld 5 12 body, fld 5 7 body, x⟩)
  | 3 => fixed 5 17 0 body (withX form fun x => .xcomb ⟨fld 5 12 body, fld 5 7 body, x⟩)
  | 4 => fixed 5 7 0 body (withX form fun x => .xsamp ⟨fld 5 17 body, fld 5 12 body, x⟩)
  | 5 => fixed 5 17 0 body (withX form fun x => .xround ⟨fld 5 12 body, fld 5 7 body, x⟩)
  | 6 => fixed 5 17 0 body (withX form fun x => .xcapset ⟨fld 5 12 body, fld 5 7 body, x⟩)
  | _ => .bad .badMinor

/-- Major 0x75: XTOPK. -/
noncomputable def parse75 (body : Nat) (form : LForm) : Res Instr :=
  match body / 1 % 4 with
  | 0 => withExt form fun x => .xtopk ⟨fld 6 16 body, fld 5 11 body, fld 5 6 body, fld 4 2 body, x⟩
  | _ => .bad .badMinor

/-- Major 0x76: XRTAB, XLOAD, XPFT. -/
noncomputable def parse76 (body : Nat) (form : LForm) : Res Instr :=
  match body / 1 % 128 with
  | 0 => fixed 5 17 0 body (withX form fun x => .xrtab ⟨fld 5 12 body, fld 5 7 body, x⟩)
  | 1 => fixed 5 7 0 body (withX form fun x => .xload ⟨fld 5 17 body, fld 5 12 body, x⟩)
  | 2 => fixed 5 17 0 body (withX form fun x => .xpft ⟨fld 5 12 body, fld 5 7 body, x⟩)
  | _ => .bad .badMinor

/-- Major 0x78: COLL.REDUCE, COLL.ALLRED, COLL.GATHER, COLL.SCATTER, COLL.BCAST. -/
noncomputable def parse78 (body : Nat) (form : LForm) : Res Instr :=
  match form with
  | .ext x =>
    fixed 3 7 0 body (match x.imm32.toNat % 8 with
      | 0 => .ok (.collReduce ⟨fld 6 16 body, fld 6 10 body, fld 3 4 body, fld 4 0 body, x⟩)
      | 1 => .ok (.collAllred ⟨fld 6 16 body, fld 6 10 body, fld 3 4 body, fld 4 0 body, x⟩)
      | 2 => .ok (.collGather ⟨fld 6 16 body, fld 6 10 body, fld 3 4 body, fld 4 0 body, x⟩)
      | 3 => .ok (.collScatter ⟨fld 6 16 body, fld 6 10 body, fld 3 4 body, fld 4 0 body, x⟩)
      | 4 => .ok (.collBcast ⟨fld 6 16 body, fld 6 10 body, fld 3 4 body, fld 4 0 body, x⟩)
      | _ => .bad .badMinor)
  | .word => .bad .oneWordForbidden
  | .lit _ => .bad .literalForbidden
  | .extLit _ _ => .bad .literalForbidden

/-- Major 0x79: GRPSET, CWAIT. -/
noncomputable def parse79 (body : Nat) (form : LForm) : Res Instr :=
  match body / 1 % 128 with
  | 0 => fixed 5 7 0 body (withX form fun x => .grpset ⟨fld 5 17 body, fld 5 12 body, x⟩)
  | 1 => fixed 10 7 0 body (withX form fun x => .cwait ⟨fld 5 17 body, x⟩)
  | _ => .bad .badMinor

/-- Major 0x7A: CLD, CST, CSCAN, CDENSE, CRINIT. -/
noncomputable def parse7A (body : Nat) (form : LForm) : Res Instr :=
  match body / 1 % 128 with
  | 0 => withX form fun x => .cld ⟨fld 5 17 body, fld 5 12 body, fld 5 7 body, x⟩
  | 1 => withX form fun x => .cst ⟨fld 5 17 body, fld 5 12 body, fld 5 7 body, x⟩
  | 2 => withX form fun x => .cscan ⟨fld 5 17 body, fld 5 12 body, fld 5 7 body, x⟩
  | 3 => fixed 5 17 0 body (withX form fun x => .cdense ⟨fld 5 12 body, fld 5 7 body, x⟩)
  | 4 => fixed 5 7 0 body (withX form fun x => .crinit ⟨fld 5 17 body, fld 5 12 body, x⟩)
  | _ => .bad .badMinor

/-- Major 0x7B: GTH, SCT, SCTADD. -/
noncomputable def parse7B (body : Nat) (form : LForm) : Res Instr :=
  match body / 1 % 128 with
  | 0 => withX form fun x => .gth ⟨fld 5 17 body, fld 5 12 body, fld 5 7 body, x⟩
  | 1 => withX form fun x => .sct ⟨fld 5 17 body, fld 5 12 body, fld 5 7 body, x⟩
  | 2 => withX form fun x => .sctadd ⟨fld 5 17 body, fld 5 12 body, fld 5 7 body, x⟩
  | _ => .bad .badMinor

/-- Major 0x7C: VSTC. -/
noncomputable def parse7C (body : Nat) (form : LForm) : Res Instr :=
  match body / 1 % 4 with
  | 0 => withX form fun x => .vstc ⟨fld 6 16 body, fld 5 11 body, fld 5 6 body, fld 4 2 body, x⟩
  | _ => .bad .badMinor

/-- Major 0x7D: SYSCALL, BRK, URET. -/
noncomputable def parse7D (body : Nat) (form : LForm) : Res Instr :=
  match body / 1 % 128 with
  | 0 => fixed 15 7 0 body (withX form fun x => .syscall ⟨x⟩)
  | 1 => fixed 15 7 0 body (withX form fun x => .brk ⟨x⟩)
  | 2 => fixed 15 7 0 body (withX form fun x => .uret ⟨x⟩)
  | _ => .bad .badMinor

/-- Major 0x7E: ERET, HALT, WFI, TLBINV, VHTINV, CTXSAVE, CTXLOAD, SLDRAIN. -/
noncomputable def parse7E (body : Nat) (form : LForm) : Res Instr :=
  match body / 1 % 128 with
  | 0 => fixed 15 7 0 body (withX form fun x => .eret ⟨x⟩)
  | 1 => fixed 15 7 0 body (withX form fun x => .halt ⟨x⟩)
  | 2 => fixed 15 7 0 body (withX form fun x => .wfi ⟨x⟩)
  | 3 => fixed 5 17 0 body (withX form fun x => .tlbinv ⟨fld 5 12 body, fld 5 7 body, x⟩)
  | 4 => fixed 5 17 0 body (withX form fun x => .vhtinv ⟨fld 5 12 body, fld 5 7 body, x⟩)
  | 5 => fixed 5 7 0 body (withX form fun x => .ctxsave ⟨fld 5 17 body, fld 5 12 body, x⟩)
  | 6 => withX form fun x => .ctxload ⟨fld 5 17 body, fld 5 12 body, fld 5 7 body, x⟩
  | 7 => fixed 10 7 0 body (withX form fun x => .sldrain ⟨fld 5 17 body, x⟩)
  | _ => .bad .badMinor

/-- The major map (R35): the parser of each assigned major; 0x00 and 0x7F are never instructions, the others are
reserved (R46). -/
noncomputable def parse (maj body : Nat) (form : LForm) : Res Instr :=
  match maj with
  | 1 => parse01 body form
  | 2 => parse02 body form
  | 3 => parse03 body form
  | 4 => parse04 body form
  | 5 => parse05 body form
  | 6 => parse06 body form
  | 7 => parse07 body form
  | 8 => parse08 body form
  | 9 => parse09 body form
  | 10 => parse0A body form
  | 11 => parse0B body form
  | 12 => parse0C body form
  | 13 => parse0D body form
  | 14 => parse0E body form
  | 15 => parse0F body form
  | 16 => parse10 body form
  | 17 => parse11 body form
  | 18 => parse12 body form
  | 19 => parse13 body form
  | 20 => parse14 body form
  | 21 => parse15 body form
  | 24 => parse18 body form
  | 25 => parse19 body form
  | 26 => parse1A body form
  | 28 => parse1C body form
  | 32 => parse20 body form
  | 33 => parse21 body form
  | 34 => parse22 body form
  | 35 => parse23 body form
  | 36 => parse24 body form
  | 37 => parse25 body form
  | 38 => parse26 body form
  | 39 => parse27 body form
  | 40 => parse28 body form
  | 41 => parse29 body form
  | 42 => parse2A body form
  | 43 => parse2B body form
  | 44 => parse2C body form
  | 45 => parse2D body form
  | 46 => parse2E body form
  | 47 => parse2F body form
  | 48 => parse30 body form
  | 49 => parse31 body form
  | 50 => parse32 body form
  | 51 => parse33 body form
  | 52 => parse34 body form
  | 53 => parse35 body form
  | 54 => parse36 body form
  | 55 => parse37 body form
  | 56 => parse38 body form
  | 57 => parse39 body form
  | 58 => parse3A body form
  | 59 => parse3B body form
  | 60 => parse3C body form
  | 64 => parse40 body form
  | 65 => parse41 body form
  | 66 => parse42 body form
  | 67 => parse43 body form
  | 68 => parse44 body form
  | 69 => parse45 body form
  | 70 => parse46 body form
  | 71 => parse47 body form
  | 72 => parse48 body form
  | 73 => parse49 body form
  | 74 => parse4A body form
  | 75 => parse4B body form
  | 76 => parse4C body form
  | 77 => parse4D body form
  | 78 => parse4E body form
  | 79 => parse4F body form
  | 80 => parse50 body form
  | 81 => parse51 body form
  | 82 => parse52 body form
  | 83 => parse53 body form
  | 84 => parse54 body form
  | 85 => parse55 body form
  | 86 => parse56 body form
  | 87 => parse57 body form
  | 88 => parse58 body form
  | 89 => parse59 body form
  | 90 => parse5A body form
  | 91 => parse5B body form
  | 92 => parse5C body form
  | 93 => parse5D body form
  | 94 => parse5E body form
  | 95 => parse5F body form
  | 96 => parse60 body form
  | 97 => parse61 body form
  | 98 => parse62 body form
  | 99 => parse63 body form
  | 100 => parse64 body form
  | 101 => parse65 body form
  | 102 => parse66 body form
  | 103 => parse67 body form
  | 104 => parse68 body form
  | 105 => parse69 body form
  | 106 => parse6A body form
  | 107 => parse6B body form
  | 108 => parse6C body form
  | 109 => parse6D body form
  | 110 => parse6E body form
  | 112 => parse70 body form
  | 113 => parse71 body form
  | 114 => parse72 body form
  | 115 => parse73 body form
  | 116 => parse74 body form
  | 117 => parse75 body form
  | 118 => parse76 body form
  | 120 => parse78 body form
  | 121 => parse79 body form
  | 122 => parse7A body form
  | 123 => parse7B body form
  | 124 => parse7C body form
  | 125 => parse7D body form
  | 126 => parse7E body form
  | 0 => .bad .neverMajor
  | 127 => .bad .neverMajor
  | _ => .bad .reservedMajor
/-- The major, the 22 body bits and the framing of an instruction, written from the formats of R26 and the minors of
R35-R44. `none` for the device and host steps, which have no encoding. -/
def pack (i : Instr) : Option Packed :=
  match i with
  | .add o => some ⟨1, o.d.toNat * 131072 + o.a.toNat * 4096 + o.b.toNat * 128, ofOption o.x⟩
  | .sub o => some ⟨1, o.d.toNat * 131072 + o.a.toNat * 4096 + o.b.toNat * 128 + 1, ofOption o.x⟩
  | .and o => some ⟨1, o.d.toNat * 131072 + o.a.toNat * 4096 + o.b.toNat * 128 + 2, ofOption o.x⟩
  | .or o => some ⟨1, o.d.toNat * 131072 + o.a.toNat * 4096 + o.b.toNat * 128 + 3, ofOption o.x⟩
  | .xor o => some ⟨1, o.d.toNat * 131072 + o.a.toNat * 4096 + o.b.toNat * 128 + 4, ofOption o.x⟩
  | .andn o => some ⟨1, o.d.toNat * 131072 + o.a.toNat * 4096 + o.b.toNat * 128 + 5, ofOption o.x⟩
  | .shl o => some ⟨1, o.d.toNat * 131072 + o.a.toNat * 4096 + o.b.toNat * 128 + 6, ofOption o.x⟩
  | .shr o => some ⟨1, o.d.toNat * 131072 + o.a.toNat * 4096 + o.b.toNat * 128 + 7, ofOption o.x⟩
  | .sar o => some ⟨1, o.d.toNat * 131072 + o.a.toNat * 4096 + o.b.toNat * 128 + 8, ofOption o.x⟩
  | .rotr o => some ⟨1, o.d.toNat * 131072 + o.a.toNat * 4096 + o.b.toNat * 128 + 9, ofOption o.x⟩
  | .min o => some ⟨1, o.d.toNat * 131072 + o.a.toNat * 4096 + o.b.toNat * 128 + 10, ofOption o.x⟩
  | .max o => some ⟨1, o.d.toNat * 131072 + o.a.toNat * 4096 + o.b.toNat * 128 + 11, ofOption o.x⟩
  | .minu o => some ⟨1, o.d.toNat * 131072 + o.a.toNat * 4096 + o.b.toNat * 128 + 12, ofOption o.x⟩
  | .maxu o => some ⟨1, o.d.toNat * 131072 + o.a.toNat * 4096 + o.b.toNat * 128 + 13, ofOption o.x⟩
  | .mul o => some ⟨1, o.d.toNat * 131072 + o.a.toNat * 4096 + o.b.toNat * 128 + 16, ofOption o.x⟩
  | .mulh o => some ⟨1, o.d.toNat * 131072 + o.a.toNat * 4096 + o.b.toNat * 128 + 17, ofOption o.x⟩
  | .mulhu o => some ⟨1, o.d.toNat * 131072 + o.a.toNat * 4096 + o.b.toNat * 128 + 18, ofOption o.x⟩
  | .div o => some ⟨1, o.d.toNat * 131072 + o.a.toNat * 4096 + o.b.toNat * 128 + 19, ofOption o.x⟩
  | .divu o => some ⟨1, o.d.toNat * 131072 + o.a.toNat * 4096 + o.b.toNat * 128 + 20, ofOption o.x⟩
  | .rem o => some ⟨1, o.d.toNat * 131072 + o.a.toNat * 4096 + o.b.toNat * 128 + 21, ofOption o.x⟩
  | .remu o => some ⟨1, o.d.toNat * 131072 + o.a.toNat * 4096 + o.b.toNat * 128 + 22, ofOption o.x⟩
  | .clz o => some ⟨1, o.d.toNat * 131072 + o.a.toNat * 4096 + 24, ofOption o.x⟩
  | .ctz o => some ⟨1, o.d.toNat * 131072 + o.a.toNat * 4096 + 25, ofOption o.x⟩
  | .popc o => some ⟨1, o.d.toNat * 131072 + o.a.toNat * 4096 + 26, ofOption o.x⟩
  | .cmpeq o => some ⟨1, o.d.toNat * 131072 + o.a.toNat * 4096 + o.b.toNat * 128 + 32, ofOption o.x⟩
  | .cmpne o => some ⟨1, o.d.toNat * 131072 + o.a.toNat * 4096 + o.b.toNat * 128 + 33, ofOption o.x⟩
  | .cmplt o => some ⟨1, o.d.toNat * 131072 + o.a.toNat * 4096 + o.b.toNat * 128 + 34, ofOption o.x⟩
  | .cmpge o => some ⟨1, o.d.toNat * 131072 + o.a.toNat * 4096 + o.b.toNat * 128 + 35, ofOption o.x⟩
  | .cmpltu o => some ⟨1, o.d.toNat * 131072 + o.a.toNat * 4096 + o.b.toNat * 128 + 36, ofOption o.x⟩
  | .cmpgeu o => some ⟨1, o.d.toNat * 131072 + o.a.toNat * 4096 + o.b.toNat * 128 + 37, ofOption o.x⟩
  | .sel o => some ⟨1, o.d.toNat * 131072 + o.a.toNat * 4096 + o.b.toNat * 128 + 48, .ext o.x⟩
  | .addi o => some ⟨2, o.d.toNat * 131072 + o.a.toNat * 4096 + o.i.toNat, o.form⟩
  | .andi o => some ⟨3, o.d.toNat * 131072 + o.a.toNat * 4096 + o.i.toNat, o.form⟩
  | .ori o => some ⟨4, o.d.toNat * 131072 + o.a.toNat * 4096 + o.i.toNat, o.form⟩
  | .xori o => some ⟨5, o.d.toNat * 131072 + o.a.toNat * 4096 + o.i.toNat, o.form⟩
  | .shli o => some ⟨6, o.d.toNat * 131072 + o.a.toNat * 4096 + o.n.toNat, o.form⟩
  | .shri o => some ⟨7, o.d.toNat * 131072 + o.a.toNat * 4096 + o.n.toNat, o.form⟩
  | .sari o => some ⟨8, o.d.toNat * 131072 + o.a.toNat * 4096 + o.n.toNat, o.form⟩
  | .lit o => some ⟨9, o.d.toNat * 131072, o.form⟩
  | .fadd o => some ⟨10, o.d.toNat * 131072 + o.a.toNat * 4096 + o.b.toNat * 128 + o.w.toNat * 64, ofOption o.x⟩
  | .fsub o => some ⟨10, o.d.toNat * 131072 + o.a.toNat * 4096 + o.b.toNat * 128 + o.w.toNat * 64 + 1, ofOption o.x⟩
  | .fmul o => some ⟨10, o.d.toNat * 131072 + o.a.toNat * 4096 + o.b.toNat * 128 + o.w.toNat * 64 + 2, ofOption o.x⟩
  | .fdiv o => some ⟨10, o.d.toNat * 131072 + o.a.toNat * 4096 + o.b.toNat * 128 + o.w.toNat * 64 + 3, ofOption o.x⟩
  | .fsqrt o => some ⟨10, o.d.toNat * 131072 + o.a.toNat * 4096 + o.w.toNat * 64 + 4, ofOption o.x⟩
  | .fmin o => some ⟨10, o.d.toNat * 131072 + o.a.toNat * 4096 + o.b.toNat * 128 + o.w.toNat * 64 + 5, ofOption o.x⟩
  | .fmax o => some ⟨10, o.d.toNat * 131072 + o.a.toNat * 4096 + o.b.toNat * 128 + o.w.toNat * 64 + 6, ofOption o.x⟩
  | .fcmpeq o => some ⟨10, o.d.toNat * 131072 + o.a.toNat * 4096 + o.b.toNat * 128 + o.w.toNat * 64 + 7, ofOption o.x⟩
  | .fcmplt o => some ⟨10, o.d.toNat * 131072 + o.a.toNat * 4096 + o.b.toNat * 128 + o.w.toNat * 64 + 8, ofOption o.x⟩
  | .fcmple o => some ⟨10, o.d.toNat * 131072 + o.a.toNat * 4096 + o.b.toNat * 128 + o.w.toNat * 64 + 9, ofOption o.x⟩
  | .fma o => some ⟨10, o.d.toNat * 131072 + o.a.toNat * 4096 + o.b.toNat * 128 + o.w.toNat * 64 + 10, .ext o.x⟩
  | .fcvti o => some ⟨10, o.d.toNat * 131072 + o.a.toNat * 4096 + o.w.toNat * 64 + 11, ofOption o.x⟩
  | .fcvtf o => some ⟨10, o.d.toNat * 131072 + o.a.toNat * 4096 + o.w.toNat * 64 + 12, ofOption o.x⟩
  | .fcvtds o => some ⟨10, o.d.toNat * 131072 + o.a.toNat * 4096 + 13, ofOption o.x⟩
  | .fcvtsd o => some ⟨10, o.d.toNat * 131072 + o.a.toNat * 4096 + 14, ofOption o.x⟩
  | .fabs o => some ⟨10, o.d.toNat * 131072 + o.a.toNat * 4096 + o.w.toNat * 64 + 15, ofOption o.x⟩
  | .fneg o => some ⟨10, o.d.toNat * 131072 + o.a.toNat * 4096 + o.w.toNat * 64 + 16, ofOption o.x⟩
  | .fclass o => some ⟨10, o.d.toNat * 131072 + o.a.toNat * 4096 + o.w.toNat * 64 + 17, ofOption o.x⟩
  | .ld o => some ⟨11, o.d.toNat * 131072 + o.a.toNat * 4096 + o.p.toNat, ofOption o.x⟩
  | .ldh o => some ⟨11, o.d.toNat * 131072 + o.a.toNat * 4096 + o.p.toNat + 512, ofOption o.x⟩
  | .ldw o => some ⟨11, o.d.toNat * 131072 + o.a.toNat * 4096 + o.p.toNat + 1024, ofOption o.x⟩
  | .ldd o => some ⟨11, o.d.toNat * 131072 + o.a.toNat * 4096 + o.p.toNat + 1536, ofOption o.x⟩
  | .ldbu o => some ⟨11, o.d.toNat * 131072 + o.a.toNat * 4096 + o.p.toNat + 2048, ofOption o.x⟩
  | .ldhu o => some ⟨11, o.d.toNat * 131072 + o.a.toNat * 4096 + o.p.toNat + 2560, ofOption o.x⟩
  | .ldwu o => some ⟨11, o.d.toNat * 131072 + o.a.toNat * 4096 + o.p.toNat + 3072, ofOption o.x⟩
  | .st o => some ⟨12, o.d.toNat * 131072 + o.a.toNat * 4096 + o.p.toNat, ofOption o.x⟩
  | .sth o => some ⟨12, o.d.toNat * 131072 + o.a.toNat * 4096 + o.p.toNat + 512, ofOption o.x⟩
  | .stw o => some ⟨12, o.d.toNat * 131072 + o.a.toNat * 4096 + o.p.toNat + 1024, ofOption o.x⟩
  | .std o => some ⟨12, o.d.toNat * 131072 + o.a.toNat * 4096 + o.p.toNat + 1536, ofOption o.x⟩
  | .beq o => some ⟨13, o.a.toNat * 131072 + o.b.toNat * 4096 + o.p.toNat, ofOption o.x⟩
  | .bne o => some ⟨14, o.a.toNat * 131072 + o.b.toNat * 4096 + o.p.toNat, ofOption o.x⟩
  | .blt o => some ⟨15, o.a.toNat * 131072 + o.b.toNat * 4096 + o.p.toNat, ofOption o.x⟩
  | .bge o => some ⟨16, o.a.toNat * 131072 + o.b.toNat * 4096 + o.p.toNat, ofOption o.x⟩
  | .bltu o => some ⟨17, o.a.toNat * 131072 + o.b.toNat * 4096 + o.p.toNat, ofOption o.x⟩
  | .bgeu o => some ⟨18, o.a.toNat * 131072 + o.b.toNat * 4096 + o.p.toNat, ofOption o.x⟩
  | .jmp o => some ⟨19, o.p.toNat, ofOption o.x⟩
  | .call o => some ⟨20, o.p.toNat, ofOption o.x⟩
  | .jr o => some ⟨21, o.d.toNat * 131072 + o.a.toNat * 4096 + o.i.toNat, ofOption o.x⟩
  | .qpop o => some ⟨24, o.d.toNat * 131072 + o.q.toNat * 128, ofOption o.x⟩
  | .qpeek o => some ⟨24, o.d.toNat * 131072 + o.q.toNat * 128 + 1, ofOption o.x⟩
  | .qcnt o => some ⟨24, o.d.toNat * 131072 + o.q.toNat * 128 + 2, ofOption o.x⟩
  | .csrr o => some ⟨25, o.d.toNat * 131072 + o.i.toNat, ofOption o.x⟩
  | .csrw o => some ⟨26, o.a.toNat * 4096 + o.i.toNat, ofOption o.x⟩
  | .csrwCf o => some ⟨26, o.a.toNat * 4096 + 1, ofOption o.x⟩
  | .csrwVlcap o => some ⟨26, o.a.toNat * 4096 + 2048, ofOption o.x⟩
  | .csrwBnd o => some ⟨26, o.a.toNat * 4096 + o.k.toNat + 2048, ofOption o.x⟩
  | .csrwVstart o => some ⟨26, o.a.toNat * 4096 + 3, ofOption o.x⟩
  | .csrwCtxid o => some ⟨26, o.a.toNat * 4096 + 2080, ofOption o.x⟩
  | .tid o => some ⟨28, o.d.toNat * 131072 + o.l.toNat * 128, ofOption o.x⟩
  | .tsz o => some ⟨28, o.d.toNat * 131072 + o.l.toNat * 128 + 1, ofOption o.x⟩
  | .tdepth o => some ⟨28, o.d.toNat * 131072 + 2, ofOption o.x⟩
  | .barl o => some ⟨28, o.l.toNat * 128 + 3, ofOption o.x⟩
  | .farmnext o => some ⟨28, o.d.toNat * 131072 + o.l.toNat * 128 + 4, ofOption o.x⟩
  | .phase o => some ⟨28, o.l.toNat * 128 + 5, ofOption o.x⟩
  | .yield o => some ⟨28, 6, ofOption o.x⟩
  | .exit o => some ⟨28, 7, ofOption o.x⟩
  | .launch o => some ⟨28, o.d.toNat * 131072 + o.a.toNat * 4096 + 8, ofOption o.x⟩
  | .lwait o => some ⟨28, o.a.toNat * 4096 + 9, ofOption o.x⟩
  | .setvl o => some ⟨32, o.d.toNat * 131072 + o.a.toNat * 4096 + o.f.toNat * 256, ofOption o.x⟩
  | .vadd o => some ⟨33, o.d.toNat * 65536 + o.a.toNat * 1024 + o.b.toNat * 16 + o.m.toNat, ofOption o.x⟩
  | .vsub o => some ⟨34, o.d.toNat * 65536 + o.a.toNat * 1024 + o.b.toNat * 16 + o.m.toNat, ofOption o.x⟩
  | .vmul o => some ⟨35, o.d.toNat * 65536 + o.a.toNat * 1024 + o.b.toNat * 16 + o.m.toNat, ofOption o.x⟩
  | .vmulh o => some ⟨36, o.d.toNat * 65536 + o.a.toNat * 1024 + o.b.toNat * 16 + o.m.toNat, ofOption o.x⟩
  | .vmin o => some ⟨37, o.d.toNat * 65536 + o.a.toNat * 1024 + o.b.toNat * 16 + o.m.toNat, ofOption o.x⟩
  | .vmax o => some ⟨38, o.d.toNat * 65536 + o.a.toNat * 1024 + o.b.toNat * 16 + o.m.toNat, ofOption o.x⟩
  | .vand o => some ⟨39, o.d.toNat * 65536 + o.a.toNat * 1024 + o.b.toNat * 16 + o.m.toNat, ofOption o.x⟩
  | .vor o => some ⟨40, o.d.toNat * 65536 + o.a.toNat * 1024 + o.b.toNat * 16 + o.m.toNat, ofOption o.x⟩
  | .vxor o => some ⟨41, o.d.toNat * 65536 + o.a.toNat * 1024 + o.b.toNat * 16 + o.m.toNat, ofOption o.x⟩
  | .vshl o => some ⟨42, o.d.toNat * 65536 + o.a.toNat * 1024 + o.b.toNat * 16 + o.m.toNat, ofOption o.x⟩
  | .vshr o => some ⟨43, o.d.toNat * 65536 + o.a.toNat * 1024 + o.b.toNat * 16 + o.m.toNat, ofOption o.x⟩
  | .vsar o => some ⟨44, o.d.toNat * 65536 + o.a.toNat * 1024 + o.b.toNat * 16 + o.m.toNat, ofOption o.x⟩
  | .vfma o => some ⟨45, o.d.toNat * 65536 + o.a.toNat * 1024 + o.b.toNat * 16 + o.m.toNat, ofOption o.x⟩
  | .vfms o => some ⟨45, o.d.toNat * 65536 + o.a.toNat * 1024 + o.b.toNat * 16 + o.m.toNat, .ext o.x⟩
  | .vfnma o => some ⟨45, o.d.toNat * 65536 + o.a.toNat * 1024 + o.b.toNat * 16 + o.m.toNat, .ext o.x⟩
  | .vfnms o => some ⟨45, o.d.toNat * 65536 + o.a.toNat * 1024 + o.b.toNat * 16 + o.m.toNat, .ext o.x⟩
  | .vdiv o => some ⟨46, o.d.toNat * 65536 + o.a.toNat * 1024 + o.b.toNat * 16 + o.m.toNat, ofOption o.x⟩
  | .vsqrt o => some ⟨47, o.d.toNat * 65536 + o.a.toNat * 1024 + o.m.toNat, ofOption o.x⟩
  | .vabs o => some ⟨48, o.d.toNat * 65536 + o.a.toNat * 1024 + o.m.toNat, ofOption o.x⟩
  | .vneg o => some ⟨48, o.d.toNat * 65536 + o.a.toNat * 1024 + o.m.toNat + 16, ofOption o.x⟩
  | .vclz o => some ⟨48, o.d.toNat * 65536 + o.a.toNat * 1024 + o.m.toNat + 32, ofOption o.x⟩
  | .vpopc o => some ⟨48, o.d.toNat * 65536 + o.a.toNat * 1024 + o.m.toNat + 48, ofOption o.x⟩
  | .vrcpe o => some ⟨48, o.d.toNat * 65536 + o.a.toNat * 1024 + o.m.toNat + 64, ofOption o.x⟩
  | .vrsqe o => some ⟨48, o.d.toNat * 65536 + o.a.toNat * 1024 + o.m.toNat + 80, ofOption o.x⟩
  | .vexp2 o => some ⟨48, o.d.toNat * 65536 + o.a.toNat * 1024 + o.m.toNat + 96, ofOption o.x⟩
  | .vlog2 o => some ⟨48, o.d.toNat * 65536 + o.a.toNat * 1024 + o.m.toNat + 112, ofOption o.x⟩
  | .vfloor o => some ⟨48, o.d.toNat * 65536 + o.a.toNat * 1024 + o.m.toNat + 128, ofOption o.x⟩
  | .vceil o => some ⟨48, o.d.toNat * 65536 + o.a.toNat * 1024 + o.m.toNat + 144, ofOption o.x⟩
  | .vrint o => some ⟨48, o.d.toNat * 65536 + o.a.toNat * 1024 + o.m.toNat + 160, ofOption o.x⟩
  | .vclass o => some ⟨48, o.d.toNat * 65536 + o.a.toNat * 1024 + o.m.toNat + 176, ofOption o.x⟩
  | .vcmpeq o => some ⟨49, o.n.toNat * 262144 + o.a.toNat * 1024 + o.b.toNat * 16 + o.m.toNat, ofOption o.x⟩
  | .vcmpne o => some ⟨50, o.n.toNat * 262144 + o.a.toNat * 1024 + o.b.toNat * 16 + o.m.toNat, ofOption o.x⟩
  | .vcmplt o => some ⟨51, o.n.toNat * 262144 + o.a.toNat * 1024 + o.b.toNat * 16 + o.m.toNat, ofOption o.x⟩
  | .vcmple o => some ⟨52, o.n.toNat * 262144 + o.a.toNat * 1024 + o.b.toNat * 16 + o.m.toNat, ofOption o.x⟩
  | .vcmpgt o => some ⟨53, o.n.toNat * 262144 + o.a.toNat * 1024 + o.b.toNat * 16 + o.m.toNat, ofOption o.x⟩
  | .vcmpge o => some ⟨54, o.n.toNat * 262144 + o.a.toNat * 1024 + o.b.toNat * 16 + o.m.toNat, ofOption o.x⟩
  | .vsel o => some ⟨55, o.d.toNat * 65536 + o.a.toNat * 1024 + o.b.toNat * 16 + o.m.toNat, ofOption o.x⟩
  | .mand o => some ⟨56, o.n.toNat * 262144 + o.a.toNat * 16384 + o.b.toNat * 1024, ofOption o.x⟩
  | .mor o => some ⟨56, o.n.toNat * 262144 + o.a.toNat * 16384 + o.b.toNat * 1024 + 64, ofOption o.x⟩
  | .mxor o => some ⟨56, o.n.toNat * 262144 + o.a.toNat * 16384 + o.b.toNat * 1024 + 128, ofOption o.x⟩
  | .mandn o => some ⟨56, o.n.toNat * 262144 + o.a.toNat * 16384 + o.b.toNat * 1024 + 192, ofOption o.x⟩
  | .mnot o => some ⟨56, o.n.toNat * 262144 + o.a.toNat * 16384 + 256, ofOption o.x⟩
  | .mset o => some ⟨56, o.n.toNat * 262144 + o.a.toNat * 16384 + o.b.toNat * 1024 + 320, ofOption o.x⟩
  | .mclr o => some ⟨56, o.n.toNat * 262144 + 384, ofOption o.x⟩
  | .mmov o => some ⟨56, o.n.toNat * 262144 + o.a.toNat * 16384 + 448, ofOption o.x⟩
  | .mpop o => some ⟨56, o.q.toNat * 1048576 + o.a.toNat * 16384 + 512, ofOption o.x⟩
  | .mfirst o => some ⟨56, o.q.toNat * 1048576 + o.a.toNat * 16384 + 576, ofOption o.x⟩
  | .vbcast o => some ⟨57, o.d.toNat * 65536 + o.b.toNat * 32 + 30, o.form⟩
  | .viota o => some ⟨58, o.d.toNat * 65536 + o.b.toNat * 32 + o.m.toNat * 2, ofOption o.x⟩
  | .vtoq o => some ⟨59, o.q.toNat * 1048576 + o.a.toNat * 1024 + o.b.toNat * 32 + 30, ofOption o.x⟩
  | .vtid o => some ⟨60, o.d.toNat * 65536 + o.l.toNat * 32 + o.m.toNat * 2, ofOption o.x⟩
  | .vperm o => some ⟨64, o.d.toNat * 65536 + o.a.toNat * 1024 + o.b.toNat * 16 + o.m.toNat, ofOption o.x⟩
  | .vslideDn o => some ⟨65, o.d.toNat * 65536 + o.a.toNat * 1024 + o.b.toNat * 32 + o.m.toNat * 2, ofOption o.x⟩
  | .vslideUp o => some ⟨65, o.d.toNat * 65536 + o.a.toNat * 1024 + o.b.toNat * 32 + o.m.toNat * 2, .ext o.x⟩
  | .vcompr o => some ⟨66, o.d.toNat * 65536 + o.a.toNat * 1024 + o.m.toNat, ofOption o.x⟩
  | .vexpnd o => some ⟨67, o.d.toNat * 65536 + o.a.toNat * 1024 + o.m.toNat, ofOption o.x⟩
  | .vzipLo o => some ⟨68, o.d.toNat * 65536 + o.a.toNat * 1024 + o.b.toNat * 16 + o.m.toNat, ofOption o.x⟩
  | .vzipHi o => some ⟨68, o.d.toNat * 65536 + o.a.toNat * 1024 + o.b.toNat * 16 + o.m.toNat, .ext o.x⟩
  | .vunzipEv o => some ⟨68, o.d.toNat * 65536 + o.a.toNat * 1024 + o.b.toNat * 16 + o.m.toNat, .ext o.x⟩
  | .vunzipOd o => some ⟨68, o.d.toNat * 65536 + o.a.toNat * 1024 + o.b.toNat * 16 + o.m.toNat, .ext o.x⟩
  | .vredSum o => some ⟨69, o.d.toNat * 65536 + o.a.toNat * 1024 + o.m.toNat, ofOption o.x⟩
  | .vredMin o => some ⟨69, o.d.toNat * 65536 + o.a.toNat * 1024 + o.m.toNat + 16, ofOption o.x⟩
  | .vredMax o => some ⟨69, o.d.toNat * 65536 + o.a.toNat * 1024 + o.m.toNat + 32, ofOption o.x⟩
  | .vredAnd o => some ⟨69, o.d.toNat * 65536 + o.a.toNat * 1024 + o.m.toNat + 48, ofOption o.x⟩
  | .vredOr o => some ⟨69, o.d.toNat * 65536 + o.a.toNat * 1024 + o.m.toNat + 64, ofOption o.x⟩
  | .vredXor o => some ⟨69, o.d.toNat * 65536 + o.a.toNat * 1024 + o.m.toNat + 80, ofOption o.x⟩
  | .vscanSum o => some ⟨70, o.d.toNat * 65536 + o.a.toNat * 1024 + o.m.toNat, ofOption o.x⟩
  | .vscanMin o => some ⟨70, o.d.toNat * 65536 + o.a.toNat * 1024 + o.m.toNat + 16, ofOption o.x⟩
  | .vscanMax o => some ⟨70, o.d.toNat * 65536 + o.a.toNat * 1024 + o.m.toNat + 32, ofOption o.x⟩
  | .vscanAnd o => some ⟨70, o.d.toNat * 65536 + o.a.toNat * 1024 + o.m.toNat + 48, ofOption o.x⟩
  | .vscanOr o => some ⟨70, o.d.toNat * 65536 + o.a.toNat * 1024 + o.m.toNat + 64, ofOption o.x⟩
  | .vscanXor o => some ⟨70, o.d.toNat * 65536 + o.a.toNat * 1024 + o.m.toNat + 80, ofOption o.x⟩
  | .vgredSum o => some ⟨71, o.d.toNat * 65536 + o.a.toNat * 1024 + o.g.toNat * 16 + o.m.toNat, ofOption o.x⟩
  | .vgredMin o => some ⟨71, o.d.toNat * 65536 + o.a.toNat * 1024 + o.g.toNat * 16 + o.m.toNat + 256, ofOption o.x⟩
  | .vgredMax o => some ⟨71, o.d.toNat * 65536 + o.a.toNat * 1024 + o.g.toNat * 16 + o.m.toNat + 512, ofOption o.x⟩
  | .vgredOr o => some ⟨71, o.d.toNat * 65536 + o.a.toNat * 1024 + o.g.toNat * 16 + o.m.toNat + 768, ofOption o.x⟩
  | .vcvt o => some ⟨72, o.d.toNat * 65536 + o.a.toNat * 1024 + o.m.toNat, ofOption o.x⟩
  | .vretag o => some ⟨73, o.d.toNat * 65536 + o.a.toNat * 1024 + o.m.toNat, ofOption o.x⟩
  | .vfunr o => some ⟨74, o.d.toNat * 65536 + o.a.toNat * 1024 + o.b.toNat * 16 + o.m.toNat, .ext o.x⟩
  | .vfunl o => some ⟨74, o.d.toNat * 65536 + o.a.toNat * 1024 + o.b.toNat * 16 + o.m.toNat, .ext o.x⟩
  | .vext o => some ⟨75, o.d.toNat * 65536 + o.a.toNat * 1024 + o.b.toNat * 16 + o.m.toNat, ofOption o.x⟩
  | .vextUniform o => some ⟨75, o.d.toNat * 65536 + o.a.toNat * 1024 + o.m.toNat, .ext o.x⟩
  | .vextS o => some ⟨75, o.d.toNat * 65536 + o.a.toNat * 1024 + o.b.toNat * 16 + o.m.toNat, .ext o.x⟩
  | .vextSUniform o => some ⟨75, o.d.toNat * 65536 + o.a.toNat * 1024 + o.m.toNat, .ext o.x⟩
  | .dual o => some ⟨76, o.n.toNat * 524288, .word⟩
  | .tseed o => some ⟨77, o.d.toNat * 65536 + o.a.toNat * 1024 + o.k.toNat * 16 + o.m.toNat, ofOption o.x⟩
  | .tget o => some ⟨78, o.d.toNat * 65536 + o.a.toNat * 1024 + o.k.toNat * 16 + o.m.toNat, ofOption o.x⟩
  | .tclr o => some ⟨79, o.d.toNat * 65536 + o.k.toNat * 16 + o.m.toNat, ofOption o.x⟩
  | .vld o => some ⟨80, o.d.toNat * 65536 + o.a.toNat * 2048 + o.b.toNat * 64 + o.m.toNat * 4, ofOption o.x⟩
  | .vldStr o => some ⟨80, o.d.toNat * 65536 + o.a.toNat * 2048 + o.b.toNat * 64 + o.m.toNat * 4 + 1, ofOption o.x⟩
  | .vld2d o => some ⟨80, o.d.toNat * 65536 + o.a.toNat * 2048 + o.b.toNat * 64 + o.m.toNat * 4 + 2, .ext o.x⟩
  | .vst o => some ⟨81, o.d.toNat * 65536 + o.a.toNat * 2048 + o.b.toNat * 64 + o.m.toNat * 4, ofOption o.x⟩
  | .vstStr o => some ⟨81, o.d.toNat * 65536 + o.a.toNat * 2048 + o.b.toNat * 64 + o.m.toNat * 4 + 1, ofOption o.x⟩
  | .vst2d o => some ⟨81, o.d.toNat * 65536 + o.a.toNat * 2048 + o.b.toNat * 64 + o.m.toNat * 4 + 2, .ext o.x⟩
  | .vldo o => some ⟨82, o.d.toNat * 65536 + o.a.toNat * 2048 + o.b.toNat * 64 + o.m.toNat * 4, ofOption o.x⟩
  | .vldoStr o => some ⟨82, o.d.toNat * 65536 + o.a.toNat * 2048 + o.b.toNat * 64 + o.m.toNat * 4 + 1, ofOption o.x⟩
  | .vldo2d o => some ⟨82, o.d.toNat * 65536 + o.a.toNat * 2048 + o.b.toNat * 64 + o.m.toNat * 4 + 2, .ext o.x⟩
  | .vsto o => some ⟨83, o.d.toNat * 65536 + o.a.toNat * 2048 + o.b.toNat * 64 + o.m.toNat * 4, ofOption o.x⟩
  | .vstoStr o => some ⟨83, o.d.toNat * 65536 + o.a.toNat * 2048 + o.b.toNat * 64 + o.m.toNat * 4 + 1, ofOption o.x⟩
  | .vsto2d o => some ⟨83, o.d.toNat * 65536 + o.a.toNat * 2048 + o.b.toNat * 64 + o.m.toNat * 4 + 2, .ext o.x⟩
  | .vldsc o => some ⟨84, o.d.toNat * 65536 + o.a.toNat * 2048 + o.b.toNat * 64 + o.m.toNat * 4, ofOption o.x⟩
  | .vldscStr o => some ⟨84, o.d.toNat * 65536 + o.a.toNat * 2048 + o.b.toNat * 64 + o.m.toNat * 4 + 1, ofOption o.x⟩
  | .vldsc2d o => some ⟨84, o.d.toNat * 65536 + o.a.toNat * 2048 + o.b.toNat * 64 + o.m.toNat * 4 + 2, .ext o.x⟩
  | .vstsc o => some ⟨85, o.d.toNat * 65536 + o.a.toNat * 2048 + o.b.toNat * 64 + o.m.toNat * 4, ofOption o.x⟩
  | .vstscStr o => some ⟨85, o.d.toNat * 65536 + o.a.toNat * 2048 + o.b.toNat * 64 + o.m.toNat * 4 + 1, ofOption o.x⟩
  | .vstsc2d o => some ⟨85, o.d.toNat * 65536 + o.a.toNat * 2048 + o.b.toNat * 64 + o.m.toNat * 4 + 2, .ext o.x⟩
  | .vstb o => some ⟨86, o.d.toNat * 65536 + o.a.toNat * 2048 + o.b.toNat * 64 + o.m.toNat * 4, ofOption o.x⟩
  | .sideLogReplay _ => none
  | .ldfe o => some ⟨87, o.d.toNat * 131072 + o.a.toNat * 4096 + o.s.toNat * 512 + o.p.toNat, ofOption o.x⟩
  | .ldfeClr o => some ⟨87, o.d.toNat * 131072 + o.a.toNat * 4096 + o.s.toNat * 512 + o.p.toNat, .ext o.x⟩
  | .stfe o => some ⟨87, o.d.toNat * 131072 + o.a.toNat * 4096 + o.s.toNat * 512 + o.p.toNat + 2048, ofOption o.x⟩
  | .vldfe o => some ⟨88, o.d.toNat * 65536 + o.a.toNat * 2048 + o.b.toNat * 64 + o.m.toNat * 4, ofOption o.x⟩
  | .vldfeClr o => some ⟨88, o.d.toNat * 65536 + o.a.toNat * 2048 + o.b.toNat * 64 + o.m.toNat * 4, .ext o.x⟩
  | .spctest o => some ⟨89, o.d.toNat * 131072 + o.a.toNat * 4096, ofOption o.x⟩
  | .spccastTo o => some ⟨89, o.d.toNat * 131072 + o.a.toNat * 4096 + o.b.toNat * 128 + 1, ofOption o.x⟩
  | .spccastFrom o => some ⟨89, o.d.toNat * 131072 + o.a.toNat * 4096 + o.b.toNat * 128 + 2, ofOption o.x⟩
  | .prefL1 o => some ⟨90, o.a.toNat * 4096 + o.p.toNat, ofOption o.x⟩
  | .prefL2 o => some ⟨90, o.a.toNat * 4096 + o.p.toNat + 131072, ofOption o.x⟩
  | .clwb o => some ⟨91, o.a.toNat * 4096 + o.p.toNat, ofOption o.x⟩
  | .clinv o => some ⟨91, o.a.toNat * 4096 + o.p.toNat + 131072, ofOption o.x⟩
  | .atomAdd o => some ⟨92, o.d.toNat * 131072 + o.a.toNat * 4096 + o.b.toNat * 128, ofOption o.x⟩
  | .atomAnd o => some ⟨92, o.d.toNat * 131072 + o.a.toNat * 4096 + o.b.toNat * 128 + 1, ofOption o.x⟩
  | .atomOr o => some ⟨92, o.d.toNat * 131072 + o.a.toNat * 4096 + o.b.toNat * 128 + 2, ofOption o.x⟩
  | .atomXor o => some ⟨92, o.d.toNat * 131072 + o.a.toNat * 4096 + o.b.toNat * 128 + 3, ofOption o.x⟩
  | .atomMin o => some ⟨92, o.d.toNat * 131072 + o.a.toNat * 4096 + o.b.toNat * 128 + 4, ofOption o.x⟩
  | .atomMax o => some ⟨92, o.d.toNat * 131072 + o.a.toNat * 4096 + o.b.toNat * 128 + 5, ofOption o.x⟩
  | .atomMinu o => some ⟨92, o.d.toNat * 131072 + o.a.toNat * 4096 + o.b.toNat * 128 + 6, ofOption o.x⟩
  | .atomMaxu o => some ⟨92, o.d.toNat * 131072 + o.a.toNat * 4096 + o.b.toNat * 128 + 7, ofOption o.x⟩
  | .atomSwap o => some ⟨92, o.d.toNat * 131072 + o.a.toNat * 4096 + o.b.toNat * 128 + 8, ofOption o.x⟩
  | .atomFaddd o => some ⟨92, o.d.toNat * 131072 + o.a.toNat * 4096 + o.b.toNat * 128 + 9, ofOption o.x⟩
  | .atomFadds o => some ⟨92, o.d.toNat * 131072 + o.a.toNat * 4096 + o.b.toNat * 128 + 10, ofOption o.x⟩
  | .cas o => some ⟨93, o.d.toNat * 131072 + o.a.toNat * 4096 + o.b.toNat * 128, .ext o.x⟩
  | .fenceAcq o => some ⟨94, o.l.toNat * 8192, ofOption o.x⟩
  | .fenceRel o => some ⟨94, o.l.toNat * 8192 + 262144, ofOption o.x⟩
  | .fenceAcqrel o => some ⟨94, o.l.toNat * 8192 + 524288, ofOption o.x⟩
  | .fenceSc o => some ⟨94, o.l.toNat * 8192 + 786432, ofOption o.x⟩
  | .boinit o => some ⟨95, o.d.toNat * 131072 + o.a.toNat * 4096 + o.b.toNat * 128, ofOption o.x⟩
  | .boarrive o => some ⟨96, o.d.toNat * 131072 + o.a.toNat * 4096 + o.b.toNat * 128, ofOption o.x⟩
  | .bowait o => some ⟨97, o.d.toNat * 131072 + o.a.toNat * 4096 + o.b.toNat * 128, ofOption o.x⟩
  | .botest o => some ⟨98, o.d.toNat * 131072 + o.a.toNat * 4096 + o.b.toNat * 128, ofOption o.x⟩
  | .tkwait o => some ⟨99, o.k.toNat, ofOption o.x⟩
  | .lnset o => some ⟨100, o.d.toNat * 131072 + o.a.toNat * 4096 + o.b.toNat * 128, ofOption o.x⟩
  | .cpy o => some ⟨101, o.a.toNat * 4096 + o.b.toNat * 128, .ext o.x⟩
  | .cpyrLoad o => some ⟨102, o.d.toNat * 65536 + o.a.toNat * 2048 + o.b.toNat * 64 + 60, .ext o.x⟩
  | .cpyrStore o => some ⟨102, o.d.toNat * 65536 + o.a.toNat * 2048 + o.b.toNat * 64 + 61, .ext o.x⟩
  | .cpyx o => some ⟨103, o.d.toNat * 65536 + o.b.toNat * 64 + 60, .ext o.x⟩
  | .copyComplete _ _ => none
  | .copyFail _ _ _ => none
  | .matt o => some ⟨104, o.a.toNat * 4096 + o.b.toNat * 128, ofOption o.x⟩
  | .mdet o => some ⟨105, 0, ofOption o.x⟩
  | .mcfg o => some ⟨106, 0, .ext o.x⟩
  | .mlds o => some ⟨107, o.a.toNat * 4096 + o.b.toNat * 128, ofOption o.x⟩
  | .mswap o => some ⟨108, 0, ofOption o.x⟩
  | .mstrm o => some ⟨109, o.d.toNat * 131072 + o.a.toNat * 4096 + o.b.toNat * 128, ofOption o.x⟩
  | .matrixStep _ => none
  | .matrixClassAging _ _ => none
  | .macz o => some ⟨110, o.d.toNat * 131072 + o.b.toNat * 128, ofOption o.x⟩
  | .macst o => some ⟨110, o.d.toNat * 131072 + o.a.toNat * 4096 + o.b.toNat * 128 + 1, ofOption o.x⟩
  | .macld o => some ⟨110, o.d.toNat * 131072 + o.a.toNat * 4096 + o.b.toNat * 128 + 2, ofOption o.x⟩
  | .xrun o => some ⟨112, o.d.toNat * 131072 + o.a.toNat * 4096, ofOption o.x⟩
  | .xmrg o => some ⟨113, o.d.toNat * 131072 + o.a.toNat * 4096, ofOption o.x⟩
  | .xsend o => some ⟨114, o.a.toNat * 4096, ofOption o.x⟩
  | .xrecv o => some ⟨115, o.d.toNat * 131072 + o.a.toNat * 4096 + o.b.toNat * 128, ofOption o.x⟩
  | .switchEmit _ _ _ => none
  | .recordDelivery _ _ _ => none
  | .xopen o => some ⟨116, o.a.toNat * 4096 + o.b.toNat * 128, ofOption o.x⟩
  | .xclose o => some ⟨116, 1, ofOption o.x⟩
  | .monarchCopy _ _ => none
  | .prefetchCopy _ _ _ => none
  | .xsplt o => some ⟨116, o.a.toNat * 4096 + o.b.toNat * 128 + 2, ofOption o.x⟩
  | .xcomb o => some ⟨116, o.a.toNat * 4096 + o.b.toNat * 128 + 3, ofOption o.x⟩
  | .xsamp o => some ⟨116, o.d.toNat * 131072 + o.a.toNat * 4096 + 4, ofOption o.x⟩
  | .xround o => some ⟨116, o.a.toNat * 4096 + o.b.toNat * 128 + 5, ofOption o.x⟩
  | .xcapset o => some ⟨116, o.a.toNat * 4096 + o.b.toNat * 128 + 6, ofOption o.x⟩
  | .xtopk o => some ⟨117, o.d.toNat * 65536 + o.a.toNat * 2048 + o.b.toNat * 64 + o.m.toNat * 4, .ext o.x⟩
  | .xrtab o => some ⟨118, o.a.toNat * 4096 + o.b.toNat * 128, ofOption o.x⟩
  | .xload o => some ⟨118, o.d.toNat * 131072 + o.a.toNat * 4096 + 1, ofOption o.x⟩
  | .xpft o => some ⟨118, o.a.toNat * 4096 + o.b.toNat * 128 + 2, ofOption o.x⟩
  | .collReduce o => some ⟨120, o.d.toNat * 65536 + o.a.toNat * 1024 + o.g.toNat * 16 + o.m.toNat, .ext o.x⟩
  | .collAllred o => some ⟨120, o.d.toNat * 65536 + o.a.toNat * 1024 + o.g.toNat * 16 + o.m.toNat, .ext o.x⟩
  | .collGather o => some ⟨120, o.d.toNat * 65536 + o.a.toNat * 1024 + o.g.toNat * 16 + o.m.toNat, .ext o.x⟩
  | .collScatter o => some ⟨120, o.d.toNat * 65536 + o.a.toNat * 1024 + o.g.toNat * 16 + o.m.toNat, .ext o.x⟩
  | .collBcast o => some ⟨120, o.d.toNat * 65536 + o.a.toNat * 1024 + o.g.toNat * 16 + o.m.toNat, .ext o.x⟩
  | .stagingReservation _ => none
  | .collectiveComplete _ _ => none
  | .grpset o => some ⟨121, o.g.toNat * 131072 + o.a.toNat * 4096, ofOption o.x⟩
  | .cwait o => some ⟨121, o.g.toNat * 131072 + 1, ofOption o.x⟩
  | .cld o => some ⟨122, o.d.toNat * 131072 + o.a.toNat * 4096 + o.b.toNat * 128, ofOption o.x⟩
  | .cst o => some ⟨122, o.d.toNat * 131072 + o.a.toNat * 4096 + o.b.toNat * 128 + 1, ofOption o.x⟩
  | .cscan o => some ⟨122, o.d.toNat * 131072 + o.a.toNat * 4096 + o.b.toNat * 128 + 2, ofOption o.x⟩
  | .cdense o => some ⟨122, o.a.toNat * 4096 + o.b.toNat * 128 + 3, ofOption o.x⟩
  | .crinit o => some ⟨122, o.d.toNat * 131072 + o.a.toNat * 4096 + 4, ofOption o.x⟩
  | .gth o => some ⟨123, o.d.toNat * 131072 + o.a.toNat * 4096 + o.b.toNat * 128, ofOption o.x⟩
  | .sct o => some ⟨123, o.d.toNat * 131072 + o.a.toNat * 4096 + o.b.toNat * 128 + 1, ofOption o.x⟩
  | .sctadd o => some ⟨123, o.d.toNat * 131072 + o.a.toNat * 4096 + o.b.toNat * 128 + 2, ofOption o.x⟩
  | .hazelComplete _ _ => none
  | .vstc o => some ⟨124, o.d.toNat * 65536 + o.a.toNat * 2048 + o.b.toNat * 64 + o.m.toNat * 4, ofOption o.x⟩
  | .syscall o => some ⟨125, 0, ofOption o.x⟩
  | .brk o => some ⟨125, 1, ofOption o.x⟩
  | .uret o => some ⟨125, 2, ofOption o.x⟩
  | .eret o => some ⟨126, 0, ofOption o.x⟩
  | .halt o => some ⟨126, 1, ofOption o.x⟩
  | .wfi o => some ⟨126, 2, ofOption o.x⟩
  | .tlbinv o => some ⟨126, o.a.toNat * 4096 + o.b.toNat * 128 + 3, ofOption o.x⟩
  | .vhtinv o => some ⟨126, o.a.toNat * 4096 + o.b.toNat * 128 + 4, ofOption o.x⟩
  | .ctxsave o => some ⟨126, o.d.toNat * 131072 + o.a.toNat * 4096 + 5, ofOption o.x⟩
  | .ctxload o => some ⟨126, o.d.toNat * 131072 + o.a.toNat * 4096 + o.b.toNat * 128 + 6, ofOption o.x⟩
  | .sldrain o => some ⟨126, o.d.toNat * 131072 + 7, ofOption o.x⟩
  | .launchQueueDoorbell _ _ _ => none
  | .teamPlacement _ _ => none
  | .deadlineExpiry _ => none
  | .preemptionTimeout _ => none
  | .teamSwapOut _ => none
  | .teamResume _ _ => none
  | .remoteAccess _ => none
  | .remoteAck _ => none
  | .engineUncorrectableError _ _ _ _ => none
  | .moduleReset _ => none
  | .attestationRequest _ _ => none
  | .contextCreate _ _ => none
  | .contextEndByHost _ _ => none
  | .epochWrite _ _ => none
  | .bar0RegisterWrite _ _ _ => none
  | .bar2Write _ _ _ => none
  | .bar2Read _ _ _ => none
  | .gtimeSync _ => none
  | .linkCrcReplay _ _ => none
  | .portRemoval _ _ => none
  | .dieIdleEntry _ _ => none
  | .dieIdleExit _ _ => none
  | .powerOff _ => none
  | .powerTrip _ => none
  | .plimWrite _ _ => none
  | .illegalInstruction _ => none
  | .instructionFetchFault _ _ => none
  | .remoteLoadReturn _ => none
  | .copyPerformed _ _ _ => none
  | .laneClusterRetirement _ _ => none
/-- The 64 bits of E (R29). -/
def Ext.toNat (x : Ext) : Nat :=
  x.imm32.toNat + x.sub.toNat * 2 ^ 32 + x.lvl.toNat * 2 ^ 35 + x.wtk.toNat * 2 ^ 39 + x.vs3.toNat * 2 ^ 47 +
    x.rm.toNat * 2 ^ 53 + x.fa.toNat * 2 ^ 56 + x.fd.toNat * 2 ^ 60

/-- E read from its two words (R20, R29). -/
def Ext.ofWords (lo hi : Nat) : Ext where
  imm32 := BitVec.ofNat 32 lo
  sub := fld 3 0 hi
  lvl := fld 4 3 hi
  wtk := fld 8 7 hi
  vs3 := fld 6 15 hi
  rm := fld 3 21 hi
  fa := fld 4 24 hi
  fd := fld 4 28 hi

/-- The second word of E (bits 63:32). -/
def Ext.hiWord (x : Ext) : Nat :=
  x.sub.toNat + x.lvl.toNat * 2 ^ 3 + x.wtk.toNat * 2 ^ 7 + x.vs3.toNat * 2 ^ 15 +
    x.rm.toNat * 2 ^ 21 + x.fa.toNat * 2 ^ 24 + x.fd.toNat * 2 ^ 28

/-- Bits 31:30 of word 0 for a framing (R20). -/
def LForm.code (f : LForm) : Nat :=
  match f with
  | .word => 0
  | .ext _ => 1
  | .lit _ => 2
  | .extLit _ _ => 3

/-- How many words an L field gives (R20). -/
def wordsOf (l : Nat) : Nat :=
  match l with
  | 0 => 1
  | 1 => 3
  | 2 => 3
  | _ => 4

/-- The words after word 0 of a framing. -/
def LForm.tail (f : LForm) : List (BitVec 32) :=
  match f with
  | .word => []
  | .ext x => [x.imm32, BitVec.ofNat 32 x.hiWord]
  | .lit v => [v.setWidth 32, BitVec.ofNat 32 (v.toNat / 2 ^ 32)]
  | .extLit x hi => [x.imm32, BitVec.ofNat 32 x.hiWord, hi]

/-- The framing an L field gives to the words that follow word 0. -/
def formOf (l : Nat) (rest : List (BitVec 32)) : Res LForm :=
  match l, rest with
  | 0, _ => .ok .word
  | 1, e0 :: e1 :: _ => .ok (.ext (Ext.ofWords e0.toNat e1.toNat))
  | 2, l0 :: l1 :: _ => .ok (.lit (l1 ++ l0))
  | 3, e0 :: e1 :: l1 :: _ => .ok (.extLit (Ext.ofWords e0.toNat e1.toNat) l1)
  | _, _ => .bad .short

/-- A decoded instruction: what it is, its chain bit C (R23), and its length in words (R20). -/
structure Decoded where
  instr : Instr
  chain : Bool
  len   : Nat
  deriving DecidableEq, Repr

/-- Whether the instruction is the DUAL prefix (R25). -/
def Instr.isDual (i : Instr) : Bool :=
  match i with
  | .dual _ => true
  | _ => false

/-- Decodes the instruction that begins a list of words. DUAL takes no chain bit (R25). -/
noncomputable def decode (ws : List (BitVec 32)) : Res Decoded :=
  match ws with
  | [] => .bad .short
  | w0 :: rest =>
    let n := w0.toNat
    let l := n / 2 ^ 30
    let c := n / 2 ^ 29 % 2 == 1
    match formOf l rest with
    | .bad e => .bad e
    | .ok form =>
      match parse (n / 2 ^ 22 % 128) (n % 2 ^ 22) form with
      | .bad e => .bad e
      | .ok i =>
        match i.check with
        | some e => .bad e
        | none => if i.isDual && c then .bad .badPrefix else .ok ⟨i, c, wordsOf l⟩

/-- Word 0 of a packed instruction with chain bit `c`. -/
def Packed.word0 (p : Packed) (c : Bool) : BitVec 32 :=
  BitVec.ofNat 32 (p.body + p.maj * 2 ^ 22 + (if c then 2 ^ 29 else 0) + p.form.code * 2 ^ 30)

/-- The words of an instruction, with chain bit `c`; a device or host step has none. -/
def encode (c : Bool) (i : Instr) : List (BitVec 32) :=
  match pack i with
  | none => []
  | some p => p.word0 c :: p.form.tail

/-- Whether an instruction word encodes this constructor. -/
def Instr.isWord (i : Instr) : Bool := (pack i).isSome

/-- Words `k`, `k+1`, … of a number, `n` of them, least significant first. -/
def wordsFrom (n w : Nat) : List (BitVec 32) :=
  match n with
  | 0 => []
  | k + 1 => BitVec.ofNat 32 w :: wordsFrom k (w / 2 ^ 32)

/-- The instruction decoding reads from the bits `w` of a table row, every bit above `nbits` zero. -/
noncomputable def decodeTableWord (nbits w : Nat) : Option Instr :=
  match decode (wordsFrom 4 (w % 2 ^ nbits)) with
  | .ok d => some d.instr
  | .bad _ => none

end Sys2Proof
end

