-- ==== Sys2Proof/Machine/Bits.lean ====
section
/-!
DEFINITION. Bit fields, sign extension and element access, on naturals: element `e` of width `w` of a register is bits
`w*e + w - 1 : w*e` of its 8,192 (R3, R64).
-/
namespace Sys2Proof.Machine

/-- Bits `hi:lo` of a number. -/
def bitsOf (x hi lo : Nat) : Nat := (x >>> lo) % 2 ^ (hi + 1 - lo)

/-- Replaces the `w` bits at `lo` by the low `w` bits of `v`. -/
def putBits (x lo w v : Nat) : Nat :=
  x - ((x >>> lo) % 2 ^ w) <<< lo + (v % 2 ^ w) <<< lo

/-- The number a `w`-bit pattern stands for in two's complement. -/
def toSigned (w x : Nat) : Int :=
  if x % 2 ^ w < 2 ^ (w - 1) then (x % 2 ^ w : Nat) else ((x % 2 ^ w : Nat) : Int) - (2 ^ w : Nat)

/-- An integer modulo 2^w. -/
def wrap (w : Nat) (x : Int) : Nat := (x % ((2 ^ w : Nat) : Int)).toNat

/-- A `w`-bit pattern sign-extended to 64 bits. -/
def sext64 (w x : Nat) : W64 := BitVec.ofNat 64 (wrap 64 (toSigned w x))

/-- The low `w` bits as a 64-bit word. -/
def zext64 (w x : Nat) : W64 := BitVec.ofNat 64 (x % 2 ^ w)

/-- Element `e` of width `w` of a vector register. -/
def elemOf (v : VReg) (w e : Nat) : Nat := (v.toNat >>> (w * e)) % 2 ^ w

/-- Writes element `e` of width `w`; an element the register does not hold is not written. -/
def setElem (v : VReg) (w e x : Nat) : VReg :=
  if w * e + w ≤ 8192 then BitVec.ofNat 8192 (putBits v.toNat (w * e) w x) else v

/-- Bit `e` of a mask register. -/
def maskBit (m : MReg) (e : Nat) : Bool := m.toNat.testBit e

def setMaskBit (m : MReg) (e : Nat) (b : Bool) : MReg :=
  if e < 1024 then BitVec.ofNat 1024 (putBits m.toNat e 1 (if b then 1 else 0)) else m

/-- How many of the low `n` bits of `x` are one. -/
def popCount (x : Nat) : Nat → Nat
  | 0 => 0
  | n + 1 => (if x.testBit n then 1 else 0) + popCount x n

/-- Zero bits above the highest one bit, within `w` bits. -/
def clz (w x : Nat) : Nat := if x % 2 ^ w = 0 then w else w - 1 - Nat.log2 (x % 2 ^ w)

/-- The position of the lowest one bit among bits `i ..`, `n` of them. -/
def lowBitFrom (x i : Nat) : Nat → Option Nat
  | 0 => none
  | n + 1 => if x.testBit i then some i else lowBitFrom x (i + 1) n

/-- Zero bits below the lowest one bit, within `w` bits. -/
def ctz (w x : Nat) : Nat := (lowBitFrom x 0 w).getD w

/-- `[lo, lo+1, …]`, `n` numbers. -/
def span (lo : Nat) : Nat → List Nat
  | 0 => []
  | n + 1 => lo :: span (lo + 1) n

/-- `[lo, …, hi-1]`. -/
def range (lo hi : Nat) : List Nat := span lo (hi - lo)

/-- ceil(a / b). -/
def ceilDiv (a b : Nat) : Nat := (a + b - 1) / b

/-- `a` rounded up to a multiple of `b`. -/
def roundUp (a b : Nat) : Nat := ceilDiv a b * b

/-- 64-bit address arithmetic, modulo 2^64. -/
def addr64 (a : Int) : Nat := wrap 64 a

/-- The bytes of a number, byte 0 first. -/
def bytesOf (v : Nat) : Nat → List Byte
  | 0 => []
  | n + 1 => BitVec.ofNat 8 v :: bytesOf (v / 256) n

/-- The number of a list of bytes, byte 0 first. -/
def ofBytes : List Byte → Nat
  | [] => 0
  | b :: r => b.toNat + 256 * ofBytes r

end Sys2Proof.Machine
end

