-- ==== Sys2Proof/Machine/Flags.lean ====
section
/-!
DEFINITION. The sixteen formats (R55), exact values, and rounding them into a format with the flags of R57: the
helper RoundTo of R72 and the arithmetic of R58-R62. An exact value is a dyadic rational, an infinity or a NaN with
its payload; an inexact quotient or root is carried as a dyadic with one more low bit that is one when anything
nonzero was cut off, far below every format's last place.
-/
namespace Sys2Proof.Machine

/-- The formats of R55, in code order. -/
inductive Fmt where
  | i64 | i32 | i16 | i8 | u64 | u32 | u16 | u8 | f64 | f32 | bf16 | f16 | e4m3 | e5m2 | gx8 | gx4
  deriving DecidableEq, Repr

/-- The format of a 4-bit code (R55). -/
def fmtOf (c : Nat) : Fmt :=
  match c % 16 with
  | 0 => .i64 | 1 => .i32 | 2 => .i16 | 3 => .i8 | 4 => .u64 | 5 => .u32 | 6 => .u16 | 7 => .u8
  | 8 => .f64 | 9 => .f32 | 10 => .bf16 | 11 => .f16 | 12 => .e4m3 | 13 => .e5m2 | 14 => .gx8 | _ => .gx4

/-- The code of a format (R55). -/
def fmtCode (f : Fmt) : Nat :=
  match f with
  | .i64 => 0 | .i32 => 1 | .i16 => 2 | .i8 => 3 | .u64 => 4 | .u32 => 5 | .u16 => 6 | .u8 => 7
  | .f64 => 8 | .f32 => 9 | .bf16 => 10 | .f16 => 11 | .e4m3 => 12 | .e5m2 => 13 | .gx8 => 14 | .gx4 => 15

/-- The width of an element in bits (R55). -/
def fmtBits (f : Fmt) : Nat :=
  match f with
  | .i64 => 64 | .u64 => 64 | .f64 => 64
  | .i32 => 32 | .u32 => 32 | .f32 => 32
  | .i16 => 16 | .u16 => 16 | .bf16 => 16 | .f16 => 16
  | .i8 => 8 | .u8 => 8 | .e4m3 => 8 | .e5m2 => 8 | .gx8 => 8
  | .gx4 => 4

def fmtBytes (f : Fmt) : Nat := fmtBits f / 8

/-- Integer formats are codes 0-7. -/
def isInt (f : Fmt) : Bool := decide (fmtCode f < 8)

/-- Signed integer formats are codes 0-3. -/
def isSignedInt (f : Fmt) : Bool := decide (fmtCode f < 4)

/-- Floating-point formats are codes 8-13. -/
def isFloat (f : Fmt) : Bool := decide (8 ≤ fmtCode f ∧ fmtCode f < 14)

/-- Block formats are codes 14 and 15. -/
def isGx (f : Fmt) : Bool := decide (14 ≤ fmtCode f)

/-- Lanes of one block group: 5 for GX8, 3 for GX4 (R64). -/
def gxLanes (f : Fmt) : Nat := if f = .gx8 then 5 else 3

/-- The FFLAGS bits (R52): NV 4, DZ 3, OF 2, UF 1, NX 0. -/
abbrev Flags := BitVec 5

def fNV : Flags := 16
def fDZ : Flags := 8
def fOF : Flags := 4
def fUF : Flags := 2
def fNX : Flags := 1

/-- Fraction bits, exponent bits and bias of a floating-point format (R55). -/
structure FShape where
  fbits : Nat
  ebits : Nat
  bias  : Nat
  deriving DecidableEq, Repr

def shapeOf (f : Fmt) : FShape :=
  match f with
  | .f64 => ⟨52, 11, 1023⟩
  | .f32 => ⟨23, 8, 127⟩
  | .bf16 => ⟨7, 8, 127⟩
  | .f16 => ⟨10, 5, 15⟩
  | .e4m3 => ⟨3, 4, 7⟩
  | _ => ⟨2, 5, 15⟩

/-- An exact value (R72). `fin s m e` is (-1)^s × m × 2^e; `nan s sig pay` has its fraction left-justified in 52 bits. -/
inductive Num where
  | nan (s sig : Bool) (pay : Nat)
  | inf (s : Bool)
  | fin (s : Bool) (m : Nat) (e : Int)
  deriving DecidableEq, Repr

def Num.zero : Num := .fin false 0 0

/-- The default NaN (R58). -/
def Num.default : Num := .nan false false (2 ^ 51)

def Num.isNan (x : Num) : Bool := match x with | .nan _ _ _ => true | .inf _ => false | .fin _ _ _ => false
def Num.isSig (x : Num) : Bool := match x with | .nan _ s _ => s | .inf _ => false | .fin _ _ _ => false
def Num.isInf (x : Num) : Bool := match x with | .inf _ => true | .nan _ _ _ => false | .fin _ _ _ => false
def Num.isZero (x : Num) : Bool := match x with | .fin _ m _ => m == 0 | .nan _ _ _ => false | .inf _ => false
def Num.sign (x : Num) : Bool := match x with | .nan s _ _ => s | .inf s => s | .fin s _ _ => s
def Num.setSign (x : Num) (s : Bool) : Num :=
  match x with | .nan _ g p => .nan s g p | .inf _ => .inf s | .fin _ m e => .fin s m e
def Num.neg (x : Num) : Num := x.setSign (!x.sign)

/-- A NaN with its quiet bit set (R58). -/
def Num.quiet (x : Num) : Num :=
  match x with
  | .nan s _ p => .nan s false (p ||| 2 ^ 51)
  | .inf s => .inf s
  | .fin s m e => .fin s m e

/-- An integer as an exact value. -/
def Num.ofInt (x : Int) : Num := .fin (decide (x < 0)) x.natAbs 0

/-- The value of a bit pattern of an integer or floating-point format (R55, R60). -/
def decodeNum (f : Fmt) (x : Nat) : Num :=
  let w := fmtBits f
  if isInt f then
    if isSignedInt f then Num.ofInt (toSigned w x) else .fin false (x % 2 ^ w) 0
  else
    let h := shapeOf f
    let s := (x >>> (w - 1)) % 2 == 1
    let ex := (x >>> h.fbits) % 2 ^ h.ebits
    let fr := x % 2 ^ h.fbits
    if f = .e4m3 then
      if ex = 15 ∧ fr = 7 then .nan s false (7 <<< 49)
      else if ex = 0 then .fin s fr (-9) else .fin s (fr + 8) ((ex : Int) - 10)
    else if ex + 1 = 2 ^ h.ebits then
      if fr = 0 then .inf s else .nan s (!(fr.testBit (h.fbits - 1))) (fr <<< (52 - h.fbits))
    else if ex = 0 then .fin s fr (1 - (h.bias : Int) - h.fbits)
    else .fin s (fr + 2 ^ h.fbits) ((ex : Int) - h.bias - h.fbits)

/-- m × 2^-k rounded to an integer under mode `rm` (0 RNE, 1 RTZ, 2 RUP, 3 RDN), and whether anything was cut off. -/
def roundShift (rm : Nat) (s : Bool) (m : Nat) (k : Int) : Nat × Bool :=
  if k ≤ 0 then (m <<< (-k).toNat, false)
  else
    let n := k.toNat
    let q := m >>> n
    let r := m % 2 ^ n
    let half := 2 ^ (n - 1)
    let up := match rm with
      | 0 => decide (r > half) || (r == half && q % 2 == 1)
      | 1 => false
      | 2 => r != 0 && !s
      | _ => r != 0 && s
    (if up then q + 1 else q, r != 0)

/-- The bits of an infinity of a format with infinities. -/
def infBits (f : Fmt) (s : Bool) : Nat :=
  let h := shapeOf f
  (2 ^ h.ebits - 1) <<< h.fbits + (if s then 2 ^ (fmtBits f - 1) else 0)

/-- The bits of the largest finite value of a sign. -/
def maxBits (f : Fmt) (s : Bool) : Nat :=
  let m := if f = .e4m3 then 0x7E else infBits f false - 1
  m + (if s then 2 ^ (fmtBits f - 1) else 0)

/-- The bits of a quiet NaN with a sign and payload: the high fraction bits that fit, the quiet bit set (R58, R60). -/
def nanBits (f : Fmt) (s : Bool) (pay : Nat) : Nat :=
  let sg := if s then 2 ^ (fmtBits f - 1) else 0
  if f = .e4m3 then 0x7F + sg
  else
    let h := shapeOf f
    infBits f false + ((pay >>> (52 - h.fbits)) ||| 2 ^ (h.fbits - 1)) + sg

/-- Rounds a finite value to a floating-point format (R57, R61): tininess after rounding, UF only when also inexact. -/
def roundFin (f : Fmt) (rm : Nat) (sate4 s : Bool) (m : Nat) (e : Int) : Nat × Flags :=
  let w := fmtBits f
  let sg := if s then 2 ^ (w - 1) else 0
  if m = 0 then (sg, 0)
  else
    let h := shapeOf f
    let emin : Int := 1 - h.bias
    let ex : Int := (Nat.log2 m : Int) + e
    let lsb : Int := max ex emin - h.fbits
    let (q, inex) := roundShift rm s m (lsb - e)
    let bits := ((lsb + h.fbits + h.bias - 1).toNat) <<< h.fbits + q
    let tiny := decide (ex < emin) &&
      !(decide (ex + 1 = emin) && (roundShift rm s m (ex - h.fbits - e)).1 == 2 ^ (h.fbits + 1))
    let top := if f = .e4m3 then 0x7E else infBits f false - 1
    if bits > top then
      if f = .e4m3 then (if sate4 then 0x7E + sg else 0x7F + sg, fOF ||| fNX)
      else
        let toInf := match rm with | 0 => true | 1 => false | 2 => !s | _ => s
        (if toInf then infBits f s else maxBits f s, fOF ||| fNX)
    else (bits + sg, (if inex then fNX else 0) ||| (if tiny && inex then fUF else 0))

/-- An infinite value into a floating-point format (R60, R61). -/
def roundInf (f : Fmt) (sate4 s : Bool) : Nat × Flags :=
  if f = .e4m3 then
    if sate4 then (maxBits f s, fOF ||| fNX) else (nanBits f s 0, fNV)
  else (infBits f s, 0)

/-- The bounds of an integer format, as integers. -/
def intMin (f : Fmt) : Int := if isSignedInt f then -((2 ^ (fmtBits f - 1) : Nat) : Int) else 0
def intMax (f : Fmt) : Int :=
  if isSignedInt f then ((2 ^ (fmtBits f - 1) : Nat) : Int) - 1 else ((2 ^ fmtBits f : Nat) : Int) - 1

/-- An integer clamped to the range of a format (R56). -/
def clampInt (f : Fmt) (x : Int) : Nat :=
  wrap (fmtBits f) (if x < intMin f then intMin f else if intMax f < x then intMax f else x)

/-- A finite value rounded to an integral one under a mode, and whether it was inexact. -/
def roundIntegral (rm : Nat) (s : Bool) (m : Nat) (e : Int) : Int × Bool :=
  let (q, inex) := roundShift rm s m (-e)
  (if s then -(q : Int) else (q : Int), inex)

/-- A value into an integer format (R62): out of range clamps with NV, NaN gives 0 with NV. -/
def roundToInt (f : Fmt) (rm : Nat) (x : Num) : Nat × Flags :=
  match x with
  | .nan _ _ _ => (0, fNV)
  | .inf s => (wrap (fmtBits f) (if s then intMin f else intMax f), fNV)
  | .fin s m e =>
    let (v, inex) := roundIntegral rm s m e
    if v < intMin f ∨ intMax f < v then (clampInt f v, fNV)
    else (wrap (fmtBits f) v, if inex then fNX else 0)

/-- RoundTo(x, f, rm) for formats that are not block formats (R72). A signalling NaN operand raises NV. -/
def roundTo (f : Fmt) (rm : Nat) (sate4 : Bool) (x : Num) : Nat × Flags :=
  if isInt f then roundToInt f rm x
  else match x with
    | .nan s sig p => (nanBits f s p, if sig then fNV else 0)
    | .inf s => roundInf f sate4 s
    | .fin s m e => roundFin f rm sate4 s m e

/-- An exact value with the flags its computation raised. -/
structure Val where
  x  : Num
  fl : Flags
  deriving DecidableEq, Repr

/-- The NaN result when any operand is a NaN: the first, quieted; NV when any is signalling (R58). -/
def nanOf (xs : List Num) : Option Val :=
  match xs.find? Num.isNan with
  | none => none
  | some n => some ⟨n.quiet, if xs.any Num.isSig then fNV else 0⟩

/-- An invalid operation with no NaN operand (R58). -/
def invalid : Val := ⟨Num.default, fNV⟩

/-- Finite values as integers at a common exponent. -/
def sInt (s : Bool) (m : Nat) : Int := if s then -(m : Int) else (m : Int)

/-- Exact sum of two finite values; the sign of a zero sum is that of R140: RDN gives -0 for opposite signs. -/
def addFin (rm : Nat) (s1 : Bool) (m1 : Nat) (e1 : Int) (s2 : Bool) (m2 : Nat) (e2 : Int) : Num :=
  let e := min e1 e2
  let t := sInt s1 (m1 <<< (e1 - e).toNat) + sInt s2 (m2 <<< (e2 - e).toNat)
  if t = 0 then
    if m1 = 0 ∧ m2 = 0 ∧ s1 = s2 then .fin s1 0 0 else .fin (rm == 3) 0 0
  else .fin (decide (t < 0)) t.natAbs e

def numAdd (rm : Nat) (a b : Num) : Val :=
  match nanOf [a, b] with
  | some v => v
  | none => match a, b with
    | .inf s, .inf t => if s = t then ⟨.inf s, 0⟩ else invalid
    | .inf s, _ => ⟨.inf s, 0⟩
    | _, .inf t => ⟨.inf t, 0⟩
    | .fin s1 m1 e1, .fin s2 m2 e2 => ⟨addFin rm s1 m1 e1 s2 m2 e2, 0⟩
    | _, _ => invalid

/-- a - b: the sign of a NaN subtrahend is not flipped (R58). -/
def numSub (rm : Nat) (a b : Num) : Val :=
  match nanOf [a, b] with
  | some v => v
  | none => numAdd rm a b.neg

def numMul (a b : Num) : Val :=
  match nanOf [a, b] with
  | some v => v
  | none =>
    let s := a.sign != b.sign
    match a, b with
    | .fin _ m1 e1, .fin _ m2 e2 => ⟨.fin s (m1 * m2) (e1 + e2), 0⟩
    | _, _ => if a.isZero || b.isZero then invalid else ⟨.inf s, 0⟩

/-- Fused ±(a × b) ± c with one rounding (R58, R117, R140): ∞ × 0 is invalid whatever the addend is. -/
def numFma (rm : Nat) (negP negC : Bool) (a b c : Num) : Val :=
  if !a.isNan && !b.isNan && ((a.isInf && b.isZero) || (a.isZero && b.isInf)) then invalid
  else match nanOf [a, b, c] with
    | some v => v
    | none =>
      let p := (numMul a b).x
      numAdd rm (if negP then p.neg else p) (if negC then c.neg else c)

/-- A finite quotient, to far more bits than any format holds, with the cut-off marked in the last bit. -/
def divFin (s : Bool) (m1 : Nat) (e1 : Int) (m2 : Nat) (e2 : Int) : Num :=
  let sh := 200 + Nat.log2 m2 - Nat.log2 m1
  let n := m1 <<< sh
  .fin s (2 * (n / m2) + (if n % m2 = 0 then 0 else 1)) (e1 - e2 - sh - 1)

def numDiv (a b : Num) : Val :=
  match nanOf [a, b] with
  | some v => v
  | none =>
    let s := a.sign != b.sign
    match a, b with
    | .inf _, .inf _ => invalid
    | .inf _, _ => ⟨.inf s, 0⟩
    | .fin _ _ _, .inf _ => ⟨.fin s 0 0, 0⟩
    | .fin _ m1 e1, .fin _ m2 e2 =>
      if m2 = 0 then (if m1 = 0 then invalid else ⟨.inf s, fDZ⟩)
      else if m1 = 0 then ⟨.fin s 0 0, 0⟩ else ⟨divFin s m1 e1 m2 e2, 0⟩
    | _, _ => invalid

/-- The integer square root, one bit of the root at a time. -/
def isqrtStep (n : Nat) : Nat → Nat → Nat
  | 0, r => r
  | k + 1, r => let c := r + 2 ^ k; isqrtStep n k (if c * c ≤ n then c else r)

def isqrt (n : Nat) : Nat := isqrtStep n (Nat.log2 n / 2 + 1) 0

def sqrtFin (m : Nat) (e : Int) : Num :=
  let sh0 := 420 - Nat.log2 m
  let sh := if (e - sh0) % 2 = 0 then sh0 else sh0 + 1
  let n := m <<< sh
  let r := isqrt n
  .fin false (2 * r + (if r * r = n then 0 else 1)) ((e - sh) / 2 - 1)

def numSqrt (a : Num) : Val :=
  match a with
  | .nan _ g _ => ⟨a.quiet, if g then fNV else 0⟩
  | .inf s => if s then invalid else ⟨.inf false, 0⟩
  | .fin s m e => if m = 0 then ⟨a, 0⟩ else if s then invalid else ⟨sqrtFin m e, 0⟩

/-- Order of two values that are no NaN, zeros equal. -/
def numCmp (a b : Num) : Ordering :=
  match a, b with
  | .inf s, .inf t => if s = t then .eq else if s then .lt else .gt
  | .inf s, _ => if s then .lt else .gt
  | _, .inf t => if t then .gt else .lt
  | .fin s1 m1 e1, .fin s2 m2 e2 =>
    let e := min e1 e2
    compare (sInt s1 (m1 <<< (e1 - e).toNat)) (sInt s2 (m2 <<< (e2 - e).toNat))
  | _, _ => .eq

/-- Order with -0 below +0 (R59). -/
def numCmpSigned (a b : Num) : Ordering :=
  match numCmp a b with
  | .eq => if a.sign = b.sign then .eq else if a.sign then .lt else .gt
  | .lt => .lt
  | .gt => .gt

/-- MIN (`mx = false`) and MAX of R59. -/
def numMinMax (mx : Bool) (a b : Num) : Val :=
  if a.isSig || b.isSig || (a.isNan && b.isNan) then (nanOf [a, b]).getD invalid
  else if a.isNan then ⟨b, 0⟩
  else if b.isNan then ⟨a, 0⟩
  else match numCmpSigned a b with
    | .lt => ⟨if mx then b else a, 0⟩
    | .eq => ⟨a, 0⟩
    | .gt => ⟨if mx then a else b, 0⟩

/-- A value with the flags so far into a format. -/
def packVal (f : Fmt) (rm : Nat) (sate4 : Bool) (v : Val) : Nat × Flags :=
  let (b, fl) := roundTo f rm sate4 v.x
  (b, fl ||| v.fl)

/-- A value that a format holds, as its bits: unlike RoundTo, a signalling NaN stays as it is. -/
def heldBits (f : Fmt) (x : Num) : Nat :=
  match x with
  | .nan s true p => infBits f s + p >>> (52 - (shapeOf f).fbits)
  | .nan _ false _ => (roundTo f 0 false x).1
  | .inf _ => (roundTo f 0 false x).1
  | .fin _ _ _ => (roundTo f 0 false x).1

/-- Classes of R117: 0-5 for the classes of one sign, 8 added for negative. -/
def numClass (f : Fmt) (x : Nat) : Nat :=
  let h := shapeOf f
  match decodeNum f x with
  | .nan s sig _ => (if sig then 5 else 4) + (if s then 8 else 0)
  | .inf s => 3 + (if s then 8 else 0)
  | .fin s m _ => (if m = 0 then 0 else if m < 2 ^ h.fbits then 1 else 2) + (if s then 8 else 0)

/-- An exact value as m × 2^e over a common exponent, summed (R78): the finite total of a list of finite values. -/
def exactTotal (xs : List Num) : Num :=
  let e := xs.foldl (fun e x => match x with | .fin _ _ e' => min e e' | .nan _ _ _ => e | .inf _ => e) 0
  let t := xs.foldl (fun t x => match x with
    | .fin s m e' => t + sInt s (m <<< (e' - e).toNat)
    | .nan _ _ _ => t
    | .inf _ => t) (0 : Int)
  if t = 0 then .fin (xs.all (fun x => x.isZero && x.sign)) 0 0 else .fin (decide (t < 0)) t.natAbs e

/-- The exact-order sum of R78, before its one rounding. -/
def exactSum (xs : List Num) : Val :=
  match nanOf xs with
  | some v => v
  | none =>
    let p := xs.any (fun x => x.isInf && !x.sign)
    let n := xs.any (fun x => x.isInf && x.sign)
    if p && n then invalid
    else if p then ⟨.inf false, 0⟩
    else if n then ⟨.inf true, 0⟩
    else ⟨exactTotal xs, 0⟩

end Sys2Proof.Machine
end

