-- ==== Sys2Proof/Machine/Gx.lean ====
section
/-!
DEFINITION. The dual-exponent block formats GX8 and GX4: their element values (R63), groups in 64-bit lanes (R64), and
quantising a block of 32 values (R66).
-/
namespace Sys2Proof.Machine

/-- Magnitude bits, largest magnitude, bias of the element value, ST and FB of R66. -/
def gxMax (f : Fmt) : Nat := if f = .gx8 then 63 else 3
def gxBias (f : Fmt) : Nat := if f = .gx8 then 133 else 128
def gxSt (f : Fmt) : Nat := if f = .gx8 then 8 else 2
def gxFb (f : Fmt) : Nat := if f = .gx8 then 6 else 2

/-- The value of an element code under its block's exponents (R63). -/
def gxValue (f : Fmt) (e0 e1 c : Nat) : Num :=
  let w := fmtBits f
  let e := if c.testBit (w - 1) then e1 else e0
  let s := c.testBit (w - 2)
  if e = 0xFF then .nan s false (2 ^ 51) else .fin s (c % 2 ^ (w - 2)) ((e : Int) - gxBias f)

/-- Element j of a run of groups laid out from bit 0 of `x` as R64 gives; groups beyond `n` read as +0. -/
def gxElemIn (f : Fmt) (n x j : Nat) : Num :=
  let b := j / 32
  if n ≤ b then Num.zero
  else
    let base := 64 * (gxLanes f * b)
    let w := fmtBits f
    gxValue f ((x >>> base) % 256) ((x >>> (base + 8)) % 256) ((x >>> (base + 64 + w * (j % 32))) % 2 ^ w)

/-- Element j of a register, counted across its whole groups (R68). -/
def gxElem (f : Fmt) (v : VReg) (j : Nat) : Num := gxElemIn f (128 / gxLanes f) v.toNat j

/-- Q(x, E): the magnitude index under exponent E (R66). -/
def gxQ (f : Fmt) (m : Nat) (ex : Int) (e : Nat) : Nat := (roundShift 0 false m ((e : Int) - gxBias f - ex)).1

/-- The smallest exponent in 0 .. 254 under which a magnitude fits, or 254. -/
def gxExp (f : Fmt) (m : Nat) (ex : Int) : Nat :=
  ((span 0 255).find? (fun e => decide (gxQ f m ex e ≤ gxMax f))).getD 254

/-- |m × 2^e − q × 2^(E − bias)| as an integer at exponent `lo`. -/
def gxErr (f : Fmt) (m : Nat) (ex : Int) (q e : Nat) (lo : Int) : Nat :=
  let u : Int := (e : Int) - gxBias f
  (((m <<< (ex - lo).toNat : Nat) : Int) - ((q <<< (u - lo).toNat : Nat) : Int)).natAbs

/-- The larger of two magnitudes. -/
def magMax (a b : Nat × Int) : Nat × Int :=
  match numCmp (.fin false a.1 a.2) (.fin false b.1 b.2) with | .lt => b | .eq => a | .gt => a

/-- A quantised block: exponents, 32 element codes, flags. -/
structure GxBlock where
  e0    : Nat
  e1    : Nat
  codes : List Nat
  fl    : Flags
  deriving DecidableEq, Repr

/-- The quantisation of R66. -/
def gxQuant (f : Fmt) (xs : List Num) : GxBlock :=
  let w := fmtBits f
  let fins := xs.filterMap (fun x => match x with | .fin _ m e => some (m, e) | .nan _ _ _ => none | .inf _ => none)
  let special := xs.any (fun x => x.isNan || x.isInf)
  let amax := fins.foldl magMax (0, 0)
  let e0 := if amax.1 = 0 then 0 else gxExp f amax.1 amax.2
  let cs := fins.filter (fun p => p.1 ≠ 0 && decide (gxQ f p.1 p.2 e0 < gxSt f))
  let cmax := cs.foldl magMax (0, 0)
  let e1 := if special then 0xFF else if cs.isEmpty then e0 - gxFb f else gxExp f cmax.1 cmax.2
  let one (x : Num) : Nat × Flags :=
    let sg := if x.sign then 2 ^ (w - 2) else 0
    match x with
    | .nan _ g _ => (2 ^ (w - 1) + sg + 1, if g then fNV else 0)
    | .inf _ => (2 ^ (w - 1) + sg + 1, fNV)
    | .fin _ m ex =>
      let q0 := min (gxQ f m ex e0) (gxMax f)
      let lo := min ex (min ((e0 : Int) - gxBias f) ((e1 : Int) - gxBias f))
      let err0 := gxErr f m ex q0 e0 lo
      let q1 := min (gxQ f m ex e1) (gxMax f)
      let err1 := gxErr f m ex q1 e1 lo
      let sel := e1 ≠ 0xFF && decide (err1 < err0)
      let q := if sel then q1 else q0
      let err := if sel then err1 else err0
      let clamp := e0 = 254 && !sel && decide (gxMax f < gxQ f m ex e0)
      ((if sel then 2 ^ (w - 1) else 0) + sg + q,
        (if err ≠ 0 then fNX else 0) ||| (if m ≠ 0 ∧ q = 0 then fUF ||| fNX else 0) |||
          (if clamp then fOF ||| fNX else 0))
  let rs := xs.map one
  ⟨e0, e1, rs.map Prod.fst, rs.foldl (fun a r => a ||| r.2) 0⟩

/-- The lanes of a block group as one number: header, then the elements (R64). -/
def gxPack (f : Fmt) (b : GxBlock) : Nat :=
  b.e0 + 256 * b.e1 + 65536 * fmtCode f +
    (b.codes.foldr (fun c acc => c + 2 ^ fmtBits f * acc) 0) <<< 64

/-- Bits of one group. -/
def gxBits (f : Fmt) : Nat := 64 * gxLanes f

/-- Group b of a register. -/
def groupOf (f : Fmt) (v : VReg) (b : Nat) : Nat := elemOf v (gxBits f) b

/-- Writes group b, header bytes 2-7 as R64 shows them. -/
def setGroup (f : Fmt) (v : VReg) (b x : Nat) : VReg :=
  setElem v (gxBits f) b (putBits x 16 48 (fmtCode f))

end Sys2Proof.Machine
end

