-- ==== Sys2Proof/Config.lean ====
section
/-!
DEFINITION. What the specification leaves to the implementation, as constants without a body: nothing can be proved
about their values, so a claim holds whatever they are. Each is applied to a serial number of the state or to the
operands it depends on.
-/
namespace Sys2Proof.Config

/-- The value a fresh handle starts from: a launch handle (R104) or an attachment handle (R247) is the first usable
value at or above it. -/
opaque handle : Nat → W64

/-- HARTID and COREID of a system hart, which has no number of R10. -/
opaque systemHartId : Nat → BitVec 3
opaque systemCoreId : Nat → BitVec 8

/-- Which free core CTXLOAD takes when it may take any (R374). -/
opaque anyCore : Nat → Nat

/-- Byte i of the engine block and of the attachment block of image `n` (R370 gives their contents, not their layout). -/
opaque imageByte : Nat → Nat → Byte

/-- The check code the device computes over a block of an image (R370). -/
opaque checkCode : List Byte → BitVec 32

/-- The byte at a byte key of the nodes of a coordinate region, at a version of them: their layout is the device's (R337). -/
opaque nodeByte : Nat → Nat → Byte

/-- Where the engine starts to look for a free node of a region (R340: node numbers are the device's). -/
opaque node : Nat → Nat

/-- A new key that falls between the keys of two neighbouring leaves goes to the left one (R340 does not say which). -/
opaque gapLeft : Nat → Bool

/-- The firmware stages a module loads at boot: measurement register, bytes, public key and signature (R384), and the hash
of the key that its fuses hold. -/
opaque bootStages : Nat → List (Nat × List Byte × List Byte × List Byte)
opaque fuseKeyHash : BitVec 256

/-- What a dword of a block of BAR0 reads as whose fields R376 names and does not place: identity, boot status, power
status and PLIM; GTIME and EPOCH; the attestation mailbox. -/
opaque identityDword : Nat → Bool → Bool → List Nat → Nat → W64
opaque timeDword : Nat → Nat → W64
opaque mailboxDword : Nat → Option Nat → List Byte → Bool → W64

/-- Byte i of the signature of attestation number `n` of a module (R384). -/
opaque signature : Nat → Nat → List (BitVec 256) → List Byte → List Byte

/-- The links, as module and port, that exchange traffic from one module to another crosses (R381 fixes the routes by
digit, not their ports). -/
opaque route : Nat → Nat → List (Nat × Nat)

/-- Where PKGID stands in the identity block of BAR0, as a dword number, and how far after it, around the block, B2BASE
stands (R376 places the blocks only). -/
opaque pkgidWord : Fin 8192
opaque b2baseGap : Fin 8191

/-- Offsets of PKGID and B2BASE: two different dwords of the block. -/
def pkgidOffset : Nat := 8 * pkgidWord.val
def b2baseOffset : Nat := 8 * ((pkgidWord.val + 1 + b2baseGap.val) % 8192)

/-- Bytes that the switches and the senders' buffers take beyond a destination's staging (R286 gives no size). -/
opaque sendRoom : Nat

/-- How many records after the first an XSEND sends before its hart may be stopped at a record boundary (R288). -/
opaque sendBurst : Nat → Nat

/-- Whether the image at VHTB is loaded into the resident copy when a context is created: R378 says so; R365 says that every
entry is absent then and that the image is read at VHTINV only. -/
opaque vhtAtCreation : Bool

/-- PLIM after a write outside 600 to 2,400 W (R385 gives none). -/
opaque plim : Nat → Nat

end Sys2Proof.Config
end

