-- ==== Sys2Proof/Machine/Cells.lean ====
section
/-!
DEFINITION. The finite tables the state is made of: lists of key and value pairs with strictly rising keys, so that
equal tables are equal lists. `Cells` never lists a zero, so a key that is not listed reads as zero.
-/
namespace Sys2Proof.Machine

/-- Key and value pairs, keys strictly rising. -/
abbrev Tab (α : Type) := List (Nat × α)

/-- The value at a key. -/
def Tab.find {α : Type} : Tab α → Nat → Option α
  | [], _ => none
  | (k, v) :: r, q => if k = q then some v else Tab.find r q

/-- Writes a key, keeping the order. -/
def Tab.put {α : Type} : Tab α → Nat → α → Tab α
  | [], q, v => [(q, v)]
  | (k, x) :: r, q, v =>
    if q < k then (q, v) :: (k, x) :: r
    else if k = q then (q, v) :: r
    else (k, x) :: Tab.put r q v

/-- Removes a key. -/
def Tab.del {α : Type} : Tab α → Nat → Tab α
  | [], _ => []
  | (k, x) :: r, q => if k = q then Tab.del r q else (k, x) :: Tab.del r q

/-- The value at a key, or a default. -/
def Tab.getD {α : Type} (t : Tab α) (k : Nat) (d : α) : α := (t.find k).getD d

/-- The value at a key changed, when there is one. -/
def Tab.upd {α : Type} (t : Tab α) (k : Nat) (f : α → α) : Tab α :=
  match t.find k with
  | some v => t.put k (f v)
  | none => t

/-- The keys of a table. -/
def Tab.keys {α : Type} (t : Tab α) : List Nat := t.map Prod.fst

/-- The smallest key at or above `n` that is free, searching `fuel` keys. -/
def Tab.freeFrom {α : Type} (t : Tab α) : Nat → Nat → Nat
  | 0, n => n
  | fuel + 1, n => match t.find n with
    | none => n
    | some _ => Tab.freeFrom t fuel (n + 1)

/-- A key no entry uses: the smallest at or above `n`. -/
def Tab.fresh {α : Type} (t : Tab α) (n : Nat) : Nat := t.freeFrom (t.length + 1) n

/-- Keys strictly rise, all above `lo` when it is given. -/
def Tab.risingFrom {α : Type} : Option Nat → Tab α → Bool
  | _, [] => true
  | lo, (k, _) :: r => (match lo with | none => true | some l => decide (l < k)) && Tab.risingFrom (some k) r

def Tab.wf {α : Type} (t : Tab α) : Bool := Tab.risingFrom none t

/-- A table of `w`-bit words in which an unlisted key reads as zero. -/
abbrev Cells (w : Nat) := Tab (BitVec w)

def Cells.get {w : Nat} (c : Cells w) (k : Nat) : BitVec w :=
  match Tab.find c k with
  | some v => v
  | none => 0

/-- Writes a cell; writing zero removes it. -/
def Cells.set {w : Nat} (c : Cells w) (k : Nat) (v : BitVec w) : Cells w :=
  if v = 0 then Tab.del c k else Tab.put c k v

/-- The canonical form: keys strictly rising, no zero listed. -/
def Cells.wf {w : Nat} (c : Cells w) : Bool := Tab.wf c && c.all (fun p => p.2 != 0)

/-- The number whose byte `i` is the cell at `a + i`, for `n` cells: little-endian (R3). -/
def Cells.load (c : Cells 8) (a : Nat) : Nat → Nat
  | 0 => 0
  | n + 1 => (c.get a).toNat + 256 * Cells.load c (a + 1) n

/-- Stores the low `n` bytes of `v` at `a`, byte 0 lowest (R3). -/
def Cells.store (c : Cells 8) (a : Nat) : Nat → Nat → Cells 8
  | 0, _ => c
  | n + 1, v => Cells.store (c.set a (BitVec.ofNat 8 v)) (a + 1) n (v / 256)

/-- Sets `n` consecutive cells to one value. -/
def Cells.fill {w : Nat} (c : Cells w) (a : Nat) (v : BitVec w) : Nat → Cells w
  | 0 => c
  | n + 1 => Cells.fill (c.set a v) (a + 1) v n

/-- Clears every cell whose key is in `[lo, hi)`. -/
def Cells.clear {w : Nat} (c : Cells w) (lo hi : Nat) : Cells w :=
  c.filter (fun p => !(decide (lo ≤ p.1) && decide (p.1 < hi)))

/-- The cells whose keys are in `[lo, hi)`, keys counted from `lo`. -/
def Cells.slice {w : Nat} (c : Cells w) (lo hi : Nat) : Cells w :=
  (c.filter (fun p => decide (lo ≤ p.1) && decide (p.1 < hi))).map (fun p => (p.1 - lo, p.2))

/-- Writes a slice back at `lo`. -/
def Cells.paste {w : Nat} (c : Cells w) (lo : Nat) (s : Cells w) : Cells w :=
  s.foldl (fun c p => Cells.set c (lo + p.1) p.2) c

end Sys2Proof.Machine
end

