-- ==== Sys2Proof/Machine/State.lean ====
section
/-!
DEFINITION. The state of a system of Freong 8800 modules, as plain data (R9, R16, R51, R376-R385), and the state after
module reset. Keys are naturals: a hart is pkg*2048 + core*8 + hart, the system hart of a die pkg*2048 + 1536 + die, a
core pkg*256 + core, a quad pkg*64 + quad, a context pkg*16 + slot. All memory is one table of bytes: physical address
a of module p at p*2^42 + a, core c's pool at 2^60 + c*2^23, its accumulator store at 2^61 + c*2^22 (R9, R363).
-/
namespace Sys2Proof.Machine

/-- Why the machine stops. -/
inductive Fault where
  /-- No hart exists under the key the model runs (`State.cur`). Raised by step only; no run from reset reaches it.
  Safe: nothing is executed. -/
  | noHart
  deriving DecidableEq, Repr

/-- Why an instruction has no meaning here. -/
inductive Refusal where
  /-- The instruction has no meaning yet. Safe. -/
  | notModelled (mnemonic : String)
  deriving DecidableEq, Repr

/-- A loop-nest register LN0-LN5 (R218). -/
structure LnReg where
  count : BitVec 32 := 0
  sstr  : W64 := 0
  dstr  : W64 := 0
  deriving DecidableEq, Repr

/-- A collective group register g0-g7 (R321). -/
structure GroupReg where
  usable : Bool := false
  ident  : Nat := 0
  size   : Nat := 0
  rank   : Nat := 0
  bobj   : W64 := 0
  count  : Nat := 0
  /-- The members of the list that was read, in rank order. -/
  list   : List Nat := []
  deriving DecidableEq, Repr

/-- What a copy or gather token stands for while its engine works (R219, R225, R227, R351). -/
inductive Work where
  /-- CPY: source, destination, element bytes, captured nest, innermost level first. -/
  | bytes (src dst : W64) (e : Nat) (nest : List LnReg)
  /-- CPYR mode 00: `c` registers from `v`, from address `a`. -/
  | regIn (v c : Nat) (a : W64)
  /-- CPYR mode 01: the captured registers, to address `a`. -/
  | regOut (v c : Nat) (a : W64) (data : List VReg)
  /-- CPYX: the captured registers and tags, for member `mid` of the launch; `none` when the target is none. -/
  | regX (v c : Nat) (mid : Option Nat) (data : List (VReg × BitVec 4))
  /-- GTH 0, SCT 1, SCTADD 2 with the descriptor read at issue. -/
  | gather (fn : Nat) (desc : Nat)
  deriving DecidableEq, Repr

/-- One copy token and its restart record (R222, R224). -/
structure Token where
  pending  : Bool := false
  failed   : Bool := false
  work     : Option Work := none
  /-- The barrier object of a CPY. -/
  bobj     : Option W64 := none
  /-- Copies, groups or tiles already performed. -/
  done     : List Nat := []
  /-- The failing copy, its cause and its address. -/
  failJ    : Nat := 0
  cause    : Nat := 0
  val      : W64 := 0
  /-- A Barrier-overrun, Level-mismatch or object fault owed at the next wait. -/
  owed     : Option (Nat × W64) := none
  /-- Flags SCTADD raises at the wait (R353). -/
  flags    : Flags := 0
  /-- The indices a gather or scatter has read, the rows it has read, and SCTADD's sums under way, by index (R352). -/
  index    : List Nat := []
  latch    : Tab (List Byte) := []
  /-- Program-order number, for the scoreboard of R228. -/
  seq      : Nat := 0
  /-- The deadline of R331 in ns. -/
  deadline : Nat := 0
  deriving DecidableEq, Repr

/-- A plane of weights: depth, weights as exact binary64 patterns keyed row*256 + k, staged tangents (R249). -/
structure MPlane where
  kt  : Nat := 0
  w   : Cells 64 := []
  tan : List (Cells 64) := []
  deriving DecidableEq, Repr

/-- A queued array command (R254, R255). -/
structure MCmd where
  /-- 0 MLDS, 1 MSWAP, 2 MSTRM. -/
  kind  : Nat
  seq   : Nat
  /-- Class, GTIME of issue, and GTIME of the last step run or fall of the class. -/
  cls   : Nat
  since : Nat
  last  : Nat
  /-- Runs of byte keys (first, count) that the primal and each plane in force read, in order. -/
  src   : List (List (Nat × Nat))
  /-- Accumulator offset, shape word or rows word, masks. -/
  acc   : Nat
  shape : Nat
  mask  : Nat
  /-- Planes in force and the next step. -/
  n     : Nat
  step  : Nat
  deriving DecidableEq, Repr

/-- The runs of byte keys a command still has to read (R257). -/
def MCmd.rd (c : MCmd) : List (Nat × Nat) := c.src.flatMap id

/-- A matrix attachment (R246, R250). -/
structure Attach where
  handle : Nat
  /-- The core whose accumulator store holds the extent. -/
  core   : Nat
  rows   : Nat
  infmt  : Nat
  accfmt : Nat
  chain  : Bool
  split  : Nat
  active : MPlane
  shadow : MPlane
  base   : Nat
  len    : Nat
  queue  : List MCmd
  flags  : Flags
  deriving DecidableEq, Repr

/-- What a waiting instruction has already done: its kind and two numbers that its meaning fixes (R18's wait record). -/
structure Wait where
  kind : Nat
  a    : Nat
  b    : Nat
  deriving DecidableEq, Repr

/-- A full-empty wait: the granules it is for, whether it empties them, and whether its event had come when the hart's
team was swapped out (R18, R179). -/
structure Await where
  granules : List Nat
  clr      : Bool
  met      : Bool := false
  deriving DecidableEq, Repr

/-- The state of a request to another module made by a hart that waits for its value (R173). -/
structure RemoteWait where
  op    : Nat
  ready : Option (Nat × Flags)
  deriving DecidableEq, Repr

/-- A posted receive region (R293): group, destination, runs of byte keys, object, bytes and records so far. -/
structure Posted where
  group : Nat
  dest  : Nat
  runs  : List (Nat × Nat)
  bobj  : W64
  at_   : Nat
  count : Nat
  deriving DecidableEq, Repr

/-- The user CSRs that a program or the launch unit sets (R51). -/
structure Csrs where
  vl     : Nat := 0
  cf     : BitVec 4 := 0
  vctl   : BitVec 3 := 0
  vstart : Nat := 0
  rm     : BitVec 2 := 0
  fflags : Flags := 0
  toff   : Cells 64 := []
  dualn  : Nat := 0
  dln    : W64 := 0
  lead   : W64 := 0
  uhaddr : W64 := 0
  ucause : BitVec 8 := 0
  upc    : W64 := 0
  uval   : W64 := 0
  deriving DecidableEq, Repr, Inhabited

/-- The saved bank of R361. -/
structure Bank where
  cause  : BitVec 8 := 0
  pc     : W64 := 0
  val    : W64 := 0
  status : W64 := 0
  ctx    : BitVec 4 := 0
  deriving DecidableEq, Repr, Inhabited

/-- The privileged CSRs of a system hart and its saved bank (R51, R359, R361). -/
structure SysRegs where
  tstatus  : W64 := 0
  tcause   : BitVec 8 := 0
  tpc      : W64 := 0
  tval     : W64 := 0
  tvec     : W64 := 0
  tscratch : W64 := 0
  ctxid    : BitVec 4 := 0
  bank     : Bank := {}
  deriving DecidableEq, Repr, Inhabited

/-- A trap record waiting or in service at a system hart (R356, R368, R371). -/
structure TrapRec where
  hart  : Nat
  cause : Nat
  pc    : W64
  val   : W64
  uh    : Bool
  log   : Bool
  eng   : Bool
  cls   : Nat
  ctx   : Nat
  /-- The hart's place in its launch, which stays when its team moves. -/
  launch : Nat := 0
  mid   : Nat := 0
  deriving DecidableEq, Repr

/-- Whether a hart issues. -/
inductive HStat where
  | running
  /-- A record of the hart waits or is in service (R356). -/
  | stopped
  deriving DecidableEq, Repr, Inhabited

/-- The partial tangents of a VSCAN of a convoy that stopped: the convoy's address, the member, VSTART, and the planes of
the last element as values of T (R19, R80, R160). -/
structure Chain where
  pc     : W64
  idx    : Nat
  vstart : Nat
  acc    : List Num
  deriving DecidableEq, Repr

/-- A convoy of several members under way, member by member: one of its members waits for another module, or for its turn,
when the members before it are through (R109, R128, R183). -/
structure Part where
  /-- The member at work, from 0. -/
  idx    : Nat
  /-- The element at which the convoy began; VSTART is where the member at work goes on. -/
  base   : Nat
  /-- The element at which the convoy is to stop, for a reason found before it began. -/
  lim    : Option Nat
  /-- As in `Convoy`. -/
  made   : List Nat
  cmasks : Tab MReg
  pushes : List (Nat × W64)
  deriving DecidableEq, Repr

/-- Where a stream of a hart stands: its pc, a DUAL prefix it has passed, the words of the convoy under way by address, and
what that convoy waits for. -/
structure Side where
  pc     : W64
  dual   : Option (Nat × W64)
  under  : Tab W32
  wait   : Option Wait
  await  : Option Await
  remote : Tab RemoteWait
  part   : Option Part
  deriving DecidableEq, Repr

/-- A convoy that the vector stream has gone through and that has still to retire: its address, the next one, its pushes. -/
structure Past where
  pc     : W64
  next   : W64
  pushes : List (Nat × W64)
  deriving DecidableEq, Repr

/-- The vector stream of a hart whose control stream waits at an empty queue (R14, R106, R107): where it stands, what it has
gone through, and of the control-stream instructions it has passed the words by address and the registers they have still
to write. -/
structure Ahead where
  side  : Side
  past  : List Past
  words : Tab W32
  stale : List (W64 × BitVec 5)
  deriving DecidableEq, Repr

/-- One hart (R16). -/
structure Hart where
  system   : Bool := false
  stat     : HStat := .running
  pc       : W64 := 0
  /-- A DUAL prefix already passed: its count and its address (R236). -/
  dual     : Option (Nat × W64) := none
  regs     : Cells 64 := []
  v        : Cells 8192 := []
  tags     : Cells 4 := []
  /-- Plane k of register r at key k*64 + r. -/
  planes   : Cells 8192 := []
  masks    : Cells 1024 := []
  queues   : Tab (List W64) := []
  groups   : Tab GroupReg := []
  ln       : Tab LnReg := []
  chains   : List Chain := []
  tokens   : Tab Token := []
  csr      : Csrs := {}
  sys      : SysRegs := {}
  /-- Trap records waiting at a system hart, in queueing order. -/
  recs     : List TrapRec := []
  /-- The record in service at a system hart. -/
  serving  : Option TrapRec := none
  ctx      : Nat := 0
  launch   : Nat := 0
  /-- Member number in the launch: team*8 + HART slot. -/
  mid      : Nat := 0
  cls      : Nat := 0
  /-- Tangent planes reserved (R82). -/
  nplanes  : Nat := 0
  /-- The smallest VLCAP set since the hart last stood before a dispatch (R132). -/
  vcap     : Nat := 128
  /-- VLCAP as the convoy under way captured it at dispatch (R50, R132, R136). -/
  cap      : Nat := 128
  inUser   : Bool := false
  att      : Option Attach := none
  /-- What handlers froze, innermost first: the attachment of the interrupted code, or none (R260). -/
  frozen   : List (Option Attach) := []
  /-- The open exchange stream: group and sender index (R276). -/
  stream   : Option (Nat × Nat) := none
  /-- What an XSEND under way has still to send: region, offset of the next record, records left (R288). -/
  sending  : Option (Nat × Nat × Nat) := none
  posted   : List Posted := []
  /-- Causes owed at XROUND, per group (R293). -/
  owedX    : List (Nat × Nat × W64) := []
  /-- BARLs made and PHASEs made, per level (R99, R96). -/
  barls    : Cells 64 := []
  phases   : Cells 64 := []
  /-- FARMNEXT on a level that is not FARM has been made (R100). -/
  farmed   : Cells 1 := []
  /-- Last strip received per FARM level, plus one (R98). -/
  strips   : Cells 64 := []
  wait     : Option Wait := none
  await    : Option Await := none
  remote   : Tab RemoteWait := []
  /-- The hart has made a YIELD and has not had its turn since (R102). -/
  yielded  : Bool := false
  /-- The largest GTIME the hart has read (R125). -/
  seen     : Nat := 0
  /-- Deadline already raised (R94). -/
  dlRaised : Bool := false
  /-- The record of this hart still to be queued when its team resumes (R358). -/
  held     : Option TrapRec := none
  /-- Instruction words the hart's fetch still sees as they once were, by byte key (R48); true once an acquire has
  followed, so that the next jump fetches them anew. -/
  fetched  : Tab (BitVec 32 × Bool) := []
  /-- The words of the convoy under way by address; after a DUAL the word that follows it too (R21, R25, R48). -/
  under    : Tab W32 := []
  /-- A convoy of several members under way, member by member. -/
  part     : Option Part := none
  /-- The vector stream past the queue read at which the hart waits. -/
  ahead    : Option Ahead := none
  deriving DecidableEq, Repr, Inhabited

/-- One store element in a side log (R176, R177): hart, context, module and offset of its first byte, the pointer the
store used, its place in program order, its bytes; `ord` for an ordered element (R182), `tick` the module whose counter
an SC element has drawn its ticket from (R183). -/
structure LogEntry where
  hart     : Nat
  ctx      : Nat
  cls      : Nat
  pkg      : Nat
  va       : Nat
  ptr      : W64
  born     : Nat
  data     : List Byte
  ord      : Bool := false
  tick     : Option Nat := none
  deriving DecidableEq, Repr

/-- One core (R16, R51, R169, R171). -/
structure CoreS where
  vlcap  : Nat := 128
  bnd0   : Nat := 0
  bnd1   : Nat := 0
  bnd2   : Nat := 0
  log    : List LogEntry := []
  capmax : Nat := 128
  /-- Launch and team number of the placed team. -/
  team   : Option (Nat × Nat) := none
  placed : Nat := 0
  /-- Blocks (offset bits 21:10) whose line is pinned while the boundaries are unset. -/
  pinned : List Nat := []
  /-- The team resumed here and waits until its quad can grant its rows again (R261). -/
  rowsDue : Bool := false
  deriving DecidableEq, Repr

/-- A declared level with its realised width W (R83, R85). -/
structure Level where
  count  : Nat
  phys   : Nat
  dist   : Nat
  cores  : Bool
  phased : Bool
  w      : Nat
  deriving DecidableEq, Repr

/-- The block of strips a farm worker still holds (R95). -/
structure Strips where
  lo : Nat
  hi : Nat
  deriving DecidableEq, Repr

/-- A launch parameter block as the launch unit read it (R82). -/
structure Lpb where
  entry    : W64
  arg      : W64
  dualn    : Nat
  planes   : Nat
  cls      : Nat
  cf       : Nat
  vctl     : Nat
  vlcap    : Nat
  deadline : Nat
  lead     : Nat
  dlfault  : Bool
  uhaddr   : W64
  toff     : List W64
  bnd0     : Nat
  bnd1     : Nat
  bnd2     : Nat
  event    : W64
  levels   : List Level
  deriving DecidableEq, Repr

/-- A launch (R81, R90-R96). -/
structure Launch where
  pkg     : Nat
  ctx     : Nat
  addr    : W64
  blk     : Lpb
  cls     : Nat
  handle  : Nat
  /-- The host queue it came from. -/
  queue   : Option Nat
  /-- Teams placed so far, with the core key of each (kept after the team has left). -/
  teams   : Tab Nat
  /-- Where its teams have been placed, latest first: core key and team (R227, R274). -/
  places  : List (Nat × Nat) := []
  /-- Teams that have been swapped out or saved since: their place no longer fixes the units of slots (R87). -/
  moved   : List Nat := []
  /-- Member number to whether it has exited. -/
  members : Tab Bool
  /-- Farm blocks keyed by the worker (level, parent unit, worker). -/
  farms   : Tab Strips
  /-- Phase counters keyed by the unit. -/
  phases  : Cells 64
  /-- Code written to the status word; 0 before RUNNING. -/
  status  : Nat
  missed  : Bool
  since   : Nat
  deriving DecidableEq, Repr

/-- A record in flight (R272). -/
structure Rec where
  key  : Nat
  kind : Nat
  ovf  : Bool
  rrt  : Bool
  cmb  : Bool
  src  : Nat
  rnd  : Nat
  pay  : List Byte
  deriving DecidableEq, Repr

/-- One sender's stream of a round (R276, R277): its records in send order. -/
structure Stream where
  launch : Nat
  mid    : Nat
  /-- The module its hart opened it on. -/
  pkg    : Nat
  closed : Bool
  last   : Option Nat
  recs   : List Rec
  deriving DecidableEq, Repr

/-- What has reached one destination in a round (R286, R293). -/
structure DestS where
  emitted : Nat := 0
  staging : List Rec := []
  got     : Nat := 0
  ended   : Bool := false
  deriving DecidableEq, Repr

/-- A replica entry: destinations of the copies and capacity (R305). -/
structure Replica where
  dests : List Nat
  cap   : Nat
  deriving DecidableEq, Repr

/-- A version of the replica table: the entries that differ from those at install, and its boundary. -/
structure Version where
  entries  : Tab Replica
  boundary : Option Nat
  deriving DecidableEq, Repr

/-- A round of a group (R276). -/
structure Round where
  set       : List Nat
  comb      : Nat
  caps      : List Nat
  streams   : Tab Stream
  closed    : Bool
  completed : Bool
  dests     : Tab DestS
  /-- The proposal, N and j of the sample, and counts sent per range (R284, R285). -/
  prop      : List Nat
  nsamp     : Nat
  j         : Nat
  sentd     : List Nat
  /-- Once it has closed: the records delivered to, and how many were dropped at, every destination. -/
  result    : List (List Rec × Nat)
  /-- Harts (launch and member) whose first XROUND of the round has raised Capacity. -/
  told      : List (Nat × Nat)
  deriving DecidableEq, Repr

/-- The control block of XPFT (R317). -/
structure Pft where
  pfth    : Nat
  enrep   : Bool
  hi      : Nat
  lo      : Nat
  wbase   : W64
  lstride : Nat
  estride : Nat
  wlen    : Nat
  woff    : Nat
  deriving DecidableEq, Repr

/-- A weight copy the Monarch or prefetch engine has decided on (R309, R311): source pointer, destination index,
scratchpad offset, bytes, bytes copied. -/
structure WCopy where
  src   : Nat
  dest  : Nat
  off   : Nat
  len   : Nat
  at_   : Nat
  deriving DecidableEq, Repr

/-- An exchange group (R274), on every module of its launch. -/
structure Group where
  launch  : Nat
  ctx     : Nat
  /-- Byte key of the descriptor, the group's name (R275). -/
  key     : Nat
  rebal   : Bool
  policy  : Nat
  layer   : Bool
  level   : Nat
  s       : Nat
  rcap    : Nat
  /-- The member and core key of each destination. -/
  dests   : List (Nat × Nat)
  /-- The set the next round routes by. -/
  set     : List Nat
  comb    : Nat
  caps    : List Nat
  rounds  : List Round
  /-- Homes fixed at install (R305). -/
  home    : List Nat
  versions : List Version
  staged  : Tab Replica
  maxTag  : Nat
  pft     : Option Pft
  /-- RLAST and per-destination loads at the last completed round (R309, R316). -/
  rlast   : Tab Nat
  lastDone : Option Nat
  mst     : Nat
  mx      : Nat
  md      : Nat
  /-- The block of XLOAD as it was at the last completed round (R316). -/
  shown   : Nat
  /-- The Monarch copy under way and the prefetch copies decided. -/
  monarch : Option WCopy
  prefetch : List WCopy
  /-- Experts already prefetched: layer*256 + expert. -/
  fetched : List Nat
  deriving DecidableEq, Repr

/-- One member's part in a collective instance (R323, R324). -/
structure CMember where
  launch : Nat
  mid    : Nat
  reg    : Nat
  rank   : Nat
  size   : Nat
  kind   : Nat
  op     : Nat
  exact  : Bool
  fmt    : Nat
  vl     : Nat
  root   : Nat
  n      : Nat
  vd     : Nat
  mask   : Option MReg
  vlcap  : Nat
  sat4   : Bool
  bobj   : W64
  list   : List Nat
  /-- vs1 and its planes as the engine read them, in the operating format. -/
  src    : List VReg
  deadline : Nat
  written : Bool
  /-- The module whose staging holds its part once staging is reserved (R332). -/
  pkg    : Nat := 0
  /-- Its place in the hart's program order, its source register, and whether the engine has still to read that (R328). -/
  seq    : Nat
  vs1    : Nat
  due    : Bool
  deriving DecidableEq, Repr

/-- A collective instance (R323, R332). `state`: 0 gathering members, 1 waiting for staging, 2 staged. -/
structure Coll where
  ident   : Nat
  index   : Nat
  launch  : Nat
  members : List CMember
  state   : Nat
  /-- Staging reserved on each module. -/
  staged  : Tab Nat
  deriving DecidableEq, Repr

/-- What a hart is owed by a collective, at CWAIT (R329). -/
structure Owed where
  launch : Nat
  mid    : Nat
  reg    : Nat
  coll   : Nat
  cause  : Option (Nat × W64)
  dl     : Option W64
  flags  : Flags
  deriving DecidableEq, Repr

/-- A coordinate region (R337), named by the byte key of its header. The fields of its shape record stand in memory. -/
structure Region where
  /-- The runs of byte keys (first, count) of its pool, and those of its bytes that programs have written since. -/
  runs  : List (Nat × Nat)
  raw   : List (Nat × Nat)
  /-- A number for the bytes of the nodes as the engine last left them. -/
  ver   : Nat
  /-- Present keys and values, ascending. -/
  pairs : List (Nat × Nat)
  /-- Node number and size of the nodes of each tree level, leaves first: pairs of a leaf, children of a node (R340). -/
  shape : List (List (Nat × Nat))
  deriving DecidableEq, Repr

/-- A request to another module (R173, R201). `state`: 0 sent, 1 performed, 2 acknowledged or returned; `born` its place
in program order; `slot` and `vas` the context and the offsets in the global window its bytes were named by; `logged` a
replayed store; `ord` as in the side log; `tick` the counter of an SC access, which a replayed store has drawn from and
any other draws from as it is performed (R183, R202). -/
structure RemoteOp where
  hart  : Nat
  core  : Nat
  pkg   : Nat
  /-- Byte keys of the access, lowest address first. -/
  keys  : List Nat
  /-- 0 load, 1 store, 2 ATOM, 3 CAS. -/
  kind  : Nat
  fn    : Nat
  val   : Nat
  cmp   : Nat
  state : Nat
  result : Nat
  flags : Flags
  born  : Nat
  slot   : Nat := 0
  vas    : List Nat := []
  logged : Bool := false
  ord   : Bool := false
  tick  : Option Nat := none
  /-- The level an SC atomic names. -/
  scope : Option Nat := none
  deriving DecidableEq, Repr

/-- A translation that a TLB keeps: Page, or the entry found and the physical base of the 64 KiB page (R364). -/
structure TlbEntry where
  absent : Bool
  entry  : Nat
  base   : Nat
  deriving DecidableEq, Repr

/-- A context's slot (R378) and its resident vector huge-page table (R365). -/
structure Ctx where
  live      : Bool := false
  /-- EN as the host last wrote it. -/
  en        : Bool := false
  tdeleg    : W64 := 0
  sptb      : W64 := 0
  vhtb      : W64 := 0
  firstpkg  : Nat := 0
  groupmods : Nat := 0
  ngroups   : Nat := 0
  cores     : BitVec 192 := 0
  vht       : Cells 64 := []
  /-- The slot's fields as the host last wrote them. -/
  fields    : Cells 64 := []
  /-- Translations that a TLB of the module keeps, by 64 KiB page of the global window (R364). -/
  tlb       : Tab TlbEntry := []
  deriving DecidableEq, Repr

/-- A host launch queue (R379). -/
structure Queue where
  base : W64 := 0
  size : Nat := 0
  ctx  : Nat := 0
  vec  : Nat := 0xFFF
  head : Nat := 0
  tail : Nat := 0
  /-- Entries made available and not yet taken. -/
  left : Nat := 0
  deriving DecidableEq, Repr

/-- One module (R9, R376-R385). -/
structure Mod where
  gtime   : Nat := 0
  /-- GTIME still to be lost by slewing back (R382). -/
  slow    : Nat := 0
  /-- Nanoseconds since the last time exchange (R382). -/
  synced  : Nat := 0
  ticket  : Nat := 0
  b2base  : Nat := 0
  /-- The window of BAR2 has 2^b2bits bytes (R376). -/
  b2bits  : Nat := 38
  plim    : Nat := 2400
  /-- The power register: true while the module runs. -/
  on      : Bool := true
  /-- Boot status: true once verified, false for FAIL. -/
  booted  : Bool := true
  idle    : List Nat := []
  /-- Nanoseconds for which it has run since its reset, whatever GTIME says. -/
  age     : Nat := 0
  /-- 1 more than the age at which each idle die that is leaving idle is back, and the age at which each die last had work. -/
  waking  : Cells 64 := []
  busy    : Cells 64 := []
  ports   : List Nat := []
  replays : Cells 64 := []
  /-- Corrected-error and soft-error counters, by dword of their block of BAR0. -/
  counters : Cells 64 := []
  queues  : Tab Queue := []
  msix    : Cells 8 := []
  /-- The pending-bit array of MSI-X. -/
  pba     : Cells 1 := []
  msgs    : List Nat := []
  mailbox : Option Nat := none
  answer  : List Byte := []
  /-- The last request was answered EXHAUSTED. -/
  exhausted : Bool := false
  /-- The eight measurement registers. -/
  measure : List (BitVec 256) := [0, 0, 0, 0, 0, 0, 0, 0]
  sigs    : Nat := 0
  /-- Transition counters keyed layer*65536 + a*256 + b, row counts keyed layer*256 + a, and the claiming group. -/
  trans   : Cells 3 := []
  rows    : Cells 64 := []
  claim   : Option Nat := none
  deriving DecidableEq, Repr

/-- A saved team (R369, R370). -/
structure Image where
  launch  : Nat
  team    : Nat
  pkg     : Nat
  core    : Nat
  ctx     : Nat
  cls     : Nat
  vlcap   : Nat
  bnd0    : Nat
  bnd1    : Nat
  bnd2    : Nat
  /-- The harts by HARTID, as engines have left them since, and as they were saved. -/
  harts   : Tab Hart
  orig    : Tab Hart
  /-- The phase counters written for each hart, by HARTID. -/
  phases  : Tab (List Nat)
  /-- The pool with its full-empty bits, and the accumulator extents. -/
  pool    : Cells 8
  fe      : Cells 1
  ext     : Cells 8
  /-- Whether the launch unit holds it (and resumes it), or CTXSAVE wrote it. -/
  swapped : Bool
  /-- CTXLOAD has placed it since; its bytes may be loaded again. -/
  loaded  : Bool := false
  /-- Its bytes in the swap area, piece by piece: how many, and their value. Firmware keeps the area outside every global
  space (R369). -/
  area    : List (Nat × Nat) := []
  deriving DecidableEq, Repr, Inhabited

/-- Why a convoy stops before it completes (R71, R112, R129, R176, R179). -/
inductive Stop where
  /-- A check of the whole convoy fails: cause and value; no element is touched. -/
  | whole (cause : Nat) (val : W64)
  /-- A trap at an element. -/
  | atElem (e : Nat) (cause : Nat) (val : W64)
  /-- A full-empty wait of the whole convoy, after first accesses to the bytes at these keys (R171, R179). -/
  | wait (ks : List Nat) (w : Await)
  /-- A wait at an element: what for, and the request to another module to make. -/
  | waitAt (e kind : Nat) (req : Option (Nat × RemoteOp))
  deriving DecidableEq, Repr

/-- The progress of the convoy being executed (R128, R129). -/
structure Convoy where
  /-- Elements at or above it are not processed. -/
  lim    : Option Nat := none
  /-- Why the convoy stops, when it does. -/
  stop   : Option Stop := none
  /-- Results of MASK members, written at completion. -/
  cmasks : Tab MReg := []
  /-- Queue pushes, made at completion. -/
  pushes : List (Nat × W64) := []
  /-- The member at work, from 0. -/
  idx    : Nat := 0
  /-- The hart as each member that reads beyond its own element found it when every earlier member had run in full, or as
  far as it goes; results of MASK members among its masks (R152). -/
  seen   : Tab Hart := []
  /-- Registers that earlier members write; mask m as 64 + m. -/
  made   : List Nat := []
  /-- The reason of the pass under way, when it has a limit. -/
  why    : Option Stop := none
  /-- A look ahead has met a value that it could not know. -/
  blind  : Bool := false
  deriving DecidableEq, Repr

/-- What moves next in the system (the model's own order of its agents). -/
inductive Move where
  | hart (k : Nat)
  | event (i : Instr)
  | time (ns : Nat)
  /-- The host reads eight bytes of BAR0 (R376). -/
  | bar0Read (p off : Nat)
  /-- The host gives BAR2 a size of 2^bits bytes (R376). -/
  | resizeBar2 (p bits : Nat)
  /-- An error is corrected, and counter `n` of the module counts it (R371). -/
  | corrected (p n : Nat)
  /-- A hart's fetch keeps the word at a byte key as it is now, or gives up what it kept (R48). -/
  | keepWord (k key : Nat)
  | dropWord (k key : Nat)
  /-- The TLBs of a module keep the translation of a page of a context as it is now, or give it up (R364). -/
  | keepPage (p slot page : Nat)
  | dropPage (p slot page : Nat)
  /-- The vector stream of a hart that waits at an empty queue goes on by one convoy (R14, R106). -/
  | ahead (k : Nat)
  deriving DecidableEq, Repr

/-- The whole system. -/
structure State where
  mem    : Cells 8
  /-- Full-empty bits, keyed by byte key / 16 (R178). -/
  fe     : Cells 1
  /-- Uncorrectable errors present, keyed by byte key / 8 (R371). -/
  ecc    : Cells 1
  harts  : Tab Hart
  cores  : Tab CoreS
  mods   : Tab Mod
  ctxs   : Tab Ctx
  launches : Tab Launch
  groups : Tab Group
  colls  : Tab Coll
  owed   : List Owed
  regions : Tab Region
  remote : Tab RemoteOp
  images : Tab Image
  /-- The hart that executes. -/
  cur    : Nat
  cv     : Option Convoy
  agenda : List Move
  /-- A counter that numbers launches, handles, images and free values. -/
  seq    : Nat
  /-- The data of the host's last BAR2 read. -/
  hostRead : List Byte
  deriving DecidableEq, Repr

/-- The system hart of a die after reset: s0-s31 and every other register zero (R51, R359). -/
def resetSystemHart : Hart := { system := true, pc := 0x0FFF000000000000 }

/-- The state after module reset of one module outside any butterfly (PKGID 0): no context, no team, boundaries 0, the
six system harts at the start of the physical map. -/
def State.reset : State where
  mem := []
  fe := []
  ecc := []
  harts := [(1536, resetSystemHart), (1537, resetSystemHart), (1538, resetSystemHart), (1539, resetSystemHart),
    (1540, resetSystemHart), (1541, resetSystemHart)]
  cores := []
  mods := [(0, {})]
  ctxs := []
  launches := []
  groups := []
  colls := []
  owed := []
  regions := []
  remote := []
  images := []
  cur := 1536
  cv := none
  agenda := []
  seq := 1
  hostRead := []

end Sys2Proof.Machine
end

