-- ==== Sys2Proof/Machine/Access.lean ====
section
/-!
DEFINITION. Reading and writing the parts of the state: the numbering of R10 as keys, scalar registers (R111), vector
registers with their tags and planes (R69, R235), flags (R57).
-/
namespace Sys2Proof.Machine

abbrev Out := Host.Outcome State Fault Refusal

/-! ## Numbering (R10) -/

def pkgOf (hk : Nat) : Nat := hk / 2048
/-- The hart's number in its module: COREID*8 + HARTID, or 1536 + die for a system hart. -/
def slotOf (hk : Nat) : Nat := hk % 2048
def isSystemKey (hk : Nat) : Bool := decide (1536 ≤ slotOf hk)
/-- The core key of a hart. A system hart uses the number 192 + die, a core of its own. -/
def coreOf (hk : Nat) : Nat :=
  pkgOf hk * 256 + (if isSystemKey hk then 192 + (slotOf hk - 1536) else slotOf hk / 8)
def hartId (hk : Nat) : Nat := slotOf hk % 8
def hartKey (ck h : Nat) : Nat := (ck / 256) * 2048 + (ck % 256) * 8 + h
def corePkg (ck : Nat) : Nat := ck / 256
def coreId (ck : Nat) : Nat := ck % 256
def dieOfCore (ck : Nat) : Nat := if coreId ck < 192 then coreId ck / 32 else coreId ck - 192
def dieOf (hk : Nat) : Nat := dieOfCore (coreOf hk)
def quadOf (ck : Nat) : Nat := corePkg ck * 64 + coreId ck / 4
def systemKey (pkg die : Nat) : Nat := pkg * 2048 + 1536 + die
/-- The system hart of the die of a hart. -/
def servantOf (hk : Nat) : Nat := systemKey (pkgOf hk) (dieOf hk)
def ctxKey (pkg slot : Nat) : Nat := pkg * 16 + slot % 16
/-- Key of byte `off` of a core's pool, and of its accumulator store. -/
def poolKey (ck off : Nat) : Nat := 2 ^ 60 + ck * 2 ^ 23 + off
def accKey (ck off : Nat) : Nat := 2 ^ 61 + ck * 2 ^ 22 + off
/-- Key of a physical byte of a module (R363). -/
def physKey (pkg pa : Nat) : Nat := pkg * 2 ^ 42 + pa

/-! ## Parts of the state -/

def State.hart (s : State) (k : Nat) : Hart := s.harts.getD k {}
def State.setHart (s : State) (k : Nat) (h : Hart) : State := { s with harts := s.harts.put k h }
/-- The executing hart. -/
def State.me (s : State) : Hart := s.hart s.cur
def State.setMe (s : State) (h : Hart) : State := s.setHart s.cur h
def State.core (s : State) (ck : Nat) : CoreS := s.cores.getD ck {}
def State.setCore (s : State) (ck : Nat) (c : CoreS) : State := { s with cores := s.cores.put ck c }
def State.mod (s : State) (p : Nat) : Mod := s.mods.getD p {}
def State.setMod (s : State) (p : Nat) (m : Mod) : State := { s with mods := s.mods.put p m }
def State.ctx (s : State) (p slot : Nat) : Ctx := s.ctxs.getD (ctxKey p slot) {}
def State.setCtx (s : State) (p slot : Nat) (c : Ctx) : State := { s with ctxs := s.ctxs.put (ctxKey p slot) c }
def State.launchOf (s : State) (h : Hart) : Option Launch := s.launches.find h.launch
def State.myCore (s : State) : Nat := coreOf s.cur
def State.myPkg (s : State) : Nat := pkgOf s.cur
/-- A number no earlier one equals. -/
def State.bump (s : State) : State := { s with seq := s.seq + 1 }

/-! ## Scalar registers (R111) -/

def Hart.reg (h : Hart) (r : BitVec 5) : W64 := if r = 0 then 0 else h.regs.get r.toNat
def Hart.setReg (h : Hart) (r : BitVec 5) (v : W64) : Hart :=
  if r = 0 then h else { h with regs := h.regs.set r.toNat v }

/-! ## Vector state (R16, R69, R235) -/

def Hart.vget (h : Hart) (r : Nat) : VReg := h.v.get r
def Hart.vset (h : Hart) (r : Nat) (x : VReg) : Hart := { h with v := h.v.set r x }
/-- Plane k of register r; plane 0 is the primal. -/
def Hart.plane (h : Hart) (r k : Nat) : VReg := if k = 0 then h.v.get r else h.planes.get (k * 64 + r)
def Hart.setPlane (h : Hart) (r k : Nat) (x : VReg) : Hart :=
  if k = 0 then h.vset r x else { h with planes := h.planes.set (k * 64 + r) x }
def Hart.tag (h : Hart) (r : Nat) : Fmt := fmtOf (h.tags.get r).toNat
def Hart.setTag (h : Hart) (r : Nat) (f : Fmt) : Hart := { h with tags := h.tags.set r (BitVec.ofNat 4 (fmtCode f)) }
def Hart.mask (h : Hart) (m : Nat) : MReg := h.masks.get m
def Hart.setMask (h : Hart) (m : Nat) (x : MReg) : Hart := { h with masks := h.masks.set m x }
def Hart.queue (h : Hart) (q : Nat) : List W64 := h.queues.getD q []
def Hart.setQueue (h : Hart) (q : Nat) (l : List W64) : Hart := { h with queues := h.queues.put q l }
def Hart.token (h : Hart) (k : Nat) : Token := h.tokens.getD k {}
def Hart.setToken (h : Hart) (k : Nat) (t : Token) : Hart := { h with tokens := h.tokens.put k t }
def Hart.group (h : Hart) (g : Nat) : GroupReg := h.groups.getD g {}

/-- Current element format, rounding mode, flags, and the planes in force (R72, R235). -/
def Hart.cf (h : Hart) : Fmt := fmtOf h.csr.cf.toNat
def Hart.rm (h : Hart) : Nat := h.csr.rm.toNat
def Hart.sate4 (h : Hart) : Bool := h.csr.vctl.toNat.testBit 2
def Hart.sysord (h : Hart) : Bool := h.csr.vctl.toNat.testBit 1
def Hart.fconv (h : Hart) : Bool := h.csr.vctl.toNat.testBit 0
def Hart.planesInForce (h : Hart) : Nat := match h.dual with | some (n, _) => n | none => h.csr.dualn
def Hart.orFlags (h : Hart) (f : Flags) : Hart := { h with csr := { h.csr with fflags := h.csr.fflags ||| f } }
/-- The restart address: the first address of the convoy or of its DUAL prefix (R72). -/
def Hart.restart (h : Hart) : W64 := match h.dual with | some (_, a) => a | none => h.pc

/-! ## The two streams of a hart (R14) -/

/-- Where the hart stands. -/
def Hart.side (h : Hart) : Side := ⟨h.pc, h.dual, h.under, h.wait, h.await, h.remote, h.part⟩
def Hart.withSide (h : Hart) (d : Side) : Hart :=
  { h with pc := d.pc, dual := d.dual, under := d.under, wait := d.wait, await := d.await, remote := d.remote, part := d.part }
/-- The hart where its vector stream stands: past the queue read at which its control stream waits, or where the hart
stands itself. -/
def Hart.vector (h : Hart) : Hart := match h.ahead with | none => h | some a => h.withSide a.side
/-- The hart with what `f` makes of it where its vector stream stands. -/
def Hart.onVector (f : Hart → Hart) (h : Hart) : Hart :=
  match h.ahead with
  | none => f h
  | some a => let g := f (h.withSide a.side); { g.withSide h.side with ahead := some { a with side := g.side } }
/-- Where every stream of the hart stands, changed. -/
def Hart.mapSides (f : Side → Side) (h : Hart) : Hart :=
  { h.withSide (f h.side) with ahead := h.ahead.map (fun a => { a with side := f a.side }) }
/-- What every stream of the hart has asked of other modules, changed. -/
def Hart.mapRemote (f : Tab RemoteWait → Tab RemoteWait) : Hart → Hart := Hart.mapSides (fun d => { d with remote := f d.remote })
/-- The granules that every stream of the hart waits for, changed. -/
def Hart.mapGranules (f : Nat → Nat) : Hart → Hart :=
  Hart.mapSides (fun d => { d with await := d.await.map (fun w => { w with granules := w.granules.map f }) })

/-- The largest VL of a format under a cap of `l` lanes (R65). -/
def maxVl (f : Fmt) (l : Nat) : Nat :=
  if isGx f then l / gxLanes f else l * (64 / fmtBits f)

/-- The context a hart acts for: its own, or for a system hart the one in CTXID (R360). -/
def Hart.slot (h : Hart) : Nat := if h.system then h.sys.ctxid.toNat else h.ctx

/-! ## Members as harts, running or saved in an image -/

/-- The key of the hart of a member, when its team is on a core. -/
def memberKey (s : State) (lk mid : Nat) : Option Nat :=
  (s.harts.find? (fun e => !e.2.system && e.2.launch == lk && e.2.mid == mid)).map Prod.fst

/-- The image that holds a swapped-out member, and the hart's number there. -/
def memberImage (s : State) (lk mid : Nat) : Option (Nat × Nat) :=
  match s.images.find? (fun e => e.2.launch == lk && e.2.team == mid / 8 && !e.2.loaded) with
  | none => none
  | some (n, im) => (im.harts.find? (fun e => e.2.mid == mid)).map (fun e => (n, e.1))

def memberHart (s : State) (lk mid : Nat) : Option Hart :=
  match memberKey s lk mid with
  | some k => s.harts.find k
  | none => match memberImage s lk mid with
    | none => none
    | some (n, k) => match s.images.find n with | none => none | some im => im.harts.find k

/-- Changes a member's hart wherever it is. -/
def updMember (s : State) (lk mid : Nat) (f : Hart → Hart) : State :=
  match memberKey s lk mid with
  | some k => { s with harts := s.harts.upd k f }
  | none => match memberImage s lk mid with
    | none => s
    | some (n, k) => { s with images := s.images.upd n (fun im => { im with harts := im.harts.upd k f }) }

/-- The module a member is on. -/
def memberPkg (s : State) (lk mid : Nat) : Nat :=
  match memberKey s lk mid with
  | some k => pkgOf k
  | none => match memberImage s lk mid with
    | none => 0
    | some (n, _) => (match s.images.find n with | none => 0 | some im => im.pkg)

/-- The member of a launch whose hart a program names by core and HARTID (R227, R274, R322): that of the team which had
the core last among those that have had no other since, else among all, wherever it is by now. -/
def memberNamed (s : State) (lk ck h : Nat) : Option Nat :=
  match s.launches.find lk with
  | none => none
  | some l =>
    let here := l.places.filter (fun p => p.1 == ck)
    match (here.filter (fun p => l.teams.find p.2 == some ck) ++ here).head? with
    | none => none
    | some p => let mid := 8 * p.2 + h; if (l.members.find mid).isSome then some mid else none

/-- As `memberNamed`, for a hart that has not exited. -/
def memberAt (s : State) (lk ck h : Nat) : Option Nat :=
  (memberNamed s lk ck h).filter (fun mid => match s.launches.find lk with
    | none => false
    | some l => l.members.find mid == some false)

/-! ## A team that is away, as the engines that still work for it see it -/

/-- The state with the team of an image at its core of origin. -/
def State.withTeam (s : State) (im : Image) : State :=
  let lo := poolKey im.core 0
  let hi := poolKey (im.core + 1) 0
  { s with
    harts := im.harts.foldl (fun t e => Tab.put t (hartKey im.core e.1) e.2) s.harts
    cores := s.cores.put im.core { s.core im.core with
      bnd0 := im.bnd0, bnd1 := im.bnd1, bnd2 := im.bnd2, team := some (im.launch, im.team) }
    mem := (s.mem.clear lo hi).paste lo im.pool
    fe := (s.fe.clear (lo / 16) (hi / 16)).paste (lo / 16) im.fe
    ecc := s.ecc.clear (lo / 8) (hi / 8) }

/-- What an engine did in `t`, back in the state `s` it came from: image `n` keeps what concerns the team. -/
def State.withoutTeam (s t : State) (n : Nat) (im : Image) : State :=
  let lo := poolKey im.core 0
  let hi := poolKey (im.core + 1) 0
  { t with
    harts := s.harts
    cores := s.cores
    mem := (t.mem.clear lo hi).paste lo (s.mem.slice lo hi)
    fe := (t.fe.clear (lo / 16) (hi / 16)).paste (lo / 16) (s.fe.slice (lo / 16) (hi / 16))
    ecc := t.ecc.paste (lo / 8) (s.ecc.slice (lo / 8) (hi / 8))
    images := t.images.upd n (fun x => { x with
      pool := t.mem.slice lo hi, fe := t.fe.slice (lo / 16) (hi / 16)
      harts := x.harts.map (fun e => (e.1, t.hart (hartKey im.core e.1))) }) }

/-- An engine's act for a member, given the key of its hart: in memory, or in the image of a team that is away. -/
def forMember {α : Type} (s : State) (lk mid : Nat) (none_ : α) (f : State → Nat → State × α) : State × α :=
  match memberKey s lk mid with
  | some hk => f s hk
  | none => match memberImage s lk mid with
    | none => (s, none_)
    | some (n, h) => match s.images.find n with
      | none => (s, none_)
      | some im => let r := f (s.withTeam im) (hartKey im.core h); (s.withoutTeam r.1 n im, r.2)

/-! ## Modules and links (R381, R385) -/

def updMod (s : State) (p : Nat) (f : Mod → Mod) : State := { s with mods := s.mods.upd p f }

/-- The module runs. -/
def modOn (s : State) (p : Nat) : Bool := match s.mods.find p with | none => false | some m => m.on

/-- A module runs and some port of it is in routing. -/
def linked (s : State) (p : Nat) : Bool :=
  match s.mods.find p with | none => false | some m => m.on && decide (m.ports.length < 16)

/-- Memory traffic from one module reaches another, whose number is not 4095 (R11, R381). -/
def reaches (s : State) (p q : Nat) : Bool := p == q || (linked s p && linked s q && q != 4095)

/-- Every byte of a list of keys is reached from a module. -/
def reachesAll (s : State) (p : Nat) (ks : List Nat) : Bool := ks.all (fun k => decide (2 ^ 60 ≤ k) || reaches s p (k / 2 ^ 42))

/-! ## Extended fields -/

/-- Bytes of an instruction without a literal (R20). -/
def lenOf (x : Option Ext) : Nat := match x with | none => 4 | some _ => 12
def wtkOf (x : Option Ext) : Nat := match x with | none => 0 | some e => e.wtk.toNat
/-- The rounding mode of R31. -/
def rmOf (x : Option Ext) (h : Hart) : Nat :=
  match x with
  | none => h.rm
  | some e => if e.rm = 4 then h.rm else e.rm.toNat
/-- XF (R30). -/
def xfOf (x : Option Ext) : Bool := match x with | none => false | some e => e.sub.toNat.testBit 2
def subOf (x : Option Ext) : Nat := match x with | none => 0 | some e => e.sub.toNat % 4
/-- sc: bits 51:47 of E (R29). -/
def scOf (e : Ext) : BitVec 5 := BitVec.ofNat 5 e.vs3.toNat
def lformLen (f : LForm) : Nat := match f with | .word => 4 | .ext _ => 12 | .lit _ => 12 | .extLit _ _ => 16
def lformWtk (f : LForm) : Nat :=
  match f with | .word => 0 | .ext x => x.wtk.toNat | .lit _ => 0 | .extLit x _ => x.wtk.toNat

end Sys2Proof.Machine
end

