-- ==== Sys2Proof/Machine/Translate.lean ====
section
/-!
DEFINITION. From generic pointers to bytes: the five windows (R167, R168), the pool before its boundaries are set
(R171), the physical map (R363), scalar translation (R364), the vector huge-page table (R365), and the span of a
context over modules (R366, R378).
-/
namespace Sys2Proof.Machine

/-- A failed check: cause of R53 and trap value. -/
abbrev Trap := Nat × W64

def cAlign : Nat := 0x04
def cPage : Nat := 0x05
def cVectorPage : Nat := 0x06
def cProtection : Nat := 0x07
def cSpace : Nat := 0x08
def cUncorrectable : Nat := 0x12

/-- Module p belongs to the context's span (R378). -/
def Ctx.spans (c : Ctx) (p : Nat) : Bool :=
  let gm := if c.groupmods = 0 then 1 else c.groupmods
  let ng := if c.ngroups = 0 then 1 else c.ngroups
  decide (c.firstpkg ≤ p ∧ p < c.firstpkg + gm * ng)

/-- The modules of a context. -/
def Ctx.modules (c : Ctx) : List Nat :=
  let gm := if c.groupmods = 0 then 1 else c.groupmods
  let ng := if c.ngroups = 0 then 1 else c.ngroups
  span c.firstpkg (gm * ng)

/-- Core c (COREID) is assigned to the context (R378). -/
def Ctx.owns (c : Ctx) (core : Nat) : Bool := c.cores = 0 || c.cores.getLsbD core

/-- The map of R363. -/
def physOk (pa : Nat) : Bool :=
  decide (pa < 0x02CB4178000) || (decide (0x10000000000 ≤ pa) && decide (pa < 0x40000000000))

/-- Memory behind the PCIe function (R363). -/
def isHostPa (pa : Nat) : Bool := decide (0x20000000000 ≤ pa)

/-! ## Windows -/

/-- Where a pointer leads: a module's global space, or a byte of a pool. -/
inductive Place where
  | glob (pkg va : Nat)
  | pool (key : Nat)
  deriving DecidableEq, Repr

/-- HART-level units on one core: h of R86. -/
def hartsPerCore (ls : List Level) : Nat := ls.foldl (fun n l => if l.phys = 2 then n * l.w else n) 1

/-- The size of a private slice (R168). -/
def sliceSize (c : CoreS) (h : Nat) : Nat := 1024 * ((c.bnd1 - c.bnd0) / (1024 * h))

/-- The scratchpad of a core whose boundaries are unset (R171): offsets below 4 MiB, a block not yet pinned needs a
free way of its set of 16. -/
def pinOk (c : CoreS) (off n : Nat) : Bool :=
  let blk := off / 1024
  decide (off + n ≤ 4194304) &&
    (c.pinned.contains blk || decide ((c.pinned.filter (fun b => b % 512 == blk % 512)).length < 16))

def scratchPlace (s : State) (ck off n : Nat) : Option Place :=
  let c := s.core ck
  if c.bnd0 = 0 ∧ c.bnd1 = 0 ∧ c.bnd2 = 0 then (if pinOk c off n then some (.pool (poolKey ck off)) else none)
  else if off + n ≤ c.bnd2 - c.bnd1 then some (.pool (poolKey ck (c.bnd1 + off))) else none

/-- A hart of the same context is on the core. -/
def teamOfCtx (s : State) (ck slot : Nat) : Bool :=
  match (s.core ck).team with
  | none => false
  | some (l, _) => match s.launches.find l with | none => false | some x => x.ctx == slot

/-- The window rules for an access of `n` bytes at `a` by hart `hk` (R167, R168, R361). None is Space. -/
def windowOf (s : State) (hk a n : Nat) : Option Place :=
  let h := s.hart hk
  let ck := coreOf hk
  match a >>> 60 with
  | 0 =>
    let m := bitsOf a 59 48
    let va := bitsOf a 41 0
    if bitsOf a 47 42 ≠ 0 ∨ 2 ^ 42 < va + n then none
    else if m = 0xFFF ∨ m = pkgOf hk then some (.glob (pkgOf hk) va)
    else if h.system then none
    else if (s.ctx (pkgOf hk) h.ctx).spans m then some (.glob m va) else none
  | 1 =>
    let c := s.core ck
    let p := match s.launchOf h with
      | none => 0
      | some l => sliceSize c (hartsPerCore l.blk.levels)
    if bitsOf a 59 32 ≠ 0 ∨ h.system ∨ p < bitsOf a 31 0 + n then none
    else some (.pool (poolKey ck (c.bnd0 + hartId hk * p + bitsOf a 31 0)))
  | 2 =>
    let owner := bitsOf a 55 48
    if bitsOf a 59 56 ≠ 0 ∨ bitsOf a 47 24 ≠ 0 then none
    else if h.system then
      let oc := pkgOf hk * 256 + owner
      let c := s.core oc
      if owner < 192 ∧ owner / 32 = dieOf hk ∧ c.bnd0 = 0 ∧ c.bnd1 = 0 ∧ c.bnd2 = 0 then
        scratchPlace s oc (bitsOf a 23 0) n
      else none
    else if owner = coreId ck then scratchPlace s ck (bitsOf a 23 0) n else none
  | 3 =>
    let oc := corePkg ck * 256 + (coreId ck / 4) * 4 + bitsOf a 23 22
    if bitsOf a 59 24 ≠ 0 ∨ h.system then none
    else if teamOfCtx s oc h.ctx then scratchPlace s oc (bitsOf a 21 0) n else none
  | _ => none

/-! ## Scalar translation (R364) -/

/-- Rights as mask bits: R 4, W 8, X 16, as in an entry. -/
def rR : Nat := 4
def rW : Nat := 8
def rX : Nat := 16

/-- A dword of a module's physical memory. -/
def physDword (s : State) (pkg pa : Nat) : Nat := s.mem.load (physKey pkg pa) 8

/-- A protected unit that the `n` bytes at `k` read holds an uncorrectable error (R371). -/
def eccHit (s : State) (k n : Nat) : Bool := s.ecc.any (fun p => decide (k < 8 * p.1 + 8) && decide (8 * p.1 < k + n))

/-- What the members of a run must share: every defined bit but the PA bits inside the page of 2^b bytes (R364). -/
def runKey (e b : Nat) : Nat := e % 64 + ((bitsOf e 41 16) <<< 16 >>> b) <<< b

/-- A leaf with `b` page bits read at `t`, entry index `i`: its page, or Page; Uncorrectable-data when an entry of its run
cannot be read (R371). -/
def leafAt (s : State) (pkg base i e va b : Nat) : Except Nat (Nat × Nat) :=
  if e.testBit 5 then
    let g := (span (i - i % 16) 16).map (fun j => physDword s pkg (base + 8 * j))
    if eccHit s (physKey pkg (base + 8 * (i - i % 16))) 128 then .error cUncorrectable
    else if g.all (fun m => runKey m (b + 4) == runKey e (b + 4)) then
      .ok (e, (bitsOf e 41 (b + 4)) <<< (b + 4) + va % 2 ^ (b + 4))
    else .error cPage
  else .ok (e, (bitsOf e 41 b) <<< b + va % 2 ^ b)

/-- The walk of a global address: the entry and the physical address, or the cause; each entry it reads is an access that
meets an uncorrectable error there (R371). -/
def walk (s : State) (pkg root va : Nat) : Except Nat (Nat × Nat) :=
  let r := (bitsOf root 41 16) <<< 16
  let e1 := physDword s pkg (r + 8 * bitsOf va 41 29)
  if !physOk (r + 8 * bitsOf va 41 29) then .error cProtection
  else if eccHit s (physKey pkg (r + 8 * bitsOf va 41 29)) 8 then .error cUncorrectable
  else if !e1.testBit 0 then .error cPage
  else if e1.testBit 1 then leafAt s pkg r (bitsOf va 41 29) e1 va 29
  else
    let t2 := (bitsOf e1 41 16) <<< 16
    let e2 := physDword s pkg (t2 + 8 * bitsOf va 28 21)
    if !physOk (t2 + 8 * bitsOf va 28 21) then .error cProtection
    else if eccHit s (physKey pkg (t2 + 8 * bitsOf va 28 21)) 8 then .error cUncorrectable
    else if !e2.testBit 0 then .error cPage
    else if e2.testBit 1 then leafAt s pkg t2 (bitsOf va 28 21) e2 va 21
    else
      let t3 := (bitsOf e2 41 16) <<< 16
      let e3 := physDword s pkg (t3 + 8 * bitsOf va 20 16)
      if !physOk (t3 + 8 * bitsOf va 20 16) then .error cProtection
      else if eccHit s (physKey pkg (t3 + 8 * bitsOf va 20 16)) 8 then .error cUncorrectable
      else if !e3.testBit 0 then .error cPage
      else .ok (e3, (bitsOf e3 41 16) <<< 16 + va % 2 ^ 16)

/-- The walk of the tables as they stand. -/
def walkNow (s : State) (pkg slot va : Nat) : Except Nat (Nat × Nat) := walk s pkg (s.ctx pkg slot).sptb.toNat va

/-- What the port translates by: what a TLB keeps for the page, else the tables as they stand (R364). -/
def translation (s : State) (pkg slot va : Nat) : Except Nat (Nat × Nat) :=
  match (s.ctx pkg slot).tlb.find (va / 65536) with
  | none => walkNow s pkg slot va
  | some e => if e.absent then .error cPage else .ok (e.entry, e.base + va % 65536)

/-- What a TLB keeps of the tables as they stand, when a walk of the page ends in an entry or in Page. -/
def tlbEntry (s : State) (pkg slot page : Nat) : Option TlbEntry :=
  match walkNow s pkg slot (page * 65536) with
  | .ok (e, pa) => some ⟨false, e, pa⟩
  | .error c => if c = cPage then some ⟨true, 0, 0⟩ else none

/-- The TLBs of a module keep a page of a live context as it is now. -/
def keepPage (p slot page : Nat) (s : State) : State :=
  let c := s.ctx p slot
  if c.live ∧ page < 2 ^ 26 then
    match tlbEntry s p slot page with
    | none => s
    | some e => s.setCtx p slot { c with tlb := c.tlb.put page e }
  else s

/-- The TLBs give up what they keep for some pages of a context. -/
def dropPages (p slot : Nat) (named : Nat → Bool) (s : State) : State :=
  let c := s.ctx p slot
  if c.live then s.setCtx p slot { c with tlb := c.tlb.filter (fun e => !named e.1) } else s

/-- The scalar translation of module `pkg`'s tables for a context, with the rights the access needs: the physical
address, read on the module the pointer names (R366). -/
def scalarPa (s : State) (pkg slot va need : Nat) : Except Nat Nat :=
  match translation s pkg slot va with
  | .error c => .error c
  | .ok (e, pa) => if e &&& need ≠ need then .error cProtection else if physOk pa then .ok pa else .error cProtection

/-- A byte address found for an access: its key, and its module and address when it is global. -/
structure Loc where
  key  : Nat
  glob : Option (Nat × Nat)
  deriving DecidableEq, Repr

/-- The byte is on another module than the hart's. -/
def Loc.foreign (l : Loc) (pkg : Nat) : Bool := match l.glob with | some (p, _) => p != pkg | none => false

/-- The checks of a scalar access up to rights (R119, R175): window, alignment to `al`, translation, rights. A system
hart's global accesses are physical (R361). -/
def scalarLoc (s : State) (hk a n al need : Nat) : Except Trap Loc :=
  match windowOf s hk a n with
  | none => .error (cSpace, BitVec.ofNat 64 a)
  | some pl =>
    if a % al ≠ 0 then .error (cAlign, BitVec.ofNat 64 a)
    else match pl with
      | .pool k => .ok ⟨k, none⟩
      | .glob p va =>
        if (s.hart hk).system then
          (if physOk va then .ok ⟨physKey p va, some (p, va)⟩ else .error (cProtection, BitVec.ofNat 64 a))
        else match scalarPa s (pkgOf hk) (s.hart hk).ctx va need with
          | .error c => .error (c, BitVec.ofNat 64 a)
          | .ok pa => .ok ⟨physKey p pa, some (p, va)⟩

/-! ## The vector huge-page table (R365, R176) -/

/-- What the vector port finds. -/
inductive VLoc where
  | here (l : Loc)
  /-- The unit's mapping is under way: the module and the pointer. -/
  | pending (pkg a : Nat)
  deriving DecidableEq, Repr

def vhtEntry (s : State) (pkg slot va : Nat) : Nat := ((s.ctx pkg slot).vht.get (bitsOf va 41 25)).toNat

/-- State of the unit that holds an address: 0 absent, 1 mapped, 2 subdivided, 3 pending. -/
def unitState (s : State) (pkg slot va : Nat) : Nat := vhtEntry s pkg slot va % 4

/-- The checks of a vector access up to rights (R175, R176). -/
def vectorLoc (s : State) (hk a n al need : Nat) : Except Trap VLoc :=
  match windowOf s hk a n with
  | none => .error (cSpace, BitVec.ofNat 64 a)
  | some pl =>
    if a % al ≠ 0 then .error (cAlign, BitVec.ofNat 64 a)
    else match pl with
      | .pool k => .ok (.here ⟨k, none⟩)
      | .glob p va =>
        if (s.hart hk).system then
          (if physOk va then .ok (.here ⟨physKey p va, some (p, va)⟩) else .error (cProtection, BitVec.ofNat 64 a))
        else
          let e := vhtEntry s (pkgOf hk) (s.hart hk).ctx va
          if e % 4 = 0 ∨ e % 4 = 2 then .error (cVectorPage, BitVec.ofNat 64 a)
          else if e &&& need ≠ need then .error (cProtection, BitVec.ofNat 64 a)
          else if e % 4 = 3 then .ok (.pending p a)
          else
            let pa := (bitsOf e 41 25) <<< 25 + va % 2 ^ 25
            if physOk pa then .ok (.here ⟨physKey p pa, some (p, va)⟩) else .error (cProtection, BitVec.ofNat 64 a)

end Sys2Proof.Machine
end

