-- ==== Sys2Proof/Machine/Mem.lean ====
section
/-!
DEFINITION. Bytes of memory as accesses see them: forwarding from the side log (R177), uncorrectable errors (R371),
pinned lines (R171), full-empty bits (R178), and requests to other modules (R173, R201).
-/
namespace Sys2Proof.Machine

/-- A run of byte keys holds a key. -/
def inRuns (rs : List (Nat × Nat)) (k : Nat) : Bool := rs.any (fun r => decide (r.1 ≤ k) && decide (k < r.1 + r.2))

/-- A byte of the region's nodes that only the engine wrote, outside the header's first 128 bytes (R337). -/
def Region.noLayout (r : Region) (hdr k : Nat) : Bool :=
  inRuns r.runs k && !(decide (hdr ≤ k) && decide (k < hdr + 128)) && !inRuns r.raw k

/-- A byte of memory as it stands; a node byte of a coordinate region has a value that R337 leaves open. -/
def State.byteAt (s : State) (k : Nat) : Byte :=
  match s.regions.find? (fun r => r.2.noLayout r.1 k) with
  | none => s.mem.get k
  | some r => Config.nodeByte r.2.ver k

/-- `n` bytes of memory as they stand, little-endian. -/
def loadMem (s : State) : Nat → Nat → Nat
  | _, 0 => 0
  | k, n + 1 => (s.byteAt k).toNat + 256 * loadMem s (k + 1) n

/-- A program writes bytes of a region's pool (R337). -/
def Region.touch (r : Region) (k n : Nat) : Region :=
  if r.runs.any (fun x => decide (x.1 < k + n) && decide (k < x.1 + x.2)) then { r with raw := r.raw ++ [(k, n)] } else r

/-- The youngest side-log entry's byte at an address (R177). -/
def logByte (log : List LogEntry) (slot pkg va : Nat) : Option Byte :=
  log.foldl (fun acc e =>
    if e.ctx = slot ∧ e.pkg = pkg ∧ e.va ≤ va ∧ va < e.va + e.data.length then e.data[va - e.va]? else acc) none

/-- The byte a store under way writes at offset `va` of a context's window. -/
def RemoteOp.byteFor (o : RemoteOp) (slot va : Nat) : Option Byte :=
  if o.slot = slot then (o.vas.findIdx? (· == va)).map (fun i => BitVec.ofNat 8 (o.val / 256 ^ i)) else none

/-- The byte that a load of core `ck` from module `pkg` takes ahead of memory: the youngest log entry's, else that of the
youngest replay still under way (R177). -/
def forwarded (s : State) (ck slot pkg va : Nat) : Option Byte :=
  match logByte (s.core ck).log slot pkg va with
  | some b => some b
  | none => s.remote.foldl (fun acc e =>
      if e.2.logged && e.2.core == ck && e.2.pkg == pkg && e.2.state == 0 then
        (match e.2.byteFor slot va with | none => acc | some b => some b)
      else acc) none

/-- A byte as harts of a core read it. -/
def readByte (s : State) (ck slot : Nat) (l : Loc) (i : Nat) : Byte :=
  match l.glob with
  | none => s.byteAt (l.key + i)
  | some (p, va) => (logByte (s.core ck).log slot p (va + i)).getD (s.byteAt (l.key + i))

/-- `n` bytes, little-endian, as harts of a core read them, from byte `i` on. -/
def readFrom (s : State) (ck slot : Nat) (l : Loc) : Nat → Nat → Nat
  | _, 0 => 0
  | i, n + 1 => (readByte s ck slot l i).toNat + 256 * readFrom s ck slot l (i + 1) n

def readLoc (s : State) (ck slot : Nat) (l : Loc) (n : Nat) : Nat := readFrom s ck slot l 0 n

/-- As `eccHit`, for a store: only units written in part are read. -/
def eccStoreHit (s : State) (k n : Nat) : Bool :=
  s.ecc.any (fun p => decide (k < 8 * p.1 + 8) && decide (8 * p.1 < k + n) &&
    !(decide (k ≤ 8 * p.1) && decide (8 * p.1 + 8 ≤ k + n)))

/-- A byte of keys holds an uncorrectable error: read, or written in part of its unit (R371). -/
def keysBad (s : State) (rd wr : List Nat) : Bool :=
  s.ecc.any (fun p => rd.any (fun k => k / 8 == p.1) ||
    (wr.any (fun k => k / 8 == p.1) && !(span (8 * p.1) 8).all (fun k => wr.contains k)))

/-- The block of an unset pool that holds a byte, pinned: a newly pinned block starts at zero, its granules empty (R171). -/
def pin (s : State) (k : Nat) : State :=
  if k < 2 ^ 60 ∨ 2 ^ 61 ≤ k then s
  else
    let ck := (k - 2 ^ 60) / 2 ^ 23
    let off := (k - 2 ^ 60) % 2 ^ 23
    let c := s.core ck
    if c.bnd0 = 0 ∧ c.bnd1 = 0 ∧ c.bnd2 = 0 ∧ !c.pinned.contains (off / 1024) then
      let b := poolKey ck (off / 1024 * 1024)
      { s.setCore ck { c with pinned := c.pinned ++ [off / 1024] } with
        mem := s.mem.clear b (b + 1024), fe := s.fe.clear (b / 16) (b / 16 + 64) }
    else s

/-- Stores the low `n` bytes of `v` at key `k`; every unit written whole loses its error (R371). -/
def putMem (s : State) (k n v : Nat) : State :=
  { s with
    mem := s.mem.store k n v
    regions := s.regions.map (fun e => (e.1, e.2.touch k n))
    ecc := s.ecc.filter (fun p => !(decide (k ≤ 8 * p.1) && decide (8 * p.1 + 8 ≤ k + n))) }

/-- Units of which one access has written every byte, `ks` among others, lose their errors (R371). -/
def renewUnits (s : State) (ks : List Nat) : State :=
  { s with ecc := s.ecc.filter (fun p => !(span (8 * p.1) 8).all ks.contains) }

/-- Stores bytes at the keys of a list: one store, whose units written whole lose their errors (R371). -/
def putBytes (s : State) (ks : List Nat) (bs : List Byte) : State :=
  renewUnits ((List.zip ks bs).foldl (fun t p => putMem t p.1 1 p.2.toNat) s) ks

/-- The granules the `n` bytes at `k` touch. -/
def granules (k n : Nat) : List Nat := range (k / 16) ((k + n + 15) / 16)

/-- The byte lies in a pool, whose scratchpad part has full-empty bits. -/
def inPool (k : Nat) : Bool := decide (2 ^ 60 ≤ k) && decide (k < 2 ^ 61)

/-- Granules an engine write of `n` bytes at `k` makes full (R178). -/
def setFull (s : State) (k n : Nat) : State :=
  if inPool k then { s with fe := (granules k n).foldl (fun f g => Cells.set f g 1) s.fe } else s

def setEmpty (s : State) (gs : List Nat) : State := { s with fe := gs.foldl (fun f g => Cells.set f g 0) s.fe }

def allFull (s : State) (gs : List Nat) : Bool := gs.all (fun g => s.fe.get g != 0)

/-- The fill of one of the granules that `p` admits is the hart's: it satisfied the hart's emptying wait before its team
left. -/
def Hart.takesFill (h : Hart) (gs : List Nat) (p : Nat → Bool) : Bool :=
  match h.await with
  | none => false
  | some w => w.met && w.clr && w.granules.any (fun g => p g && gs.contains g)

/-- The granule lies in the pool of a core. -/
def ofPool (ck g : Nat) : Bool := decide (poolKey ck 0 ≤ 16 * g) && decide (16 * g < poolKey (ck + 1) 0)

/-- The fill of one of the granules is another hart's, whose emptying wait it satisfied before its team left: one that is
back, or one still away, whose own pool is away with it (R18, R179). -/
def fillTaken (s : State) (gs : List Nat) : Bool :=
  s.harts.any (fun e => e.1 != s.cur && e.2.takesFill gs (fun _ => true)) ||
    s.images.any (fun e => !e.2.loaded && e.2.harts.any (fun h => h.2.takesFill gs (fun g => !ofPool e.2.core g)))

/-- A full-empty read of granules `gs` may proceed: its wait is satisfied already, or they are all full, and, when it is to
empty them, no fill of them is another hart's. -/
def feReady (s : State) (gs : List Nat) (clr : Bool) : Bool :=
  (match s.me.await with | none => false | some w => w.met) || (allFull s gs && !(clr && fillTaken s gs))

/-! ## Requests to other modules (R173, R201) -/

def newRemote (s : State) (op : RemoteOp) : State := ({ s with remote := s.remote.put s.seq op }).bump

/-- The request's way between its modules is open (R11, R381). -/
def RemoteOp.carried (o : RemoteOp) (s : State) : Bool := reaches s (corePkg o.core) o.pkg

/-- Byte keys `k, k+1, …`. -/
def keyRun (k n : Nat) : List Nat := span k n

/-- The hart's stores to other modules that the destination has not yet performed, or not yet acknowledged (R195, R201). -/
def unperformed (s : State) (hk : Nat) : Bool := s.remote.any (fun p => p.2.hart == hk && p.2.kind == 1 && p.2.state == 0)
def unacknowledged (s : State) (hk : Nat) : Bool := s.remote.any (fun p => p.2.hart == hk && p.2.kind == 1)

/-- The hart has entries in its core's side log (R203). -/
def hasLog (s : State) (hk : Nat) : Bool := (s.core (coreOf hk)).log.any (fun e => e.hart == hk)

/-- The stores of the hart before number `n` in program order are performed everywhere (R197 note 7). -/
def earlierDone (s : State) (hk n : Nat) : Bool :=
  !(s.core (coreOf hk)).log.any (fun e => e.hart == hk && decide (e.born ≤ n)) &&
    !s.remote.any (fun p => p.2.hart == hk && p.2.kind == 1 && decide (p.2.born ≤ n))

/-- An ordered store element of the hart is in the log or under way to another module: what must follow it waits (R182). -/
def orderedPending (s : State) (hk : Nat) : Bool :=
  (s.core (coreOf hk)).log.any (fun e => e.hart == hk && e.ord) ||
    s.remote.any (fun p => p.2.hart == hk && p.2.ord && p.2.kind == 1 && p.2.state == 0)

/-- An SC store element with a ticket of counter `p` is still to be performed, one of a core and a hart that `q` admits:
accesses with later tickets wait for it (R183, R202, R197 note 4). -/
def scOwedAt (s : State) (p : Nat) (q : Nat → Nat → Bool) : Bool :=
  s.cores.any (fun e => e.2.log.any (fun x => q e.1 x.hart && x.tick == some p)) ||
    s.remote.any (fun e => e.2.logged && q e.2.core e.2.hart && e.2.tick == some p && e.2.state == 0)
def scOwed (s : State) (p : Nat) : Bool := scOwedAt s p (fun _ _ => true)

/-- A ticket is drawn from a module's counter (R183, R202). -/
def drawFrom (s : State) (p : Nat) : State := s.setMod p { s.mod p with ticket := (s.mod p).ticket + 1 }
def drawIf (s : State) (t : Option Nat) : State := match t with | none => s | some p => drawFrom s p
/-- An entry of the hart covers one of the bytes (R177). -/
def ownLogCovers (s : State) (hk : Nat) (l : Loc) (n : Nat) : Bool :=
  match l.glob with
  | none => false
  | some (p, va) => (s.core (coreOf hk)).log.any (fun e =>
      e.hart == hk && e.pkg == p && decide (e.va < va + n) && decide (va < e.va + e.data.length))

/-- An interval of byte keys that a queued MLDS or MSTRM still reads: command kinds 0 and 2 hold their source key in
`rd` (R257). -/
def matrixReads (h : Hart) (k n : Nat) : Bool :=
  let hit (c : MCmd) : Bool := c.rd.any (fun r => decide (r.1 < k + n) && decide (k < r.1 + r.2))
  (match h.att with | none => false | some a => a.queue.any hit) ||
    h.frozen.any (fun f => match f with | none => false | some a => a.queue.any hit)

end Sys2Proof.Machine
end

