-- ==== Sys2Proof/Machine/Context.lean ====
section
/-!
DEFINITION. What the device itself writes about a launch (R93, R380) and the end of a context (R372).
-/
namespace Sys2Proof.Machine

/-- A device access of `n` bytes at a global pointer with the tables of module `pkg` for a context: the byte key. -/
def deviceKey (s : State) (pkg slot a n need : Nat) : Option Nat :=
  let m := bitsOf a 59 48
  let p := if m = 0xFFF then pkg else m
  if !(s.ctx pkg slot).live ∨ a >>> 60 ≠ 0 ∨ bitsOf a 47 42 ≠ 0 ∨ 2 ^ 42 < bitsOf a 41 0 + n then none
  else if (p ≠ pkg ∧ !(s.ctx pkg slot).spans p) ∨ !reaches s pkg p then none
  else match scalarPa s pkg slot (bitsOf a 41 0) need with
    | .error _ => none
    | .ok pa => some (physKey p pa)

/-- As `deviceKey`, byte by byte, for an address of any alignment. -/
def deviceKeys (s : State) (pkg slot a n need : Nat) : Option (List Nat) :=
  (span 0 n).foldr (fun i acc => match deviceKey s pkg slot (a + i) 1 need, acc with
    | some k, some l => some (k :: l)
    | _, _ => none) (some [])

/-- A status code that is final (R93). -/
def isFinal (code : Nat) : Bool := code ≠ 0 && code ≠ 1

/-- A device store of a dword, made where it can be. -/
def deviceStore (s : State) (pkg slot a v : Nat) : State :=
  match deviceKeys s pkg slot a 8 rW with
  | none => s
  | some ks => putBytes s ks (bytesOf v 8)

/-- The addition of 1 to an event word (R93), made where the word can be read and written. -/
def eventAdd (s : State) (pkg slot a : Nat) : State :=
  if a = 0 then s
  else match deviceKey s pkg slot a 8 (rR + rW) with
    | none => s
    | some k => if eccHit s k 8 then s else putMem s k 8 (loadMem s k 8 + 1)

/-- The message of a queue's vector (R380). -/
def sendMsix (s : State) (pkg vec : Nat) : State :=
  s.setMod pkg { s.mod pkg with msgs := (s.mod pkg).msgs ++ [vec] }

def queueMessage (s : State) (pkg : Nat) (q : Option Nat) : State :=
  match q with
  | none => s
  | some q =>
    let vec := ((s.mod pkg).queues.getD q {}).vec
    if vec = 0xFFF then s else sendMsix s pkg vec

/-- A status code written into the block at `addr`, with the missed-deadline bit (R93, R94). -/
def writeStatus (s : State) (pkg slot addr code : Nat) (missed : Bool) : State :=
  deviceStore s pkg slot (addr + 0x68) (code + if missed then 256 else 0)

/-- A launch receives its final status: status word, event, message (R93, R94, R380). -/
def finish (s : State) (lk code : Nat) : State :=
  match s.launches.find lk with
  | none => s
  | some l =>
    if isFinal l.status then s
    else
      let late := l.missed || (code != 3 && l.blk.deadline != 0 && decide (l.blk.deadline < (s.mod l.pkg).gtime))
      let s1 := writeStatus s l.pkg l.ctx l.addr.toNat code late
      let s2 := eventAdd s1 l.pkg l.ctx l.blk.event.toNat
      let s3 := queueMessage s2 l.pkg l.queue
      { s3 with launches := s3.launches.put lk { l with status := code } }

/-- RUNNING is written when the first hart is created (R93). -/
def markRunning (s : State) (lk : Nat) : State :=
  match s.launches.find lk with
  | none => s
  | some l =>
    if l.status = 0 then
      let s1 := writeStatus s l.pkg l.ctx l.addr.toNat 1 false
      { s1 with launches := s1.launches.put lk { l with status := 1 } }
    else s

/-- A missed deadline (R94): bit 8, written with the final code. -/
def missDeadline (s : State) (lk : Nat) : State :=
  match s.launches.find lk with
  | none => s
  | some l => if isFinal l.status then s else { s with launches := s.launches.put lk { l with missed := true } }

/-- The posted stores on their way of the harts that `gone` says are performed, in order, and nothing of those harts waits to
be acknowledged: what a hart has stored is in memory before its launch receives its code (R93, R372). That the end of a
context does it at once is log 167. -/
def performPosted (s : State) (gone : Nat → Bool) : State :=
  let due := s.remote.filter (fun e => e.2.kind == 1 && gone e.2.hart)
  let t := (due.filter (fun e => e.2.state == 0 && e.2.carried s && !keysBad s [] e.2.keys)).foldl
    (fun t e => putBytes t e.2.keys (bytesOf e.2.val e.2.keys.length)) s
  { t with remote := t.remote.filter (fun e => !(e.2.kind == 1 && gone e.2.hart)) }

/-- The context of a slot ends on every module it spans (R372). -/
def endContext (s : State) (pkg slot : Nat) : State :=
  let c := s.ctx pkg slot
  if !c.live then s
  else
    let ms := if c.modules.contains pkg then c.modules else pkg :: c.modules
    let mine (p x : Nat) : Bool := ms.contains p && x == slot
    let lks := Tab.keys (s.launches.filter (fun e => mine e.2.pkg e.2.ctx))
    let gone (k : Nat) : Bool := !isSystemKey k && mine (pkgOf k) (s.hart k).ctx
    let s1 := lks.foldl (fun s k => finish s k 4) (performPosted s gone)
    let gks := Tab.keys (s1.groups.filter (fun e => lks.contains e.2.launch))
    { s1 with
      mods := s1.mods.map (fun e => (e.1, if (e.2.claim.any gks.contains) then { e.2 with claim := none } else e.2))
      harts := (s1.harts.filter (fun e => !gone e.1)).map (fun e =>
        (e.1, { e.2 with recs := e.2.recs.filter (fun r => !mine (pkgOf e.1) r.ctx) }))
      cores := s1.cores.map (fun e => (e.1, { e.2 with
        team := match e.2.team with
          | none => none
          | some t => if lks.contains t.1 then none else some t
        log := e.2.log.filter (fun x => !mine (corePkg e.1) x.ctx) }))
      groups := s1.groups.filter (fun e => !lks.contains e.2.launch)
      colls := s1.colls.filter (fun e => !lks.contains e.2.launch)
      owed := s1.owed.filter (fun o => !lks.contains o.launch)
      images := (s1.images.filter (fun e => !(e.2.swapped && mine e.2.pkg e.2.ctx))).map (fun e =>
        (e.1, if mine e.2.pkg e.2.ctx then { e.2 with harts := e.2.harts.map (fun h => (h.1, { h.2 with await := none })) } else e.2))
      remote := s1.remote.filter (fun e => !gone e.2.hart)
      ctxs := ms.foldl (fun t p => t.upd (ctxKey p slot) (fun c => { c with live := false, vht := [], tlb := [] })) s1.ctxs }

end Sys2Proof.Machine
end

