-- ==== Sys2Proof/Machine/Ops.lean ====
section
/-!
DEFINITION. The operations the meanings share: completing an instruction (R107), waiting, taking a trap and returning
from one (R72, R356, R361, R362, R260), the token gate of an extended form (R24, R215, R222), and scalar accesses
(R119, R175).
-/
namespace Sys2Proof.Machine

/-! ## Completing and waiting -/

/-- The instruction of `n` bytes is complete: the next one follows it. -/
def Hart.done (h : Hart) (n : Nat) : Hart :=
  { h with
    pc := h.pc + BitVec.ofNat 64 n, wait := none, await := none, dual := none, remote := [], under := [], part := none }

def State.retire (s : State) (n : Nat) : State := s.setMe (s.me.done n)

/-- As `retire`, for a vector-stream instruction that is a convoy of its own: a convoy that completes sets VSTART to 0 (R72). -/
def State.vretire (s : State) (n : Nat) : State :=
  let h := s.me
  s.setMe ({ h with csr := { h.csr with vstart := 0 } }.done n)

/-- An acquire: the words the hart's fetch keeps are from before it (R48). -/
def Hart.acquired (h : Hart) : Hart := { h with fetched := h.fetched.map (fun e => (e.1, e.2.1, true)) }

/-- A control transfer: words kept from before an acquire are fetched anew (R48). -/
def Hart.refetched (h : Hart) : Hart := { h with fetched := h.fetched.filter (fun e => !e.2.2) }

/-- The next convoy is at `a`. -/
def State.jump (s : State) (a : W64) : State :=
  s.setMe { s.me.refetched with pc := a, wait := none, dual := none, remote := [], under := [], part := none }

/-- A scalar result is written and the instruction of `n` bytes completes. -/
def State.wr (s : State) (n : Nat) (d : BitVec 5) (v : W64) : State := s.setMe ((s.me.setReg d v).done n)

/-- What waits can be for, as wait kinds. -/
def wToken : Nat := 1
def wQueue : Nat := 2
def wFull : Nat := 3
def wBarrier : Nat := 4
def wRemote : Nat := 5
def wBarl : Nat := 6
def wPhase : Nat := 7
def wLaunch : Nat := 8
def wRound : Nat := 9
def wColl : Nat := 10
def wMatt : Nat := 11
def wUnit : Nat := 12
def wStore : Nat := 13
def wOrder : Nat := 14
def wMatrix : Nat := 15
def wExchange : Nat := 16
def wExit : Nat := 17
def wSystem : Nat := 18
def wLog : Nat := 19
def wCoord : Nat := 20
/-- A MATT whose rows had come when the hart's team was swapped out (R18). -/
def wGrant : Nat := 21
/-- An XOPEN that waits, one whose stream was opened as its team was swapped out, and an XROUND whose round had completed
when its group was released (R18). -/
def wOpen : Nat := 22
def wOpened : Nat := 23
def wRounded : Nat := 24

/-- The hart waits; what it has already done is kept. -/
def State.hold (s : State) (kind : Nat) : State :=
  s.setMe { s.me with wait := some { s.me.wait.getD ⟨kind, 0, 0⟩ with kind := kind } }

/-- The hart waits, having done what `a` and `b` record. -/
def State.holdAt (s : State) (kind a b : Nat) : State := s.setMe { s.me with wait := some ⟨kind, a, b⟩ }

/-! ## Taking a trap -/

/-- The causes that TDELEG can delegate (R52, R53). -/
def delegable (c : Nat) : Bool := [0x03, 0x04, 0x08, 0x0B, 0x0C, 0x0D, 0x0E, 0x10, 0x17].contains c

/-- TDELEG keeps only these bits (R52). -/
def tdelegMask : W64 := 0x817918

def delegated (s : State) (c : Nat) : Bool :=
  delegable c && (s.ctx s.myPkg s.me.ctx).tdeleg.getLsbD c

/-- The interrupted code's attachment is frozen; the handler starts with none (R260), and waits for nothing. -/
def Hart.freeze (h : Hart) : Hart := { h with att := none, frozen := h.att :: h.frozen, await := none }

/-- The handler's own attachment goes, its pending flags folded in, and the frozen one returns (R258, R260). -/
def Hart.thaw (h : Hart) : Hart :=
  let h1 := match h.att with | none => h | some a => h.orFlags a.flags
  match h1.frozen with
  | [] => { h1 with att := none }
  | f :: r => { h1 with att := f, frozen := r }

/-- The hart's own attachment still has commands. -/
def Hart.busy (h : Hart) : Bool := match h.att with | none => false | some a => !a.queue.isEmpty

/-- A trap record joins those waiting at a system hart (R356). -/
def queueRec (s : State) (k : Nat) (r : TrapRec) : State :=
  s.setHart k { s.hart k with recs := (s.hart k).recs ++ [r] }

/-- Bits of TSTATUS (R359). -/
def tsSrv : Nat := 11
def tsNest : Nat := 12
def tsSelf : Nat := 13

/-- A trap of a system hart's own instruction (R361). -/
def systemTrap (c : Nat) (pc v : W64) (s : State) : State :=
  let r := s.me.sys
  if r.tstatus.getLsbD tsNest then
    let s1 := match s.me.serving with | none => s | some rec => endContext s s.myPkg rec.ctx
    let h := s1.me
    s1.setMe { h with
      sys := { h.sys with
        tcause := BitVec.ofNat 8 c, tpc := pc, tval := v, bank := {}
        tstatus := (r.tstatus &&& ~~~(0x1800#64)) ||| 0x2000#64 }
      serving := none, att := none, frozen := []
      pc := r.tvec, dual := none, wait := none, remote := [], under := [], part := none }
  else
    let h := s.me.freeze
    s.setMe { h with
      sys := { r with
        tcause := BitVec.ofNat 8 c, tpc := pc, tval := v
        tstatus := (r.tstatus &&& 0xC0FFF#64) ||| 0x3000#64
        bank := ⟨r.tcause, r.tpc, r.tval, r.tstatus, r.ctxid⟩ }
      pc := r.tvec, dual := none, wait := none, remote := [], under := [], part := none }

/-- Taking a trap with cause `c`, value `v` and restart address `pc` (R72, R356): delegated to UHADDR, or queued at
the system hart of the die, or R361 for a system hart. -/
def raiseAt (pc : W64) (c : Nat) (v : W64) (s : State) : State :=
  let h := s.me
  if h.system then systemTrap c pc v s
  else if delegated s c && !h.inUser then
    s.setMe { h.freeze with
      csr := { h.csr with ucause := BitVec.ofNat 8 c, upc := pc, uval := v }
      inUser := true, pc := h.csr.uhaddr, dual := none, wait := none, remote := [], under := [], part := none }
  else
    queueRec (s.setMe { h.freeze with
      stat := .stopped, pc := pc, dual := none, wait := none, remote := [], under := [], part := none })
      (servantOf s.cur)
      { hart := s.cur, cause := c, pc := pc, val := v, uh := h.inUser, log := false, eng := false, cls := h.cls
        ctx := h.ctx, launch := h.launch, mid := h.mid }

/-- Raise(cause, val) of R72: the restart address is that of the convoy or of its DUAL prefix. -/
def raise (c : Nat) (v : W64) (s : State) : State := raiseAt s.me.restart c v s

/-! ## Returning (R362) -/

/-- URET: `len` is not used, the next convoy is at UPC. -/
def returnUser (s : State) : State :=
  let h := s.me
  if !h.inUser then s.jump h.csr.upc
  else if h.busy then s.hold wMatrix
  else (s.setMe { h.thaw with inUser := false }).jump h.csr.upc

/-- A failed token re-emitted from the copy that failed; of those above it nothing counts as done (R224, R362). -/
def Token.again (t : Token) : Token :=
  { t with pending := true, failed := false, done := t.done.filter (fun j => decide (j < t.failJ)) }

/-- What ERET does to the served hart: s1-s15 back under WB, the token re-emitted under RC, the attachment thawed. -/
def Hart.served (sys g : Hart) : Hart :=
  let ts := sys.sys.tstatus
  let g1 := if ts.getLsbD 15 then
      (range 1 16).foldl (fun g i => g.setReg (BitVec.ofNat 5 i) (sys.reg (BitVec.ofNat 5 i))) g else g
  let k := sys.sys.tval.toNat % 8
  let g2 := if ts.getLsbD 20 && (g1.token k).work.isSome then
      g1.setToken k (g1.token k).again else g1
  { g2.thaw with stat := .running, pc := sys.sys.tpc }

/-- The served hart continues (R362, R358), wherever its team is by then. -/
def resumeServed (s : State) (r : TrapRec) : State := updMember s r.launch r.mid (Hart.served s.me)

/-- ERET of `len` bytes. -/
def returnSystem (len : Nat) (s : State) : State :=
  let h := s.me
  let r := h.sys
  if r.tstatus.getLsbD tsNest then
    if h.busy then s.hold wMatrix
    else
      (s.setMe { h.thaw with
        sys := { r with
          tcause := r.bank.cause, tpc := r.bank.pc, tval := r.bank.val, tstatus := r.bank.status
          ctxid := r.bank.ctx, bank := {} } }).jump r.bank.pc
  else if !r.tstatus.getLsbD tsSrv then (s.setMe h.refetched).retire len
  else if h.busy then s.hold wMatrix
  else
    let s1 := if r.tstatus.getLsbD 16 || r.tstatus.getLsbD 17 then s
      else match h.serving with | none => s | some rec => resumeServed s rec
    let g := s1.me
    (s1.setMe { g.thaw.refetched with
      serving := none, sys := { g.sys with tstatus := g.sys.tstatus &&& ~~~(0x800#64) } }).retire len

/-! ## Token waits -/

/-- A wait on token k that finds it failed raises Copy and makes it complete (R222, R215); an addition or deadline it
owes is raised instead (R209, R331). -/
def tokenTrap (k : Nat) (s : State) : State :=
  let t := s.me.token k
  if t.failed then raise 0x16 (BitVec.ofNat 64 k) (s.setMe (s.me.setToken k { t with failed := false }))
  else match t.owed with
    | none => s
    | some (c, v) => raise c v (s.setMe (s.me.setToken k { t with owed := none }))

/-- Token k ends a wait with a trap. -/
def Token.bad (t : Token) : Bool := t.failed || t.owed.isSome

/-- A wait on every token of a mask: stop here, or go on with the flags the tokens bring (R24, R215, R353). -/
def gate (wtk : Nat) (s : State) : Except State State :=
  if wtk % 256 = 0 then .ok s
  else
    let h := s.me
    let ks := (span 0 8).filter (fun k => wtk.testBit k)
    if ks.any (fun k => (h.token k).pending) then .error (s.hold wToken)
    else match ks.find? (fun k => (h.token k).bad) with
      | some k => .error (tokenTrap k s)
      | none =>
        if ks.all (fun k => (h.token k).flags == 0) then .ok s
        else .ok (s.setMe (ks.foldl (fun h k =>
          (h.orFlags (h.token k).flags).setToken k { h.token k with flags := 0 }) h))

/-- A control-stream instruction: its tokens first, then its effect. -/
def gated (wtk : Nat) (s : State) (k : State → State) : Out :=
  match gate wtk s with
  | .error t => .next t
  | .ok t => .next (k t)

def scalar (x : Option Ext) (s : State) (k : State → State) : Out := gated (wtkOf x) s k

/-- A PRIV instruction (R47, R374): Privilege outside privileged mode, with the address of word 0. -/
def privileged (x : Option Ext) (s : State) (k : State → State) : Out :=
  if s.me.system then scalar x s k else .next (raise 0x15 s.me.pc s)

/-! ## Scalar accesses -/

/-- A request of the executing hart to the module of a byte: kind 0 load, 1 store, 2 ATOM, 3 CAS (R173). -/
def request (s : State) (kind : Nat) (l : Loc) (n fn v cmp : Nat) : RemoteOp where
  hart := s.cur
  core := s.myCore
  pkg := (l.glob.getD (0, 0)).1
  keys := keyRun l.key n
  kind := kind
  fn := fn
  val := v % 2 ^ (8 * n)
  cmp := cmp % 2 ^ (8 * n)
  state := 0
  result := 0
  flags := 0
  born := s.seq
  slot := s.me.ctx
  vas := match l.glob with | none => [] | some (_, va) => span va n

/-- Access `j` of the instruction goes to another module, and the hart waits. -/
def ask (s : State) (j : Nat) (op : RemoteOp) : State :=
  (newRemote (s.setMe { s.me with remote := s.me.remote.put j ⟨s.seq, none⟩ }) op).hold wRemote

/-- A load of `n` bytes at `a` aligned to `al` with the rights of a load: stop here, or the state to go on with and
the value (R119, R173, R371). -/
def scalarLoad (s : State) (a n al : Nat) : Except State (State × Nat) :=
  match s.me.remote.find 0 with
  | some w => (match w.ready with
    | none => .error (s.hold wRemote)
    | some v => .ok (s, v.1))
  | none =>
    match scalarLoc s s.cur a n al rR with
    | .error t => .error (raise t.1 t.2 s)
    | .ok l =>
      if eccHit s l.key n then .error (raise cUncorrectable (BitVec.ofNat 64 a) s)
      else if l.foreign s.myPkg then
        .error (ask s 0 (request s 0 l n 0 0 0))
      else
        let s1 := pin s l.key
        .ok (s1, readLoc s1 s1.myCore s1.me.ctx l n)

/-- A store of the low `n` bytes of `v` (R119, R177, R201, R257, R371). -/
def scalarStore (s : State) (a n al v : Nat) : Except State State :=
  match scalarLoc s s.cur a n al rW with
  | .error t => .error (raise t.1 t.2 s)
  | .ok l =>
    if eccStoreHit s l.key n then .error (raise cUncorrectable (BitVec.ofNat 64 a) s)
    else if ownLogCovers s s.cur l n || matrixReads s.me l.key n then .error (s.hold wStore)
    else if l.foreign s.myPkg then
      .ok (newRemote s (request s 1 l n 0 v 0))
    else .ok (putMem (pin s l.key) l.key n v)

/-- A scalar instruction that may stop: its tokens, then an effect that either stops or completes. -/
def scalarE (x : Option Ext) (s : State) (k : State → Except State State) : Out :=
  scalar x s (fun s => match k s with | .error t => t | .ok t => t)

end Sys2Proof.Machine
end

