-- ==== Sys2Proof/Machine/Operands.lean ====
section
/-!
DEFINITION. Operand forms: immediates, literals and displacements (R28, R33), the formats a vector member works in
(R30, R135, R136), its active elements (R72, R67), its sources with the tag check and conversion of R70 and R71, and
its destination (R69, R131).
-/
namespace Sys2Proof.Machine

/-! ## Scalar operands -/

/-- imm12 sign-extended, or the literal that replaces it. -/
def immOf (i : BitVec 12) (f : LForm) : W64 := (f.literal).getD (i.signExtend 64)

/-- A shift amount, or the literal that replaces it. -/
def amountOf (n : BitVec 6) (f : LForm) : Nat :=
  match f.literal with | none => n.toNat | some v => v.toNat % 64

/-- An address `sa + disp9 × n`, modulo 2^64. -/
def dispAddr (base : W64) (p : BitVec 9) (n : Nat) : Nat := addr64 (base.toNat + p.toInt * n)

/-- A branch target: `disp` words from word 0. -/
def wordTarget (pc : W64) (disp : Int) : W64 := BitVec.ofNat 64 (addr64 (pc.toNat + disp * 4))

/-! ## Formats of a member -/

/-- The source format: CF, or fa under XF = 1 (R30, R136). -/
def faOf (x : Option Ext) (h : Hart) : Fmt :=
  match x with
  | none => h.cf
  | some e => if e.sub.toNat.testBit 2 then fmtOf e.fa.toNat else h.cf

/-- The destination format: CF, or fd under XF = 1. -/
def fdOf (x : Option Ext) (h : Hart) : Fmt :=
  match x with
  | none => h.cf
  | some e => if e.sub.toNat.testBit 2 then fmtOf e.fd.toNat else h.cf

/-- What an instruction requires of its formats (R135, R138, R139). -/
inductive Kind where
  | any
  | int
  /-- Integer only, and a float tag never converts: shifts and .SAT (R71). -/
  | strict
  | float
  deriving DecidableEq, Repr

/-- A tag passes the check against an operating format (R70). -/
def tagFits (t f : Fmt) : Bool := t == f || (isInt t && isInt f && fmtBits t == fmtBits f)

/-- The operating formats are not ones the instruction takes (R68, R135, R136). -/
def badFormat (k : Kind) (fa fd : Fmt) : Bool :=
  isGx fa || isGx fd || (match k with
    | .any => false
    | .int => !isInt fa
    | .strict => !isInt fa
    | .float => isInt fa)

/-- The first source that fails and cannot convert (R71). -/
def badSource (k : Kind) (fa : Fmt) (h : Hart) (rs : List Nat) : Option Nat :=
  rs.find? (fun r => !tagFits (h.tag r) fa && (!h.fconv || (k == .strict && isFloat (h.tag r))))

/-- The Format-mismatch of a member, by register number: `first` is the one named for its format (R135). -/
def formatTrap (k : Kind) (fa fd : Fmt) (h : Hart) (first : Nat) (rs : List Nat) : Option Nat :=
  if badFormat k fa fd then some first else badSource k fa h rs

/-! ## Elements -/

/-- The first element the convoy processes and the bound of a count of `n` (R129, R130). -/
def elemsUpTo (s : State) (n : Nat) : List Nat :=
  range s.me.csr.vstart (match s.cv with
    | none => n
    | some c => match c.lim with | none => n | some l => min n l)

/-- A mask as later members of the convoy read it (R129). -/
def maskOf (s : State) (m : Nat) : MReg :=
  match s.cv with
  | none => s.me.mask m
  | some c => (c.cmasks.find m).getD (s.me.mask m)

/-- The mask operand selects bit `b`; 15 is unmasked (R27). -/
def selects (s : State) (m : BitVec 4) (b : Nat) : Bool := m == 15 || maskBit (maskOf s m.toNat) b

/-- The active elements of a member, ascending (R72). -/
def actives (s : State) (m : BitVec 4) : List Nat := (elemsUpTo s s.me.csr.vl).filter (selects s m)

/-- The active block groups of a member with a GX destination (R67). -/
def activeGroups (f : Fmt) (s : State) (m : BitVec 4) : List Nat :=
  (elemsUpTo s s.me.csr.vl).filter (fun b => selects s m (gxLanes f * b))

/-- Elements at or above what fd's width holds are neither computed nor written (R136). -/
def bounded (fd : Fmt) (s : State) (l : List Nat) : List Nat :=
  l.filter (fun e => decide (e < maxVl fd s.me.cap))

/-! ## Sources -/

/-- Element `e` of a register in its own format; one it does not hold reads as +0 (R68, R71, R162). -/
def numAt (t : Fmt) (v : VReg) (e : Nat) : Num :=
  if isGx t then gxElem t v e else decodeNum t (elemOf v (fmtBits t) e)

/-- A value of a format as VCVT converts it into a format that is not GX (R62). -/
def convert (t f : Fmt) (rm : Nat) (sate4 : Bool) (x : Num) : Nat × Flags :=
  if isInt t && isInt f then
    match x with
    | .fin s m _ => (clampInt f (sInt s m), 0)
    | .nan _ _ _ => (0, 0)
    | .inf _ => (0, 0)
  else roundTo f rm sate4 x

/-- Element `e` of plane `k` of source `r`, read in format `f`: as it stands when the tag fits, else converted by RM (R71). -/
def sourceAt (h : Hart) (f : Fmt) (r k e : Nat) : Nat × Flags :=
  let t := h.tag r
  if tagFits t f then (elemOf (h.plane r k) (fmtBits f) e, 0)
  else convert t f h.rm h.sate4 (numAt t (h.plane r k) e)

/-- The bits a source element contributes, without its flags. -/
def sourceBits (h : Hart) (f : Fmt) (r k e : Nat) : Nat := (sourceAt h f r k e).1
def sourceNum (h : Hart) (f : Fmt) (r k e : Nat) : Num := decodeNum f (sourceBits h f r k e)

/-- The flags the conversions of element `e` of the sources raise (R71). -/
def sourceFlags (h : Hart) (f : Fmt) (rs : List Nat) (e : Nat) : Flags :=
  rs.foldl (fun a r => a ||| (sourceAt h f r 0 e).2) 0

/-- Block group `b` of source `r` as an instruction with a GX operating format uses it: as it stands when the tag fits,
else quantised from source elements 32b … 32b + 31 (R71). -/
def groupAt (h : Hart) (f : Fmt) (r k b : Nat) : Nat × Flags :=
  let t := h.tag r
  if t == f then (groupOf f (h.plane r k) b, 0)
  else
    let q := gxQuant f ((span (32 * b) 32).map (numAt t (h.plane r k)))
    (gxPack f q, q.fl)

/-! ## Destinations -/

/-- Elements written into a register, at width `w`. -/
def putElems (v : VReg) (w : Nat) (l : List (Nat × Nat)) : VReg := l.foldl (fun v p => setElem v w p.1 p.2) v

/-- Groups written into a register. -/
def putGroups (f : Fmt) (v : VReg) (l : List (Nat × Nat)) : VReg := l.foldl (fun v p => setGroup f v p.1 p.2) v

/-- The flags of a list of results. -/
def allFlags (l : List (Nat × Flags)) : Flags := l.foldl (fun a p => a ||| p.2) 0

/-- The tangent format T of R237 for a primal format. -/
def tanFmt (f : Fmt) : Fmt := if f = .f64 then .f64 else .f32

/-- RT of R237: a value rounded to T. -/
def rt (t : Fmt) (rm : Nat) (x : Num) : Num := decodeNum t (roundTo t rm false x).1

/-- Planes 1 .. n of register `d` changed. -/
def mapPlanes (n : Nat) (h : Hart) (f : Nat → Hart → Hart) : Hart := (span 1 n).foldl (fun h k => f k h) h

end Sys2Proof.Machine
end

