-- ==== Sys2Proof/Machine/Alu.lean ====
section
/-!
DEFINITION. The ALU instructions, their immediate forms and LIT (R113-R116).
-/
namespace Sys2Proof.Machine

/-- Shift amounts are sb bits 5:0 (R113). -/
def shiftOf (b : W64) : Nat := b.toNat % 64

def rotr (a : W64) (n : Nat) : W64 := if n = 0 then a else (a >>> n) ||| (a <<< (64 - n))

/-- The high 64 bits of an exact product (R113). -/
def mulHigh (a b : Int) : W64 := BitVec.ofInt 64 ((a * b) / (2 ^ 64 : Nat))

def truth (b : Bool) : W64 := if b then 1 else 0

/-- Division truncating toward zero with the borderline cases of R114. -/
def divS (a b : W64) : W64 := if b = 0 then -1 else BitVec.ofInt 64 (a.toInt.tdiv b.toInt)
def divU (a b : W64) : W64 := if b = 0 then -1 else BitVec.ofNat 64 (a.toNat / b.toNat)
def remS (a b : W64) : W64 := if b = 0 then a else BitVec.ofInt 64 (a.toInt.tmod b.toInt)
def remU (a b : W64) : W64 := if b = 0 then a else BitVec.ofNat 64 (a.toNat % b.toNat)

/-- An instruction with two sources and one destination. -/
def aluR (o : OpR) (f : W64 → W64 → W64) (s : State) : Out :=
  scalar o.x s (fun s => s.wr (lenOf o.x) o.d (f (s.me.reg o.a) (s.me.reg o.b)))

/-- An instruction with one source and one destination. -/
def aluU (o : OpDA) (f : W64 → W64) (s : State) : Out :=
  scalar o.x s (fun s => s.wr (lenOf o.x) o.d (f (s.me.reg o.a)))

/-- An immediate form: imm12 sign-extended or the literal (R33, R115). -/
def aluI (o : OpI) (f : W64 → W64 → W64) (s : State) : Out :=
  gated (lformWtk o.form) s (fun s =>
    s.wr (lformLen o.form) o.d (f (s.me.reg o.a) (immOf o.i o.form)))

/-- A shift by an immediate amount (R33, R115). -/
def aluSh (o : OpSh) (f : W64 → Nat → W64) (s : State) : Out :=
  gated (lformWtk o.form) s (fun s =>
    s.wr (lformLen o.form) o.d (f (s.me.reg o.a) (amountOf o.n o.form)))

/-- ADD (R113). -/
def execAdd (o : OpR) (s : State) : Out := aluR o (fun a b => a + b) s

/-- SUB (R113). -/
def execSub (o : OpR) (s : State) : Out := aluR o (fun a b => a - b) s

/-- AND (R113). -/
def execAnd (o : OpR) (s : State) : Out := aluR o (fun a b => a &&& b) s

/-- OR (R113). -/
def execOr (o : OpR) (s : State) : Out := aluR o (fun a b => a ||| b) s

/-- XOR (R113). -/
def execXor (o : OpR) (s : State) : Out := aluR o (fun a b => a ^^^ b) s

/-- ANDN (R113). -/
def execAndn (o : OpR) (s : State) : Out := aluR o (fun a b => a &&& ~~~b) s

/-- SHL (R113). -/
def execShl (o : OpR) (s : State) : Out := aluR o (fun a b => a <<< shiftOf b) s

/-- SHR (R113). -/
def execShr (o : OpR) (s : State) : Out := aluR o (fun a b => a >>> shiftOf b) s

/-- SAR (R113). -/
def execSar (o : OpR) (s : State) : Out := aluR o (fun a b => a.sshiftRight (shiftOf b)) s

/-- ROTR (R113). -/
def execRotr (o : OpR) (s : State) : Out := aluR o (fun a b => rotr a (shiftOf b)) s

/-- MIN (R113). -/
def execMin (o : OpR) (s : State) : Out := aluR o (fun a b => if a.slt b then a else b) s

/-- MAX (R113). -/
def execMax (o : OpR) (s : State) : Out := aluR o (fun a b => if a.slt b then b else a) s

/-- MINU (R113). -/
def execMinu (o : OpR) (s : State) : Out := aluR o (fun a b => if a < b then a else b) s

/-- MAXU (R113). -/
def execMaxu (o : OpR) (s : State) : Out := aluR o (fun a b => if a < b then b else a) s

/-- MUL (R113). -/
def execMul (o : OpR) (s : State) : Out := aluR o (fun a b => a * b) s

/-- MULH (R113). -/
def execMulh (o : OpR) (s : State) : Out := aluR o (fun a b => mulHigh a.toInt b.toInt) s

/-- MULHU (R113). -/
def execMulhu (o : OpR) (s : State) : Out := aluR o (fun a b => mulHigh a.toNat b.toNat) s

/-- DIV (R114). -/
def execDiv (o : OpR) (s : State) : Out := aluR o (fun a b => divS a b) s

/-- DIVU (R114). -/
def execDivu (o : OpR) (s : State) : Out := aluR o (fun a b => divU a b) s

/-- REM (R114). -/
def execRem (o : OpR) (s : State) : Out := aluR o (fun a b => remS a b) s

/-- REMU (R114). -/
def execRemu (o : OpR) (s : State) : Out := aluR o (fun a b => remU a b) s

/-- CMPEQ (R113). -/
def execCmpeq (o : OpR) (s : State) : Out := aluR o (fun a b => truth (a == b)) s

/-- CMPNE (R113). -/
def execCmpne (o : OpR) (s : State) : Out := aluR o (fun a b => truth (a != b)) s

/-- CMPLT (R113). -/
def execCmplt (o : OpR) (s : State) : Out := aluR o (fun a b => truth (a.slt b)) s

/-- CMPGE (R113). -/
def execCmpge (o : OpR) (s : State) : Out := aluR o (fun a b => truth (!a.slt b)) s

/-- CMPLTU (R113). -/
def execCmpltu (o : OpR) (s : State) : Out := aluR o (fun a b => truth (decide (a < b))) s

/-- CMPGEU (R113). -/
def execCmpgeu (o : OpR) (s : State) : Out := aluR o (fun a b => truth (!decide (a < b))) s

/-- CLZ (R113). -/
def execClz (o : OpDA) (s : State) : Out := aluU o (fun a => BitVec.ofNat 64 (clz 64 a.toNat)) s

/-- CTZ (R113). -/
def execCtz (o : OpDA) (s : State) : Out := aluU o (fun a => BitVec.ofNat 64 (ctz 64 a.toNat)) s

/-- POPC (R113). -/
def execPopc (o : OpDA) (s : State) : Out := aluU o (fun a => BitVec.ofNat 64 (popCount a.toNat 64)) s

/-- SEL (R113): sa when sc is not zero, else sb. -/
def execSel (o : OpRX) (s : State) : Out :=
  scalar (some o.x) s (fun s =>
    s.wr 12 o.d (if s.me.reg (scOf o.x) ≠ 0 then s.me.reg o.a else s.me.reg o.b))

/-- ADDI (R115). -/
def execAddi (o : OpI) (s : State) : Out := aluI o (fun a b => a + b) s

/-- ANDI (R115). -/
def execAndi (o : OpI) (s : State) : Out := aluI o (fun a b => a &&& b) s

/-- ORI (R115). -/
def execOri (o : OpI) (s : State) : Out := aluI o (fun a b => a ||| b) s

/-- XORI (R115). -/
def execXori (o : OpI) (s : State) : Out := aluI o (fun a b => a ^^^ b) s

/-- SHLI (R115). -/
def execShli (o : OpSh) (s : State) : Out := aluSh o (fun a n => a <<< n) s

/-- SHRI (R115). -/
def execShri (o : OpSh) (s : State) : Out := aluSh o (fun a n => a >>> n) s

/-- SARI (R115). -/
def execSari (o : OpSh) (s : State) : Out := aluSh o (fun a n => a.sshiftRight n) s

/-- LIT (R116). -/
def execLit (o : OpLit) (s : State) : Out :=
  gated (lformWtk o.form) s (fun s => s.wr (lformLen o.form) o.d (immOf 0 o.form))

end Sys2Proof.Machine
end

