-- ==== Sys2Proof/Machine/Tree.lean ====
section
/-!
DEFINITION. The bound tree: slots and indices of units (R85, R87), which harts share a unit (R89), phase counters (R96),
farm blocks (R95). A member of a launch is numbered team*8 + HART slot.
-/
namespace Sys2Proof.Machine

/-- The levels of a hart's launch; a system hart has none. -/
def levelsOf (s : State) (h : Hart) : List Level :=
  match s.launchOf h with | none => [] | some l => l.blk.levels

def State.levels (s : State) : List Level := levelsOf s s.me

def prodW (ls : List Level) : Nat := ls.foldl (fun n l => n * l.w) 1

/-- Slots of a code: Π W over its levels (R87). -/
def slotsOf (ls : List Level) (c : Nat) : Nat := prodW (ls.filter (fun l => l.phys == c))

/-- A FARM level whose count did not fit (R85, R87). -/
def overflowed (l : Level) : Bool := l.dist == 2 && l.w != l.count

/-- The levels of one slot space in R87's order, least significant first, as level indices. -/
def digitOrder (ls : List Level) (here : Level → Bool) : List Nat :=
  let ix := (span 0 ls.length).filter (fun i => match ls[i]? with | none => false | some l => here l)
  let lv (p : Level → Bool) := ix.filter (fun i => match ls[i]? with | none => false | some l => p l)
  lv (fun l => l.dist == 1) ++ lv (fun l => l.dist != 1 && !overflowed l) ++ lv overflowed

/-- The digit of level `i` in a combined index; the last level takes the whole quotient when `open_` says so (R150). -/
def digitIn (ls : List Level) (open_ : Bool) : List Nat → Nat → Nat → Nat
  | [], _, _ => 0
  | j :: r, i, n =>
    let w := match ls[j]? with | none => 1 | some l => l.w
    if j = i then (if open_ && r.isEmpty then n else n % w) else digitIn ls open_ r i (n / w)

/-- The slot of a code for a member: HART is the low part of the number, codes 3-7 are digits of the team number. -/
def memberSlot (ls : List Level) (c mid : Nat) : Nat :=
  if c = 2 then mid % 8
  else
    let below := (range 3 c).foldl (fun n k => n * slotsOf ls k) 1
    (mid / 8) / below % slotsOf ls c

/-- The index of a member's unit at a level bound at HART or above (R85, R87). -/
def idxAt (ls : List Level) (mid i : Nat) : Nat :=
  match ls[i]? with
  | none => 0
  | some l => digitIn ls false (digitOrder ls (fun x => x.phys == l.phys)) i (memberSlot ls l.phys mid)

/-- The coordinate of element `e` at a level bound to LANE or CLUSTER (R150). -/
def elementIdx (ls : List Level) (i e : Nat) : Nat :=
  digitIn ls true (digitOrder ls (fun x => decide (x.phys < 2))) i e

/-- The unit of level `i` that holds a member: a number over the levels from `i` outward, with the level. -/
def unitKey (ls : List Level) (i mid : Nat) : Nat :=
  let up := (range i ls.length).filter (fun j => match ls[j]? with | none => false | some l => decide (2 ≤ l.phys))
  16 * (up.reverse.foldl (fun n j => n * (match ls[j]? with | none => 1 | some l => l.w) + idxAt ls mid j) 0) + i

/-- Teams of a launch and harts of each team. -/
def teamCount (ls : List Level) : Nat := (range 3 8).foldl (fun n c => n * slotsOf ls c) 1
def teamHarts (ls : List Level) : Nat := slotsOf ls 2

/-- Every member number of a launch. -/
def allMids (ls : List Level) : List Nat :=
  (span 0 (teamCount ls)).flatMap (fun t => (span 0 (teamHarts ls)).map (fun h => 8 * t + h))

/-- The members that share a member's ancestor at level `i`. -/
def peers (ls : List Level) (i mid : Nat) : List Nat :=
  (allMids ls).filter (fun m => unitKey ls i m == unitKey ls i mid)

/-- The identifier of a member's hart: Σ idx × Π COUNT (R85). -/
def hardwareId (ls : List Level) (mid : Nat) : Nat :=
  ((span 0 ls.length).foldl (fun (p : Nat × Nat) i =>
    match ls[i]? with
    | none => p
    | some l => (p.1 + (if l.phys < 2 then 0 else idxAt ls mid i) * p.2, p.2 * l.count)) (0, 1)).1

/-- Exchange traffic from one module to another crosses a removed port (R381). -/
def routeCut (s : State) (p q : Nat) : Bool :=
  p != q && s.mods.any (fun m => m.2.ports.any (fun port => (Config.route p q).contains (m.1, port)))

/-- A member is created, and has exited. -/
def created (l : Launch) (mid : Nat) : Bool := (l.members.find mid).isSome
def exited (l : Launch) (mid : Nat) : Bool := (l.members.find mid).getD false

/-- Every member of a team has exited. -/
def Launch.teamOver (l : Launch) (t : Nat) : Bool := (span 0 (teamHarts l.blk.levels)).all (fun h => exited l (8 * t + h))

/-! ## Phases (R96) -/

/-- P of a unit, by its key. -/
def phaseOf (l : Launch) (u : Nat) : Nat := (l.phases.get u).toNat

/-- Every hart of the unit is created, and every one that has not exited has arrived, one at least. -/
def unitArrived (s : State) (lk : Nat) (l : Launch) (i mid : Nat) : Bool :=
  let ps := peers l.blk.levels i mid
  let p := phaseOf l (unitKey l.blk.levels i mid)
  ps.all (fun m => created l m && (exited l m || (match memberHart s lk m with
    | none => false
    | some h => decide (p < (h.phases.get i).toNat)))) && ps.any (fun m => !exited l m)

/-- The phase counter of a unit advances when it can (R96). -/
def advancePhase (s : State) (lk i mid : Nat) : State :=
  match s.launches.find lk with
  | none => s
  | some l =>
    if unitArrived s lk l i mid then
      let u := unitKey l.blk.levels i mid
      { s with launches := s.launches.put lk { l with phases := l.phases.set u (l.phases.get u + 1) } }
    else s

/-- m of R96: the smallest P over the siblings that exist and have not exited; none is unbounded. -/
def siblingMin (l : Launch) (i mid : Nat) : Option Nat :=
  let ls := l.blk.levels
  let my := idxAt ls mid i
  let sibs := (allMids ls).filter (fun m => unitKey ls (i + 1) m == unitKey ls (i + 1) mid &&
    (idxAt ls m i + 1 == my || idxAt ls m i == my + 1))
  let live := sibs.filter (fun m => !(peers ls i m).all (fun q => exited l q))
  live.foldl (fun acc m =>
    let p := phaseOf l (unitKey ls i m)
    match acc with | none => some p | some a => some (min a p)) none

/-! ## Farms (R95) -/

/-- The table key of a worker's block. -/
def farmKey (ls : List Level) (i mid w : Nat) : Nat := (unitKey ls (i + 1) mid * 2 ^ 24 + w) * 16 + i

/-- The block a worker still holds. -/
def farmBlock (l : Launch) (i mid w : Nat) : Strips :=
  match l.farms.find (farmKey l.blk.levels i mid w) with
  | some b => b
  | none => match l.blk.levels[i]? with
    | none => ⟨0, 0⟩
    | some v => ⟨w * v.count / v.w, (w + 1) * v.count / v.w⟩

/-- Every hart of worker `w` beside a member is in a swapped-out team, so its strips stay with it. -/
def workerAway (s : State) (lk : Nat) (l : Launch) (i mid w : Nat) : Bool :=
  let ls := l.blk.levels
  let hs := (allMids ls).filter (fun m => unitKey ls (i + 1) m == unitKey ls (i + 1) mid && idxAt ls m i == w)
  hs.any (fun m => (memberImage s lk m).isSome) && hs.all (fun m => !(memberKey s lk m).isSome)

/-- The worker with the most strips left, the lower index winning ties. -/
def victim (s : State) (lk : Nat) (l : Launch) (i mid n : Nat) : Option Nat :=
  (span 0 n).foldl (fun acc w =>
    let b := farmBlock l i mid w
    if b.hi ≤ b.lo ∨ workerAway s lk l i mid w then acc
    else match acc with
      | none => some w
      | some v => let c := farmBlock l i mid v; if b.hi - b.lo > c.hi - c.lo then some w else acc) none

/-- The next strip for worker `w`: its own, or after stealing the upper half, rounded up, of the largest block. -/
def nextStrip (s : State) (lk : Nat) (l : Launch) (i mid w n : Nat) : Option (Nat × Launch) :=
  let ls := l.blk.levels
  let put (l : Launch) (w : Nat) (b : Strips) : Launch := { l with farms := l.farms.put (farmKey ls i mid w) b }
  let b := farmBlock l i mid w
  if b.lo < b.hi then some (b.lo, put l w ⟨b.lo + 1, b.hi⟩)
  else match victim s lk l i mid n with
    | none => none
    | some v =>
      let c := farmBlock l i mid v
      let k := (c.hi - c.lo + 1) / 2
      some (c.hi - k, put (put l v ⟨c.lo, c.hi - k⟩) w ⟨c.hi - k + 1, c.hi⟩)

/-! ## TID (R98) -/

def allOnes : W64 := 0xFFFFFFFFFFFFFFFF

/-- The value TID gives a hart for a level. -/
def tidValue (s : State) (h : Hart) (i : Nat) : W64 :=
  match (levelsOf s h)[i]? with
  | none => 0
  | some l =>
    if l.phys < 2 then 0
    else if l.dist = 2 then
      (match (h.strips.get i).toNat with | 0 => allOnes | n + 1 => BitVec.ofNat 64 n)
    else BitVec.ofNat 64 (idxAt (levelsOf s h) h.mid i)

/-- PHASEC: P of the hart's innermost phased unit, 0 without one (R101). -/
def phasec (s : State) (h : Hart) : W64 :=
  match s.launchOf h with
  | none => 0
  | some l =>
    match (span 0 l.blk.levels.length).find? (fun i => match l.blk.levels[i]? with | none => false | some v => v.phased) with
    | none => 0
    | some i => BitVec.ofNat 64 (phaseOf l (unitKey l.blk.levels i h.mid))

/-- The domain code of a level: its PHYS (R89). -/
def physOf (s : State) (i : Nat) : Nat := match s.levels[i]? with | none => 7 | some l => l.phys

end Sys2Proof.Machine
end

