-- ==== Sys2Proof/Machine/Csr.lean ====
section
/-!
DEFINITION. The queue instructions (R112, R124), CSRR and CSRW with the CSR map (R49-R52, R125, R360), and SETVL (R132).
-/
namespace Sys2Proof.Machine

/-! ## Queues -/

/-- QPOP (R112): the oldest entry, removed; waits while the queue is empty. -/
def execQpop (o : OpQ) (s : State) : Out :=
  scalar o.x s (fun s =>
    match s.me.queue o.q.toNat with
    | [] => s.hold wQueue
    | v :: r => (s.setMe (s.me.setQueue o.q.toNat r)).wr (lenOf o.x) o.d v)

/-- QPEEK (R112): the oldest entry, left in place. -/
def execQpeek (o : OpQ) (s : State) : Out :=
  scalar o.x s (fun s =>
    match s.me.queue o.q.toNat with
    | [] => s.hold wQueue
    | v :: _ => s.wr (lenOf o.x) o.d v)

/-- QCNT (R112). -/
def execQcnt (o : OpQ) (s : State) : Out :=
  scalar o.x s (fun s => s.wr (lenOf o.x) o.d (BitVec.ofNat 64 (s.me.queue o.q.toNat).length))

/-! ## The CSR map (R51) -/

/-- The numbers the map assigns. -/
def csrAssigned (i : Nat) : Bool :=
  decide (i ≤ 5) || decide (0x008 ≤ i ∧ i ≤ 0x00C) || i == 0x010 || i == 0x011 || decide (0x020 ≤ i ∧ i ≤ 0x023) ||
    i == 0x030 || decide (0x040 ≤ i ∧ i ≤ 0x042) || decide (0x050 ≤ i ∧ i ≤ 0x053) ||
    decide (0x800 ≤ i ∧ i ≤ 0x804) || decide (0x810 ≤ i ∧ i ≤ 0x815) || decide (0x820 ≤ i ∧ i ≤ 0x822) || i == 0x830

/-- TKSTAT (R51, R222). -/
def tkstat (h : Hart) : W64 :=
  BitVec.ofNat 64 ((span 0 8).foldl (fun n k =>
    n + (if (h.token k).pending then 2 ^ k else 0) + (if (h.token k).failed then 2 ^ (8 + k) else 0)) 0)

/-- The core whose VLCAP, boundaries and log the privileged CSRs show: that of TSTATUS.CORE while SRV = 1 (R360). -/
def servedCore (s : State) : Option Nat :=
  let ts := s.me.sys.tstatus
  if ts.getLsbD tsSrv then some (s.myPkg * 256 + ts.toNat % 256) else none

/-- Bytes a log entry takes (R368). -/
def entryBytes (e : LogEntry) : Nat := 16 + roundUp e.data.length 16

/-- Bytes in use in a side log, of 64 KiB. -/
def logUsed (log : List LogEntry) : Nat := log.foldl (fun n e => n + entryBytes e) 0

/-- What the unit of a byte does to a logged store: 0 it may replay or is pending, 1 Vector-page, 2 Protection: mapped
without W, or outside the physical map (R363, R368). -/
def logState (s : State) (pkg slot va : Nat) : Nat :=
  let v := vhtEntry s pkg slot va
  if v % 4 = 0 ∨ v % 4 = 2 then 1
  else if v % 4 = 1 ∧ !(v.testBit 3 && physOk ((bitsOf v 41 25) <<< 25 + va % 2 ^ 25)) then 2 else 0

/-- The same for an entry of core `ck`: the first of its bytes, of those that `p` admits, which may not be stored. -/
def LogEntry.stop (s : State) (ck : Nat) (p : Nat → Bool) (e : LogEntry) : Nat :=
  ((((span e.va e.data.length).filter p).map (logState s (corePkg ck) e.ctx)).find? (· != 0)).getD 0

/-- The oldest entry waits on a unit that is neither pending nor mapped, or mapped without what it needs (R368). -/
def logStuck (s : State) (ck : Nat) : Bool :=
  match (s.core ck).log with
  | [] => false
  | e :: _ => e.stop s ck (fun _ => true) != 0

/-- A store of a hart of the core waits for room in the log. -/
def logFull (s : State) (ck : Nat) : Bool :=
  s.harts.any (fun e => coreOf e.1 == ck && e.2.vector.wait.any (fun w => w.kind == wLog))

/-- SLSTAT (R368). -/
def slstat (s : State) (ck : Nat) : W64 :=
  let c := s.core ck
  BitVec.ofNat 64 (c.log.length % 65536 + (logUsed c.log / 16) * 65536 + (if logFull s ck then 2 ^ 29 else 0) +
    (if logStuck s ck then 2 ^ 30 else 0))

/-- GTIME as the hart reads it: never less than it has read before (R125). -/
def gtimeOf (s : State) : Nat := max (s.mod s.myPkg).gtime s.me.seen

/-- The value of a CSR. -/
def readCsr (s : State) (i : Nat) : W64 :=
  let h := s.me
  let c := h.csr
  let y := h.sys
  let sc (f : CoreS → Nat) : W64 := match servedCore s with | none => 0 | some k => BitVec.ofNat 64 (f (s.core k))
  let cx := s.ctx s.myPkg y.ctxid.toNat
  match i with
  | 0x000 => BitVec.ofNat 64 c.vl
  | 0x001 => c.cf.setWidth 64
  | 0x002 => c.vctl.setWidth 64
  | 0x003 => BitVec.ofNat 64 c.vstart
  | 0x004 => c.rm.setWidth 64
  | 0x005 => c.fflags.setWidth 64
  | 0x008 => c.toff.get 1
  | 0x009 => c.toff.get 2
  | 0x00A => c.toff.get 3
  | 0x00B => c.toff.get 4
  | 0x00C => BitVec.ofNat 64 c.dualn
  | 0x010 => match h.att with | none => 0 | some a => BitVec.ofNat 64 a.rows
  | 0x011 => match h.att with | none => 0 | some a => BitVec.ofNat 64 a.handle
  | 0x020 => c.dln
  | 0x021 => BitVec.ofNat 64 (gtimeOf s)
  | 0x022 => c.lead
  | 0x023 => phasec s h
  | 0x030 => tkstat h
  | 0x040 => if h.system then (Config.systemHartId s.cur).setWidth 64 else BitVec.ofNat 64 (hartId s.cur)
  | 0x041 => if h.system then (Config.systemCoreId s.cur).setWidth 64 else BitVec.ofNat 64 (coreId s.myCore)
  | 0x042 => BitVec.ofNat 64 s.myPkg
  | 0x050 => c.uhaddr
  | 0x051 => c.ucause.setWidth 64
  | 0x052 => c.upc
  | 0x053 => c.uval
  | 0x800 => sc CoreS.vlcap
  | 0x801 => sc CoreS.bnd0
  | 0x802 => sc CoreS.bnd1
  | 0x803 => sc CoreS.bnd2
  | 0x804 => cx.tdeleg
  | 0x810 => y.tstatus
  | 0x811 => y.tcause.setWidth 64
  | 0x812 => y.tpc
  | 0x813 => y.tval
  | 0x814 => y.tvec
  | 0x815 => y.tscratch
  | 0x820 => y.ctxid.setWidth 64
  | 0x821 => cx.sptb
  | 0x822 => cx.vhtb
  | 0x830 => match servedCore s with | none => 0 | some k => slstat s k
  | _ => 0

/-- Bits 1:0 read zero. -/
def wordAddr (v : W64) : W64 := v &&& ~~~3#64

/-- A CSRW to CF also cuts VL (R49). -/
def writeCf (s : State) (v : W64) : State :=
  let h := s.me
  let f := BitVec.ofNat 4 v.toNat
  s.setMe { h with csr := { h.csr with
    cf := f, vl := min h.csr.vl (maxVl (fmtOf f.toNat) (s.core s.myCore).vlcap) } }

/-- A CSRW to VLCAP of anything but 16, 32, 64 or 128 leaves it (R49); it is that of the served core (R360), and every hart
of that core still has its VL cut by it (R132). -/
def writeVlcap (s : State) (v : W64) : State :=
  match servedCore s with
  | none => s
  | some k =>
    if v = 16 ∨ v = 32 ∨ v = 64 ∨ v = 128 then
      let t := s.setCore k { s.core k with vlcap := v.toNat }
      { t with harts := t.harts.map (fun e =>
          if coreOf e.1 = k ∧ !e.2.system then (e.1, { e.2 with vcap := min v.toNat e.2.vcap }) else e) }
    else s

/-- The boundary rules of R86 for `h` harts with `planes` planes. -/
def boundsOk (h planes b0 b1 b2 : Nat) : Bool :=
  b0 % 1024 == 0 && b1 % 1024 == 0 && b2 % 1024 == 0 && decide (h * 49152 * (1 + planes) ≤ b0) && decide (b0 < b1) &&
    decide (b1 < b2) && decide (b2 < 8388608) && decide (b2 - b1 ≤ 4194304)

/-- A CSRW to BND0, BND1 or BND2 (number k, 0-2) that would break R86 leaves it (R169). -/
def writeBnd (s : State) (k : Nat) (v : W64) : State :=
  match servedCore s with
  | none => s
  | some ck =>
    let c := s.core ck
    let lp := match c.team with | none => none | some t => s.launches.find t.1
    let h := match lp with | none => 0 | some l => hartsPerCore l.blk.levels
    let pl := match lp with | none => 0 | some l => l.blk.planes
    let n := v.toNat
    let b0 := if k = 0 then n else c.bnd0
    let b1 := if k = 1 then n else c.bnd1
    let b2 := if k = 2 then n else c.bnd2
    if boundsOk h pl b0 b1 b2 then s.setCore ck { c with bnd0 := b0, bnd1 := b1, bnd2 := b2 } else s

/-- VSTART holds bits 9:0 (R51). -/
def writeVstart (s : State) (v : W64) : State :=
  s.setMe { s.me with csr := { s.me.csr with vstart := v.toNat % 1024 } }

def writeCtxid (s : State) (v : W64) : State :=
  s.setMe { s.me with sys := { s.me.sys with ctxid := BitVec.ofNat 4 v.toNat } }

/-- A CSRW: RW fields take the value, RO and RZ bits ignore it (R4, R51). -/
def writeCsr (s : State) (i : Nat) (v : W64) : State :=
  let h := s.me
  let c := h.csr
  let y := h.sys
  let slot := y.ctxid.toNat
  let cx := s.ctx s.myPkg slot
  let user (c : Csrs) : State := s.setMe { h with csr := c }
  let sys (y : SysRegs) : State := s.setMe { h with sys := y }
  match i with
  | 0x001 => writeCf s v
  | 0x002 => user { c with vctl := BitVec.ofNat 3 v.toNat }
  | 0x003 => writeVstart s v
  | 0x004 => user { c with rm := BitVec.ofNat 2 v.toNat }
  | 0x005 => user { c with fflags := BitVec.ofNat 5 v.toNat }
  | 0x008 => user { c with toff := c.toff.set 1 v }
  | 0x009 => user { c with toff := c.toff.set 2 v }
  | 0x00A => user { c with toff := c.toff.set 3 v }
  | 0x00B => user { c with toff := c.toff.set 4 v }
  | 0x020 => user { c with dln := v }
  | 0x022 => user { c with lead := v }
  | 0x050 => user { c with uhaddr := wordAddr v }
  | 0x051 => user { c with ucause := BitVec.ofNat 8 v.toNat }
  | 0x052 => user { c with upc := wordAddr v }
  | 0x053 => user { c with uval := v }
  | 0x800 => writeVlcap s v
  | 0x801 => writeBnd s 0 v
  | 0x802 => writeBnd s 1 v
  | 0x803 => writeBnd s 2 v
  | 0x804 => s.setCtx s.myPkg slot { cx with tdeleg := v &&& tdelegMask }
  | 0x810 => sys { y with tstatus := v &&& 0x1FFFFF#64 }
  | 0x811 => sys { y with tcause := BitVec.ofNat 8 v.toNat }
  | 0x812 => sys { y with tpc := wordAddr v }
  | 0x813 => sys { y with tval := v }
  | 0x814 => sys { y with tvec := wordAddr v }
  | 0x815 => sys { y with tscratch := v }
  | 0x820 => writeCtxid s v
  | 0x821 => s.setCtx s.myPkg slot { cx with sptb := v }
  | 0x822 => s.setCtx s.myPkg slot { cx with vhtb := v }
  | _ => s

/-- The check of a CSR number: Illegal-instruction when unassigned, Privilege outside privileged mode (R47, R49). -/
def csrCheck (s : State) (i : Nat) : Option Nat :=
  if !csrAssigned i then some 0x01
  else if i.testBit 11 && !s.me.system then some 0x15 else none

/-- A CSR instruction after its check. -/
def csrOp (i : Nat) (x : Option Ext) (s : State) (k : State → State) : Out :=
  match csrCheck s i with
  | some c => .next (raise c s.me.pc s)
  | none => scalar x s k

/-- A hart that reads GTIME keeps the value it reads (R125). -/
def noteRead (s : State) (i : Nat) : State := if i = 0x021 then s.setMe { s.me with seen := gtimeOf s } else s

/-- CSRR (R125). -/
def execCsrr (o : OpCsrR) (s : State) : Out :=
  csrOp o.i.toNat o.x s (fun s => (noteRead s o.i.toNat).wr (lenOf o.x) o.d (readCsr s o.i.toNat))

/-- CSRW (R125). -/
def execCsrw (o : OpCsrW) (s : State) : Out :=
  csrOp o.i.toNat o.x s (fun s => (writeCsr s o.i.toNat (s.me.reg o.a)).retire (lenOf o.x))

/-- CSRW to CF (R49). -/
def execCsrwCf (o : OpA) (s : State) : Out :=
  csrOp 0x001 o.x s (fun s => (writeCf s (s.me.reg o.a)).retire (lenOf o.x))

/-- CSRW to VLCAP (R49). -/
def execCsrwVlcap (o : OpA) (s : State) : Out :=
  csrOp 0x800 o.x s (fun s => (writeVlcap s (s.me.reg o.a)).retire (lenOf o.x))

/-- CSRW to BND0-BND2 (R169): k is 1, 2, 3. -/
def execCsrwBnd (o : OpBnd) (s : State) : Out :=
  csrOp (0x800 + o.k.toNat) o.x s (fun s => (writeBnd s (o.k.toNat - 1) (s.me.reg o.a)).retire (lenOf o.x))

/-- CSRW to VSTART (R130). -/
def execCsrwVstart (o : OpA) (s : State) : Out :=
  csrOp 0x003 o.x s (fun s => (writeVstart s (s.me.reg o.a)).retire (lenOf o.x))

/-- CSRW to CTXID (R360). -/
def execCsrwCtxid (o : OpA) (s : State) : Out :=
  csrOp 0x820 o.x s (fun s => (writeCtxid s (s.me.reg o.a)).retire (lenOf o.x))

/-- SETVL (R132). -/
def execSetvl (o : OpSetvl) (s : State) : Out :=
  scalar o.x s (fun s =>
    let h := s.me
    let vl := min (h.reg o.a).toNat (maxVl (fmtOf o.f.toNat) (s.core s.myCore).vlcap)
    (s.setMe { h with csr := { h.csr with vl := vl, cf := o.f } }).wr (lenOf o.x) o.d (BitVec.ofNat 64 vl))

end Sys2Proof.Machine
end

