-- ==== Sys2Proof/Machine/Atomic.lean ====
section
/-!
DEFINITION. Atomics (R205, R206), FENCE (R207), barrier objects (R208-R214), TKWAIT (R215), and the waits of a release
(R195, R198, R201, R203).
-/
namespace Sys2Proof.Machine

/-! ## Waiting for order -/

/-- The hart's earlier accesses are performed at the domain of a PHYS code (R195, R201, R203). -/
def performedAt (s : State) (phys : Nat) : Bool :=
  if phys ≤ 2 then true
  else !hasLog s s.cur && (if phys = 7 then !unacknowledged s s.cur else !unperformed s s.cur)

/-- The module whose counter orders the SC operations of the hart: its own, or that of the first team of unit 0 of an
outermost level bound to FABRIC (R183, R202). Where that unit spans several modules it is the first team's that counts (log
45). -/
def ticketPkg (s : State) : Nat :=
  match s.launchOf s.me with
  | none => s.myPkg
  | some l =>
    let ls := l.blk.levels
    let top := ls.length - 1
    match ls[top]? with
    | none => s.myPkg
    | some v =>
      if v.phys = 7 then
        match l.teams.find? (fun e => idxAt ls (8 * e.1) top == 0) with
        | none => s.myPkg
        | some e => corePkg e.2
      else s.myPkg

/-- An SC operation draws a ticket (R183, R202). -/
def drawTicket (s : State) : State := drawFrom s (ticketPkg s)

/-- An SC operation draws a ticket unless its request draws it where it is performed. -/
def drawHere (s : State) (sc away : Bool) : State := if sc && !away then drawTicket s else s

/-- The level an atomic names, the outermost one in the one-word form (R41), and its PHYS code. -/
def scopeLevel (s : State) (x : Option Ext) : Nat := match x with | none => s.levels.length - 1 | some e => e.lvl.toNat
def scopePhys (s : State) (x : Option Ext) : Nat := physOf s (scopeLevel s x)

/-- A named level at or beyond DEPTH (R32, R89). -/
def badLevel (s : State) (x : Option Ext) : Option Nat :=
  match x with
  | none => none
  | some e => if s.levels.length ≤ e.lvl.toNat then some e.lvl.toNat else none

/-- The order of an atomic: 0 RLX, 1 ACQ, 2 REL, 3 ACQREL, 4 SC (R41). -/
def atomOrder (x : Option Ext) : Nat := match x with | none => 0 | some e => e.sub.toNat

/-- Bytes of an atomic (R41, R205): imm32 bit 0 gives four; FADDS has four. -/
def atomBytes (fn : Nat) (x : Option Ext) : Nat :=
  if fn = 10 then 4 else match x with | none => 8 | some e => if e.imm32.toNat.testBit 0 then 4 else 8

/-! ## Atomics -/

/-- Op(old, b) at `n` bytes, with flags (R205). -/
def atomOp (fn n old b : Nat) : Nat × Flags :=
  let w := 8 * n
  match fn with
  | 0 => ((old + b) % 2 ^ w, 0)
  | 1 => (old &&& b, 0)
  | 2 => (old ||| b, 0)
  | 3 => (old ^^^ b, 0)
  | 4 => (if toSigned w b < toSigned w old then b else old, 0)
  | 5 => (if toSigned w old < toSigned w b then b else old, 0)
  | 6 => (min old b, 0)
  | 7 => (max old b, 0)
  | 8 => (b, 0)
  | 9 => packVal .f64 0 false (numAdd 0 (decodeNum .f64 old) (decodeNum .f64 b))
  | _ => packVal .f32 0 false (numAdd 0 (decodeNum .f32 old) (decodeNum .f32 b))

/-- The old value as sd receives it (R205). -/
def atomExt (fn n old : Nat) : W64 :=
  if fn = 6 ∨ fn = 7 ∨ fn = 10 then zext64 (8 * n) old else sext64 (8 * n) old

/-- An atomic's read and write of `n` bytes at `a`: stop here, or the state and the old value. Kind 2 is ATOM with
function `fn` and operand `v`; kind 3 is CAS, storing `v` where the bytes equal `cmp`. An SC one, of the level `sc`, draws
a ticket. -/
def atomic (s : State) (sc : Option Nat) (kind fn a n v cmp : Nat) : Except State (State × Nat × Flags) :=
  match s.me.remote.find 0 with
  | some w => (match w.ready with
    | none => .error (s.hold wRemote)
    | some r => .ok (s, r.1, r.2))
  | none =>
    match scalarLoc s s.cur a n n (rR + rW) with
    | .error t => .error (raise t.1 t.2 s)
    | .ok l =>
      if eccHit s l.key n then .error (raise cUncorrectable (BitVec.ofNat 64 a) s)
      else if ownLogCovers s s.cur l n || matrixReads s.me l.key n then .error (s.hold wStore)
      else if l.foreign s.myPkg then
        .error (ask s 0 { request s kind l n fn v cmp with tick := sc.map (fun _ => ticketPkg s), scope := sc })
      else
        let s1 := drawHere (pin s l.key) sc.isSome false
        let old := loadMem s1 l.key n
        let r := if kind = 2 then atomOp fn n old (v % 2 ^ (8 * n)) else (v % 2 ^ (8 * n), 0)
        if kind = 2 ∨ old = cmp % 2 ^ (8 * n) then .ok (putMem s1 l.key n r.1, old, r.2) else .ok (s1, old, 0)

/-- Hart `x` lies in the unit of level `i` of hart `hk` (R195). -/
def inUnit (s : State) (hk i x : Nat) : Bool :=
  let g := s.hart hk
  let h := s.hart x
  !h.system && h.launch == g.launch && unitKey (levelsOf s g) i h.mid == unitKey (levelsOf s g) i g.mid

/-- An SC operation of hart `hk` at level `i`, with tickets of counter `p`, waits for the accesses with earlier tickets of
the harts it reaches; at a level bound to HART it orders its hart alone and does not wait for the log (R202, R203). -/
def scHeld (s : State) (hk i p : Nat) : Bool :=
  (match (levelsOf s (s.hart hk))[i]? with | none => true | some l => decide (2 < l.phys)) &&
    scOwedAt s p (fun _ x => inUnit s hk i x)
def scWaits (s : State) (i : Nat) : Bool := scHeld s s.cur i (ticketPkg s)

/-- What precedes an atomic: its level, under .REL, .ACQREL and .SC the wait of a release, and under .SC that for SC
accesses with earlier tickets (R197 note 4, R198, R202, R206). -/
def beforeAtomic (s : State) (x : Option Ext) (k : State → State) : State :=
  match badLevel s x with
  | some l => raise 0x0B (BitVec.ofNat 64 l) s
  | none =>
    if (2 ≤ atomOrder x ∧ !performedAt s (scopePhys s x)) ∨ (atomOrder x = 4 ∧ scWaits s (scopeLevel s x)) then s.hold wOrder
    else k s

/-- The level of an atomic with order .SC. -/
def scLevel (s : State) (x : Option Ext) : Option Nat := if atomOrder x = 4 then some (scopeLevel s x) else none

/-- ATOM with function `fn`. -/
def atom (o : OpR) (fn : Nat) (s : State) : Out :=
  scalar o.x s (fun s => beforeAtomic s o.x (fun s =>
    let n := atomBytes fn o.x
    match atomic s (scLevel s o.x) 2 fn (s.me.reg o.a).toNat n (s.me.reg o.b).toNat 0 with
    | .error t => t
    | .ok (t, old, fl) => (t.setMe (t.me.orFlags fl)).wr (lenOf o.x) o.d (atomExt fn n old)))

/-- ATOM.ADD (R205). -/
def execAtomAdd (o : OpR) (s : State) : Out := atom o 0 s
/-- ATOM.AND (R205). -/
def execAtomAnd (o : OpR) (s : State) : Out := atom o 1 s
/-- ATOM.OR (R205). -/
def execAtomOr (o : OpR) (s : State) : Out := atom o 2 s
/-- ATOM.XOR (R205). -/
def execAtomXor (o : OpR) (s : State) : Out := atom o 3 s
/-- ATOM.MIN (R205). -/
def execAtomMin (o : OpR) (s : State) : Out := atom o 4 s
/-- ATOM.MAX (R205). -/
def execAtomMax (o : OpR) (s : State) : Out := atom o 5 s
/-- ATOM.MINU (R205). -/
def execAtomMinu (o : OpR) (s : State) : Out := atom o 6 s
/-- ATOM.MAXU (R205). -/
def execAtomMaxu (o : OpR) (s : State) : Out := atom o 7 s
/-- ATOM.SWAP (R205). -/
def execAtomSwap (o : OpR) (s : State) : Out := atom o 8 s
/-- ATOM.FADDD (R205). -/
def execAtomFaddd (o : OpR) (s : State) : Out := atom o 9 s
/-- ATOM.FADDS (R205). -/
def execAtomFadds (o : OpR) (s : State) : Out := atom o 10 s

/-- CAS (R206): sb compared, sc stored. -/
def execCas (o : OpRX) (s : State) : Out :=
  scalar (some o.x) s (fun s => beforeAtomic s (some o.x) (fun s =>
    let n := atomBytes 0 (some o.x)
    match atomic s (scLevel s (some o.x)) 3 0 (s.me.reg o.a).toNat n (s.me.reg (scOf o.x)).toNat (s.me.reg o.b).toNat with
    | .error t => t
    | .ok (t, old, _) =>
      t.wr 12 o.d (sext64 (8 * n) old)))

/-! ## FENCE -/

/-- A FENCE (R207): it waits until the hart's earlier accesses are performed at the level's domain. -/
def fence (o : OpFence) (acq sc : Bool) (s : State) : Out :=
  scalar o.x s (fun s =>
    if s.levels.length ≤ o.l.toNat then raise 0x0B (BitVec.ofNat 64 o.l.toNat) s
    else if !performedAt s (physOf s o.l.toNat) ∨ (sc ∧ scWaits s o.l.toNat) then s.hold wOrder
    else
      let t := if sc then drawTicket s else s
      (if acq then t.setMe t.me.acquired else t).retire (lenOf o.x))

/-- FENCE.ACQ (R207). -/
def execFenceAcq (o : OpFence) (s : State) : Out := fence o true false s
/-- FENCE.REL (R207). -/
def execFenceRel (o : OpFence) (s : State) : Out := fence o false false s
/-- FENCE.ACQREL (R207). -/
def execFenceAcqrel (o : OpFence) (s : State) : Out := fence o true false s
/-- FENCE.SC (R207, R202): it draws a ticket. -/
def execFenceSc (o : OpFence) (s : State) : Out := fence o true true s

/-! ## Barrier objects (R208) -/

/-- EXPECT, ARRIVED, LEVEL and PHASE of an object's 32 bytes. -/
def boExpect (x : Nat) : Nat := bitsOf x 63 0
def boArrived (x : Nat) : Nat := bitsOf x 127 64
def boLevel (x : Nat) : Nat := bitsOf x 131 128
def boPhase (x : Nat) : Nat := bitsOf x 136 136

/-- An object's 32 bytes after BOINIT (R210). -/
def boFresh (expect level : Nat) : Nat := expect % 2 ^ 64 + (level % 16) <<< 128

/-- An addition of n bytes (R209): none when it would pass EXPECT. -/
def boAdd (x n : Nat) : Option Nat :=
  if boExpect x < boArrived x + n then none
  else if boArrived x + n = boExpect x then
    some (putBits (putBits x 64 64 0) 136 1 (1 - boPhase x))
  else some (putBits x 64 64 (boArrived x + n))

/-- The object's bytes, read as access `j` of the instruction. -/
def boRead (s : State) (j a need : Nat) : Except State (State × Nat × Loc) :=
  match scalarLoc s s.cur a 32 32 need with
  | .error t => .error (raise t.1 t.2 s)
  | .ok l =>
    if eccHit s l.key 32 then .error (raise cUncorrectable (BitVec.ofNat 64 a) s)
    else if l.foreign s.myPkg then
      match s.me.remote.find j with
      | none => .error (ask s j (request s 0 l 32 0 0 0))
      | some w => (match w.ready with
        | none => .error (s.hold wRemote)
        | some r => .ok (s, r.1, l))
    else
      let s1 := pin s l.key
      .ok (s1, readLoc s1 s1.myCore s1.me.ctx l 32, l)

/-- BOINIT (R210): sa the object, sb EXPECT, the level in the sd field. -/
def execBoinit (o : OpR) (s : State) : Out :=
  scalarE o.x s (fun s =>
    if s.levels.length ≤ o.d.toNat then .error (raise 0x0B (BitVec.ofNat 64 o.d.toNat) s)
    else match scalarStore s (s.me.reg o.a).toNat 32 32 (boFresh (s.me.reg o.b).toNat o.d.toNat) with
      | .error t => .error t
      | .ok t => .ok (t.retire (lenOf o.x)))

/-- An earlier store of the hart to a byte of [a, a + n) is not yet performed at the domain (R197 note 3, R211). -/
def rangeUnperformed (s : State) (phys a n : Nat) : Bool :=
  if phys ≤ 2 ∨ n = 0 then false
  else
    (s.core s.myCore).log.any (fun e => e.hart == s.cur && decide (e.va < bitsOf a 41 0 + n) &&
      decide (bitsOf a 41 0 < e.va + e.data.length)) ||
    (if phys = 7 then unacknowledged s s.cur else unperformed s s.cur)

/-- BOARRIVE (R211): sd the object, [sa, sa + sb) the range. -/
def execBoarrive (o : OpR) (s : State) : Out :=
  scalarE o.x s (fun s =>
    let a := (s.me.reg o.d).toNat
    let n := (s.me.reg o.b).toNat
    match boRead s 0 a (rR + rW) with
    | .error t => .error t
    | .ok (t, x, l) =>
      if t.levels.length ≤ boLevel x then .error (raise 0x0B (BitVec.ofNat 64 (boLevel x)) s)
      else if rangeUnperformed t (physOf t (boLevel x)) (t.me.reg o.a).toNat n then .error (t.hold wOrder)
      else if n = 0 then .ok (t.retire (lenOf o.x))
      else if ownLogCovers t t.cur l 32 then .error (t.hold wStore)
      else if l.foreign t.myPkg then
        match t.me.remote.find 1 with
        | none => .error (ask t 1 (request t 4 l 32 0 n 0))
        | some w => (match w.ready with
          | none => .error (t.hold wRemote)
          | some r => if r.1 = 1 then .error (raise 0x0C (BitVec.ofNat 64 a) t) else .ok (t.retire (lenOf o.x)))
      else match boAdd (loadMem t l.key 32) n with
        | none => .error (raise 0x0C (BitVec.ofNat 64 a) t)
        | some y => .ok ((putMem t l.key 32 y).retire (lenOf o.x)))

/-- BOWAIT (R212): waits while PHASE equals sb bit 0, then writes the PHASE it saw. Its wait record holds the object and
the PHASE it waits on; once the event has been recorded (R18), the PHASE seen and 2. -/
def execBowait (o : OpR) (s : State) : Out :=
  scalarE o.x s (fun s =>
    match s.me.wait with
    | some ⟨4, p, 2⟩ => .ok (s.wr (lenOf o.x) o.d (BitVec.ofNat 64 p))
    | _ =>
      match boRead s 0 (s.me.reg o.a).toNat rR with
      | .error t => .error t
      | .ok (t, x, _) =>
        let p := (t.me.reg o.b).toNat % 2
        if boPhase x = p then
          .error ((t.setMe { t.me with remote := t.me.remote.del 0 }).holdAt wBarrier (t.me.reg o.a).toNat p)
        else .ok (t.wr (lenOf o.x) o.d (BitVec.ofNat 64 (boPhase x))))

/-- The wait of a hart whose team leaves: a BOWAIT whose PHASE has flipped is satisfied (R18). -/
def savedWait (s : State) (hk : Nat) (h : Hart) : Option Wait :=
  match h.wait with
  | some ⟨4, a, p⟩ =>
    if p = 2 then h.wait
    else match scalarLoc s hk a 32 32 rR with
      | .error _ => h.wait
      | .ok l => let q := boPhase (loadMem s l.key 32); if q = p then h.wait else some ⟨wBarrier, q, 2⟩
  | w => w

/-- BOTEST (R214). -/
def execBotest (o : OpR) (s : State) : Out :=
  scalarE o.x s (fun s =>
    match boRead s 0 (s.me.reg o.a).toNat rR with
    | .error t => .error t
    | .ok (t, x, _) =>
      .ok (t.wr (lenOf o.x) o.d (if boPhase x = (t.me.reg o.b).toNat % 2 then 0 else 1)))

/-- TKWAIT (R215). -/
def execTkwait (o : OpTk) (s : State) : Out :=
  scalar o.x s (fun s =>
    match gate o.k.toNat s with
    | .error t => t
    | .ok t => t.retire (lenOf o.x))

/-! ## Additions by engines (R209, R223) -/

/-- The object an engine adds to holds an uncorrectable error, which goes to the system hart (R224, R371), or lies on a
module that nothing reaches. -/
def objectHeld (s : State) (hk a : Nat) : Bool :=
  match scalarLoc s hk a 32 32 (rR + rW) with
  | .error _ => false
  | .ok l => eccHit s l.key 32 || !reachesAll s (pkgOf hk) [l.key]

/-- An engine's addition of `n` bytes to the object at `a`, with the tables of hart `hk`: the new state, and the cause
its next wait reports. -/
def engineAdd (s : State) (hk : Nat) (a n : Nat) : State × Option Trap :=
  if n = 0 then (s, none)
  else match scalarLoc s hk a 32 32 (rR + rW) with
    | .error t => (s, some t)
    | .ok l =>
      let x := loadMem s l.key 32
      if (levelsOf s (s.hart hk)).length ≤ boLevel x then (s, some (0x0B, BitVec.ofNat 64 (boLevel x)))
      else match boAdd x n with
        | none => (s, some (0x0C, BitVec.ofNat 64 a))
        | some y => (putMem s l.key 32 y, none)

end Sys2Proof.Machine
end

