-- ==== Sys2Proof/Machine/Branch.lean ====
section
/-!
DEFINITION. Branches, jumps and calls (R120-R123).
-/
namespace Sys2Proof.Machine

/-- A branch on a relation between two registers (R120). -/
def branchIf (o : OpB) (rel : W64 → W64 → Bool) (s : State) : Out :=
  scalar o.x s (fun s =>
    if rel (s.me.reg o.a) (s.me.reg o.b) then s.jump (wordTarget s.me.pc o.p.toInt) else s.retire (lenOf o.x))

/-- BEQ (R120). -/
def execBeq (o : OpB) (s : State) : Out := branchIf o (fun a b => a == b) s

/-- BNE (R120). -/
def execBne (o : OpB) (s : State) : Out := branchIf o (fun a b => a != b) s

/-- BLT (R120). -/
def execBlt (o : OpB) (s : State) : Out := branchIf o (fun a b => a.slt b) s

/-- BGE (R120). -/
def execBge (o : OpB) (s : State) : Out := branchIf o (fun a b => !a.slt b) s

/-- BLTU (R120). -/
def execBltu (o : OpB) (s : State) : Out := branchIf o (fun a b => decide (a < b)) s

/-- BGEU (R120). -/
def execBgeu (o : OpB) (s : State) : Out := branchIf o (fun a b => !decide (a < b)) s

/-- JMP (R121). -/
def execJmp (o : OpJ) (s : State) : Out :=
  scalar o.x s (fun s => s.jump (wordTarget s.me.pc o.p.toInt))

/-- CALL (R121): s31 receives the address after the last word. -/
def execCall (o : OpJ) (s : State) : Out :=
  scalar o.x s (fun s =>
    (s.setMe (s.me.setReg 31 (s.me.pc + BitVec.ofNat 64 (lenOf o.x)))).jump (wordTarget s.me.pc o.p.toInt))

/-- JR (R122): sa is read before sd is written; a target off a word boundary raises Align. -/
def execJr (o : OpJR) (s : State) : Out :=
  scalar o.x s (fun s =>
    let t := s.me.reg o.a + o.i.signExtend 64
    if t.toNat % 4 ≠ 0 then raise cAlign t s
    else (s.setMe (s.me.setReg o.d (s.me.pc + BitVec.ofNat 64 (lenOf o.x)))).jump t)

end Sys2Proof.Machine
end

