-- ==== Sys2Proof/Machine/TreeOps.lean ====
section
/-!
DEFINITION. The TREE instructions but for EXIT and LAUNCH (R97-R102, R105).
-/
namespace Sys2Proof.Machine

/-- A TREE instruction that names a level: Level-mismatch at or beyond DEPTH, before any effect (R89). -/
def withLevel (i : Nat) (x : Option Ext) (s : State) (k : Level → State → State) : Out :=
  scalar x s (fun s => match s.levels[i]? with
    | none => raise 0x0B (BitVec.ofNat 64 i) s
    | some l => k l s)

/-- TID (R98). -/
def execTid (o : OpDL) (s : State) : Out :=
  withLevel o.l.toNat o.x s (fun _ s => s.wr (lenOf o.x) o.d (tidValue s s.me o.l.toNat))

/-- TSZ (R98). -/
def execTsz (o : OpDL) (s : State) : Out :=
  withLevel o.l.toNat o.x s (fun l s => s.wr (lenOf o.x) o.d (BitVec.ofNat 64 l.count))

/-- TDEPTH (R98). -/
def execTdepth (o : OpD) (s : State) : Out :=
  scalar o.x s (fun s => s.wr (lenOf o.x) o.d (BitVec.ofNat 64 s.levels.length))

/-- The level is co-resident, or inside one that is (R99). -/
def coresident (ls : List Level) (i : Nat) : Bool := (ls.drop i).any (fun l => l.cores)

/-- Every party that has not exited has made as many BARLs at the level as the caller. -/
def barlMet (s : State) (i : Nat) : Bool :=
  match s.launchOf s.me with
  | none => true
  | some l => (peers l.blk.levels i s.me.mid).all (fun m =>
      exited l m || (match memberHart s s.me.launch m with
        | none => false
        | some h => decide ((s.me.barls.get i).toNat ≤ (h.barls.get i).toNat)))

/-- BARL (R99): the arrival is made once, and the wait record says that it is made. -/
def execBarl (o : OpL) (s : State) : Out :=
  withLevel o.l.toNat o.x s (fun l s =>
    let i := o.l.toNat
    if l.phys < 2 ∨ !coresident s.levels i then raise 0x0B (BitVec.ofNat 64 i) s
    else if s.me.wait = some ⟨wBarl, i, 1⟩ then (if barlMet s i then s.retire (lenOf o.x) else s)
    else if hasLog s s.cur ∨ !performedAt s l.phys then s.hold wOrder
    else
      let h := s.me
      let s1 := (s.setMe { h with barls := h.barls.set i (h.barls.get i + 1) })
      if barlMet s1 i then s1.retire (lenOf o.x) else s1.holdAt wBarl i 1)

/-- FARMNEXT (R100). -/
def execFarmnext (o : OpDL) (s : State) : Out :=
  withLevel o.l.toNat o.x s (fun l s =>
    let i := o.l.toNat
    let h := s.me
    if l.dist ≠ 2 then
      if h.farmed.get i = 0 then
        (s.setMe { h with farmed := h.farmed.set i 1 }).wr (lenOf o.x) o.d (tidValue s h i)
      else s.wr (lenOf o.x) o.d allOnes
    else match s.launchOf h with
      | none => s.wr (lenOf o.x) o.d allOnes
      | some lr => match nextStrip s h.launch lr i h.mid (idxAt lr.blk.levels h.mid i) l.w with
        | none => s.wr (lenOf o.x) o.d allOnes
        | some (n, lr') =>
          ({ s with launches := s.launches.put h.launch lr' }.setMe
            { h with strips := h.strips.set i (BitVec.ofNat 64 (n + 1)) }).wr (lenOf o.x) o.d (BitVec.ofNat 64 n))

/-- The widest domain a launch reaches: the scope of a release by the whole launch (R96). -/
def launchPhys (ls : List Level) : Nat := if ls.any (fun l => decide (6 ≤ l.phys)) then 7 else 6

/-- The scope of a phase's release: the parent level, or the whole launch (R96). -/
def phaseScope (ls : List Level) (i : Nat) : Nat :=
  match ls[i + 1]? with | some p => p.phys | none => launchPhys ls

/-- Step 1 of R96: the unit's lead over its slowest sibling is below LEAD. -/
def leadOk (s : State) (l : Launch) (i : Nat) : Bool :=
  let p := phaseOf l (unitKey l.blk.levels i s.me.mid)
  let lead := if s.me.csr.lead = 0 then 1 else s.me.csr.lead.toNat
  match siblingMin l i s.me.mid with
  | none => true
  | some m => decide (p < m + lead)

/-- PHASE (R96, R101). -/
def execPhase (o : OpL) (s : State) : Out :=
  withLevel o.l.toNat o.x s (fun v s =>
    let i := o.l.toNat
    let h := s.me
    if !v.phased then s.retire (lenOf o.x)
    else match s.launchOf h with
      | none => s.retire (lenOf o.x)
      | some l =>
        let done (s : State) : Bool := match s.launchOf s.me with
          | none => true
          | some l => decide ((s.me.phases.get i).toNat ≤ phaseOf l (unitKey l.blk.levels i s.me.mid))
        if h.wait = some ⟨wPhase, i, 1⟩ then (if done s then s.retire (lenOf o.x) else s)
        else if !leadOk s l i then s.hold wPhase
        else if !performedAt s (phaseScope l.blk.levels i) then s.hold wOrder
        else
          let s1 := advancePhase (s.setMe { h with phases := h.phases.set i (h.phases.get i + 1) }) h.launch i h.mid
          if done s1 then s1.retire (lenOf o.x) else s1.holdAt wPhase i 1)

/-- YIELD (R102): nothing a program can see changes; until its next turn the hart stands at a swap point. -/
def execYield (o : OpN) (s : State) : Out :=
  scalar o.x s (fun s => (s.setMe { s.me with yielded := true }).retire (lenOf o.x))

/-- The launch a handle names in the hart's context. -/
def namedLaunch (s : State) (v : W64) : Option Launch :=
  let c := s.ctx s.myPkg s.me.slot
  (s.launches.find? (fun e => e.2.handle == v.toNat && e.2.ctx == s.me.slot && (e.2.pkg == s.myPkg || c.spans e.2.pkg))).map
    Prod.snd

/-- LWAIT (R105). -/
def execLwait (o : OpA) (s : State) : Out :=
  scalar o.x s (fun s => match namedLaunch s (s.me.reg o.a) with
    | none => s.retire (lenOf o.x)
    | some l => if isFinal l.status then s.retire (lenOf o.x) else s.hold wLaunch)

end Sys2Proof.Machine
end

