-- ==== Sys2Proof/Machine/Launch.lean ====
section
/-!
DEFINITION. Launches: the parameter block (R81-R83), binding (R84-R86), acceptance by LAUNCH (R104) and by a host queue
(R379), placement of teams (R87, R90-R92) and the deadline (R94).
-/
namespace Sys2Proof.Machine

/-! ## The block -/

/-- Level record i of a block, its 512 bytes as one number (R83). -/
def levelRec (x i : Nat) : Level :=
  let b := 2048 + 128 * i
  { count := bitsOf x (b + 31) b, phys := bitsOf x (b + 39) (b + 32), dist := bitsOf x (b + 47) (b + 40)
    cores := x.testBit (b + 48), phased := x.testBit (b + 49), w := bitsOf x (b + 31) b }

/-- The block of R82. -/
def readLpb (x : Nat) : Lpb where
  entry := BitVec.ofNat 64 (bitsOf x 63 0)
  arg := BitVec.ofNat 64 (bitsOf x 127 64)
  dualn := bitsOf x 143 136
  planes := bitsOf x 151 144
  cls := bitsOf x 159 152
  cf := bitsOf x 167 160
  vctl := bitsOf x 170 168
  vlcap := if bitsOf x 191 176 = 0 then 128 else bitsOf x 191 176
  deadline := bitsOf x 255 192
  lead := if bitsOf x 287 256 = 0 then 1 else bitsOf x 287 256
  dlfault := x.testBit 288
  uhaddr := BitVec.ofNat 64 (bitsOf x 383 320)
  toff := (span 0 4).map (fun i => BitVec.ofNat 64 (bitsOf x (447 + 64 * i) (384 + 64 * i)))
  bnd0 := bitsOf x 671 640
  bnd1 := bitsOf x 703 672
  bnd2 := bitsOf x 735 704
  event := BitVec.ofNat 64 (bitsOf x 831 768)
  levels := (span 0 (bitsOf x 135 128)).map (levelRec x)

/-- EVENT breaks R86: nonzero, and unaligned or outside the global window. -/
def eventBad (e : Nat) : Bool := e ≠ 0 && (e % 8 ≠ 0 || e >>> 60 ≠ 0)

/-! ## Binding (R84, R85) -/

/-- How a block binds. -/
inductive Bound where
  | treeBind
  | range
  | empty
  | ok (b : Lpb)
  deriving DecidableEq, Repr

/-- Cap(c) of R84 for a context. -/
def capOf (b : Lpb) (c : Ctx) (k : Nat) : Nat :=
  match k with
  | 0 => 8
  | 1 => maxVl (fmtOf b.cf) b.vlcap / 8
  | 2 => 8
  | 3 => 4
  | 4 => 8
  | 5 => 6
  | 6 => if c.groupmods = 0 then 1 else c.groupmods
  | _ => if c.ngroups = 0 then 1 else c.ngroups

def levelShapeBad (ls : List Level) : Bool :=
  (span 0 ls.length).any (fun i => match ls[i]? with
    | none => false
    | some l => decide (7 < l.phys) || decide (2 < l.dist) ||
        (match i with | 0 => false | j + 1 => (match ls[j]? with | none => false | some p => decide (l.phys < p.phys))) ||
        ((l.dist == 2 || l.phased) && decide (l.phys < 2)))

/-- Widths of the levels of code k; none is Tree-bind. -/
def bindCode (b : Lpb) (c : Ctx) (k : Nat) (ls : List Level) : Option (List Level) :=
  let here := ls.filter (fun l => l.phys == k)
  let n := here.foldl (fun n l => n * l.count) 1
  let cap := capOf b c k
  if here.isEmpty ∨ n ≤ cap then some ls
  else
    match (span 0 ls.length).reverse.find? (fun i => match ls[i]? with
        | none => false | some l => l.phys == k && l.dist == 2) with
    | none => none
    | some f =>
      let nf := n / (match ls[f]? with | none => 1 | some l => l.count)
      if cap < nf then none
      else some (ls.mapIdx (fun i l => if i = f then { l with w := min l.count (cap / nf) } else l))

/-- Scalar fields of R86 but for the boundaries. -/
def fieldsBad (b : Lpb) : Bool :=
  b.entry.toNat % 4 ≠ 0 || b.uhaddr.toNat % 4 ≠ 0 || decide (4 < b.dualn) || decide (b.planes < b.dualn) ||
    decide (4 < b.planes) || decide (3 < b.cls) || decide (15 < b.cf) || !([16, 32, 64, 128].contains b.vlcap) ||
    eventBad b.event.toNat

/-- Cores assigned to the context on a module, of 192. -/
def assignedCores (c : Ctx) : Nat := if c.cores = 0 then 192 else popCount c.cores.toNat 192

/-- The boundaries of R86, defaults taken. -/
def withBounds (b : Lpb) : Option Lpb :=
  let h := hartsPerCore b.levels
  let b1 : Lpb := if b.bnd0 = 0 ∧ b.bnd1 = 0 ∧ b.bnd2 = 0 then
      let d0 := h * 49152 * (1 + b.planes)
      { b with bnd0 := d0, bnd1 := d0 + h * 65536, bnd2 := d0 + h * 65536 + 2097152 } else b
  if boundsOk h b1.planes b1.bnd0 b1.bnd1 b1.bnd2 then some b1 else none

/-- The checks of R85, in order. -/
def bindBlock (c : Ctx) (x : Nat) : Bound :=
  let b := readLpb x
  let depth := bitsOf x 135 128
  if depth < 1 ∨ 16 < depth then .treeBind
  else if levelShapeBad b.levels then .treeBind
  else
    let p := b.levels.foldl (fun n l => n * l.count) 1
    if p = 0 then .empty
    else if 2 ^ 40 < p then .range
    else if fieldsBad b then .treeBind
    else match (span 0 8).foldl (fun (acc : Option (List Level)) k => acc.bind (bindCode b c k)) (some b.levels) with
      | none => .treeBind
      | some ls =>
        match withBounds { b with levels := ls } with
        | none => .treeBind
        | some b1 =>
          if ls.any (fun l => decide (l.phys < 2)) ∧ 14 ≤ b.cf then .treeBind
          else
            let need := match (span 0 ls.length).reverse.find? (fun i => match ls[i]? with | none => false | some l => l.cores) with
              | none => 0
              | some k => ((ls.take (k + 1)).filter (fun l => decide (2 ≤ l.phys))).foldl (fun n l => n * l.w) 1
            if assignedCores c * 8 * c.modules.length < need then .treeBind else .ok b1

/-! ## Acceptance -/

/-- A handle no launch of the context has, at or above a start, never zero (R104). -/
def freshHandle (used : List Nat) (start : Nat) : Nat :=
  ((span 0 (used.length + 2)).map (fun i => (start + i) % 2 ^ 64)).find? (fun v => v ≠ 0 && !used.contains v) |>.getD 1

/-- A launch accepted: its record, named by a fresh handle (R104). One taken from a host queue has a handle too (log 52). -/
def enqueue (s : State) (pkg slot addr cls : Nat) (q : Option Nat) (b : Lpb) : State × Nat :=
  let used := (s.launches.filter (fun e => e.2.ctx == slot)).map (fun e => e.2.handle)
  let hd := freshHandle used (Config.handle s.seq).toNat
  let l : Launch :=
    { pkg := pkg, ctx := slot, addr := BitVec.ofNat 64 addr, blk := b, cls := cls, handle := hd, queue := q, teams := []
      members := [], farms := [], phases := [], status := 0, missed := false, since := (s.mod pkg).gtime }
  ({ s with launches := s.launches.put s.seq l }.bump, hd)

/-- Launches of a context that are accepted and not complete. -/
def openLaunches (s : State) (pkg slot : Nat) : Nat :=
  (s.launches.filter (fun e => e.2.ctx == slot && (s.ctx pkg slot).spans e.2.pkg && !isFinal e.2.status)).length

/-- An EMPTY launch: accepted, and complete at once. -/
def acceptEmpty (s : State) (pkg slot addr cls : Nat) (q : Option Nat) (x : Nat) : State × Nat :=
  let b := readLpb x
  let b1 : Lpb := { b with levels := [], event := if eventBad b.event.toNat then 0 else b.event }
  let r := enqueue s pkg slot addr cls q b1
  (finish r.1 s.seq 3, r.2)

/-- LAUNCH (R104): sd the handle, sa the block. -/
def execLaunch (o : OpDA) (s : State) : Out :=
  scalarE o.x s (fun s =>
    let a := (s.me.reg o.a).toNat
    if !performedAt s 6 then .error (s.hold wOrder)
    else if a >>> 60 ≠ 0 then .error (raise cSpace (BitVec.ofNat 64 a) s)
    else
      let chunk (s : State) (j : Nat) : Except State State :=
        match scalarLoc s s.cur (a + 64 * j) 64 64 rR with
        | .error t => .error (raise t.1 t.2 s)
        | .ok l => if eccHit s l.key 64 then .error (raise cUncorrectable (BitVec.ofNat 64 (a + 64 * j)) s) else .ok s
      match (span 0 8).foldl (fun (acc : Except State State) j =>
          match acc with | .error t => .error t | .ok s => chunk s j) (.ok s) with
      | .error t => .error t
      | .ok s =>
        let locs := (span 0 8).map (fun j => match scalarLoc s s.cur (a + 64 * j) 64 64 rR with
          | .error _ => (⟨0, none⟩ : Loc) | .ok l => l)
        let l0 := locs.headD ⟨0, none⟩
        let get : Except State Nat :=
          if l0.foreign s.myPkg then
            match s.me.remote.find 0 with
            | none => .error (ask s 0 { request s 0 l0 512 0 0 0 with keys := locs.flatMap (fun l => keyRun l.key 64) })
            | some w => (match w.ready with | none => .error (s.hold wRemote) | some r => .ok r.1)
          else .ok (locs.reverse.foldl (fun n l => readLoc s s.myCore s.me.ctx l 64 + 2 ^ 512 * n) 0)
        match get with
        | .error t => .error t
        | .ok x =>
          let slot := s.me.slot
          match bindBlock (s.ctx s.myPkg slot) x with
          | .range => .error (raise 0x09 (BitVec.ofNat 64 a) s)
          | .treeBind => .error (raise 0x0A (BitVec.ofNat 64 a) s)
          | .empty =>
            if (readLpb x).levels.any (fun l => decide (6 ≤ l.phys)) ∧ !performedAt s 7 then .error (s.hold wOrder)
            else
            let r := acceptEmpty s s.myPkg slot a (max (bitsOf x 159 152) s.me.cls) none x
            .ok (r.1.wr (lenOf o.x) o.d (BitVec.ofNat 64 r.2))
          | .ok b =>
            if b.levels.any (fun l => decide (6 ≤ l.phys)) ∧ !performedAt s 7 then .error (s.hold wOrder)
            else if 4096 ≤ openLaunches s s.myPkg slot then .error (s.hold wOrder)
            else
              let r := enqueue s s.myPkg slot a (max b.cls s.me.cls) none b
              .ok (r.1.wr (lenOf o.x) o.d (BitVec.ofNat 64 r.2)))

/-! ## Host queues (R379) -/

/-- The 512 bytes of a block as the launch unit reads them, when every part can be read. -/
def deviceBlock (s : State) (pkg slot a : Nat) : Option Nat :=
  if a % 64 ≠ 0 then none
  else (span 0 8).reverse.foldl (fun (acc : Option Nat) j => match acc with
    | none => none
    | some n => (deviceKey s pkg slot (a + 64 * j) 64 rR).map (fun k => loadMem s k 64 + 2 ^ 512 * n)) (some 0)

/-- A host launch that fails with a code: status, event when `ev` is one to add to, and message (R93, R379). -/
def failHost (s : State) (pkg slot a code ev : Nat) (q : Nat) : State :=
  if (deviceKeys s pkg slot (a + 0x68) 8 rW).isSome then
    queueMessage (eventAdd (writeStatus s pkg slot a code false) pkg slot ev) pkg (some q)
  else s

/-- The event of a block that was not taken: a misaligned block whose bytes can be read has one (R81, R93), a block that
cannot be read has none (R379). -/
def lostEvent (s : State) (pkg slot a : Nat) : Nat :=
  if a % 64 = 0 then 0
  else match deviceKeys s pkg slot a 512 rR with
    | none => 0
    | some ks => let e := ofBytes ((ks.drop 0x60).take 8 |>.map s.byteAt); if eventBad e then 0 else e

/-- One entry of a launch queue. -/
def acceptHost (s : State) (pkg q slot a : Nat) : State :=
  match deviceBlock s pkg slot a with
  | none => failHost s pkg slot a 0x0A (lostEvent s pkg slot a) q
  | some x =>
    let ev := bitsOf x 831 768
    let ev1 := if eventBad ev then 0 else ev
    match bindBlock (s.ctx pkg slot) x with
    | .range => failHost s pkg slot a 0x09 ev1 q
    | .treeBind => failHost s pkg slot a 0x0A ev1 q
    | .empty => (acceptEmpty s pkg slot a (bitsOf x 159 152) (some q) x).1
    | .ok b => (enqueue s pkg slot a b.cls (some q) b).1

/-- A power of two from 16 to 32,768. -/
def queueSizeOk (n : Nat) : Bool := [16, 32, 64, 128, 256, 512, 1024, 2048, 4096, 8192, 16384, 32768].contains n

/-- The key of the byte at a PCIe address of a module's host: physical memory below 2 TiB (R363), beyond it a space that
only the device's own reads reach. -/
def hostKey (pkg a : Nat) : Nat := if a < 2 ^ 41 then physKey pkg (2 ^ 41 + a) else 2 ^ 80 + pkg * 2 ^ 64 + a

/-- The entries from HEAD to TAIL of a queue, modulo SIZE (R379). A TAIL of HEAD + SIZE names every entry; of more, the
last SIZE, the others being overwritten. -/
def Queue.ring (r : Queue) (tail : Nat) : Queue :=
  let n := if r.head ≤ tail then tail - r.head else (tail + (65536 / r.size) * r.size - r.head) % r.size
  if n ≤ r.size then { r with tail := tail, left := n } else { r with tail := tail, head := tail % r.size, left := r.size }

/-- The entry taken. -/
def Queue.next (r : Queue) : Queue := { r with head := (r.head + 1) % r.size, left := r.left - 1 }

/-- The entries that are available are taken, while the context can hold more launches. -/
def drainQueue (pkg q : Nat) : Nat → State → State
  | 0, s => s
  | n + 1, s =>
    let r := (s.mod pkg).queues.getD q {}
    if !queueSizeOk r.size ∨ r.left = 0 ∨ 4096 ≤ openLaunches s pkg r.ctx then s
    else
      let a := s.mem.load (hostKey pkg (r.base.toNat + 8 * r.head)) 8
      let m := s.mod pkg
      drainQueue pkg q n (acceptHost (s.setMod pkg { m with queues := m.queues.put q r.next }) pkg q r.ctx a)

/-- LAUNCH_QUEUE_DOORBELL (R379): a write of TAIL. -/
def execLaunchQueueDoorbell (pkg q tail : Nat) (s : State) : Out :=
  if q < 64 ∧ modOn s pkg then
    let m := s.mod pkg
    let r := m.queues.getD q {}
    let r1 := if queueSizeOk r.size then r.ring (tail % 65536) else { r with tail := tail % 65536, left := 0 }
    .next (drainQueue pkg q r.size (s.setMod pkg { m with queues := m.queues.put q r1 }))
  else .next s

/-! ## Placement (R87, R90) -/

/-- The identifier of a team's lowest hart. -/
def lowestHart (ls : List Level) (t : Nat) : Nat :=
  ((span 0 (teamHarts ls)).map (fun h => hardwareId ls (8 * t + h))).foldl Nat.min (2 ^ 64)

/-- Insertion by ascending key. -/
def insertBy (f : Nat → Nat) (t : Nat) : List Nat → List Nat
  | [] => [t]
  | u :: r => if f t < f u then t :: u :: r else u :: insertBy f t r

/-- The team numbers of a launch, in ascending identifier of their lowest hart. -/
def teamOrder (ls : List Level) : List Nat :=
  (span 0 (teamCount ls)).foldl (fun l t => insertBy (lowestHart ls) t l) []

/-- Teams still to be placed, in order. -/
def pendingTeams (l : Launch) : List Nat :=
  (teamOrder l.blk.levels).filter (fun t => (l.teams.find t).isNone)

/-- The physical unit of a code that holds a core. -/
def unitOf (c : Ctx) (k ck : Nat) : Nat :=
  let gm := if c.groupmods = 0 then 1 else c.groupmods
  match k with
  | 3 => ck
  | 4 => quadOf ck
  | 5 => corePkg ck * 8 + dieOfCore ck
  | 6 => corePkg ck
  | _ => (corePkg ck - c.firstpkg) / gm

/-- Slots of codes k and above for a team. -/
def slotsFrom (ls : List Level) (k t : Nat) : List Nat := (range k 8).map (fun c => memberSlot ls c (8 * t))

/-- Two teams on two cores agree with R87: one unit for one slot, and different units for different slots unless team `u` is
over, whose unit is then free for other slots (R90). (Log 168.) -/
def agree (ls : List Level) (c : Ctx) (ended : Bool) (t u ck cu : Nat) : Bool :=
  (range 4 8).all (fun k =>
    if slotsFrom ls (k + 1) t = slotsFrom ls (k + 1) u then
      (if memberSlot ls k (8 * t) = memberSlot ls k (8 * u) then unitOf c k ck == unitOf c k cu
       else ended || unitOf c k ck != unitOf c k cu)
    else true)

/-- The core can take a team of a context (R90, R369, R378). -/
def coreFree (s : State) (slot ck : Nat) : Bool :=
  let c := s.ctx (corePkg ck) slot
  (s.core ck).team.isNone && c.live && c.owns (coreId ck) && decide (coreId ck < 192) && decide (16 ≤ (s.core ck).capmax) &&
    (s.mod (corePkg ck)).on && (s.mod (corePkg ck)).booted && (s.mods.find (corePkg ck)).isSome

/-- Each code's unit is fixed by the first team placed that has not been moved since (R87), no two slots share one while
teams of both are there (R90), and the launch without PACKAGE or FABRIC stays on its module. -/
def placementOk (s : State) (l : Launch) (new : List (Nat × Nat)) : Bool :=
  let c := s.ctx l.pkg l.ctx
  let ls := l.blk.levels
  let all := l.teams.filter (fun e => !l.moved.contains e.1) ++ new
  new.all (fun p => coreFree s l.ctx p.2 && (corePkg p.2 == l.pkg || c.spans (corePkg p.2)) &&
    (ls.any (fun v => decide (6 ≤ v.phys)) || corePkg p.2 == l.pkg) &&
    all.all (fun q => p.1 == q.1 || agree ls c (l.teamOver q.1) p.1 q.1 p.2 q.2)) &&
    (new.map Prod.snd).eraseDups.length == new.length

/-- The placement takes whole units of the outermost co-resident level (R90). -/
def wholeUnits (l : Launch) (ts : List Nat) : Bool :=
  let ls := l.blk.levels
  match (span 0 ls.length).reverse.find? (fun i => match ls[i]? with | none => false | some v => v.cores) with
  | none => true
  | some k => ts.all (fun t => (span 0 (teamHarts ls)).all (fun h =>
      (peers ls k (8 * t + h)).all (fun m => ts.contains (m / 8))))

/-- The order of R92: class, then deadline with none last, then acceptance. -/
def ahead (a b : Nat × Launch) : Bool :=
  let dl (l : Launch) := if l.blk.deadline = 0 then 2 ^ 64 else l.blk.deadline
  if a.2.cls ≠ b.2.cls then decide (a.2.cls < b.2.cls)
  else if dl a.2 ≠ dl b.2 then decide (dl a.2 < dl b.2) else decide (a.1 < b.1)

/-- Cores that the teams of a launch may be placed on. -/
def launchCores (s : State) (l : Launch) : List Nat :=
  let ps := if l.blk.levels.any (fun v => decide (6 ≤ v.phys)) then (s.ctx l.pkg l.ctx).modules else [l.pkg]
  ps.flatMap (fun p => (span 0 192).map (fun k => p * 256 + k))

/-- Teams `ts` fit on free cores beside the teams placed as `new` (R87). -/
def teamsFit (s : State) (l : Launch) : List (Nat × Nat) → List Nat → Bool
  | _, [] => true
  | new, t :: ts => (launchCores s l).any (fun ck => placementOk s l ((t, ck) :: new) && teamsFit s l ((t, ck) :: new) ts)

/-- The launch's next wave fits on free cores (R87, R90). -/
def roomFor (s : State) (l : Launch) : Bool :=
  let ts := pendingTeams l
  (span 1 ts.length).any (fun n => wholeUnits l (ts.take n) && teamsFit s l [] (ts.take n))

/-- Every launch ahead of this one in its context is fully placed (R92). -/
def firstInLine (s : State) (lk : Nat) (l : Launch) : Bool :=
  s.launches.all (fun e => e.1 == lk || e.2.ctx != l.ctx || e.2.pkg != l.pkg || isFinal e.2.status ||
    (pendingTeams e.2).isEmpty || !ahead e (lk, l))

/-- A created hart (R91). -/
def newHart (l : Launch) (lk mid : Nat) : Hart where
  pc := l.blk.entry
  regs := (Cells.set (Cells.set [] 1 l.blk.arg) 2 l.addr)
  tags := Cells.fill [] 0 (BitVec.ofNat 4 l.blk.cf) 48
  csr := {
    vl := (let low := l.blk.levels.filter (fun v => decide (v.phys < 2)); if low.isEmpty then 0 else prodW low)
    cf := BitVec.ofNat 4 l.blk.cf
    vctl := BitVec.ofNat 3 l.blk.vctl
    toff := (List.zip (span 1 4) l.blk.toff).foldl (fun c p => Cells.set c p.1 p.2) []
    dualn := l.blk.dualn
    dln := BitVec.ofNat 64 l.blk.deadline
    lead := BitVec.ofNat 64 l.blk.lead
    uhaddr := l.blk.uhaddr }
  ctx := l.ctx
  launch := lk
  mid := mid
  cls := l.cls
  nplanes := l.blk.planes

/-- The team `t` is created on a core: its harts, the core's registers, an empty pool with empty granules. -/
def createTeam (lk : Nat) (l : Launch) (t ck : Nat) (s : State) : State :=
  let mids := (span 0 (teamHarts l.blk.levels)).map (fun h => 8 * t + h)
  let c := s.core ck
  let lo := poolKey ck 0
  let s1 := s.setCore ck { c with
    vlcap := min l.blk.vlcap c.capmax, bnd0 := l.blk.bnd0, bnd1 := l.blk.bnd1, bnd2 := l.blk.bnd2
    team := some (lk, t), placed := s.seq, pinned := [] }
  let s2 := { s1 with
    mem := s1.mem.clear lo (lo + 8388608), fe := s1.fe.clear (lo / 16) (lo / 16 + 524288)
    harts := mids.foldl (fun t m => Tab.put t (hartKey ck (m % 8)) (newHart l lk m)) s1.harts
    launches := s1.launches.upd lk (fun l => { l with
      teams := l.teams.put t ck, places := (ck, t) :: l.places, members := mids.foldl (fun m k => Tab.put m k false) l.members }) }
  (markRunning s2 lk).bump

/-- TEAM_PLACEMENT (R87, R90, R92): the next teams of a launch, in order, on the given cores. -/
def execTeamPlacement (lk : Nat) (cores : List Nat) (s : State) : Out :=
  .next (match s.launches.find lk with
    | none => s
    | some l =>
      let ts := (pendingTeams l).take cores.length
      let new := List.zip ts cores
      if isFinal l.status ∨ cores.isEmpty ∨ ts.length ≠ cores.length ∨ !placementOk s l new ∨ !wholeUnits l ts ∨
          !firstInLine s lk l then s
      else new.foldl (fun s p => createTeam lk l p.1 p.2 s) s)

/-- DEADLINE_EXPIRY (R94): GTIME has passed the deadline before every hart has exited. -/
def execDeadlineExpiry (lk : Nat) (s : State) : Out :=
  .next (match s.launches.find lk with
    | none => s
    | some l =>
      if l.blk.deadline ≠ 0 ∧ l.blk.deadline < (s.mod l.pkg).gtime then missDeadline s lk else s)

end Sys2Proof.Machine
end

