-- ==== Sys2Proof/Machine/Hazard.lean ====
section
/-!
DEFINITION. What decode knows of an instruction beside its effect: which instructions chain and which are privileged
(R35, R374), and the vector registers, planes and masks it reads and writes, as R23 counts them.
-/
namespace Sys2Proof.Machine

/-- Bytes and tokens of an instruction (R20, R24). -/
def instrLen (i : Instr) : Nat := lformLen i.form
def instrWtk (i : Instr) : Nat := lformWtk i.form

/-- The extended field of an instruction that has one. -/
def instrExt (i : Instr) : Option Ext :=
  match i.form with
  | .word => none
  | .ext x => some x
  | .lit _ => none
  | .extLit x _ => some x

/-- Registers an instruction reads and writes: vector registers and masks; `dual` when its reads and writes carry the
planes in force; `pr` and `pw` the planes it names itself, as 64*k + register. -/
structure Uses where
  r    : List Nat := []
  w    : List Nat := []
  mr   : List Nat := []
  mw   : List Nat := []
  dual : Bool := false
  pr   : List Nat := []
  pw   : List Nat := []
  deriving DecidableEq, Repr

/-- The mask operand mk reads no register when it is 15 (R27). -/
def mkUse (m : BitVec 4) : List Nat := if m = 15 then [] else [m.toNat]

/-- The addend of VFMA in its forms (R140). -/
def addend (d : BitVec 6) (x : Option Ext) : Nat :=
  match x with
  | none => d.toNat
  | some e => if e.vs3 = 63 then d.toNat else e.vs3.toNat

/-- `c` consecutive registers. -/
def regRun (v c : Nat) : List Nat := span v c

/-- Majors of column Ch of the major map (R35). -/
def chainable (i : Instr) : Bool :=
  match i with
  | .add _ => false
  | .sub _ => false
  | .and _ => false
  | .or _ => false
  | .xor _ => false
  | .andn _ => false
  | .shl _ => false
  | .shr _ => false
  | .sar _ => false
  | .rotr _ => false
  | .min _ => false
  | .max _ => false
  | .minu _ => false
  | .maxu _ => false
  | .mul _ => false
  | .mulh _ => false
  | .mulhu _ => false
  | .div _ => false
  | .divu _ => false
  | .rem _ => false
  | .remu _ => false
  | .clz _ => false
  | .ctz _ => false
  | .popc _ => false
  | .cmpeq _ => false
  | .cmpne _ => false
  | .cmplt _ => false
  | .cmpge _ => false
  | .cmpltu _ => false
  | .cmpgeu _ => false
  | .sel _ => false
  | .addi _ => false
  | .andi _ => false
  | .ori _ => false
  | .xori _ => false
  | .shli _ => false
  | .shri _ => false
  | .sari _ => false
  | .lit _ => false
  | .fadd _ => false
  | .fsub _ => false
  | .fmul _ => false
  | .fdiv _ => false
  | .fsqrt _ => false
  | .fmin _ => false
  | .fmax _ => false
  | .fcmpeq _ => false
  | .fcmplt _ => false
  | .fcmple _ => false
  | .fma _ => false
  | .fcvti _ => false
  | .fcvtf _ => false
  | .fcvtds _ => false
  | .fcvtsd _ => false
  | .fabs _ => false
  | .fneg _ => false
  | .fclass _ => false
  | .ld _ => false
  | .ldh _ => false
  | .ldw _ => false
  | .ldd _ => false
  | .ldbu _ => false
  | .ldhu _ => false
  | .ldwu _ => false
  | .st _ => false
  | .sth _ => false
  | .stw _ => false
  | .std _ => false
  | .beq _ => false
  | .bne _ => false
  | .blt _ => false
  | .bge _ => false
  | .bltu _ => false
  | .bgeu _ => false
  | .jmp _ => false
  | .call _ => false
  | .jr _ => false
  | .qpop _ => false
  | .qpeek _ => false
  | .qcnt _ => false
  | .csrr _ => false
  | .csrw _ => false
  | .csrwCf _ => false
  | .csrwVlcap _ => false
  | .csrwBnd _ => false
  | .csrwVstart _ => false
  | .csrwCtxid _ => false
  | .tid _ => false
  | .tsz _ => false
  | .tdepth _ => false
  | .barl _ => false
  | .farmnext _ => false
  | .phase _ => false
  | .yield _ => false
  | .exit _ => false
  | .launch _ => false
  | .lwait _ => false
  | .setvl _ => false
  | .vadd _ => true
  | .vsub _ => true
  | .vmul _ => true
  | .vmulh _ => true
  | .vmin _ => true
  | .vmax _ => true
  | .vand _ => true
  | .vor _ => true
  | .vxor _ => true
  | .vshl _ => true
  | .vshr _ => true
  | .vsar _ => true
  | .vfma _ => true
  | .vfms _ => true
  | .vfnma _ => true
  | .vfnms _ => true
  | .vdiv _ => true
  | .vsqrt _ => true
  | .vabs _ => true
  | .vneg _ => true
  | .vclz _ => true
  | .vpopc _ => true
  | .vrcpe _ => true
  | .vrsqe _ => true
  | .vexp2 _ => true
  | .vlog2 _ => true
  | .vfloor _ => true
  | .vceil _ => true
  | .vrint _ => true
  | .vclass _ => true
  | .vcmpeq _ => true
  | .vcmpne _ => true
  | .vcmplt _ => true
  | .vcmple _ => true
  | .vcmpgt _ => true
  | .vcmpge _ => true
  | .vsel _ => true
  | .mand _ => true
  | .mor _ => true
  | .mxor _ => true
  | .mandn _ => true
  | .mnot _ => true
  | .mset _ => true
  | .mclr _ => true
  | .mmov _ => true
  | .mpop _ => true
  | .mfirst _ => true
  | .vbcast _ => true
  | .viota _ => true
  | .vtoq _ => true
  | .vtid _ => true
  | .vperm _ => true
  | .vslideDn _ => true
  | .vslideUp _ => true
  | .vcompr _ => true
  | .vexpnd _ => true
  | .vzipLo _ => true
  | .vzipHi _ => true
  | .vunzipEv _ => true
  | .vunzipOd _ => true
  | .vredSum _ => true
  | .vredMin _ => true
  | .vredMax _ => true
  | .vredAnd _ => true
  | .vredOr _ => true
  | .vredXor _ => true
  | .vscanSum _ => true
  | .vscanMin _ => true
  | .vscanMax _ => true
  | .vscanAnd _ => true
  | .vscanOr _ => true
  | .vscanXor _ => true
  | .vgredSum _ => true
  | .vgredMin _ => true
  | .vgredMax _ => true
  | .vgredOr _ => true
  | .vcvt _ => true
  | .vretag _ => true
  | .vfunr _ => true
  | .vfunl _ => true
  | .vext _ => true
  | .vextUniform _ => true
  | .vextS _ => true
  | .vextSUniform _ => true
  | .dual _ => false
  | .tseed _ => true
  | .tget _ => true
  | .tclr _ => true
  | .vld _ => true
  | .vldStr _ => true
  | .vld2d _ => true
  | .vst _ => true
  | .vstStr _ => true
  | .vst2d _ => true
  | .vldo _ => true
  | .vldoStr _ => true
  | .vldo2d _ => true
  | .vsto _ => true
  | .vstoStr _ => true
  | .vsto2d _ => true
  | .vldsc _ => true
  | .vldscStr _ => true
  | .vldsc2d _ => true
  | .vstsc _ => true
  | .vstscStr _ => true
  | .vstsc2d _ => true
  | .vstb _ => true
  | .sideLogReplay _ => false
  | .ldfe _ => false
  | .ldfeClr _ => false
  | .stfe _ => false
  | .vldfe _ => true
  | .vldfeClr _ => true
  | .spctest _ => false
  | .spccastTo _ => false
  | .spccastFrom _ => false
  | .prefL1 _ => false
  | .prefL2 _ => false
  | .clwb _ => false
  | .clinv _ => false
  | .atomAdd _ => false
  | .atomAnd _ => false
  | .atomOr _ => false
  | .atomXor _ => false
  | .atomMin _ => false
  | .atomMax _ => false
  | .atomMinu _ => false
  | .atomMaxu _ => false
  | .atomSwap _ => false
  | .atomFaddd _ => false
  | .atomFadds _ => false
  | .cas _ => false
  | .fenceAcq _ => false
  | .fenceRel _ => false
  | .fenceAcqrel _ => false
  | .fenceSc _ => false
  | .boinit _ => false
  | .boarrive _ => false
  | .bowait _ => false
  | .botest _ => false
  | .tkwait _ => false
  | .lnset _ => false
  | .cpy _ => false
  | .cpyrLoad _ => false
  | .cpyrStore _ => false
  | .cpyx _ => false
  | .copyComplete _ _ => false
  | .copyFail _ _ _ => false
  | .matt _ => false
  | .mdet _ => false
  | .mcfg _ => false
  | .mlds _ => false
  | .mswap _ => false
  | .mstrm _ => false
  | .matrixStep _ => false
  | .matrixClassAging _ _ => false
  | .macz _ => false
  | .macst _ => false
  | .macld _ => false
  | .xrun _ => false
  | .xmrg _ => false
  | .xsend _ => false
  | .xrecv _ => false
  | .switchEmit _ _ _ => false
  | .recordDelivery _ _ _ => false
  | .xopen _ => false
  | .xclose _ => false
  | .monarchCopy _ _ => false
  | .prefetchCopy _ _ _ => false
  | .xsplt _ => false
  | .xcomb _ => false
  | .xsamp _ => false
  | .xround _ => false
  | .xcapset _ => false
  | .xtopk _ => false
  | .xrtab _ => false
  | .xload _ => false
  | .xpft _ => false
  | .collReduce _ => false
  | .collAllred _ => false
  | .collGather _ => false
  | .collScatter _ => false
  | .collBcast _ => false
  | .stagingReservation _ => false
  | .collectiveComplete _ _ => false
  | .grpset _ => false
  | .cwait _ => false
  | .cld _ => false
  | .cst _ => false
  | .cscan _ => false
  | .cdense _ => false
  | .crinit _ => false
  | .gth _ => false
  | .sct _ => false
  | .sctadd _ => false
  | .hazelComplete _ _ => false
  | .vstc _ => false
  | .syscall _ => false
  | .brk _ => false
  | .uret _ => false
  | .eret _ => false
  | .halt _ => false
  | .wfi _ => false
  | .tlbinv _ => false
  | .vhtinv _ => false
  | .ctxsave _ => false
  | .ctxload _ => false
  | .sldrain _ => false
  | .launchQueueDoorbell _ _ _ => false
  | .teamPlacement _ _ => false
  | .deadlineExpiry _ => false
  | .preemptionTimeout _ => false
  | .teamSwapOut _ => false
  | .teamResume _ _ => false
  | .remoteAccess _ => false
  | .remoteAck _ => false
  | .engineUncorrectableError _ _ _ _ => false
  | .moduleReset _ => false
  | .attestationRequest _ _ => false
  | .contextCreate _ _ => false
  | .contextEndByHost _ _ => false
  | .epochWrite _ _ => false
  | .bar0RegisterWrite _ _ _ => false
  | .bar2Write _ _ _ => false
  | .bar2Read _ _ _ => false
  | .gtimeSync _ => false
  | .linkCrcReplay _ _ => false
  | .portRemoval _ _ => false
  | .dieIdleEntry _ _ => false
  | .dieIdleExit _ _ => false
  | .powerOff _ => false
  | .powerTrip _ => false
  | .plimWrite _ _ => false
  | .illegalInstruction _ => false
  | .instructionFetchFault _ _ => false
  | .remoteLoadReturn _ => false
  | .copyPerformed _ _ _ => false
  | .laneClusterRetirement _ _ => false

/-- The PRIV instructions (R374). Privileged CSRs are checked by number (R49). -/
def isPriv (i : Instr) : Bool :=
  match i with
  | .add _ => false
  | .sub _ => false
  | .and _ => false
  | .or _ => false
  | .xor _ => false
  | .andn _ => false
  | .shl _ => false
  | .shr _ => false
  | .sar _ => false
  | .rotr _ => false
  | .min _ => false
  | .max _ => false
  | .minu _ => false
  | .maxu _ => false
  | .mul _ => false
  | .mulh _ => false
  | .mulhu _ => false
  | .div _ => false
  | .divu _ => false
  | .rem _ => false
  | .remu _ => false
  | .clz _ => false
  | .ctz _ => false
  | .popc _ => false
  | .cmpeq _ => false
  | .cmpne _ => false
  | .cmplt _ => false
  | .cmpge _ => false
  | .cmpltu _ => false
  | .cmpgeu _ => false
  | .sel _ => false
  | .addi _ => false
  | .andi _ => false
  | .ori _ => false
  | .xori _ => false
  | .shli _ => false
  | .shri _ => false
  | .sari _ => false
  | .lit _ => false
  | .fadd _ => false
  | .fsub _ => false
  | .fmul _ => false
  | .fdiv _ => false
  | .fsqrt _ => false
  | .fmin _ => false
  | .fmax _ => false
  | .fcmpeq _ => false
  | .fcmplt _ => false
  | .fcmple _ => false
  | .fma _ => false
  | .fcvti _ => false
  | .fcvtf _ => false
  | .fcvtds _ => false
  | .fcvtsd _ => false
  | .fabs _ => false
  | .fneg _ => false
  | .fclass _ => false
  | .ld _ => false
  | .ldh _ => false
  | .ldw _ => false
  | .ldd _ => false
  | .ldbu _ => false
  | .ldhu _ => false
  | .ldwu _ => false
  | .st _ => false
  | .sth _ => false
  | .stw _ => false
  | .std _ => false
  | .beq _ => false
  | .bne _ => false
  | .blt _ => false
  | .bge _ => false
  | .bltu _ => false
  | .bgeu _ => false
  | .jmp _ => false
  | .call _ => false
  | .jr _ => false
  | .qpop _ => false
  | .qpeek _ => false
  | .qcnt _ => false
  | .csrr o => o.i.toNat.testBit 11
  | .csrw o => o.i.toNat.testBit 11
  | .csrwCf _ => false
  | .csrwVlcap _ => true
  | .csrwBnd _ => true
  | .csrwVstart _ => false
  | .csrwCtxid _ => true
  | .tid _ => false
  | .tsz _ => false
  | .tdepth _ => false
  | .barl _ => false
  | .farmnext _ => false
  | .phase _ => false
  | .yield _ => false
  | .exit _ => false
  | .launch _ => false
  | .lwait _ => false
  | .setvl _ => false
  | .vadd _ => false
  | .vsub _ => false
  | .vmul _ => false
  | .vmulh _ => false
  | .vmin _ => false
  | .vmax _ => false
  | .vand _ => false
  | .vor _ => false
  | .vxor _ => false
  | .vshl _ => false
  | .vshr _ => false
  | .vsar _ => false
  | .vfma _ => false
  | .vfms _ => false
  | .vfnma _ => false
  | .vfnms _ => false
  | .vdiv _ => false
  | .vsqrt _ => false
  | .vabs _ => false
  | .vneg _ => false
  | .vclz _ => false
  | .vpopc _ => false
  | .vrcpe _ => false
  | .vrsqe _ => false
  | .vexp2 _ => false
  | .vlog2 _ => false
  | .vfloor _ => false
  | .vceil _ => false
  | .vrint _ => false
  | .vclass _ => false
  | .vcmpeq _ => false
  | .vcmpne _ => false
  | .vcmplt _ => false
  | .vcmple _ => false
  | .vcmpgt _ => false
  | .vcmpge _ => false
  | .vsel _ => false
  | .mand _ => false
  | .mor _ => false
  | .mxor _ => false
  | .mandn _ => false
  | .mnot _ => false
  | .mset _ => false
  | .mclr _ => false
  | .mmov _ => false
  | .mpop _ => false
  | .mfirst _ => false
  | .vbcast _ => false
  | .viota _ => false
  | .vtoq _ => false
  | .vtid _ => false
  | .vperm _ => false
  | .vslideDn _ => false
  | .vslideUp _ => false
  | .vcompr _ => false
  | .vexpnd _ => false
  | .vzipLo _ => false
  | .vzipHi _ => false
  | .vunzipEv _ => false
  | .vunzipOd _ => false
  | .vredSum _ => false
  | .vredMin _ => false
  | .vredMax _ => false
  | .vredAnd _ => false
  | .vredOr _ => false
  | .vredXor _ => false
  | .vscanSum _ => false
  | .vscanMin _ => false
  | .vscanMax _ => false
  | .vscanAnd _ => false
  | .vscanOr _ => false
  | .vscanXor _ => false
  | .vgredSum _ => false
  | .vgredMin _ => false
  | .vgredMax _ => false
  | .vgredOr _ => false
  | .vcvt _ => false
  | .vretag _ => false
  | .vfunr _ => false
  | .vfunl _ => false
  | .vext _ => false
  | .vextUniform _ => false
  | .vextS _ => false
  | .vextSUniform _ => false
  | .dual _ => false
  | .tseed _ => false
  | .tget _ => false
  | .tclr _ => false
  | .vld _ => false
  | .vldStr _ => false
  | .vld2d _ => false
  | .vst _ => false
  | .vstStr _ => false
  | .vst2d _ => false
  | .vldo _ => false
  | .vldoStr _ => false
  | .vldo2d _ => false
  | .vsto _ => false
  | .vstoStr _ => false
  | .vsto2d _ => false
  | .vldsc _ => false
  | .vldscStr _ => false
  | .vldsc2d _ => false
  | .vstsc _ => false
  | .vstscStr _ => false
  | .vstsc2d _ => false
  | .vstb _ => false
  | .sideLogReplay _ => false
  | .ldfe _ => false
  | .ldfeClr _ => false
  | .stfe _ => false
  | .vldfe _ => false
  | .vldfeClr _ => false
  | .spctest _ => false
  | .spccastTo _ => false
  | .spccastFrom _ => false
  | .prefL1 _ => false
  | .prefL2 _ => false
  | .clwb _ => false
  | .clinv _ => false
  | .atomAdd _ => false
  | .atomAnd _ => false
  | .atomOr _ => false
  | .atomXor _ => false
  | .atomMin _ => false
  | .atomMax _ => false
  | .atomMinu _ => false
  | .atomMaxu _ => false
  | .atomSwap _ => false
  | .atomFaddd _ => false
  | .atomFadds _ => false
  | .cas _ => false
  | .fenceAcq _ => false
  | .fenceRel _ => false
  | .fenceAcqrel _ => false
  | .fenceSc _ => false
  | .boinit _ => false
  | .boarrive _ => false
  | .bowait _ => false
  | .botest _ => false
  | .tkwait _ => false
  | .lnset _ => false
  | .cpy _ => false
  | .cpyrLoad _ => false
  | .cpyrStore _ => false
  | .cpyx _ => false
  | .copyComplete _ _ => false
  | .copyFail _ _ _ => false
  | .matt _ => false
  | .mdet _ => false
  | .mcfg _ => false
  | .mlds _ => false
  | .mswap _ => false
  | .mstrm _ => false
  | .matrixStep _ => false
  | .matrixClassAging _ _ => false
  | .macz _ => false
  | .macst _ => false
  | .macld _ => false
  | .xrun _ => false
  | .xmrg _ => false
  | .xsend _ => false
  | .xrecv _ => false
  | .switchEmit _ _ _ => false
  | .recordDelivery _ _ _ => false
  | .xopen _ => false
  | .xclose _ => false
  | .monarchCopy _ _ => false
  | .prefetchCopy _ _ _ => false
  | .xsplt _ => false
  | .xcomb _ => false
  | .xsamp _ => false
  | .xround _ => false
  | .xcapset _ => false
  | .xtopk _ => false
  | .xrtab _ => false
  | .xload _ => false
  | .xpft _ => false
  | .collReduce _ => false
  | .collAllred _ => false
  | .collGather _ => false
  | .collScatter _ => false
  | .collBcast _ => false
  | .stagingReservation _ => false
  | .collectiveComplete _ _ => false
  | .grpset _ => false
  | .cwait _ => false
  | .cld _ => false
  | .cst _ => false
  | .cscan _ => false
  | .cdense _ => false
  | .crinit _ => false
  | .gth _ => false
  | .sct _ => false
  | .sctadd _ => false
  | .hazelComplete _ _ => false
  | .vstc _ => false
  | .syscall _ => false
  | .brk _ => false
  | .uret _ => false
  | .eret _ => true
  | .halt _ => true
  | .wfi _ => true
  | .tlbinv _ => true
  | .vhtinv _ => true
  | .ctxsave _ => true
  | .ctxload _ => true
  | .sldrain _ => true
  | .launchQueueDoorbell _ _ _ => false
  | .teamPlacement _ _ => false
  | .deadlineExpiry _ => false
  | .preemptionTimeout _ => false
  | .teamSwapOut _ => false
  | .teamResume _ _ => false
  | .remoteAccess _ => false
  | .remoteAck _ => false
  | .engineUncorrectableError _ _ _ _ => false
  | .moduleReset _ => false
  | .attestationRequest _ _ => false
  | .contextCreate _ _ => false
  | .contextEndByHost _ _ => false
  | .epochWrite _ _ => false
  | .bar0RegisterWrite _ _ _ => false
  | .bar2Write _ _ _ => false
  | .bar2Read _ _ _ => false
  | .gtimeSync _ => false
  | .linkCrcReplay _ _ => false
  | .portRemoval _ _ => false
  | .dieIdleEntry _ _ => false
  | .dieIdleExit _ _ => false
  | .powerOff _ => false
  | .powerTrip _ => false
  | .plimWrite _ _ => false
  | .illegalInstruction _ => false
  | .instructionFetchFault _ _ => false
  | .remoteLoadReturn _ => false
  | .copyPerformed _ _ _ => false
  | .laneClusterRetirement _ _ => false

/-- What each instruction reads and writes (R23). VSCAN reads vd, from which a restart goes on (R160). -/
def uses (i : Instr) : Uses :=
  match i with
  | .add _ => {}
  | .sub _ => {}
  | .and _ => {}
  | .or _ => {}
  | .xor _ => {}
  | .andn _ => {}
  | .shl _ => {}
  | .shr _ => {}
  | .sar _ => {}
  | .rotr _ => {}
  | .min _ => {}
  | .max _ => {}
  | .minu _ => {}
  | .maxu _ => {}
  | .mul _ => {}
  | .mulh _ => {}
  | .mulhu _ => {}
  | .div _ => {}
  | .divu _ => {}
  | .rem _ => {}
  | .remu _ => {}
  | .clz _ => {}
  | .ctz _ => {}
  | .popc _ => {}
  | .cmpeq _ => {}
  | .cmpne _ => {}
  | .cmplt _ => {}
  | .cmpge _ => {}
  | .cmpltu _ => {}
  | .cmpgeu _ => {}
  | .sel _ => {}
  | .addi _ => {}
  | .andi _ => {}
  | .ori _ => {}
  | .xori _ => {}
  | .shli _ => {}
  | .shri _ => {}
  | .sari _ => {}
  | .lit _ => {}
  | .fadd _ => {}
  | .fsub _ => {}
  | .fmul _ => {}
  | .fdiv _ => {}
  | .fsqrt _ => {}
  | .fmin _ => {}
  | .fmax _ => {}
  | .fcmpeq _ => {}
  | .fcmplt _ => {}
  | .fcmple _ => {}
  | .fma _ => {}
  | .fcvti _ => {}
  | .fcvtf _ => {}
  | .fcvtds _ => {}
  | .fcvtsd _ => {}
  | .fabs _ => {}
  | .fneg _ => {}
  | .fclass _ => {}
  | .ld _ => {}
  | .ldh _ => {}
  | .ldw _ => {}
  | .ldd _ => {}
  | .ldbu _ => {}
  | .ldhu _ => {}
  | .ldwu _ => {}
  | .st _ => {}
  | .sth _ => {}
  | .stw _ => {}
  | .std _ => {}
  | .beq _ => {}
  | .bne _ => {}
  | .blt _ => {}
  | .bge _ => {}
  | .bltu _ => {}
  | .bgeu _ => {}
  | .jmp _ => {}
  | .call _ => {}
  | .jr _ => {}
  | .qpop _ => {}
  | .qpeek _ => {}
  | .qcnt _ => {}
  | .csrr _ => {}
  | .csrw _ => {}
  | .csrwCf _ => {}
  | .csrwVlcap _ => {}
  | .csrwBnd _ => {}
  | .csrwVstart _ => {}
  | .csrwCtxid _ => {}
  | .tid _ => {}
  | .tsz _ => {}
  | .tdepth _ => {}
  | .barl _ => {}
  | .farmnext _ => {}
  | .phase _ => {}
  | .yield _ => {}
  | .exit _ => {}
  | .launch _ => {}
  | .lwait _ => {}
  | .setvl _ => {}
  | .vadd o => { r := [o.a.toNat, o.b.toNat], w := [o.d.toNat], mr := mkUse o.m, dual := true }
  | .vsub o => { r := [o.a.toNat, o.b.toNat], w := [o.d.toNat], mr := mkUse o.m, dual := true }
  | .vmul o => { r := [o.a.toNat, o.b.toNat], w := [o.d.toNat], mr := mkUse o.m, dual := true }
  | .vmulh o => { r := [o.a.toNat, o.b.toNat], w := [o.d.toNat], mr := mkUse o.m, dual := true }
  | .vmin o => { r := [o.a.toNat, o.b.toNat], w := [o.d.toNat], mr := mkUse o.m, dual := true }
  | .vmax o => { r := [o.a.toNat, o.b.toNat], w := [o.d.toNat], mr := mkUse o.m, dual := true }
  | .vand o => { r := [o.a.toNat, o.b.toNat], w := [o.d.toNat], mr := mkUse o.m, dual := true }
  | .vor o => { r := [o.a.toNat, o.b.toNat], w := [o.d.toNat], mr := mkUse o.m, dual := true }
  | .vxor o => { r := [o.a.toNat, o.b.toNat], w := [o.d.toNat], mr := mkUse o.m, dual := true }
  | .vshl o => { r := [o.a.toNat, o.b.toNat], w := [o.d.toNat], mr := mkUse o.m, dual := true }
  | .vshr o => { r := [o.a.toNat, o.b.toNat], w := [o.d.toNat], mr := mkUse o.m, dual := true }
  | .vsar o => { r := [o.a.toNat, o.b.toNat], w := [o.d.toNat], mr := mkUse o.m, dual := true }
  | .vfma o => { r := [o.a.toNat, o.b.toNat, addend o.d o.x], w := [o.d.toNat], mr := mkUse o.m, dual := true }
  | .vfms o => { r := [o.a.toNat, o.b.toNat, addend o.d (some o.x)], w := [o.d.toNat], mr := mkUse o.m, dual := true }
  | .vfnma o => { r := [o.a.toNat, o.b.toNat, addend o.d (some o.x)], w := [o.d.toNat], mr := mkUse o.m, dual := true }
  | .vfnms o => { r := [o.a.toNat, o.b.toNat, addend o.d (some o.x)], w := [o.d.toNat], mr := mkUse o.m, dual := true }
  | .vdiv o => { r := [o.a.toNat, o.b.toNat], w := [o.d.toNat], mr := mkUse o.m, dual := true }
  | .vsqrt o => { r := [o.a.toNat], w := [o.d.toNat], mr := mkUse o.m, dual := true }
  | .vabs o => { r := [o.a.toNat], w := [o.d.toNat], mr := mkUse o.m, dual := true }
  | .vneg o => { r := [o.a.toNat], w := [o.d.toNat], mr := mkUse o.m, dual := true }
  | .vclz o => { r := [o.a.toNat], w := [o.d.toNat], mr := mkUse o.m, dual := true }
  | .vpopc o => { r := [o.a.toNat], w := [o.d.toNat], mr := mkUse o.m, dual := true }
  | .vrcpe o => { r := [o.a.toNat], w := [o.d.toNat], mr := mkUse o.m, dual := true }
  | .vrsqe o => { r := [o.a.toNat], w := [o.d.toNat], mr := mkUse o.m, dual := true }
  | .vexp2 o => { r := [o.a.toNat], w := [o.d.toNat], mr := mkUse o.m, dual := true }
  | .vlog2 o => { r := [o.a.toNat], w := [o.d.toNat], mr := mkUse o.m, dual := true }
  | .vfloor o => { r := [o.a.toNat], w := [o.d.toNat], mr := mkUse o.m, dual := true }
  | .vceil o => { r := [o.a.toNat], w := [o.d.toNat], mr := mkUse o.m, dual := true }
  | .vrint o => { r := [o.a.toNat], w := [o.d.toNat], mr := mkUse o.m, dual := true }
  | .vclass o => { r := [o.a.toNat], w := [o.d.toNat], mr := mkUse o.m, dual := true }
  | .vcmpeq o => { r := [o.a.toNat, o.b.toNat], mw := [o.n.toNat], mr := mkUse o.m }
  | .vcmpne o => { r := [o.a.toNat, o.b.toNat], mw := [o.n.toNat], mr := mkUse o.m }
  | .vcmplt o => { r := [o.a.toNat, o.b.toNat], mw := [o.n.toNat], mr := mkUse o.m }
  | .vcmple o => { r := [o.a.toNat, o.b.toNat], mw := [o.n.toNat], mr := mkUse o.m }
  | .vcmpgt o => { r := [o.a.toNat, o.b.toNat], mw := [o.n.toNat], mr := mkUse o.m }
  | .vcmpge o => { r := [o.a.toNat, o.b.toNat], mw := [o.n.toNat], mr := mkUse o.m }
  | .vsel o => { r := [o.a.toNat, o.b.toNat], w := [o.d.toNat], mr := mkUse o.m, dual := true }
  | .mand o => { mr := [o.a.toNat, o.b.toNat], mw := [o.n.toNat] }
  | .mor o => { mr := [o.a.toNat, o.b.toNat], mw := [o.n.toNat] }
  | .mxor o => { mr := [o.a.toNat, o.b.toNat], mw := [o.n.toNat] }
  | .mandn o => { mr := [o.a.toNat, o.b.toNat], mw := [o.n.toNat] }
  | .mnot o => { mr := [o.a.toNat], mw := [o.n.toNat] }
  | .mset o => { mr := [o.a.toNat, o.b.toNat], mw := [o.n.toNat] }
  | .mclr o => { mw := [o.n.toNat] }
  | .mmov o => { mr := [o.a.toNat], mw := [o.n.toNat] }
  | .mpop o => { mr := [o.a.toNat] }
  | .mfirst o => { mr := [o.a.toNat] }
  | .vbcast o => { w := [o.d.toNat], dual := true }
  | .viota o => { w := [o.d.toNat], mr := mkUse o.m, dual := true }
  | .vtoq o => { r := [o.a.toNat] }
  | .vtid o => { w := [o.d.toNat], mr := mkUse o.m, dual := true }
  | .vperm o => { r := [o.a.toNat, o.b.toNat], w := [o.d.toNat], mr := mkUse o.m, dual := true }
  | .vslideDn o => { r := [o.a.toNat], w := [o.d.toNat], mr := mkUse o.m, dual := true }
  | .vslideUp o => { r := [o.a.toNat], w := [o.d.toNat], mr := mkUse o.m, dual := true }
  | .vcompr o => { r := [o.a.toNat], w := [o.d.toNat], mr := mkUse o.m, dual := true }
  | .vexpnd o => { r := [o.a.toNat], w := [o.d.toNat], mr := mkUse o.m, dual := true }
  | .vzipLo o => { r := [o.a.toNat, o.b.toNat], w := [o.d.toNat], mr := mkUse o.m, dual := true }
  | .vzipHi o => { r := [o.a.toNat, o.b.toNat], w := [o.d.toNat], mr := mkUse o.m, dual := true }
  | .vunzipEv o => { r := [o.a.toNat, o.b.toNat], w := [o.d.toNat], mr := mkUse o.m, dual := true }
  | .vunzipOd o => { r := [o.a.toNat, o.b.toNat], w := [o.d.toNat], mr := mkUse o.m, dual := true }
  | .vredSum o => { r := [o.a.toNat], w := [o.d.toNat], mr := mkUse o.m, dual := true }
  | .vredMin o => { r := [o.a.toNat], w := [o.d.toNat], mr := mkUse o.m, dual := true }
  | .vredMax o => { r := [o.a.toNat], w := [o.d.toNat], mr := mkUse o.m, dual := true }
  | .vredAnd o => { r := [o.a.toNat], w := [o.d.toNat], mr := mkUse o.m, dual := true }
  | .vredOr o => { r := [o.a.toNat], w := [o.d.toNat], mr := mkUse o.m, dual := true }
  | .vredXor o => { r := [o.a.toNat], w := [o.d.toNat], mr := mkUse o.m, dual := true }
  | .vscanSum o => { r := [o.a.toNat, o.d.toNat], w := [o.d.toNat], mr := mkUse o.m, dual := true }
  | .vscanMin o => { r := [o.a.toNat, o.d.toNat], w := [o.d.toNat], mr := mkUse o.m, dual := true }
  | .vscanMax o => { r := [o.a.toNat, o.d.toNat], w := [o.d.toNat], mr := mkUse o.m, dual := true }
  | .vscanAnd o => { r := [o.a.toNat, o.d.toNat], w := [o.d.toNat], mr := mkUse o.m, dual := true }
  | .vscanOr o => { r := [o.a.toNat, o.d.toNat], w := [o.d.toNat], mr := mkUse o.m, dual := true }
  | .vscanXor o => { r := [o.a.toNat, o.d.toNat], w := [o.d.toNat], mr := mkUse o.m, dual := true }
  | .vgredSum o => { r := [o.a.toNat], w := [o.d.toNat], mr := mkUse o.m, dual := true }
  | .vgredMin o => { r := [o.a.toNat], w := [o.d.toNat], mr := mkUse o.m, dual := true }
  | .vgredMax o => { r := [o.a.toNat], w := [o.d.toNat], mr := mkUse o.m, dual := true }
  | .vgredOr o => { r := [o.a.toNat], w := [o.d.toNat], mr := mkUse o.m, dual := true }
  | .vcvt o => { r := [o.a.toNat], w := [o.d.toNat], mr := mkUse o.m, dual := true }
  | .vretag o => { r := [o.a.toNat], w := [o.d.toNat], mr := mkUse o.m, dual := true }
  | .vfunr o => { r := [o.a.toNat, o.b.toNat, o.x.vs3.toNat], w := [o.d.toNat], mr := mkUse o.m, dual := true }
  | .vfunl o => { r := [o.a.toNat, o.b.toNat, o.x.vs3.toNat], w := [o.d.toNat], mr := mkUse o.m, dual := true }
  | .vext o => { r := [o.a.toNat, o.b.toNat], w := [o.d.toNat], mr := mkUse o.m, dual := true }
  | .vextUniform o => { r := [o.a.toNat], w := [o.d.toNat], mr := mkUse o.m, dual := true }
  | .vextS o => { r := [o.a.toNat, o.b.toNat], w := [o.d.toNat], mr := mkUse o.m, dual := true }
  | .vextSUniform o => { r := [o.a.toNat], w := [o.d.toNat], mr := mkUse o.m, dual := true }
  | .dual _ => {}
  | .tseed o => { r := [o.a.toNat], pw := [64 * o.k.toNat + o.d.toNat], mr := mkUse o.m }
  | .tget o => { pr := [64 * o.k.toNat + o.a.toNat], w := [o.d.toNat], dual := true, mr := mkUse o.m }
  | .tclr o => { pw := (if o.k = 0 then [1, 2, 3, 4] else [o.k.toNat]).map (fun k => 64 * k + o.d.toNat), mr := mkUse o.m }
  | .vld o => { w := [o.d.toNat], mr := mkUse o.m, dual := true }
  | .vldStr o => { w := [o.d.toNat], mr := mkUse o.m, dual := true }
  | .vld2d o => { w := [o.d.toNat], mr := mkUse o.m, dual := true }
  | .vst o => { r := [o.d.toNat], mr := mkUse o.m, dual := true }
  | .vstStr o => { r := [o.d.toNat], mr := mkUse o.m, dual := true }
  | .vst2d o => { r := [o.d.toNat], mr := mkUse o.m, dual := true }
  | .vldo o => { w := [o.d.toNat], mr := mkUse o.m, dual := true }
  | .vldoStr o => { w := [o.d.toNat], mr := mkUse o.m, dual := true }
  | .vldo2d o => { w := [o.d.toNat], mr := mkUse o.m, dual := true }
  | .vsto o => { r := [o.d.toNat], mr := mkUse o.m, dual := true }
  | .vstoStr o => { r := [o.d.toNat], mr := mkUse o.m, dual := true }
  | .vsto2d o => { r := [o.d.toNat], mr := mkUse o.m, dual := true }
  | .vldsc o => { w := [o.d.toNat], mr := mkUse o.m, dual := true }
  | .vldscStr o => { w := [o.d.toNat], mr := mkUse o.m, dual := true }
  | .vldsc2d o => { w := [o.d.toNat], mr := mkUse o.m, dual := true }
  | .vstsc o => { r := [o.d.toNat], mr := mkUse o.m, dual := true }
  | .vstscStr o => { r := [o.d.toNat], mr := mkUse o.m, dual := true }
  | .vstsc2d o => { r := [o.d.toNat], mr := mkUse o.m, dual := true }
  | .vstb o => { r := [o.d.toNat], mr := mkUse o.m, dual := true }
  | .sideLogReplay _ => {}
  | .ldfe _ => {}
  | .ldfeClr _ => {}
  | .stfe _ => {}
  | .vldfe o => { w := [o.d.toNat], mr := mkUse o.m, dual := true }
  | .vldfeClr o => { w := [o.d.toNat], mr := mkUse o.m, dual := true }
  | .spctest _ => {}
  | .spccastTo _ => {}
  | .spccastFrom _ => {}
  | .prefL1 _ => {}
  | .prefL2 _ => {}
  | .clwb _ => {}
  | .clinv _ => {}
  | .atomAdd _ => {}
  | .atomAnd _ => {}
  | .atomOr _ => {}
  | .atomXor _ => {}
  | .atomMin _ => {}
  | .atomMax _ => {}
  | .atomMinu _ => {}
  | .atomMaxu _ => {}
  | .atomSwap _ => {}
  | .atomFaddd _ => {}
  | .atomFadds _ => {}
  | .cas _ => {}
  | .fenceAcq _ => {}
  | .fenceRel _ => {}
  | .fenceAcqrel _ => {}
  | .fenceSc _ => {}
  | .boinit _ => {}
  | .boarrive _ => {}
  | .bowait _ => {}
  | .botest _ => {}
  | .tkwait _ => {}
  | .lnset _ => {}
  | .cpy _ => {}
  | .cpyrLoad o => { w := regRun o.d.toNat (o.x.imm32.toNat % 16) }
  | .cpyrStore o => { r := regRun o.d.toNat (o.x.imm32.toNat % 16) }
  | .cpyx o => { r := regRun o.d.toNat (o.x.imm32.toNat % 16) }
  | .copyComplete _ _ => {}
  | .copyFail _ _ _ => {}
  | .matt _ => {}
  | .mdet _ => {}
  | .mcfg _ => {}
  | .mlds _ => {}
  | .mswap _ => {}
  | .mstrm _ => {}
  | .matrixStep _ => {}
  | .matrixClassAging _ _ => {}
  | .macz _ => {}
  | .macst _ => {}
  | .macld _ => {}
  | .xrun _ => {}
  | .xmrg _ => {}
  | .xsend _ => {}
  | .xrecv _ => {}
  | .switchEmit _ _ _ => {}
  | .recordDelivery _ _ _ => {}
  | .xopen _ => {}
  | .xclose _ => {}
  | .monarchCopy _ _ => {}
  | .prefetchCopy _ _ _ => {}
  | .xsplt _ => {}
  | .xcomb _ => {}
  | .xsamp _ => {}
  | .xround _ => {}
  | .xcapset _ => {}
  | .xtopk o => { w := regRun o.d.toNat 2, mr := mkUse o.m }
  | .xrtab _ => {}
  | .xload _ => {}
  | .xpft _ => {}
  | .collReduce o => { r := [o.a.toNat], w := [o.d.toNat], mr := mkUse o.m, dual := true }
  | .collAllred o => { r := [o.a.toNat], w := [o.d.toNat], mr := mkUse o.m, dual := true }
  | .collGather o => { r := [o.a.toNat], w := [o.d.toNat], mr := mkUse o.m, dual := true }
  | .collScatter o => { r := [o.a.toNat], w := [o.d.toNat], mr := mkUse o.m, dual := true }
  | .collBcast o => { r := [o.a.toNat], w := [o.d.toNat], mr := mkUse o.m, dual := true }
  | .stagingReservation _ => {}
  | .collectiveComplete _ _ => {}
  | .grpset _ => {}
  | .cwait _ => {}
  | .cld _ => {}
  | .cst _ => {}
  | .cscan _ => {}
  | .cdense _ => {}
  | .crinit _ => {}
  | .gth _ => {}
  | .sct _ => {}
  | .sctadd _ => {}
  | .hazelComplete _ _ => {}
  | .vstc o => { r := [o.d.toNat], mr := mkUse o.m, dual := true }
  | .syscall _ => {}
  | .brk _ => {}
  | .uret _ => {}
  | .eret _ => {}
  | .halt _ => {}
  | .wfi _ => {}
  | .tlbinv _ => {}
  | .vhtinv _ => {}
  | .ctxsave _ => {}
  | .ctxload _ => {}
  | .sldrain _ => {}
  | .launchQueueDoorbell _ _ _ => {}
  | .teamPlacement _ _ => {}
  | .deadlineExpiry _ => {}
  | .preemptionTimeout _ => {}
  | .teamSwapOut _ => {}
  | .teamResume _ _ => {}
  | .remoteAccess _ => {}
  | .remoteAck _ => {}
  | .engineUncorrectableError _ _ _ _ => {}
  | .moduleReset _ => {}
  | .attestationRequest _ _ => {}
  | .contextCreate _ _ => {}
  | .contextEndByHost _ _ => {}
  | .epochWrite _ _ => {}
  | .bar0RegisterWrite _ _ _ => {}
  | .bar2Write _ _ _ => {}
  | .bar2Read _ _ _ => {}
  | .gtimeSync _ => {}
  | .linkCrcReplay _ _ => {}
  | .portRemoval _ _ => {}
  | .dieIdleEntry _ _ => {}
  | .dieIdleExit _ _ => {}
  | .powerOff _ => {}
  | .powerTrip _ => {}
  | .plimWrite _ _ => {}
  | .illegalInstruction _ => {}
  | .instructionFetchFault _ _ => {}
  | .remoteLoadReturn _ => {}
  | .copyPerformed _ _ _ => {}
  | .laneClusterRetirement _ _ => {}

/-- Registers and planes 1 .. n of a list of registers, planes as 64*k + register. -/
def withPlanes (n : Nat) (l : List Nat) : List Nat := l ++ (span 1 n).flatMap (fun k => l.map (fun v => 64 * k + v))

/-- Everything read and everything written with `n` planes in force, masks as 1000 + number (R23). -/
def readSet (n : Nat) (u : Uses) : List Nat :=
  (if u.dual then withPlanes n u.r else u.r) ++ u.pr ++ u.mr.map (· + 1000)
def writeSet (n : Nat) (u : Uses) : List Nat :=
  (if u.dual then withPlanes n u.w else u.w) ++ u.pw ++ u.mw.map (· + 1000)

/-- A word 0 that begins an instruction of the vector stream (R25): majors 0x21-0x56, 0x58, 0x64-0x7C, but for XROUND
and CRINIT, which run in the control stream. -/
def isVectorWord (w : Nat) : Bool :=
  let m := bitsOf w 28 22
  let fn := w % 128
  decide (0x21 ≤ m ∧ m ≤ 0x7C) && m != 0x57 && !(decide (0x59 ≤ m ∧ m ≤ 0x63)) && m != 0x4C &&
    !(m == 0x74 && fn == 5) && !(m == 0x7A && fn == 4)

/-- A word 0 of a control-stream instruction or of DUAL, as R25 forbids after a DUAL word. -/
def barsDual (w : Nat) : Bool :=
  let m := bitsOf w 28 22
  let fn := w % 128
  (decide (1 ≤ m ∧ m ≤ 0x20) && m != 0x16 && m != 0x17 && m != 0x1B && !(decide (0x1D ≤ m ∧ m ≤ 0x1F))) ||
    m == 0x4C || m == 0x57 || decide (0x59 ≤ m ∧ m ≤ 0x63) || m == 0x7D || m == 0x7E ||
    (m == 0x74 && fn == 5) || (m == 0x7A && fn == 4)

end Sys2Proof.Machine
end

