-- ==== Sys2Proof/Machine/Convoy.lean ====
section
/-!
DEFINITION. A convoy as one unit (R128-R130): its members run one after another over their elements; when one stops at
an element, the convoy runs again from the start with that element as its limit, so that every member has done exactly
the elements below it.
-/
namespace Sys2Proof.Machine

/-- The reductions VRED. -/
def isRed (i : Instr) : Bool :=
  match i with
  | .vredSum _ | .vredMin _ | .vredMax _ | .vredAnd _ | .vredOr _ | .vredXor _ => true
  | _ => false

/-- VLDSC and VSTSC in their forms. -/
def isScMember (i : Instr) : Bool :=
  match i with
  | .vldsc _ | .vldscStr _ | .vldsc2d _ | .vstsc _ | .vstscStr _ | .vstsc2d _ => true
  | _ => false

/-- A member of a convoy, acting on a state whose `cv` is set. -/
abbrev Member := State → State

def stopOf (s : State) : Option Stop := match s.cv with | none => none | some c => c.stop

/-- The convoy stops, unless it has stopped already. -/
def stopWith (st : Stop) (s : State) : State :=
  match s.cv with
  | none => s
  | some c => match c.stop with
    | none => { s with cv := some { c with stop := some st } }
    | some _ => s

/-- One pass over the members, up to the first stop. -/
def passOver : List Member → State → State
  | [], s => s
  | f :: r, s =>
    let t := f s
    match t.cv with
    | none => t
    | some c => match c.stop with
      | some _ => t
      | none => passOver r { t with cv := some { c with idx := c.idx + 1 } }

/-- The limit after a stop at element `e`: a later member that begins only after all earlier ones are through has
completed no element (R129, R152, R183). -/
def limitAt (whole : List Bool) (s t : State) (e : Nat) : Nat :=
  match t.cv with
  | none => e
  | some c => if (whole.drop (c.idx + 1)).any id then s.me.csr.vstart else e

/-- Passes with falling limits, until one goes through; the last stop is the reason. -/
def settle (fs : List Member) (whole : List Bool) (s : State) :
    Nat → Option Nat → Tab Hart → Option Stop → State × Option Stop
  | 0, _, _, why => (s, why)
  | n + 1, lim, seen, why =>
    let t := passOver fs { s with cv := some { lim := lim, seen := seen, why := why } }
    let seen' := (t.cv.getD {}).seen
    match stopOf t with
    | none => (t, why)
    | some (.whole c v) => (s, some (.whole c v))
    | some (.wait ks w) => (s, some (.wait ks w))
    | some (.atElem e c v) =>
      let l := limitAt whole s t e
      settle fs whole s n (some l) seen' (some (.atElem l c v))
    | some (.waitAt e k r) =>
      let l := limitAt whole s t e
      settle fs whole s n (some l) seen' (some (.waitAt l k r))

/-- Queue `q` has room for the pushes of a convoy (R112). -/
def hasRoom (h : Hart) (ps : List (Nat × W64)) : Bool :=
  (span 0 4).all (fun q =>
    let n := (ps.filter (fun p => p.1 == q)).length
    n == 0 || decide ((h.queue q).length + n ≤ 16))

/-- Queue entries pushed. -/
def Hart.pushed (h : Hart) (ps : List (Nat × W64)) : Hart := ps.foldl (fun h p => h.setQueue p.1 (h.queue p.1 ++ [p.2])) h

/-- The hart without the partial tangents of the convoy at its pc. -/
def Hart.unchained (h : Hart) : Hart := { h with chains := h.chains.filter (fun c => c.pc != h.pc) }

/-- The convoy of `len` bytes completes: masks and pushes take effect, VSTART is 0, and nothing of it is left to continue
(R72, R107, R129). -/
def completeConvoy (len : Nat) (t : State) : State :=
  let c := t.cv.getD {}
  let h := t.me
  let h1 := c.cmasks.foldl (fun h p => h.setMask p.1 p.2) h
  let h2 := h1.pushed c.pushes
  { t with cv := none }.setMe
    ({ h2.unchained with csr := { h2.csr with vstart := 0 } }.done len)

/-- The convoy stops with every member done below `e` (R129). -/
def stopAt (e : Nat) (t : State) : State :=
  { t with cv := none }.setMe { t.me with csr := { t.me.csr with vstart := e } }

/-- What becomes of a convoy that started in `s` and settled. -/
def finishConvoy (len : Nat) (s : State) (r : State × Option Stop) : State :=
  match r.2 with
  | none =>
    if hasRoom r.1.me (r.1.cv.getD {}).pushes then completeConvoy len r.1 else s.hold wQueue
  | some (.whole c v) => raise c v s
  | some (.wait ks w) => let t := ks.foldl pin s; (t.setMe { t.me with remote := [], await := some w }).hold wFull
  | some (.atElem e c v) => raise c v (stopAt e r.1)
  | some (.waitAt e kind req) =>
    let t := stopAt e r.1
    let t1 := t.setMe { t.me with wait := none }
    match req with
    | none => t1.hold kind
    | some (k, op) => ask t1 k op

/-- The kind of a collective writes vd at a member: REDUCE 0, ALLRED 1, GATHER 2, SCATTER 3, BCAST 4 (R324). -/
def collWrites (m : CMember) : Bool :=
  match m.kind with | 0 => m.rank == m.root | 2 => m.rank == m.root | _ => true

/-- A token of the hart of member `mid` still brings in 64-byte group `j` of register `r`: a CPYR's, or a CPYX's to the
hart itself (R226). -/
def Token.bringing (mid : Nat) (t : Token) (r j : Nat) : Bool :=
  t.pending && (match t.work with
    | some (.regIn v c _) => decide (v ≤ r ∧ r < v + c) && !t.done.contains (16 * (r - v) + j)
    | some (.regOut _ _ _ _) => false
    | some (.regX v c m _) => m == some mid && decide (v ≤ r ∧ r < v + c) && !t.done.contains (16 * (r - v) + j)
    | some (.bytes _ _ _ _) => false
    | some (.gather _ _) => false
    | none => false)

/-- The hart still waits for a group that holds one of the bytes `lo … hi - 1` of register `r`. -/
def Hart.lacks (h : Hart) (r lo hi : Nat) : Bool :=
  (range (lo / 64) ((hi + 63) / 64)).any (fun j => h.tokens.any (fun p => p.2.bringing h.mid r j))

/-- Bytes of register `r` before the first group that is still to come. -/
def Hart.arrived (h : Hart) (r : Nat) : Nat :=
  match (span 0 16).find? (fun j => h.tokens.any (fun p => p.2.bringing h.mid r j)) with
  | none => 1024
  | some j => 64 * j

/-- A collective of the hart is still to write one of the registers, or to read it, its planes with it (R328). -/
def collHolds (s : State) (rs : List Nat) : Bool :=
  let h := s.me
  s.colls.any (fun c => c.2.members.any (fun m =>
    m.launch == h.launch && m.mid == h.mid && !h.system &&
      ((!m.written && collWrites m && rs.contains m.vd) || (m.due && rs.contains m.vs1))))

/-- The first `n` bytes of a register hold a group that CPYR is still bringing in, or a collective of the hart holds one of
the registers (R226, R328). -/
def interlocked (s : State) (n : Nat) (rs : List Nat) : Bool := rs.any (fun r => s.me.lacks r 0 n) || collHolds s rs

/-- The vector registers an instruction names, and those whose planes it names (R23). -/
def regsOf (i : Instr) : List Nat := (uses i).r ++ (uses i).w
def planeRegsOf (i : Instr) : List Nat := ((uses i).pr ++ (uses i).pw).map (· % 64)

/-- The whole-vector members of R152. -/
def isWhole (i : Instr) : Bool :=
  match i with
  | .vperm _ | .vslideDn _ | .vslideUp _ | .vcompr _ | .vexpnd _ | .vzipLo _ | .vzipHi _ | .vunzipEv _ | .vunzipOd _
  | .vredSum _ | .vredMin _ | .vredMax _ | .vredAnd _ | .vredOr _ | .vredXor _
  | .vscanSum _ | .vscanMin _ | .vscanMax _ | .vscanAnd _ | .vscanOr _ | .vscanXor _
  | .vgredSum _ | .vgredMin _ | .vgredMax _ | .vgredOr _ => true
  | _ => false

/-- Register bytes `(r, lo, hi)` that a member needs together: whole registers, the element of VTOQ, the bytes of VSTB
(R149, R152, R184, R186). -/
def wholeNeed (s : State) (i : Instr) : List (Nat × Nat × Nat) :=
  let h := s.me
  match i with
  | .vtoq o =>
    let t := h.tag o.a.toNat
    let w := if isGx t then 64 else fmtBits t
    let k := (h.reg o.b).toNat
    if 8192 / w ≤ k then [] else [(o.a.toNat, w * k / 8, (w * k + w + 7) / 8)]
  | .vstb o => [(o.d.toNat, 0, min 1024 (h.csr.vl * (if isGx h.cf then 8 * gxLanes h.cf else fmtBytes h.cf)))]
  | .vldfe _ | .vldfeClr _ => (regsOf i).map (fun r => (r, 0, 1024))
  | i => if isWhole i then (regsOf i).map (fun r => (r, 0, 1024)) else []

/-- Bytes of register `r` that one unit of an element loop takes: an element, or a group of GX, at the widest of its
formats. -/
def unitSpan (s : State) (i : Instr) (r : Nat) : Nat :=
  let h := s.me
  let fs := [faOf (instrExt i) h, fdOf (instrExt i) h] ++ (if (uses i).r.contains r then [h.tag r] else [])
  if fs.any isGx then (fs.map (fun f => if isGx f then 8 * gxLanes f else 32 * fmtBytes f)).foldl max 1
  else (fs.map fmtBytes).foldl max 1

/-- Leading units of a member's element loop whose groups are all there (R226). -/
def unitsHere (s : State) (i : Instr) : Nat :=
  let short := (regsOf i).filter (fun r => decide (s.me.arrived r < 1024))
  if (wholeNeed s i).isEmpty then (short.map (fun r => s.me.arrived r / unitSpan s i r)).foldl min 1024 else 1024

/-- What convoy members read or write as a whole is not all there. -/
def waitsWhole (s : State) (is : List Instr) : Bool :=
  collHolds s (is.flatMap (fun i => regsOf i ++ planeRegsOf i)) ||
    is.any (fun i => (wholeNeed s i).any (fun p => s.me.lacks p.1 p.2.1 p.2.2))

/-- Leading units that every member has its groups for. -/
def unitsReady (s : State) (is : List Instr) : Nat := (is.map (unitsHere s)).foldl min 1024

/-- No interlock holds back a convoy of these members (R226, R328). -/
def regsHere (s : State) (is : List Instr) : Bool :=
  !waitsWhole s is && decide (s.me.csr.vl ≤ unitsReady s is ∨ s.me.csr.vl ≤ s.me.csr.vstart)

/-- A convoy of members: tokens, interlocks, then the members as one unit, over the units whose groups are there. -/
def runConvoy (fs : List Member) (whole : List Bool) (is : List Instr) (len wtk : Nat) (s : State) : State :=
  match gate wtk s with
  | .error t => t
  | .ok s =>
    if regsHere s is then finishConvoy len s (settle fs whole s (2 * fs.length) none [] none)
    else
      let e := unitsReady s is
      if waitsWhole s is || whole.any id || decide (e ≤ s.me.csr.vstart) then s.hold wStore
      else
        let why := Stop.waitAt e wStore none
        finishConvoy len s (settle fs whole s (2 * fs.length) (some e) [] (some why))

/-- A chainable instruction: a member inside a convoy, or a convoy of its own. -/
def vec (i : Instr) (f : Member) (s : State) : Out :=
  match s.cv with
  | some _ => .next (f s)
  | none => .next (runConvoy [f] [false] [i] (instrLen i) (instrWtk i) s)

/-- The executing hart with the results of MASK members among its masks (R129). -/
def sighted (s : State) (c : Convoy) : Hart := c.cmasks.foldl (fun h p => h.setMask p.1 p.2) s.me

/-- A whole-vector member: `f` gets the hart whose sources and masks it reads, every earlier member having produced them
in full. -/
def wholeMember (f : Hart → Member) : Member := fun s =>
  match s.cv with
  | none => f s.me s
  | some c => match c.seen.find c.idx with
    | some h => f h s
    | none => f (sighted s c) { s with cv := some { c with seen := c.seen.put c.idx (sighted s c) } }

/-- The same stop at another element. -/
def Stop.at_ (l : Nat) (st : Stop) : Stop :=
  match st with
  | .whole c v => .whole c v
  | .atElem _ c v => .atElem l c v
  | .wait ks w => .wait ks w
  | .waitAt _ k r => .waitAt l k r

/-- A member whose unit `u` reads more than element `u` of its sources: of the units below a limit `e`, `ready s e` have
all they read. When earlier members stopped at `e`, the convoy stops at the first unit that lacks something (R128, R129);
later passes read what the member found. -/
def scaledMember (ready : State → Nat → Nat) (f : Hart → Member) : Member := fun s =>
  match s.cv with
  | none => f s.me s
  | some c => match c.seen.find c.idx with
    | some h => f h s
    | none =>
      let s1 : State := { s with cv := some { c with seen := c.seen.put c.idx (sighted s c) } }
      match c.lim, c.why with
      | some e, some w =>
        let l := max s.me.csr.vstart (min e (ready s e))
        if l < e then stopWith (w.at_ l) s1 else f (sighted s c) s1
      | _, _ => f (sighted s c) s1

/-- Register `r` (mask m as 64 + m) is one that an earlier member of the convoy writes. -/
def madeHere (s : State) (r : Nat) : Bool := match s.cv with | none => false | some c => c.made.contains r

/-- Bytes of a unit: an element, or a group of GX. -/
def unitBytes (f : Fmt) : Nat := if isGx f then 8 * gxLanes f else fmtBytes f

/-- Units, `n` for each run of `w` bytes of register `r`, that have all they read when `e` units of the register's own
format are there. -/
def bytesReady (s : State) (r n w e : Nat) : Nat :=
  if madeHere s r then n * (e * unitBytes (s.me.tag r) / w) else e

/-- As `bytesReady`, for a source read in format `f` under R70 and R71. -/
def sourceReady (s : State) (f : Fmt) (r e : Nat) : Nat :=
  if madeHere s r && isGx f && !isGx (s.me.tag r) then e / 32 else e

/-- Units of format `f` whose mask bits are there when bits below `e` are (R67). -/
def maskReady (s : State) (f : Fmt) (m : BitVec 4) (e : Nat) : Nat :=
  if isGx f && m != 15 && madeHere s (64 + m.toNat) then ceilDiv e (gxLanes f) else e

/-- Unit `i` of format `f` is selected by the masks of hart `g` (R27, R67). -/
def pickedBy (g : Hart) (f : Fmt) (m : BitVec 4) (i : Nat) : Bool :=
  m == 15 || maskBit (g.mask m.toNat) (if isGx f then gxLanes f * i else i)

/-- The active units of a member that reads the masks of `g` (R72, R67). -/
def activesBy (g : Hart) (f : Fmt) (s : State) (m : BitVec 4) : List Nat :=
  (elemsUpTo s s.me.csr.vl).filter (pickedBy g f m)

/-- A vector-stream instruction that does not chain, with registers `rs`. -/
def aloneOf (wtk : Nat) (rs : List Nat) (s : State) (k : State → State) : Out :=
  gated wtk s (fun s => if interlocked s 1024 rs then s.hold wStore else k s)

def vecAlone (i : Instr) (s : State) (k : State → State) : Out :=
  aloneOf (instrWtk i) (regsOf i) s k

/-- A member whose formats are checked first (R70, R135). -/
def checked (k : Kind) (fa fd : Fmt) (first : Nat) (rs : List Nat) (f : Member) : Member := fun s =>
  match formatTrap k fa fd s.me first rs with
  | some r => stopWith (.whole 0x03 (BitVec.ofNat 64 r)) s
  | none => f s

/-- Writes the elements of a member: primal, planes, tag, flags (R69, R131, R237). `tan k e r` is plane k's element
where the primal result is `r`. -/
def writeElems (d : Nat) (fd : Fmt) (acts : List Nat) (res : Nat → Nat × Flags) (tan : Nat → Nat → Nat → Nat)
    (s : State) : State :=
  let h := s.me
  let rs := acts.map (fun e => (e, res e))
  let h1 := h.vset d (putElems (h.vget d) (fmtBits fd) (rs.map (fun p => (p.1, p.2.1))))
  let h2 := mapPlanes h.planesInForce h1 (fun k g =>
    g.setPlane d k (putElems (g.plane d k) (fmtBits fd) (rs.map (fun p => (p.1, tan k p.1 p.2.1)))))
  s.setMe ((h2.setTag d fd).orFlags (allFlags (rs.map Prod.snd)))

/-- Writes the block groups of a member. -/
def writeGroups (d : Nat) (fd : Fmt) (acts : List Nat) (res : Nat → Nat × Flags) (tan : Nat → Nat → Nat)
    (s : State) : State :=
  let h := s.me
  let rs := acts.map (fun b => (b, res b))
  let h1 := h.vset d (putGroups fd (h.vget d) (rs.map (fun p => (p.1, p.2.1))))
  let h2 := mapPlanes h.planesInForce h1 (fun k g =>
    g.setPlane d k (putGroups fd (g.plane d k) (rs.map (fun p => (p.1, tan k p.1)))))
  s.setMe ((h2.setTag d fd).orFlags (allFlags (rs.map Prod.snd)))

/-- +0 in every plane. -/
def zeroTan (_k _e _r : Nat) : Nat := 0

end Sys2Proof.Machine
end

