-- ==== Sys2Proof/Machine/Trans.lean ====
section
/-!
DEFINITION. 2^x and log2 x correctly rounded (R142), and the products and quotients with ln 2 of their tangents (R238):
each is enclosed between two dyadics of growing precision until both round to the same bits and flags.
-/
namespace Sys2Proof.Machine

/-- An interval of naturals at scale 2^P. -/
abbrev Ival := Nat × Nat

def ivMul (p : Nat) (a b : Ival) : Ival := ((a.1 * b.1) >>> p, (a.2 * b.2) >>> p + 1)
def ivDiv (a : Ival) (k : Nat) : Ival := (a.1 / k, a.2 / k + 1)
def ivAdd (a b : Ival) : Ival := (a.1 + b.1, a.2 + b.2)

/-- ln 2 = Σ 1 / (k 2^k) at scale 2^P. -/
def ln2Sum (p : Nat) : Nat → Nat → Ival → Ival
  | 0, _, acc => (acc.1, acc.2 + 1)
  | n + 1, k, acc => ln2Sum p n (k + 1) (ivAdd acc (2 ^ p / (k * 2 ^ k), 2 ^ p / (k * 2 ^ k) + 1))

def ln2 (p : Nat) : Ival := ln2Sum p (p + 2) 1 (0, 0)

/-- Σ t^k / k! from term `k`, the term so far given; t below 1. -/
def expSum (p : Nat) (t : Ival) : Nat → Nat → Ival → Ival → Ival
  | 0, _, term, acc => (acc.1, acc.2 + 2 * term.2 + 2)
  | n + 1, k, term, acc =>
    let nt := ivDiv (ivMul p term t) k
    expSum p t n (k + 1) nt (ivAdd acc nt)

/-- 2^f for the fraction f = m / 2^j below 1, at scale 2^P. -/
def exp2Frac (p m j : Nat) : Ival :=
  let l := ln2 p
  let t : Ival := ((m * l.1) >>> j, (m * l.2) >>> j + 1)
  expSum p t (p / 3 + 20) 1 (2 ^ p, 2 ^ p) (2 ^ p, 2 ^ p)

/-- 2 Σ z^(2i+1) / (2i+1). -/
def atanhSum (p : Nat) (z2 : Ival) : Nat → Nat → Ival → Ival → Ival
  | 0, _, pw, acc => (2 * acc.1, 2 * (acc.2 + 2 * pw.2 + 2))
  | n + 1, k, pw, acc =>
    atanhSum p z2 n (k + 2) (ivMul p pw z2) (ivAdd acc (ivDiv pw k))

/-- log2 of m / 2^(log2 m), in [0, 1), at scale 2^P. -/
def log2Frac (p m : Nat) : Ival :=
  let u := 2 ^ Nat.log2 m
  let z : Ival := ((m - u) * 2 ^ p / (m + u), (m - u) * 2 ^ p / (m + u) + 1)
  let v := atanhSum p (ivMul p z z) (p / 3 + 12) 1 z (0, 0)
  let l := ln2 p
  (v.1 * 2 ^ p / l.2, v.2 * 2 ^ p / l.1 + 1)

/-- The precisions tried. -/
def precisions : List Nat := [128, 192, 320, 640, 1280, 2600, 5200]

/-- Rounds a value known by its enclosures. -/
def enclosed (f : Fmt) (rm : Nat) (sate4 : Bool) (iv : Nat → Num × Num) : List Nat → Nat × Flags
  | [] => roundTo f rm sate4 (iv 5200).1
  | p :: r =>
    let e := iv p
    let a := roundTo f rm sate4 e.1
    if a = roundTo f rm sate4 e.2 then a else enclosed f rm sate4 iv r

/-- A signed integer at exponent `e` as an exact value. -/
def numAtScale (x : Int) (e : Int) : Num := .fin (decide (x < 0)) x.natAbs e

/-- RoundTo(2^x) (R142). -/
def exp2To (f : Fmt) (rm : Nat) (sate4 : Bool) (x : Num) : Nat × Flags :=
  match x with
  | .nan _ g _ => packVal f rm sate4 ⟨x.quiet, if g then fNV else 0⟩
  | .inf s => if s then roundTo f rm sate4 Num.zero else roundTo f rm sate4 (.inf false)
  | .fin s m e =>
    if m = 0 then roundTo f rm sate4 (.fin false 1 0)
    else
      let top : Int := (Nat.log2 m : Int) + e
      if 14 ≤ top then roundTo f rm sate4 (.fin false 3 (if s then -20000 else 20000))
      else if top < -100 then
        roundTo f rm sate4 (.fin false (if s then 2 ^ 200 - 1 else 2 ^ 200 + 1) (-200))
      else if 0 ≤ e then roundTo f rm sate4 (.fin false 1 (sInt s (m <<< e.toNat)))
      else
        let j := (-e).toNat
        let v := sInt s m
        let n : Int := v / ((2 ^ j : Nat) : Int)
        let fr := (v - n * ((2 ^ j : Nat) : Int)).toNat
        if fr = 0 then roundTo f rm sate4 (.fin false 1 n)
        else
          enclosed f rm sate4 (fun p =>
            let w := exp2Frac p fr j
            (.fin false w.1 (n - p), .fin false w.2 (n - p))) precisions

/-- RoundTo(log2 x) (R142). -/
def log2To (f : Fmt) (rm : Nat) (sate4 : Bool) (x : Num) : Nat × Flags :=
  match x with
  | .nan _ g _ => packVal f rm sate4 ⟨x.quiet, if g then fNV else 0⟩
  | .inf s => if s then packVal f rm sate4 invalid else roundTo f rm sate4 (.inf false)
  | .fin s m e =>
    if m = 0 then packVal f rm sate4 ⟨.inf true, fDZ⟩
    else if s then packVal f rm sate4 invalid
    else
      let k : Int := e + Nat.log2 m
      if m = 2 ^ Nat.log2 m then roundTo f rm sate4 (numAtScale k 0)
      else
        enclosed f rm sate4 (fun p =>
          let w := log2Frac p m
          (numAtScale (k * ((2 ^ p : Nat) : Int) + w.1) (-(p : Int)),
            numAtScale (k * ((2 ^ p : Nat) : Int) + w.2) (-(p : Int)))) precisions

/-- RT(ln 2 × v) (R238). -/
def timesLn2 (t : Fmt) (rm : Nat) (v : Num) : Num :=
  match v with
  | .nan _ _ _ => decodeNum t (roundTo t rm false v).1
  | .inf _ => v
  | .fin s m e =>
    if m = 0 then v
    else decodeNum t (enclosed t rm false (fun p =>
      let l := ln2 p
      (.fin s (m * l.1) (e - p), .fin s (m * l.2) (e - p))) precisions).1

/-- RT(a' / (a × ln 2)) (R238). -/
def overLn2 (t : Fmt) (rm : Nat) (a' a : Num) : Num :=
  let q := (numDiv a' a).x
  match a', a, q with
  | .fin _ m1 e1, .fin _ m2 e2, .fin s m _ =>
    if m = 0 then q
    else decodeNum t (enclosed t rm false (fun p =>
      let l := ln2 p
      let sh := p + Nat.log2 m2 + 1
      (.fin s (m1 * 2 ^ (p + sh) / (m2 * l.2)) (e1 - e2 - sh),
        .fin s (m1 * 2 ^ (p + sh) / (m2 * l.1) + 1) (e1 - e2 - sh))) precisions).1
  | _, _, _ => decodeNum t (roundTo t rm false q).1

end Sys2Proof.Machine
end

