-- ==== Sys2Proof/Machine/Vector.lean ====
section
/-!
DEFINITION. Vector compute instructions (R127-R150) with the tangents of R237 and R238.
-/
namespace Sys2Proof.Machine

/-! ## The setting of a member -/

/-- What a member captured: the hart as the member finds it, its formats, rounding mode and SATE4 (R50). -/
structure VEnv where
  h  : Hart
  fa : Fmt
  fd : Fmt
  rm : Nat
  sat4 : Bool
  deriving DecidableEq, Repr

def venv (x : Option Ext) (s : State) : VEnv :=
  { h := s.me, fa := faOf x s.me, fd := fdOf x s.me, rm := rmOf x s.me, sat4 := s.me.sate4 }

/-- Element `e` of a source, its plane `k` (0 the primal), as an exact value and as an integer. -/
def VEnv.num (v : VEnv) (r k e : Nat) : Num := sourceNum v.h v.fa r k e
def VEnv.int (v : VEnv) (r e : Nat) : Int :=
  if isSignedInt v.fa then toSigned (fmtBits v.fa) (sourceBits v.h v.fa r 0 e) else (sourceBits v.h v.fa r 0 e : Nat)

/-- A floating-point result into fd. -/
def VEnv.pack (v : VEnv) (x : Val) : Nat × Flags := packVal v.fd v.rm v.sat4 x

/-- An integer result into fd: modulo 2^w, clamped under .SAT, or rounded into a floating-point fd (R56, R137). -/
def VEnv.packInt (v : VEnv) (sat : Bool) (x : Int) : Nat × Flags :=
  if isInt v.fd then (if sat then clampInt v.fd x else wrap (fmtBits v.fd) x, 0)
  else roundTo v.fd v.rm v.sat4 (Num.ofInt x)

/-- A w-bit pattern of fa as the integer it stands for. -/
def VEnv.ofBits (v : VEnv) (x : Nat) : Int :=
  if isSignedInt v.fa then toSigned (fmtBits v.fa) x else ((x % 2 ^ fmtBits v.fa : Nat) : Int)

/-- RT: one rounding to T by the member's mode (R237). -/
def VEnv.rt (v : VEnv) (x : Num) : Num := Machine.rt (tanFmt v.fd) v.rm x

/-- A tangent into the destination's format; integer members write +0, and for an F32 or F64 primal nothing is left to
round (R237). -/
def VEnv.tan (v : VEnv) (x : Num) : Nat :=
  if isInt v.fa || isInt v.fd then 0
  else if v.fd = v.fa ∧ v.fd = tanFmt v.fd then heldBits v.fd x
  else (roundTo v.fd v.rm v.sat4 x).1

/-- A member with an element loop over sources `rs` into `d`. -/
def eltIn (env : State → VEnv) (k : Kind) (d : Nat) (rs : List Nat) (m : BitVec 4) (f : VEnv → Nat → Nat × Flags)
    (t : VEnv → Nat → Nat → Nat → Nat) : Member := fun s =>
  let v := env s
  checked k v.fa v.fd (rs.headD d) rs (fun s =>
    writeElems d v.fd (bounded v.fd s (actives s m))
      (fun e => let r := f v e; (r.1, r.2 ||| sourceFlags v.h v.fa rs e)) (t v) s) s

def eltMember (k : Kind) (x : Option Ext) : Nat → List Nat → BitVec 4 → (VEnv → Nat → Nat × Flags) →
    (VEnv → Nat → Nat → Nat → Nat) → Member := eltIn (venv x) k

/-! ## Binary arithmetic (R137) -/

/-- .SAT: sub bit 0 of R40. -/
def isSat (x : Option Ext) : Bool := subOf x == 1

def satKind (x : Option Ext) : Kind := if isSat x then .strict else .any

/-- An arithmetic member of two sources: on floating-point values, and on integers. -/
def binary (k : Kind) (o : OpV) (ff : VEnv → Num → Num → Val) (fi : VEnv → Int → Int → Int)
    (t : VEnv → Nat → Nat → Num → Num) : Member :=
  eltMember k o.x o.d.toNat [o.a.toNat, o.b.toNat] o.m
    (fun v e =>
      if isInt v.fa then v.packInt (isSat o.x) (fi v (v.int o.a.toNat e) (v.int o.b.toNat e))
      else v.pack (ff v (v.num o.a.toNat 0 e) (v.num o.b.toNat 0 e)))
    (fun v k e r => v.tan (t v k e (decodeNum v.fd r)))

/-- VADD (R137). -/
def execVadd (o : OpV) (s : State) : Out :=
  vec (.vadd o) (binary (satKind o.x) o (fun v a b => numAdd v.rm a b) (fun _ a b => a + b)
    (fun v k e _ => v.rt (numAdd v.rm (v.num o.a.toNat k e) (v.num o.b.toNat k e)).x)) s

/-- VSUB (R137). -/
def execVsub (o : OpV) (s : State) : Out :=
  vec (.vsub o) (binary (satKind o.x) o (fun v a b => numSub v.rm a b) (fun _ a b => a - b)
    (fun v k e _ => v.rt (numSub v.rm (v.num o.a.toNat k e) (v.num o.b.toNat k e)).x)) s

/-- t := RT(a × b'); RT(a' × b + t) (R238). -/
def VEnv.prodTan (v : VEnv) (a b k e : Nat) : Num :=
  let t := v.rt (numMul (v.num a 0 e) (v.num b k e)).x
  v.rt (numFma v.rm false false (v.num a k e) (v.num b 0 e) t).x

/-- VMUL (R137). -/
def execVmul (o : OpV) (s : State) : Out :=
  vec (.vmul o) (binary (satKind o.x) o (fun _ a b => numMul a b) (fun _ a b => a * b)
    (fun v k e _ => v.prodTan o.a.toNat o.b.toNat k e)) s

/-- VMULH (R137): the high w bits of the product. -/
def execVmulh (o : OpV) (s : State) : Out :=
  vec (.vmulh o) (binary .int o (fun _ _ _ => invalid) (fun v a b => (a * b) / ((2 ^ fmtBits v.fa : Nat) : Int))
    (fun _ _ _ _ => Num.zero)) s

/-- MIN or MAX takes its first operand (R58, R59). -/
def keepsFirst (mx : Bool) (a b : Num) : Bool :=
  if a.isSig || b.isSig || (a.isNan && b.isNan) then a.isNan
  else if a.isNan then false
  else if b.isNan then true
  else match numCmpSigned a b with | .lt => !mx | .eq => true | .gt => mx

def minMax (mx : Bool) (o : OpV) : Member :=
  binary .any o (fun _ a b => numMinMax mx a b) (fun _ a b => if mx then max a b else min a b)
    (fun v k e _ =>
      if keepsFirst mx (v.num o.a.toNat 0 e) (v.num o.b.toNat 0 e) then v.num o.a.toNat k e else v.num o.b.toNat k e)

/-- VMIN (R137, R59). -/
def execVmin (o : OpV) (s : State) : Out := vec (.vmin o) (minMax false o) s

/-- VMAX (R137, R59). -/
def execVmax (o : OpV) (s : State) : Out := vec (.vmax o) (minMax true o) s

/-! ## Bitwise (R138) and shifts (R139) -/

/-- Every lane of the groups written as it is, where the tag written makes them no groups of `fd` (R138). -/
def writeLanes (d : Nat) (fd : Fmt) (acts : List Nat) (res : Nat → Nat) (s : State) : State :=
  let h := s.me
  let h1 := h.vset d (putElems (h.vget d) (gxBits fd) (acts.map (fun b => (b, res b))))
  s.setMe ((mapPlanes h.planesInForce h1 (fun k g =>
    g.setPlane d k (putElems (g.plane d k) (gxBits fd) (acts.map (fun b => (b, 0)))))).setTag d fd)

/-- Bitwise: no tag check; vs1's tag stays unless XF = 1. Where the tag written is the GX format worked in, the header
bytes 2-7 are those of R64. -/
def bitwiseOf (o : OpV) (f : Nat → Nat → Nat) (g : Hart) : Member := fun s =>
  let fd := fdOf o.x s.me
  let t := if xfOf o.x then fd else g.tag o.a.toNat
  let s1 :=
    if isGx fd then
      let acts := bounded fd s (activesBy g fd s o.m)
      let res := fun b => f (groupOf fd (g.vget o.a.toNat) b) (groupOf fd (g.vget o.b.toNat) b)
      if t = fd then writeGroups o.d.toNat fd acts (fun b => (res b, 0)) (fun _ _ => 0) s
      else writeLanes o.d.toNat fd acts res s
    else
      writeElems o.d.toNat fd (bounded fd s (activesBy g fd s o.m))
        (fun e => (f (elemOf (g.vget o.a.toNat) (fmtBits fd) e) (elemOf (g.vget o.b.toNat) (fmtBits fd) e), 0)) zeroTan s
  s1.setMe (s1.me.setTag o.d.toNat t)

/-- The bitwise member on the sources it finds. -/
def bitwise (o : OpV) (f : Nat → Nat → Nat) : Member :=
  scaledMember (fun s e =>
    let fd := fdOf o.x s.me
    min (min (bytesReady s o.a.toNat 1 (unitBytes fd) e) (bytesReady s o.b.toNat 1 (unitBytes fd) e)) (maskReady s fd o.m e))
    (bitwiseOf o f)

/-- VAND (R138). -/
def execVand (o : OpV) (s : State) : Out := vec (.vand o) (bitwise o (fun a b => a &&& b)) s

/-- VOR (R138). -/
def execVor (o : OpV) (s : State) : Out := vec (.vor o) (bitwise o (fun a b => a ||| b)) s

/-- VXOR (R138). -/
def execVxor (o : OpV) (s : State) : Out := vec (.vxor o) (bitwise o (fun a b => a ^^^ b)) s

/-- A shift of the bits of vs1's element by bits (log2 w - 1):0 of vs2's. -/
def shifted (o : OpV) (f : Nat → Nat → Nat → Nat) : Member :=
  eltMember .strict o.x o.d.toNat [o.a.toNat, o.b.toNat] o.m
    (fun v e =>
      let w := fmtBits v.fa
      v.packInt false (v.ofBits
        (f w (sourceBits v.h v.fa o.a.toNat 0 e) (sourceBits v.h v.fa o.b.toNat 0 e % w))))
    (fun _ => zeroTan)

/-- VSHL (R139). -/
def execVshl (o : OpV) (s : State) : Out := vec (.vshl o) (shifted o (fun w a n => (a <<< n) % 2 ^ w)) s

/-- VSHR (R139). -/
def execVshr (o : OpV) (s : State) : Out := vec (.vshr o) (shifted o (fun _ a n => a >>> n)) s

/-- VSAR (R139). -/
def execVsar (o : OpV) (s : State) : Out :=
  vec (.vsar o) (shifted o (fun w a n => wrap w (toSigned w a / ((2 ^ n : Nat) : Int)))) s

/-! ## Fused multiply-add (R140) -/

/-- ±(vs1 × vs2) ± a. -/
def fused (d a b : BitVec 6) (m : BitVec 4) (x : Option Ext) (negP negC : Bool) : Member :=
  let c := addend d x
  eltMember .any x d.toNat [a.toNat, b.toNat, c] m
    (fun v e =>
      if isInt v.fa then
        let p := v.int a.toNat e * v.int b.toNat e
        let y := v.int c e
        v.packInt false ((if negP then -p else p) + (if negC then -y else y))
      else v.pack (numFma v.rm negP negC (v.num a.toNat 0 e) (v.num b.toNat 0 e) (v.num c 0 e)))
    (fun v k e _ =>
      let t := v.prodTan a.toNat b.toNat k e
      let t1 := if negP && !t.isNan then t.neg else t
      let y := v.num c k e
      v.tan (v.rt (if negC then numSub v.rm t1 y else numAdd v.rm t1 y).x))

/-- VFMA (R140). -/
def execVfma (o : OpV) (s : State) : Out := vec (.vfma o) (fused o.d o.a o.b o.m o.x false false) s

/-- VFMS (R140). -/
def execVfms (o : OpVX) (s : State) : Out := vec (.vfms o) (fused o.d o.a o.b o.m (some o.x) false true) s

/-- VFNMA (R140). -/
def execVfnma (o : OpVX) (s : State) : Out := vec (.vfnma o) (fused o.d o.a o.b o.m (some o.x) true false) s

/-- VFNMS (R140). -/
def execVfnms (o : OpVX) (s : State) : Out := vec (.vfnms o) (fused o.d o.a o.b o.m (some o.x) true true) s

/-! ## Division and square root (R141) -/

/-- Integer division of width w: toward zero, with the borderline cases of R114. -/
def divInt (f : Fmt) (a b : Int) : Int :=
  if b = 0 then (if isSignedInt f then -1 else intMax f)
  else
    let q := a.tdiv b
    if intMax f < q then intMin f else q

/-- VDIV (R141). -/
def execVdiv (o : OpV) (s : State) : Out :=
  vec (.vdiv o) (binary .any o (fun _ a b => numDiv a b) (fun v a b => divInt v.fa a b)
    (fun v k e r =>
      let t := v.rt (numFma v.rm true false r (v.num o.b.toNat k e) (v.num o.a.toNat k e)).x
      v.rt (numDiv t (v.num o.b.toNat 0 e)).x)) s

/-- A floating-point member of one source. -/
def unaryF (o : OpV2) (f : VEnv → Num → Nat × Flags) (t : VEnv → Num → Num → Num → Nat) : Member :=
  eltMember .float o.x o.d.toNat [o.a.toNat] o.m (fun v e => f v (v.num o.a.toNat 0 e))
    (fun v k e r => t v (v.num o.a.toNat 0 e) (v.num o.a.toNat k e) (decodeNum v.fd r))

/-- VSQRT (R141). -/
def execVsqrt (o : OpV2) (s : State) : Out :=
  vec (.vsqrt o) (unaryF o (fun v a => v.pack (numSqrt a))
    (fun v _ a' r => v.tan (v.rt (numDiv a' (numMul (.fin false 2 0) r).x).x))) s

/-! ## Unary operations (R142, R143) -/

/-- A sign operation: integers by `fi`; floating point on the sign bit, no NaN quieted. -/
def signOp (o : OpV2) (fi : Int → Int) (fs : Bool → Bool) (t : Num → Num → Num) : Member :=
  eltMember .any o.x o.d.toNat [o.a.toNat] o.m
    (fun v e =>
      if isInt v.fa then v.packInt false (fi (v.int o.a.toNat e))
      else
        let x := v.num o.a.toNat 0 e
        if v.fd = v.fa then
          let w := fmtBits v.fa
          (putBits (sourceBits v.h v.fa o.a.toNat 0 e) (w - 1) 1 (if fs x.sign then 1 else 0), 0)
        else roundTo v.fd v.rm v.sat4 (x.setSign (fs x.sign)))
    (fun v k e _ => v.tan (t (v.num o.a.toNat 0 e) (v.num o.a.toNat k e)))

/-- VABS (R142). -/
def execVabs (o : OpV2) (s : State) : Out :=
  vec (.vabs o) (signOp o (fun x => x.natAbs) (fun _ => false)
    (fun a a' => if a.isZero then Num.zero else if a.sign then a'.neg else a')) s

/-- VNEG (R142). -/
def execVneg (o : OpV2) (s : State) : Out :=
  vec (.vneg o) (signOp o (fun x => -x) (fun b => !b) (fun _ a' => a'.neg)) s

/-- An integer count of the bits of an element. -/
def countOp (o : OpV2) (f : Nat → Nat → Nat) : Member :=
  eltMember .int o.x o.d.toNat [o.a.toNat] o.m
    (fun v e => (f (fmtBits v.fa) (sourceBits v.h v.fa o.a.toNat 0 e), 0)) (fun _ => zeroTan)

/-- VCLZ (R142). -/
def execVclz (o : OpV2) (s : State) : Out := vec (.vclz o) (countOp o clz) s

/-- VPOPC (R142). -/
def execVpopc (o : OpV2) (s : State) : Out := vec (.vpopc o) (countOp o (fun w x => popCount x w)) s

/-- A magnitude cut toward zero to 8 leading significant bits (R143). -/
def cut8 (x : Num) : Num :=
  match x with
  | .fin s m e => let n := Nat.log2 m - 7; .fin s (m >>> n) (e + n)
  | .nan _ _ _ => x
  | .inf _ => x

/-- An estimate into fd: RTZ, no NX or UF; overflow raises OF alone (R143). -/
def estimate (v : VEnv) (y : Num) : Nat × Flags :=
  let r := roundTo v.fd 1 v.sat4 (cut8 y)
  (r.1, r.2 &&& ~~~(fNX ||| fUF))

/-- A special case of the table of R143: a ±0 input raises DZ alone. -/
def special (v : VEnv) (y : Val) : Nat × Flags :=
  let r := packVal v.fd 1 v.sat4 y
  (r.1, if y.fl = fDZ then fDZ else r.2)

/-- The reciprocal estimate. -/
def rcpe (v : VEnv) (x : Num) : Nat × Flags :=
  match x with
  | .nan _ g _ => special v ⟨x.quiet, if g then fNV else 0⟩
  | .inf s => special v ⟨.fin s 0 0, 0⟩
  | .fin s m _ => if m = 0 then special v ⟨.inf s, fDZ⟩ else estimate v (numDiv (.fin false 1 0) x).x

/-- The reciprocal square root estimate. -/
def rsqe (v : VEnv) (x : Num) : Nat × Flags :=
  match x with
  | .nan _ g _ => special v ⟨x.quiet, if g then fNV else 0⟩
  | .inf s => if s then special v invalid else special v ⟨Num.zero, 0⟩
  | .fin s m _ =>
    if m = 0 then special v ⟨.inf s, fDZ⟩
    else if s then special v invalid
    else estimate v (numDiv (.fin false 1 0) (numSqrt x).x).x

/-- The tangent of an estimate, rounded as its primal is, by RTZ. -/
def estTan (v : VEnv) (x : Num) : Nat :=
  if isInt v.fd then 0 else (roundTo v.fd 1 v.sat4 (Machine.rt (tanFmt v.fd) 1 x)).1

/-- VRCPE (R143): its tangent is RT(-a' × r × r). -/
def execVrcpe (o : OpV2) (s : State) : Out :=
  vec (.vrcpe o) (unaryF o rcpe (fun v _ a' r => estTan v (numMul (numMul a'.neg r).x r).x)) s

/-- VRSQE (R143): its tangent is RT(-a' × r × r × r / 2). -/
def execVrsqe (o : OpV2) (s : State) : Out :=
  vec (.vrsqe o) (unaryF o rsqe
    (fun v _ a' r => estTan v (numMul (numMul (numMul (numMul a'.neg r).x r).x r).x (.fin false 1 (-1))).x)) s

/-- VEXP2 (R142). -/
def execVexp2 (o : OpV2) (s : State) : Out :=
  vec (.vexp2 o) (unaryF o (fun v a => exp2To v.fd v.rm v.sat4 a)
    (fun v _ a' r => v.tan (timesLn2 (tanFmt v.fd) v.rm (numMul r a').x))) s

/-- VLOG2 (R142). -/
def execVlog2 (o : OpV2) (s : State) : Out :=
  vec (.vlog2 o) (unaryF o (fun v a => log2To v.fd v.rm v.sat4 a)
    (fun v a a' _ => v.tan (overLn2 (tanFmt v.fd) v.rm a' a))) s

/-- An integral value by mode `rm`, and whether the value changed. -/
def integral (rm : Nat) (x : Num) : Num × Bool :=
  match x with
  | .nan _ _ _ => (x, false)
  | .inf _ => (x, false)
  | .fin s m e => let r := roundIntegral rm s m e; (.fin s r.1.natAbs 0, r.2)

/-- VFLOOR, VCEIL, VRINT: rounding to an integral value. -/
def roundOp (o : OpV2) (mode : VEnv → Nat) (nx : Bool) : Member :=
  unaryF o (fun v a =>
    let r := integral (mode v) a
    v.pack ⟨r.1.quiet, (if a.isSig then fNV else 0) ||| (if nx && r.2 then fNX else 0)⟩) (fun _ _ _ _ => 0)

/-- VFLOOR (R142). -/
def execVfloor (o : OpV2) (s : State) : Out := vec (.vfloor o) (roundOp o (fun _ => 3) false) s

/-- VCEIL (R142). -/
def execVceil (o : OpV2) (s : State) : Out := vec (.vceil o) (roundOp o (fun _ => 2) false) s

/-- VRINT (R142). -/
def execVrint (o : OpV2) (s : State) : Out := vec (.vrint o) (roundOp o (fun v => v.rm) true) s

/-- The unsigned integer format of a width. -/
def unsignedOf (w : Nat) : Fmt := if w = 64 then .u64 else if w = 32 then .u32 else if w = 16 then .u16 else .u8

/-- VCLASS (R142): the class code, under the unsigned tag of the width. -/
def execVclass (o : OpV2) (s : State) : Out :=
  vec (.vclass o) (fun s =>
    let t := eltMember .float o.x o.d.toNat [o.a.toNat] o.m
      (fun v e => (numClass v.fa (sourceBits v.h v.fa o.a.toNat 0 e), 0)) (fun _ => zeroTan) s
    match stopOf t with
    | some _ => t
    | none => t.setMe (t.me.setTag o.d.toNat (unsignedOf (fmtBits (faOf o.x s.me))))) s

/-! ## Compares and select (R144, R145) -/

/-- Bits of a mask written. -/
def putMask (n : Nat) (l : List (Nat × Bool)) (s : State) : State :=
  let g (x : MReg) : MReg := l.foldl (fun x p => setMaskBit x p.1 p.2) x
  let s1 := s.setMe (s.me.setMask n (g (s.me.mask n)))
  match s1.cv with
  | none => s1
  | some c => { s1 with cv := some { c with cmasks := Tab.upd c.cmasks n g } }

/-- A relation of two values: the answer and the flags; `quiet` relations raise NV for a signalling NaN only. -/
def relation (rel : Ordering → Bool) (unord quiet : Bool) (a b : Num) : Bool × Flags :=
  if a.isNan || b.isNan then
    (unord, if a.isSig || b.isSig || !quiet then fNV else 0)
  else (rel (numCmp a b), 0)

def compareWith (o : OpCmp) (rel : Ordering → Bool) (unord quiet : Bool) : Member := fun s =>
  let v := venv o.x s
  checked .any v.fa v.fa o.a.toNat [o.a.toNat, o.b.toNat] (fun s =>
    let rs := (actives s o.m).map (fun e =>
      let r := relation rel unord quiet (v.num o.a.toNat 0 e) (v.num o.b.toNat 0 e)
      ((e, r.1), r.2 ||| sourceFlags v.h v.fa [o.a.toNat, o.b.toNat] e))
    let s1 := putMask o.n.toNat (rs.map Prod.fst) s
    s1.setMe (s1.me.orFlags (rs.foldl (fun a p => a ||| p.2) 0))) s

/-- VCMPEQ (R144). -/
def execVcmpeq (o : OpCmp) (s : State) : Out := vec (.vcmpeq o) (compareWith o (fun c => c == .eq) false true) s

/-- VCMPNE (R144). -/
def execVcmpne (o : OpCmp) (s : State) : Out := vec (.vcmpne o) (compareWith o (fun c => c != .eq) true true) s

/-- VCMPLT (R144). -/
def execVcmplt (o : OpCmp) (s : State) : Out := vec (.vcmplt o) (compareWith o (fun c => c == .lt) false false) s

/-- VCMPLE (R144). -/
def execVcmple (o : OpCmp) (s : State) : Out := vec (.vcmple o) (compareWith o (fun c => c != .gt) false false) s

/-- VCMPGT (R144). -/
def execVcmpgt (o : OpCmp) (s : State) : Out := vec (.vcmpgt o) (compareWith o (fun c => c == .gt) false false) s

/-- VCMPGE (R144). -/
def execVcmpge (o : OpCmp) (s : State) : Out := vec (.vcmpge o) (compareWith o (fun c => c != .lt) false false) s

/-- VSEL (R145): every element below VL, from vs1 where the mask bit is 1, else from vs2; +0 planes for integers (R237). -/
def execVsel (o : OpV) (s : State) : Out :=
  vec (.vsel o) (fun s =>
    let v := venv o.x s
    let pick (e : Nat) : Nat := if maskBit (maskOf s o.m.toNat) e then o.a.toNat else o.b.toNat
    checked .any v.fa v.fa o.a.toNat [o.a.toNat, o.b.toNat] (fun s =>
      writeElems o.d.toNat v.fa (bounded v.fa s (elemsUpTo s s.me.csr.vl))
        (fun e => (sourceBits v.h v.fa (pick e) 0 e, sourceFlags v.h v.fa [o.a.toNat, o.b.toNat] e))
        (fun k e _ => if isInt v.fa then 0 else sourceBits v.h v.fa (pick e) k e) s) s) s

/-! ## Masks (R146) -/

/-- A MASK member's result: read by later members, written at completion (R129). -/
def setCmask (n : Nat) (x : MReg) (s : State) : State :=
  match s.cv with
  | none => s
  | some c => { s with cv := some { c with cmasks := Tab.put c.cmasks n x } }

/-- A queue push, made at completion. -/
def pushQueue (q : Nat) (v : W64) (s : State) : State :=
  match s.cv with
  | none => s
  | some c => { s with cv := some { c with pushes := c.pushes ++ [(q, v)] } }

/-- The counted bits: the numbers MFIRST pushes, with their bit positions. -/
def counted (h : Hart) : List (Nat × Nat) :=
  (span 0 h.csr.vl).map (fun b => (b, if isGx h.cf then gxLanes h.cf * b else b))

/-- MAND (R146). -/
def execMand (o : OpM3) (s : State) : Out :=
  vec (.mand o) (fun s => setCmask o.n.toNat (maskOf s o.a.toNat &&& maskOf s o.b.toNat) s) s

/-- MOR (R146). -/
def execMor (o : OpM3) (s : State) : Out :=
  vec (.mor o) (fun s => setCmask o.n.toNat (maskOf s o.a.toNat ||| maskOf s o.b.toNat) s) s

/-- MXOR (R146). -/
def execMxor (o : OpM3) (s : State) : Out :=
  vec (.mxor o) (fun s => setCmask o.n.toNat (maskOf s o.a.toNat ^^^ maskOf s o.b.toNat) s) s

/-- MANDN (R146). -/
def execMandn (o : OpM3) (s : State) : Out :=
  vec (.mandn o) (fun s => setCmask o.n.toNat (maskOf s o.a.toNat &&& ~~~(maskOf s o.b.toNat)) s) s

/-- MNOT (R146). -/
def execMnot (o : OpM2) (s : State) : Out :=
  vec (.mnot o) (fun s => setCmask o.n.toNat (~~~(maskOf s o.a.toNat)) s) s

/-- MSET (R146): ma OR mb, with the counted bits set. -/
def execMset (o : OpM3) (s : State) : Out :=
  vec (.mset o) (fun s =>
    setCmask o.n.toNat ((counted s.me).foldl (fun x p => setMaskBit x p.2 true)
      (maskOf s o.a.toNat ||| maskOf s o.b.toNat)) s) s

/-- MCLR (R146). -/
def execMclr (o : OpM1) (s : State) : Out := vec (.mclr o) (fun s => setCmask o.n.toNat 0 s) s

/-- MMOV (R146). -/
def execMmov (o : OpM2) (s : State) : Out :=
  vec (.mmov o) (fun s => setCmask o.n.toNat (maskOf s o.a.toNat) s) s

/-- MPOP (R146). -/
def execMpop (o : OpMQ) (s : State) : Out :=
  vec (.mpop o) (fun s =>
    pushQueue o.q.toNat (BitVec.ofNat 64
      ((counted s.me).filter (fun p => maskBit (maskOf s o.a.toNat) p.2)).length) s) s

/-- MFIRST (R146): all ones when no counted bit is set. -/
def execMfirst (o : OpMQ) (s : State) : Out :=
  vec (.mfirst o) (fun s =>
    pushQueue o.q.toNat (match (counted s.me).find? (fun p => maskBit (maskOf s o.a.toNat) p.2) with
      | none => allOnes
      | some p => BitVec.ofNat 64 p.1) s) s

/-! ## Broadcast, index, queue and tree (R147-R150) -/

/-- The format of an instruction without a vector source: CF, or fd under XF = 1. -/
def formX (f : LForm) : Option Ext :=
  match f with | .word => none | .ext x => some x | .lit _ => none | .extLit x _ => some x

/-- VBCAST (R147). -/
def execVbcast (o : OpBc) (s : State) : Out :=
  vec (.vbcast o) (fun s =>
    let fd := fdOf (formX o.form) s.me
    let b := (o.form.literal).getD (s.me.reg o.b)
    checked .any fd fd o.d.toNat [] (fun s =>
      writeElems o.d.toNat fd (bounded fd s (elemsUpTo s s.me.csr.vl))
        (fun _ => (b.toNat % 2 ^ fmtBits fd, 0)) zeroTan s) s) s

/-- VIOTA (R148): the count includes active elements below VSTART. -/
def execViota (o : OpIota) (s : State) : Out :=
  vec (.viota o) (fun s =>
    let fd := fdOf o.x s.me
    let b := (s.me.reg o.b).toNat
    checked .int fd fd o.d.toNat [] (fun s =>
      writeElems o.d.toNat fd (bounded fd s (actives s o.m))
        (fun e => ((b + ((span 0 e).filter (selects s o.m)).length) % 2 ^ fmtBits fd, 0)) zeroTan s) s) s

/-- VTOQ (R149). -/
def execVtoq (o : OpToq) (s : State) : Out :=
  vec (.vtoq o) (fun s =>
    let t := s.me.tag o.a.toNat
    let w := if isGx t then 64 else fmtBits t
    let i := (s.me.reg o.b).toNat
    let x := elemOf (s.me.vget o.a.toNat) w i
    pushQueue o.q.toNat
      (if 8192 / w ≤ i then 0 else if isSignedInt t then sext64 w x else zext64 w x) s) s

/-- VTID (R150). -/
def execVtid (o : OpTid) (s : State) : Out :=
  vec (.vtid o) (fun s =>
    let fd := fdOf o.x s.me
    let ls := s.levels
    let i := o.l.toNat
    checked .int fd fd o.d.toNat [] (fun s =>
      match ls[i]? with
      | none => stopWith (.whole 0x0B (BitVec.ofNat 64 i)) s
      | some l =>
        let val (e : Nat) : Nat := if l.phys < 2 then elementIdx ls i e else (tidValue s s.me i).toNat
        writeElems o.d.toNat fd (bounded fd s (actives s o.m))
          (fun e => (val e % 2 ^ fmtBits fd, 0)) zeroTan s) s) s

end Sys2Proof.Machine
end

