-- ==== Sys2Proof/Machine/Rearrange.lean ====
section
/-!
DEFINITION. Rearrangement, reduction and conversion (R152-R165) with their tangents (R239, R80).
-/
namespace Sys2Proof.Machine

/-! ## Element movers (R152-R158) -/

/-- The active elements of a format: groups by their first mask bit for GX (R67, R154). -/
def activesIn (f : Fmt) (s : State) (m : BitVec 4) : List Nat :=
  if isGx f then activeGroups f s m else actives s m

/-- The positions below VL that the masks of hart `g` select (R157). -/
def selectedBy (g : Hart) (f : Fmt) (s : State) (m : BitVec 4) : List Nat :=
  (span 0 s.me.csr.vl).filter (pickedBy g f m)

/-- Every active element below VL, by the masks of hart `g`. -/
def allActive (g : Hart) (s : State) (m : BitVec 4) : List Nat :=
  (span 0 s.me.csr.vl).filter (fun e => m == 15 || maskBit (g.mask m.toNat) e)

/-- Element or group `i` of plane `k` of a source, in a format that may be GX. -/
def unitAt (h : Hart) (f : Fmt) (r k i : Nat) : Nat × Flags := if isGx f then groupAt h f r k i else sourceAt h f r k i

/-- Destination units written with their flags: elements, or groups for GX. -/
def writeUnits (d : Nat) (f : Fmt) (es : List Nat) (res : Nat → Nat × Flags) (tan : Nat → Nat → Nat) (s : State) : State :=
  if isGx f then writeGroups d f es res tan s else writeElems d f es res (fun k e _ => tan k e) s

/-- A member that moves elements of CF: each destination of `ps` takes element `i` of a source, or the zero element; the
planes move with it, but are +0 for integers (R237, R239). -/
def mover (d : Nat) (rs : List Nat) (index : Option Nat)
    (ps : Hart → State → List (Nat × Option (Nat × Nat))) : Member :=
  wholeMember (fun g s =>
    let f := s.me.cf
    match badSource .any f g rs with
    | some r => stopWith (.whole 0x03 (BitVec.ofNat 64 r)) s
    | none =>
      if index.any (fun r => !isInt (g.tag r)) then stopWith (.whole 0x03 (BitVec.ofNat 64 (index.getD 0))) s
      else
        let vm := maxVl f s.me.cap
        let l := ps g s
        let src (k e : Nat) : Nat × Flags :=
          match l.find? (fun p => p.1 == e) with
          | none => (0, 0)
          | some p => match p.2 with
            | none => (0, 0)
            | some (r, i) => if i < vm then unitAt g f r k i else (0, 0)
        writeUnits d f (l.map Prod.fst) (src 0) (fun k e => if isInt f then 0 else (src k e).1) s)

/-- VPERM (R155). -/
def execVperm (o : OpV) (s : State) : Out :=
  vec (.vperm o) (mover o.d.toNat [o.a.toNat] (some o.b.toNat) (fun g s =>
    let w := fmtBits (g.tag o.b.toNat)
    (activesBy g s.me.cf s o.m).map (fun e =>
      (e, if e < 8192 / w then some (o.a.toNat, elemOf (g.vget o.b.toNat) w e) else none)))) s

/-- VSLIDE.DN (R156). -/
def execVslideDn (o : OpVS) (s : State) : Out :=
  vec (.vslideDn o) (mover o.d.toNat [o.a.toNat] none (fun g s =>
    (activesBy g s.me.cf s o.m).map (fun e => (e, some (o.a.toNat, e + (s.me.reg o.b).toNat))))) s

/-- VSLIDE.UP (R156). -/
def execVslideUp (o : OpVSX) (s : State) : Out :=
  vec (.vslideUp o) (mover o.d.toNat [o.a.toNat] none (fun g s =>
    let n := (s.me.reg o.b).toNat
    ((activesBy g s.me.cf s o.m).filter (fun e => decide (n ≤ e))).map (fun e => (e, some (o.a.toNat, e - n))))) s

/-- VCOMPR (R157). -/
def execVcompr (o : OpV2) (s : State) : Out :=
  vec (.vcompr o) (mover o.d.toNat [o.a.toNat] none (fun g s =>
    let l := selectedBy g s.me.cf s o.m
    (elemsUpTo s l.length).map (fun c => (c, (l[c]?).map (fun i => (o.a.toNat, i)))))) s

/-- VEXPND (R157). -/
def execVexpnd (o : OpV2) (s : State) : Out :=
  vec (.vexpnd o) (mover o.d.toNat [o.a.toNat] none (fun g s =>
    let l := selectedBy g s.me.cf s o.m
    (activesBy g s.me.cf s o.m).map (fun e => (e, some (o.a.toNat, (l.filter (fun i => decide (i < e))).length))))) s

/-- The zip family (R158): source and index of element `e`. -/
def zipMember (d a b : BitVec 6) (m : BitVec 4) (pick : Nat → Nat → Bool × Nat) : Member :=
  mover d.toNat [a.toNat, b.toNat] none (fun g s =>
    (activesBy g s.me.cf s m).map (fun e =>
      let p := pick s.me.csr.vl e
      (e, some (if p.1 then b.toNat else a.toNat, p.2))))

/-- Element j of z, vs1's elements below VL followed by vs2's. -/
def zAt (vl j : Nat) : Bool × Nat := if j < vl then (false, j) else (true, j - vl)

/-- VZIP.LO (R158). -/
def execVzipLo (o : OpV) (s : State) : Out :=
  vec (.vzipLo o) (zipMember o.d o.a o.b o.m (fun _ e => (e % 2 == 1, e / 2))) s

/-- VZIP.HI (R158). -/
def execVzipHi (o : OpVX) (s : State) : Out :=
  vec (.vzipHi o) (zipMember o.d o.a o.b o.m (fun vl e => (e % 2 == 1, e / 2 + vl / 2))) s

/-- VUNZIP.EV (R158). -/
def execVunzipEv (o : OpVX) (s : State) : Out :=
  vec (.vunzipEv o) (zipMember o.d o.a o.b o.m (fun vl e => zAt vl (2 * e))) s

/-- VUNZIP.OD (R158). -/
def execVunzipOd (o : OpVX) (s : State) : Out :=
  vec (.vunzipOd o) (zipMember o.d o.a o.b o.m (fun vl e => zAt vl (2 * e + 1))) s

/-! ## Reductions and scans (R73, R74, R159-R161) -/

/-- The operators of R39. -/
inductive RedOp where
  | sum | min | max | and | or | xor
  deriving DecidableEq, Repr

/-- An element under reduction: its bits in f, and its planes as values of T. -/
structure RItem where
  x  : Nat
  pl : List Num
  fl : Flags
  deriving DecidableEq, Repr

/-- One combine in f, rounding by the member's mode (R73, R80, R239). -/
def combine (v : VEnv) (op : RedOp) (a b : RItem) : RItem :=
  let f := v.fa
  let fl := a.fl ||| b.fl
  if isInt f then
    let x := v.ofBits a.x
    let y := v.ofBits b.x
    { a with fl := fl, x := match op with
      | .sum => wrap (fmtBits f) (x + y)
      | .min => if x ≤ y then a.x else b.x
      | .max => if y ≤ x then a.x else b.x
      | .and => a.x &&& b.x
      | .or => a.x ||| b.x
      | .xor => a.x ^^^ b.x }
  else
    let x := decodeNum f a.x
    let y := decodeNum f b.x
    let pack (z : Val) := packVal f v.rm v.sat4 z
    let tans := (List.zip a.pl b.pl).map (fun p => Machine.rt (tanFmt f) v.rm (numAdd v.rm p.1 p.2).x)
    let keep (mx : Bool) : RItem :=
      let r := pack (numMinMax mx x y)
      ⟨r.1, if keepsFirst mx x y then a.pl else b.pl, fl ||| r.2⟩
    match op with
    | .sum => let r := pack (numAdd v.rm x y); ⟨r.1, tans, fl ||| r.2⟩
    | .min => keep false
    | .max => keep true
    | .and => a
    | .or => a
    | .xor => a

/-- One level of the tree of R73. -/
def pairUp (v : VEnv) (op : RedOp) : List RItem → List RItem
  | a :: b :: r => combine v op a b :: pairUp v op r
  | l => l

def redTree (v : VEnv) (op : RedOp) : Nat → List RItem → Option RItem
  | 0, _ => none
  | n + 1, l => match l with
    | [] => none
    | [x] => some x
    | l => redTree v op n (pairUp v op l)

/-- The identity of an operator (R73). -/
def identity (f : Fmt) (op : RedOp) : Nat :=
  if isInt f then
    match op with
    | .sum => 0
    | .min => wrap (fmtBits f) (intMax f)
    | .max => wrap (fmtBits f) (intMin f)
    | .and => 2 ^ fmtBits f - 1
    | .or => 0
    | .xor => 0
  else
    let inf (s : Bool) := if f = .e4m3 then maxBits f s else infBits f s
    match op with
    | .sum => 0
    | .min => inf false
    | .max => inf true
    | .and => 0
    | .or => 0
    | .xor => 0

/-- Element `e` of vs1 with its planes and the flags of its conversion. -/
def itemAt (v : VEnv) (r e : Nat) : RItem :=
  let p := sourceAt v.h v.fa r 0 e
  ⟨p.1, if isInt v.fa then [] else (span 1 v.h.planesInForce).map (fun k => v.num r k e), p.2⟩

/-- The operand formats of an operator: bitwise ones take integers only. -/
def redKind (op : RedOp) : Kind :=
  match op with | .sum => .any | .min => .any | .max => .any | .and => .int | .or => .int | .xor => .int

/-- Plane k of a result, into fd. -/
def VEnv.planeOf (v : VEnv) (x : RItem) (k : Nat) : Nat :=
  match x.pl[k - 1]? with | none => 0 | some p => v.tan p

/-- The setting of a whole-vector member, whose sources are those of `g`. -/
def wenv (x : Option Ext) (g : Hart) (s : State) : VEnv := { venv x s with h := g }

/-- VRED (R159): an integer result enters another integer format as an integer conversion does (R62). VRED.MIN and VRED.MAX
of no active element write +0 planes (log 164). -/
def reduce (o : OpV2) (op : RedOp) : Member :=
  wholeMember (fun g s =>
    let v := wenv o.x g s
    checked (redKind op) v.fa v.fd o.a.toNat [o.a.toNat] (fun s =>
      let es := allActive g s o.m
      let t := (redTree v op (es.length + 1) (es.map (itemAt v o.a.toNat))).getD ⟨identity v.fa op, [], 0⟩
      let r := if v.fd = v.fa then (t.x, 0)
        else if isInt v.fa then v.packInt true (v.ofBits t.x)
        else v.pack ⟨decodeNum v.fa t.x, 0⟩
      let dest := if s.me.csr.vstart = 0 ∧ s.me.csr.vl ≠ 0 then elemsUpTo s 1 else []
      writeElems o.d.toNat v.fd dest (fun _ => (r.1, r.2 ||| t.fl)) (fun k _ _ => v.planeOf t k) s) s)

/-- VRED.SUM (R159). -/
def execVredSum (o : OpV2) (s : State) : Out := vec (.vredSum o) (reduce o .sum) s
/-- VRED.MIN (R159). -/
def execVredMin (o : OpV2) (s : State) : Out := vec (.vredMin o) (reduce o .min) s
/-- VRED.MAX (R159). -/
def execVredMax (o : OpV2) (s : State) : Out := vec (.vredMax o) (reduce o .max) s
/-- VRED.AND (R159). -/
def execVredAnd (o : OpV2) (s : State) : Out := vec (.vredAnd o) (reduce o .and) s
/-- VRED.OR (R159). -/
def execVredOr (o : OpV2) (s : State) : Out := vec (.vredOr o) (reduce o .or) s
/-- VRED.XOR (R159). -/
def execVredXor (o : OpV2) (s : State) : Out := vec (.vredXor o) (reduce o .xor) s

/-- The chain of R74 over elements `es`, with each element's result; flags belong to the element. -/
def chain (v : VEnv) (op : RedOp) (r : Nat) : List Nat → Option RItem → List (Nat × RItem)
  | [], _ => []
  | e :: es, acc =>
    let x := itemAt v r e
    let y := match acc with | none => x | some a => combine v op { a with fl := 0 } x
    (e, y) :: chain v op r es (some y)

/-- The last element of a list. -/
def lastOf : List Nat → Option Nat
  | [] => none
  | [x] => some x
  | _ :: r => lastOf r

/-- The planes from which a chain goes on after element `p` of vd of hart `g`: what the convoy left when it stopped at
VSTART, while vd still holds that, rounded; else what vd holds (R80, R160). -/
def chainPlanes (v : VEnv) (g : Hart) (s : State) (d p : Nat) : List Num :=
  let bits (k : Nat) : Nat := elemOf (g.plane d k) (fmtBits v.fa) p
  let ks := span 1 g.planesInForce
  match s.me.chains.find? (fun c => c.pc == s.me.pc && c.idx == (s.cv.getD {}).idx && c.vstart == s.me.csr.vstart) with
  | some c => if c.acc.map v.tan = ks.map bits then c.acc else ks.map (fun k => decodeNum v.fa (bits k))
  | none => ks.map (fun k => decodeNum v.fa (bits k))

/-- A convoy that is to stop at its limit keeps the planes that a chain of it has reached. -/
def keepScan (acc : Option RItem) (s : State) : State :=
  match s.cv, acc with
  | some c, some x => match c.lim with
    | none => s
    | some e =>
      let h := s.me
      let rest := h.chains.filter (fun z => !(z.pc == h.pc && z.idx == c.idx))
      s.setMe { h with chains := rest ++ [⟨h.pc, c.idx, e, x.pl⟩] }
  | _, _ => s

/-- VSCAN (R160). The chain goes on from the result that stands below VSTART. -/
def scan (o : OpV2) (op : RedOp) : Member :=
  wholeMember (fun g s =>
    let v := { wenv o.x g s with fd := faOf o.x s.me }
    checked (redKind op) v.fa v.fd o.a.toNat [o.a.toNat] (fun s =>
      let es := allActive g s o.m
      let st := s.me.csr.vstart
      let start : Option RItem := (lastOf (es.filter (fun e => decide (e < st)))).map (fun p =>
        ⟨elemOf (g.vget o.d.toNat) (fmtBits v.fa) p, if isInt v.fa then [] else chainPlanes v g s o.d.toNat p, 0⟩)
      let l := chain v op o.a.toNat (bounded v.fd s (activesBy g v.fa s o.m)) start
      let at_ (e : Nat) : RItem := ((l.find? (fun p => p.1 == e)).map Prod.snd).getD ⟨0, [], 0⟩
      let last := match l.getLast? with | none => start | some p => some p.2
      keepScan last (writeElems o.d.toNat v.fd (l.map Prod.fst) (fun e => ((at_ e).x, (at_ e).fl))
        (fun k e _ => v.planeOf (at_ e) k) s)) s)

/-- VSCAN.SUM (R160). -/
def execVscanSum (o : OpV2) (s : State) : Out := vec (.vscanSum o) (scan o .sum) s
/-- VSCAN.MIN (R160). -/
def execVscanMin (o : OpV2) (s : State) : Out := vec (.vscanMin o) (scan o .min) s
/-- VSCAN.MAX (R160). -/
def execVscanMax (o : OpV2) (s : State) : Out := vec (.vscanMax o) (scan o .max) s
/-- VSCAN.AND (R160). -/
def execVscanAnd (o : OpV2) (s : State) : Out := vec (.vscanAnd o) (scan o .and) s
/-- VSCAN.OR (R160). -/
def execVscanOr (o : OpV2) (s : State) : Out := vec (.vscanOr o) (scan o .or) s
/-- VSCAN.XOR (R160). -/
def execVscanXor (o : OpV2) (s : State) : Out := vec (.vscanXor o) (scan o .xor) s

/-- VGRED (R161): a group with an element to write raises its flags, which belong to its lowest active element. -/
def groupReduce (o : OpVG) (op : RedOp) : Member :=
  wholeMember (fun g s =>
    let v := { wenv o.x g s with fd := faOf o.x s.me }
    checked (redKind op) v.fa v.fd o.a.toNat [o.a.toNat] (fun s =>
      let n := 2 ^ o.g.toNat
      let all := allActive g s o.m
      let grp (e : Nat) : List Nat := all.filter (fun i => i / n == e / n)
      let res (e : Nat) : RItem :=
        (redTree v op ((grp e).length + 1) ((grp e).map (itemAt v o.a.toNat))).getD ⟨0, [], 0⟩
      let dest := bounded v.fd s (activesBy g v.fa s o.m)
      writeElems o.d.toNat v.fd dest (fun e => ((res e).x, (res e).fl)) (fun k e _ => v.planeOf (res e) k) s) s)

/-- VGRED.SUM (R161). -/
def execVgredSum (o : OpVG) (s : State) : Out := vec (.vgredSum o) (groupReduce o .sum) s
/-- VGRED.MIN (R161). -/
def execVgredMin (o : OpVG) (s : State) : Out := vec (.vgredMin o) (groupReduce o .min) s
/-- VGRED.MAX (R161). -/
def execVgredMax (o : OpVG) (s : State) : Out := vec (.vgredMax o) (groupReduce o .max) s
/-- VGRED.OR (R161). -/
def execVgredOr (o : OpVG) (s : State) : Out := vec (.vgredOr o) (groupReduce o .or) s

/-! ## Conversion and retagging (R162, R163) -/

/-- VCVT of one destination unit, primal (k = 0) or plane. -/
def cvtUnit (h : Hart) (sf df : Fmt) (rm : Nat) (sat4 : Bool) (r k e : Nat) : Nat × Flags :=
  let v := h.plane r k
  if k ≠ 0 ∧ (isInt sf || isInt df) then (0, 0)
  else if sf = df then (if isGx df then groupOf df v e else elemOf v (fmtBits df) e, 0)
  else if isGx df then
    let q := gxQuant df ((span (32 * e) 32).map (numAt sf v))
    (gxPack df q, q.fl)
  else if k = 0 then convert sf df rm sat4 (numAt sf v e)
  else roundTo df rm sat4 (Machine.rt (tanFmt df) rm (numAt sf v e))

/-- The source format of VCVT. -/
def cvtSource (o : OpV2) (g : Hart) : Fmt := if xfOf o.x then faOf o.x g else g.tag o.a.toNat

/-- Units of df that VCVT can form when `e` units of vs1 are there: a group takes 32 elements, a group of sf gives 32. -/
def cvtReady (o : OpV2) (s : State) (e : Nat) : Nat :=
  let sf := cvtSource o s.me
  let df := fdOf o.x s.me
  let r := o.a.toNat
  min (maskReady s df o.m e)
    (if isGx sf && !isGx df then bytesReady s r 32 (unitBytes sf) e
     else bytesReady s r 1 (if isGx df && !isGx sf then 32 * unitBytes sf else unitBytes sf) e)

/-- VCVT (R162): no tag check. -/
def execVcvt (o : OpV2) (s : State) : Out :=
  vec (.vcvt o) (scaledMember (cvtReady o) (fun g s =>
    let df := fdOf o.x s.me
    let u := cvtUnit g (cvtSource o g) df (rmOf o.x s.me) s.me.sate4 o.a.toNat
    writeUnits o.d.toNat df (bounded df s (activesBy g df s o.m)) (u 0) (fun k e => (u k e).1) s)) s

/-- VRETAG (R163): bytes copied under a new tag. -/
def execVretag (o : OpV2) (s : State) : Out :=
  vec (.vretag o) (scaledMember (fun s e =>
      let f := fdOf o.x s.me
      min (maskReady s f o.m e) (bytesReady s o.a.toNat 1 (unitBytes f) e)) (fun g s =>
    let f := fdOf o.x s.me
    let u (k e : Nat) : Nat :=
      if isGx f then groupOf f (g.plane o.a.toNat k) e else elemOf (g.plane o.a.toNat k) (fmtBits f) e
    writeUnits o.d.toNat f (bounded f s (activesBy g f s o.m)) (fun e => (u 0 e, 0)) u s)) s

/-! ## Funnel shifts and bit fields (R164, R165) -/

/-- The setting of a member whose result stands in its operating format. -/
def venvFa (x : Option Ext) (s : State) : VEnv := { venv x s with fd := faOf x s.me }

/-- A funnel shift of the pair vs1:vs2 by vs3. -/
def funnel (o : OpVX) (f : Nat → Nat → Nat → Nat) : Member :=
  eltIn (venvFa (some o.x)) .int o.d.toNat [o.a.toNat, o.b.toNat, o.x.vs3.toNat] o.m
    (fun v e =>
      let w := fmtBits v.fa
      let c := sourceBits v.h v.fa o.a.toNat 0 e * 2 ^ w + sourceBits v.h v.fa o.b.toNat 0 e
      (f w c (sourceBits v.h v.fa o.x.vs3.toNat 0 e % w) % 2 ^ w, 0)) (fun _ => zeroTan)

/-- VFUNR (R164). -/
def execVfunr (o : OpVX) (s : State) : Out := vec (.vfunr o) (funnel o (fun _ c n => c >>> n)) s

/-- VFUNL (R164). -/
def execVfunl (o : OpVX) (s : State) : Out := vec (.vfunl o) (funnel o (fun w c n => (c <<< n) >>> w)) s

/-- A field of `x` at `pos`, `width` bits, of an element of `w` bits (R165). -/
def extract (sgn : Bool) (w x pos width : Nat) : Nat :=
  let k := min width w
  let y := (x >>> pos) % 2 ^ k
  if sgn && decide (0 < k) && y.testBit (k - 1) then y + 2 ^ w - 2 ^ k else y

/-- VEXT and VEXT.S, positions per element from vs2 or uniform from imm32 (R165); GX in fd is refused too (R136). -/
def extMember (x : Option Ext) (d a : BitVec 6) (vs2 : Option (BitVec 6)) (m : BitVec 4) (sgn : Bool) (imm : Nat) : Member :=
  let rs := match vs2 with | none => [a.toNat] | some b => [a.toNat, b.toNat]
  fun s => checked .int (faOf x s.me) (fdOf x s.me) a.toNat rs (eltIn (venvFa x) .int d.toNat rs m
    (fun v e =>
      let q := match vs2 with | none => imm | some b => sourceBits v.h v.fa b.toNat 0 e
      (extract sgn (fmtBits v.fa) (sourceBits v.h v.fa a.toNat 0 e) (q % 64) (bitsOf q 13 8), 0)) (fun _ => zeroTan)) s

/-- VEXT, per element (R165). -/
def execVext (o : OpV) (s : State) : Out := vec (.vext o) (extMember o.x o.d o.a (some o.b) o.m false 0) s

/-- VEXT, uniform (R165). -/
def execVextUniform (o : OpV2X) (s : State) : Out :=
  vec (.vextUniform o) (extMember (some o.x) o.d o.a none o.m false o.x.imm32.toNat) s

/-- VEXT.S, per element (R165). -/
def execVextS (o : OpVX) (s : State) : Out :=
  vec (.vextS o) (extMember (some o.x) o.d o.a (some o.b) o.m true 0) s

/-- VEXT.S, uniform (R165). -/
def execVextSUniform (o : OpV2X) (s : State) : Out :=
  vec (.vextSUniform o) (extMember (some o.x) o.d o.a none o.m true o.x.imm32.toNat) s

end Sys2Proof.Machine
end

