-- ==== Sys2Proof/Machine/Tangent.lean ====
section
/-!
DEFINITION. DUAL, TSEED, TGET and TCLR (R235, R236, R242, R243).
-/
namespace Sys2Proof.Machine

/-- PLANES of the hart's launch. -/
def planesOf (s : State) : Nat := s.me.nplanes

/-- Illegal-instruction at word 0 of an instruction that names a plane above PLANES (R235). -/
def illegalPlane (s : State) (k : Nat) : Bool := decide (planesOf s < k)

/-- DUAL (R236): the count holds for the convoy that follows, whose restart address is that of DUAL. -/
def execDual (o : OpDual) (s : State) : Out :=
  if illegalPlane s o.n.toNat then .next (raise 0x01 s.me.pc s)
  else .next (s.setMe { s.me with dual := some (o.n.toNat, s.me.pc), pc := s.me.pc + 4 })

/-- A unit a register holds at the width of its tag. -/
def held (f : Fmt) (e : Nat) : Bool :=
  if isGx f then decide (e < 128 / gxLanes f) else decide (e < 8192 / fmtBits f)

/-- Active units, counted in CF, that a register holds at the width of a tag (R243). -/
def unitsHeld (f : Fmt) (s : State) (m : BitVec 4) : List Nat := (activesIn s.me.cf s m).filter (held f)

/-- As `unitsHeld`, by the masks of hart `g`. -/
def unitsHeldBy (g : Hart) (f : Fmt) (s : State) (m : BitVec 4) : List Nat := (activesBy g s.me.cf s m).filter (held f)

/-- Units of a register of format `f` written into `v`. -/
def putUnits (f : Fmt) (v : VReg) (l : List (Nat × Nat)) : VReg :=
  if isGx f then putGroups f v l else putElems v (fmtBits f) l

/-- TSEED (R243). -/
def execTseed (o : OpTan) (s : State) : Out :=
  if illegalPlane s o.k.toNat then .next (raise 0x01 s.me.pc s)
  else vec (.tseed o) (scaledMember
    (fun s e => min (maskReady s s.me.cf o.m e) (sourceReady s (s.me.tag o.d.toNat) o.a.toNat e)) (fun g s =>
    let h := s.me
    let f := h.tag o.d.toNat
    if !tagFits (g.tag o.a.toNat) f && !h.fconv then stopWith (.whole 0x03 (BitVec.ofNat 64 o.a.toNat)) s
    else
      let l := (unitsHeldBy g f s o.m).map (fun e => (e, unitAt g f o.a.toNat 0 e))
      s.setMe ((h.setPlane o.d.toNat o.k.toNat
        (putUnits f (h.plane o.d.toNat o.k.toNat) (l.map (fun p => (p.1, p.2.1))))).orFlags
          (allFlags (l.map Prod.snd))))) s

/-- Element or group `e` of a register's bits at a format. -/
def rawUnit (f : Fmt) (v : VReg) (e : Nat) : Nat := if isGx f then groupOf f v e else elemOf v (fmtBits f) e

/-- TGET (R243): the plane becomes the primal, and the planes in force of vd become +0. -/
def execTget (o : OpTan) (s : State) : Out :=
  if illegalPlane s o.k.toNat then .next (raise 0x01 s.me.pc s)
  else vec (.tget o) (fun s =>
    let h := s.me
    let f := h.tag o.a.toNat
    let es := unitsHeld f s o.m
    let d := o.d.toNat
    let src := h.plane o.a.toNat o.k.toNat
    let h1 := h.vset d (putUnits f (h.vget d) (es.map (fun e => (e, rawUnit f src e))))
    let h2 := mapPlanes h.planesInForce h1 (fun j g =>
      g.setPlane d j (putUnits f (g.plane d j) (es.map (fun e => (e, 0)))))
    s.setMe (h2.setTag d f)) s

/-- All-zero bits at the units of a register of format `f`. -/
def zeroUnits (f : Fmt) (v : VReg) (es : List Nat) : VReg :=
  es.foldl (fun v e => setElem v (if isGx f then gxBits f else fmtBits f) e 0) v

/-- TCLR (R243): k = 0 names planes 1 … PLANES. -/
def execTclr (o : OpTclr) (s : State) : Out :=
  if illegalPlane s o.k.toNat then .next (raise 0x01 s.me.pc s)
  else vec (.tclr o) (fun s =>
    let h := s.me
    let d := o.d.toNat
    let f := h.tag d
    let es := unitsHeld f s o.m
    let ks := if o.k = 0 then span 1 (planesOf s) else [o.k.toNat]
    s.setMe (ks.foldl (fun h j => h.setPlane d j (zeroUnits f (h.plane d j) es)) h)) s

end Sys2Proof.Machine
end

