-- ==== Sys2Proof/Machine/Window.lean ====
section
/-!
DEFINITION. The scalar full-empty instructions (R178, R179, R185), the window instructions (R187) and the cache
instructions (R188, R189).
-/
namespace Sys2Proof.Machine

/-- The pointer is in the scratchpad or cluster-shared window (R185). -/
def inScratch (a : Nat) : Bool := a >>> 60 == 2 || a >>> 60 == 3

/-- LDFE and LDFE.CLR: wait until the granule is full, read it, and clear it under .CLR. -/
def loadFe (o : BitVec 5 × BitVec 5 × BitVec 2 × BitVec 9) (x : Option Ext) (clr : Bool) (s : State) : Out :=
  scalar x s (fun s =>
    let n := 2 ^ o.2.2.1.toNat
    let a := dispAddr (s.me.reg o.2.1) o.2.2.2 n
    if !inScratch a then raise cSpace (BitVec.ofNat 64 a) s
    else match scalarLoc s s.cur a n n rR with
      | .error t => raise t.1 t.2 s
      | .ok l =>
        if eccHit s l.key n then raise cUncorrectable (BitVec.ofNat 64 a) s
        else
          let s1 := pin s l.key
          let gs := granules l.key n
          if feReady s1 gs clr then
            let v := s1.mem.load l.key n
            (if clr then setEmpty s1 gs else s1).wr (lenOf x) o.1 (BitVec.ofNat 64 v)
          else (s1.setMe { s1.me with await := some { granules := gs, clr := clr } }).hold wFull)

/-- LDFE (R185). -/
def execLdfe (o : OpFE) (s : State) : Out := loadFe (o.d, o.a, o.s, o.p) o.x false s

/-- LDFE.CLR (R179). -/
def execLdfeClr (o : OpFEX) (s : State) : Out := loadFe (o.d, o.a, o.s, o.p) (some o.x) true s

/-- STFE (R185): stores and makes the granule full; it does not wait. -/
def execStfe (o : OpFE) (s : State) : Out :=
  scalarE o.x s (fun s =>
    let n := 2 ^ o.s.toNat
    let a := dispAddr (s.me.reg o.a) o.p n
    if !inScratch a then .error (raise cSpace (BitVec.ofNat 64 a) s)
    else match scalarStore s a n n (s.me.reg o.d).toNat with
      | .error t => .error t
      | .ok t => match scalarLoc s s.cur a n n rW with
        | .error _ => .error t
        | .ok l => .ok ((setFull t l.key n).retire (lenOf o.x)))

/-- SPCTEST (R187). -/
def execSpctest (o : OpDA) (s : State) : Out :=
  scalar o.x s (fun s => s.wr (lenOf o.x) o.d ((s.me.reg o.a) >>> 60))

/-- Bits of an offset by window (R187). -/
def windowBits (w : Nat) : Nat :=
  match w with | 0 => 60 | 1 => 32 | 2 => 24 | 3 => 24 | _ => 48

/-- SPCCAST.TO (R187): the offset, when the pointer is of window w. -/
def execSpccastTo (o : OpR) (s : State) : Out :=
  scalar o.x s (fun s =>
    let a := s.me.reg o.a
    let w := o.b.toNat
    if a.toNat >>> 60 ≠ w ∨ (w = 2 ∧ bitsOf a.toNat 55 48 ≠ (readCsr s 0x041).toNat) then raise cSpace a s
    else s.wr (lenOf o.x) o.d (zext64 (windowBits w) a.toNat))

/-- SPCCAST.FROM (R187): a pointer of window w. -/
def execSpccastFrom (o : OpR) (s : State) : Out :=
  scalar o.x s (fun s =>
    let a := (s.me.reg o.a).toNat
    let v := match o.b.toNat with
      | 0 => 0x0FFF <<< 48 + bitsOf a 41 0
      | 1 => 1 <<< 60 + bitsOf a 31 0
      | 2 => 2 <<< 60 + (readCsr s 0x041).toNat <<< 48 + bitsOf a 23 0
      | 3 => 3 <<< 60 + bitsOf a 23 0
      | _ => 4 <<< 60 + bitsOf a 47 0
    s.wr (lenOf o.x) o.d (BitVec.ofNat 64 v))

/-- PREF.L1 (R188): raises nothing and changes no value. -/
def execPrefL1 (o : OpAP) (s : State) : Out := scalar o.x s (fun s => s.retire (lenOf o.x))

/-- PREF.L2 (R188). -/
def execPrefL2 (o : OpAP) (s : State) : Out := scalar o.x s (fun s => s.retire (lenOf o.x))

/-- The checks CLWB and CLINV make (R189): those of a scalar store without Align on the module's own global window,
those of the windows elsewhere. -/
def cacheCheck (s : State) (a : Nat) : Option Trap :=
  match windowOf s s.cur a 1 with
  | none => some (cSpace, BitVec.ofNat 64 a)
  | some (.pool _) => none
  | some (.glob p _) =>
    if p ≠ s.myPkg then none
    else match scalarLoc s s.cur a 1 1 rW with
      | .error t => some t
      | .ok _ => none

/-- The line of `a` in the own module's global window holds a byte that an entry of the hart in the side log covers, or
that a matrix command still reads: as a plain store to the line's bytes, CLWB and CLINV wait (R109, R177, R189). -/
def lineHeld (s : State) (a : Nat) : Bool :=
  match windowOf s s.cur a 1 with
  | some (.glob p _) => p == s.myPkg && (match scalarLoc s s.cur a 1 1 rW with
    | .error _ => false
    | .ok l =>
      let k := l.key - a % 1024
      ownLogCovers s s.cur ⟨k, l.glob.map (fun g => (g.1, g.2 - a % 1024))⟩ 1024 || matrixReads s.me k 1024)
  | _ => false

/-- CLWB (R189): no value changes. -/
def execClwb (o : OpAP) (s : State) : Out :=
  scalar o.x s (fun s =>
    let a := dispAddr (s.me.reg o.a) o.p 1
    match cacheCheck s a with
    | some t => raise t.1 t.2 s
    | none => if lineHeld s a then s.hold wStore else s.retire (lenOf o.x))

/-- CLINV (R189): on a scratchpad pointer of a core whose boundaries are unset it unpins the block (R171). -/
def execClinv (o : OpAP) (s : State) : Out :=
  scalar o.x s (fun s =>
    let a := dispAddr (s.me.reg o.a) o.p 1
    match cacheCheck s a with
    | some t => raise t.1 t.2 s
    | none =>
      if lineHeld s a then s.hold wStore
      else match windowOf s s.cur a 1 with
      | some (.pool k) =>
        let ck := (k - 2 ^ 60) / 2 ^ 23
        let c := s.core ck
        let blk := (k - 2 ^ 60) % 2 ^ 23 / 1024
        let b := poolKey ck (1024 * blk)
        (if a >>> 60 = 2 ∧ c.bnd0 = 0 ∧ c.bnd1 = 0 ∧ c.bnd2 = 0 then
          { s.setCore ck { c with pinned := c.pinned.filter (fun x => x != blk) } with
            mem := s.mem.clear b (b + 1024), fe := s.fe.clear (b / 16) (b / 16 + 64) }
        else s).retire (lenOf o.x)
      | some (.glob _ _) => s.retire (lenOf o.x)
      | none => s.retire (lenOf o.x))

end Sys2Proof.Machine
end

