-- ==== Sys2Proof/Machine/VMem.lean ====
section
/-!
DEFINITION. Vector loads and stores (R175-R184), VLDFE (R186), their planes (R240) and the replay of the side log (R368).
-/
namespace Sys2Proof.Machine

/-! ## One element -/

/-- Where an element lies: bytes found, piece by piece, or a pending unit. -/
inductive VPlace where
  | here (ps : List (Loc × Nat))
  | pending (pkg va : Nat)
  deriving DecidableEq, Repr

/-- Pieces of an access of `w` bytes: 8-byte lanes of a GX group, else the whole. -/
def lanesOf (w : Nat) : List (Nat × Nat) := if 8 < w then (span 0 (w / 8)).map (fun i => (8 * i, 8)) else [(0, w)]

/-- Pieces collected in order; a pending one makes the element pending. -/
def collect (s : State) (a al need : Nat) : List (Nat × Nat) → Except Trap VPlace
  | [] => .ok (.here [])
  | (i, n) :: r =>
    match vectorLoc s s.cur (a + i) n al need with
    | .error t => .error (t.1, BitVec.ofNat 64 a)
    | .ok (.pending p va) => (match collect s a al need r with | .error t => .error t | .ok _ => .ok (.pending p (va - i)))
    | .ok (.here l) => match collect s a al need r with
      | .error t => .error t
      | .ok (.pending p va) => .ok (.pending p va)
      | .ok (.here ls) => .ok (.here ((l, n) :: ls))

/-- The checks of R175 up to rights for `w` bytes at `a`, aligned to `al`. -/
def placeOf (s : State) (a w al need : Nat) : Except Trap VPlace :=
  match windowOf s s.cur a w with
  | none => .error (cSpace, BitVec.ofNat 64 a)
  | some _ => collect s a al need (lanesOf w)

/-- All checks of one access, the data check last. -/
def checkedPlace (s : State) (store : Bool) (w al : Nat) (a : Nat) : Except Trap VPlace :=
  match placeOf s a w al (if store then rW else rR) with
  | .error t => .error t
  | .ok (.pending p va) => .ok (.pending p va)
  | .ok (.here ps) =>
    if ps.any (fun p => if store then eccStoreHit s p.1.key p.2 else eccHit s p.1.key p.2) then
      .error (cUncorrectable, BitVec.ofNat 64 a)
    else .ok (.here ps)

/-- The primal address and those of planes 1 … n (R240). -/
def planeAddrs (s : State) (a : Nat) : List (Nat × Nat) :=
  (span 0 (s.me.planesInForce + 1)).map (fun k =>
    (k, if k = 0 then a else (a + (s.me.csr.toff.get k).toNat) % 2 ^ 64))

/-- The places of an element's accesses, or the first failure. -/
def placesOf (s : State) (store : Bool) (w al : Nat) : List (Nat × Nat) → Except Trap (List (Nat × VPlace))
  | [] => .ok []
  | (k, a) :: r => match checkedPlace s store w al a with
    | .error t => .error t
    | .ok p => match placesOf s store w al r with | .error t => .error t | .ok l => .ok ((k, p) :: l)

def VPlace.foreign (s : State) (p : VPlace) : Bool :=
  match p with
  | .here ps => ps.any (fun q => q.1.foreign s.myPkg)
  | .pending _ _ => false

def VPlace.isPending (p : VPlace) : Bool := match p with | .here _ => false | .pending _ _ => true

/-- The number of an access of the convoy: member, element, plane. -/
def accessNo (s : State) (e k : Nat) : Nat := (((s.cv.getD {}).idx * 1024 + e) * 5 + k) + 16

/-- A request for the pieces of an element. -/
def pieceRequest (s : State) (kind fn v : Nat) (ps : List (Loc × Nat)) : RemoteOp :=
  let w := ps.foldl (fun n p => n + p.2) 0
  let l := ((ps.head?).map Prod.fst).getD ⟨0, none⟩
  { request s kind l w fn v 0 with
    keys := ps.flatMap (fun p => keyRun p.1.key p.2)
    vas := ps.flatMap (fun p => match p.1.glob with | none => [] | some (_, va) => span va p.2) }

/-- The counter an SC element's request draws from: a plane draws no ticket (R240). -/
def ticketAt (s : State) (sc : Bool) (k : Nat) : Option Nat := if sc && k == 0 then some (ticketPkg s) else none

/-- Bytes of an element, piece by piece. -/
def readPieces (s : State) : List (Loc × Nat) → Nat
  | [] => 0
  | (l, n) :: r => readLoc s s.myCore s.me.ctx l n + 2 ^ (8 * n) * readPieces s r

def writePieces (s : State) : List (Loc × Nat) → Nat → State
  | [], _ => s
  | (l, n) :: r, v => writePieces (putMem (pin s l.key) l.key n v) r (v / 2 ^ (8 * n))

/-- The first request of an element that is not yet answered. -/
def unanswered (s : State) (e : Nat) (req : Nat → List (Loc × Nat) → RemoteOp) :
    List (Nat × VPlace) → Option (Option (Nat × RemoteOp))
  | [] => none
  | (k, p) :: r =>
    match p with
    | .pending _ _ => unanswered s e req r
    | .here ps =>
      if p.foreign s then
        match s.me.remote.find (accessNo s e k) with
        | none => some (some (accessNo s e k, req k ps))
        | some w => (match w.ready with | none => some none | some _ => unanswered s e req r)
      else unanswered s e req r

/-- The value of one access of a load whose requests are answered. -/
def loadedValue (s : State) (e k : Nat) (p : VPlace) : Nat :=
  match p with
  | .pending _ _ => 0
  | .here ps =>
    if p.foreign s then
      match s.me.remote.find (accessNo s e k) with
      | none => 0
      | some w => (w.ready.getD (0, 0)).1
    else readPieces s ps

/-- What a vector memory instruction does to its elements. -/
structure VAccess where
  f    : Fmt
  /-- Bytes of an element, its alignment. -/
  w    : Nat
  al   : Nat
  reg  : Nat
  addr : Nat
  sc   : Bool
  ordered : Bool
  deriving DecidableEq, Repr

/-- Element size of a format (R180). -/
def elemSize (f : Fmt) : Nat := if isGx f then 8 * gxLanes f else fmtBytes f
def elemAlign (f : Fmt) : Nat := if isGx f then 8 else fmtBytes f

/-- Loads element `e` from `a.addr` with its planes. The planes move whatever the format (log 32). -/
def loadElem (a : VAccess) (e : Nat) (s : State) : State :=
  match placesOf s false a.w a.al (planeAddrs s a.addr) with
  | .error t => stopWith (.atElem e t.1 t.2) s
  | .ok ps =>
    if ps.any (fun p => p.2.isPending) then stopWith (.waitAt e wUnit none) s
    else if a.sc && scOwed s (ticketPkg s) then stopWith (.waitAt e wOrder none) s
    else match unanswered s e (fun k q => { pieceRequest s 0 0 0 q with tick := ticketAt s a.sc k }) ps with
      | some req => stopWith (.waitAt e wRemote req) s
      | none =>
        let s1 := ps.foldl (fun t p => match p.2 with
          | .here l => l.foldl (fun t q => pin t q.1.key) t
          | .pending _ _ => t) s
        let h := ps.foldl (fun h p =>
          h.setPlane a.reg p.1 (putUnits a.f (h.plane a.reg p.1) [(e, loadedValue s1 e p.1 p.2)])) s1.me
        (drawHere s1 a.sc (ps.any (fun p => p.1 == 0 && p.2.foreign s))).setMe h

/-- The bytes element `e` of a store puts at plane k (R181, R184). -/
def storeData (a : VAccess) (h : Hart) (k e : Nat) : Nat × Flags :=
  let u := unitAt h a.f a.reg k e
  if isGx a.f then (putBits u.1 16 48 (fmtCode a.f), u.2) else u

/-- An entry of the side log. -/
def logEntry (s : State) (pkg a w v : Nat) (ord : Bool) (tick : Option Nat) : LogEntry where
  hart := s.cur
  ctx := s.me.ctx
  cls := s.me.cls
  pkg := pkg
  va := bitsOf a 41 0
  ptr := BitVec.ofNat 64 a
  born := s.seq
  data := bytesOf v w
  ord := ord
  tick := tick

/-- Room in the side log of 64 KiB for `n` entries of `w` bytes. -/
def hasLogRoom (s : State) (n w : Nat) : Bool :=
  decide (logUsed (s.core s.myCore).log + n * (16 + roundUp w 16) ≤ 65536)

/-- A store that must wait: an older log entry of the hart, or a matrix command, still needs the bytes (R177, R257). -/
def storeWaits (s : State) (p : VPlace) : Bool :=
  match p with
  | .pending _ _ => false
  | .here ps => ps.any (fun q => ownLogCovers s s.cur q.1 q.2 || matrixReads s.me q.1.key q.2)

/-- One access of a store: plane `k`. A plane has no place in the order of elements (R240). -/
def storeOne (a : VAccess) (k v : Nat) (p : VPlace) (s : State) : State :=
  match p with
  | .pending pkg va =>
    let c := s.core s.myCore
    s.setCore s.myCore { c with log := c.log ++ [logEntry s pkg va a.w v (a.ordered && k == 0) (ticketAt s a.sc k)] }
  | .here ps =>
    if p.foreign s then (if a.ordered && k == 0 then s else newRemote s (pieceRequest s 1 0 v ps))
    else writePieces s ps v

/-- An SC element may be performed, or take its ticket and enter the log: no access with an earlier ticket is still to be
performed, but for those that go before it through the log of its own core (R183). -/
def scTurn (s : State) (ps : List (Nat × VPlace)) : Bool :=
  !scOwedAt s (ticketPkg s) (fun ck _ => ck != s.myCore || !ps.any (fun p => p.1 == 0 && p.2.isPending))

/-- Stores element `e`, whose bytes are `data k`, with its planes. An ordered element whose unit is mapped waits for those in
the log (R182), its planes do not (R240); an SC element draws its ticket as it is performed or enters the log (R183). It
waits for no plain store of its hart (log 158), and where its own primal and planes overlap the higher plane wins (log 165).
-/
def storeElem (a : VAccess) (data : Nat → Nat) (e : Nat) (s : State) : State :=
  match placesOf s true a.w a.al (planeAddrs s a.addr) with
  | .error t => stopWith (.atElem e t.1 t.2) s
  | .ok ps =>
    if ps.any (fun p => storeWaits s p.2) then stopWith (.waitAt e wStore none) s
    else if a.ordered ∧ orderedPending s s.cur ∧ ps.any (fun p => p.1 == 0 && !p.2.isPending) then stopWith (.waitAt e wOrder none) s
    else if a.sc && !scTurn s ps then stopWith (.waitAt e wOrder none) s
    else if !hasLogRoom s (ps.filter (fun p => p.2.isPending)).length a.w ∧ ps.any (fun p => p.2.isPending) then
      stopWith (.waitAt e wLog none) s
    else match (if a.ordered then unanswered s e (fun k q =>
          { pieceRequest s 2 8 (data k) q with tick := ticketAt s a.sc k }) (ps.filter (fun p => p.1 == 0)) else none) with
      | some req => stopWith (.waitAt e wRemote req) s
      | none =>
        let s1 := ps.foldl (fun t p => storeOne a p.1 (data p.1) p.2 t) s
        drawHere s1 a.sc (ps.any (fun p => p.1 == 0 && p.2.foreign s))

/-- Elements one after another, up to a stop. -/
def overElems (f : Nat → State → State) : List Nat → State → State
  | [], s => s
  | e :: r, s =>
    let t := f e s
    match stopOf t with
    | some _ => t
    | none => overElems f r t

/-! ## Addressing (R180) -/

/-- The three addressing modes. -/
inductive VMode where
  | unit
  | strided
  | twoD
  deriving DecidableEq, Repr

/-- Operands of a vector memory instruction: mode, register, sa, sb, mask, extended field. -/
structure VMemOp where
  mode : VMode
  d : BitVec 6
  a : BitVec 5
  b : BitVec 5
  m : BitVec 4
  x : Option Ext
  deriving DecidableEq, Repr

def opM (o : OpM) (mode : VMode) : VMemOp := ⟨mode, o.d, o.a, o.b, o.m, o.x⟩
def opMX (o : OpMX) : VMemOp := ⟨.twoD, o.d, o.a, o.b, o.m, some o.x⟩

/-- Addr(e), or none outside Takes. -/
def addrOf (o : VMemOp) (h : Hart) (w e : Nat) : Option Nat :=
  let a := (h.reg o.a).toNat
  let b := h.reg o.b
  let imm := match o.x with | none => 0 | some x => x.imm32.toNat
  match o.mode with
  | .unit => some ((a + b.toNat + e * w) % 2 ^ 64)
  | .strided => some (addr64 (a + (e : Int) * b.toInt))
  | .twoD =>
    let n := b.toNat
    if n = 0 ∨ imm >>> 16 ≤ e / n then none
    else some ((a + e / n * (imm % 65536) + e % n * w) % 2 ^ 64)

/-- The active elements that take part, by the masks of hart `g`. -/
def memElems (g : Hart) (o : VMemOp) (f : Fmt) (s : State) : List Nat :=
  (activesBy g f s o.m).filter (fun e => (addrOf o s.me (elemSize f) e).isSome)

def vaccess (o : VMemOp) (f : Fmt) (h : Hart) (sc ordered : Bool) (e : Nat) : VAccess :=
  ⟨f, elemSize f, elemAlign f, o.d.toNat, (addrOf o h (elemSize f) e).getD 0, sc, ordered⟩

/-- A vector load whose elements `elem` loads (R181). -/
def loadBy (elem : VAccess → Nat → State → State) (o : VMemOp) (sc ordered : Bool) : Member :=
  scaledMember (fun s e => maskReady s (fdOf o.x s.me) o.m e) (fun g s =>
    let f := fdOf o.x s.me
    let t := overElems (fun e s => elem (vaccess o f s.me sc ordered e) e s) (memElems g o f s) s
    match stopOf t with
    | some _ => t
    | none => t.setMe (t.me.setTag o.d.toNat f))

/-- A vector store whose elements `elem` stores (R181): the tag of vs is checked against fa. -/
def storeBy (elem : VAccess → (Nat → Nat) → Nat → State → State) (o : VMemOp) (sc ordered : Bool) : Member :=
  scaledMember (fun s e =>
    let f := faOf o.x s.me
    min (maskReady s f o.m e) (sourceReady s f o.d.toNat e)) (fun h s =>
    let f := faOf o.x s.me
    match badSource .any f h [o.d.toNat] with
    | some r => stopWith (.whole 0x03 (BitVec.ofNat 64 r)) s
    | none =>
      overElems (fun e s =>
        let a := vaccess o f h sc ordered e
        let t := elem a (fun k => (storeData a h k e).1) e s
        match stopOf t with
        | some _ => t
        | none => t.setMe (t.me.orFlags (storeData a h 0 e).2)) (memElems h o f s) s)

/-- A vector load (R181). -/
def loadMember (o : VMemOp) (sc ordered : Bool) : Member := loadBy loadElem o sc ordered
/-- A vector store (R181). -/
def storeMember (o : VMemOp) (sc ordered : Bool) : Member := storeBy storeElem o sc ordered

/-- VLD (R181). -/
def execVld (o : OpM) (s : State) : Out := vec (.vld o) (loadMember (opM o .unit) false false) s
/-- VLD.STR (R181). -/
def execVldStr (o : OpM) (s : State) : Out := vec (.vldStr o) (loadMember (opM o .strided) false false) s
/-- VLD.2D (R181). -/
def execVld2d (o : OpMX) (s : State) : Out := vec (.vld2d o) (loadMember (opMX o) false false) s
/-- VST (R181). -/
def execVst (o : OpM) (s : State) : Out := vec (.vst o) (storeMember (opM o .unit) false false) s
/-- VST.STR (R181). -/
def execVstStr (o : OpM) (s : State) : Out := vec (.vstStr o) (storeMember (opM o .strided) false false) s
/-- VST.2D (R181). -/
def execVst2d (o : OpMX) (s : State) : Out := vec (.vst2d o) (storeMember (opMX o) false false) s
/-- VLDO (R182). -/
def execVldo (o : OpM) (s : State) : Out := vec (.vldo o) (loadMember (opM o .unit) false true) s
/-- VLDO.STR (R182). -/
def execVldoStr (o : OpM) (s : State) : Out := vec (.vldoStr o) (loadMember (opM o .strided) false true) s
/-- VLDO.2D (R182). -/
def execVldo2d (o : OpMX) (s : State) : Out := vec (.vldo2d o) (loadMember (opMX o) false true) s
/-- VSTO (R182). -/
def execVsto (o : OpM) (s : State) : Out := vec (.vsto o) (storeMember (opM o .unit) false true) s
/-- VSTO.STR (R182). -/
def execVstoStr (o : OpM) (s : State) : Out := vec (.vstoStr o) (storeMember (opM o .strided) false true) s
/-- VSTO.2D (R182). -/
def execVsto2d (o : OpMX) (s : State) : Out := vec (.vsto2d o) (storeMember (opMX o) false true) s
/-- VLDSC (R183). -/
def execVldsc (o : OpM) (s : State) : Out := vec (.vldsc o) (loadMember (opM o .unit) true true) s
/-- VLDSC.STR (R183). -/
def execVldscStr (o : OpM) (s : State) : Out := vec (.vldscStr o) (loadMember (opM o .strided) true true) s
/-- VLDSC.2D (R183). -/
def execVldsc2d (o : OpMX) (s : State) : Out := vec (.vldsc2d o) (loadMember (opMX o) true true) s
/-- VSTSC (R183). -/
def execVstsc (o : OpM) (s : State) : Out := vec (.vstsc o) (storeMember (opM o .unit) true true) s
/-- VSTSC.STR (R183). -/
def execVstscStr (o : OpM) (s : State) : Out := vec (.vstscStr o) (storeMember (opM o .strided) true true) s
/-- VSTSC.2D (R183). -/
def execVstsc2d (o : OpMX) (s : State) : Out := vec (.vstsc2d o) (storeMember (opMX o) true true) s

/-- Selected bytes 0 … VL × w - 1 of a register, stored by `elem` with no tag or alignment check. -/
def bytesBy (elem : VAccess → (Nat → Nat) → Nat → State → State) (o : OpM) : Member := fun s =>
  let h := s.me
  let base := (h.reg o.a).toNat + (h.reg o.b).toNat
  let bs := (elemsUpTo s (h.csr.vl * elemSize h.cf)).filter (selects s o.m)
  overElems (fun b s =>
    elem ⟨.u8, 1, 1, o.d.toNat, (base + b) % 2 ^ 64, false, false⟩
      (fun k => elemOf (h.plane o.d.toNat k) 8 b) b s) bs s

/-- VSTB (R184). -/
def execVstb (o : OpM) (s : State) : Out := vec (.vstb o) (bytesBy storeElem o) s

/-! ## VLDFE (R186) -/

/-- Where the primal of element `e` lies. -/
def elemPieces (s : State) (o : VMemOp) (f : Fmt) (e : Nat) : List (Loc × Nat) :=
  match placeOf s ((addrOf o s.me (elemSize f) e).getD 0) (elemSize f) (elemAlign f) rR with
  | .error _ => []
  | .ok (.pending _ _) => []
  | .ok (.here ps) => ps

/-- The granules it touches, and the first byte of each of its pieces. -/
def elemGranules (s : State) (o : VMemOp) (f : Fmt) (e : Nat) : List Nat :=
  (elemPieces s o f e).flatMap (fun p => granules p.1.key p.2)
def elemKeys (s : State) (o : VMemOp) (f : Fmt) (e : Nat) : List Nat := (elemPieces s o f e).map (fun p => p.1.key)

/-- The first failure of the checks of VLDFE's elements. -/
def feTrap (s : State) (o : VMemOp) (f : Fmt) : List Nat → Option Trap
  | [] => none
  | e :: r =>
    let a := (addrOf o s.me (elemSize f) e).getD 0
    if !inScratch a then some (cSpace, BitVec.ofNat 64 a)
    else match placesOf s false (elemSize f) (elemAlign f) (planeAddrs s a) with
      | .error t => some t
      | .ok _ => feTrap s o f r

/-- What the elements still lack besides full granules, as one set: the mapping of a plane's unit, or a plane's value on
another module (R173, R176, R186). -/
def feLacks (s : State) (o : VMemOp) (f : Fmt) : List Nat → Option (Nat × Option (Nat × RemoteOp))
  | [] => none
  | e :: r =>
    match placesOf s false (elemSize f) (elemAlign f) (planeAddrs s ((addrOf o s.me (elemSize f) e).getD 0)) with
    | .error _ => feLacks s o f r
    | .ok ps =>
      if ps.any (fun p => p.2.isPending) then some (wUnit, none)
      else match unanswered s e (fun _ q => pieceRequest s 0 0 0 q) ps with
        | some q => some (wRemote, q)
        | none => feLacks s o f r

/-- VLDFE: every check, then every granule full and every plane at hand, then the reads in one step; under .CLR each
granule is emptied once every element that touches it is read. -/
def feMember (o : VMemOp) (clr : Bool) : Member := wholeMember (fun g s =>
  let f := fdOf o.x s.me
  let all := (range s.me.csr.vstart s.me.csr.vl).filter (pickedBy g f o.m)
  match feTrap s o f all with
  | some t => stopWith (.atElem s.me.csr.vstart t.1 t.2) s
  | none =>
    let ks := all.flatMap (elemKeys s o f)
    let gs := all.flatMap (elemGranules s o f)
    if !feReady (ks.foldl pin s) gs clr then stopWith (.wait ks { granules := gs, clr := clr }) s
    else match feLacks s o f all with
    | some (kind, q) => stopWith (.waitAt s.me.csr.vstart kind q) s
    | none =>
      let es := memElems g o f s
      let t := overElems (fun e s => loadElem (vaccess o f s.me false false e) e s) es s
      match stopOf t with
      | some _ => t
      | none =>
        let rest := (all.filter (fun e => !es.contains e)).flatMap (elemGranules s o f)
        let gs := (es.flatMap (elemGranules s o f)).filter (fun g => !rest.contains g)
        (if clr then setEmpty t gs else t).setMe (t.me.setTag o.d.toNat f))

/-- VLDFE (R186). -/
def execVldfe (o : OpM) (s : State) : Out := vec (.vldfe o) (feMember (opM o .unit) false) s

/-- VLDFE.CLR (R186). -/
def execVldfeClr (o : OpMX) (s : State) : Out :=
  vec (.vldfeClr o) (feMember ⟨.unit, o.d, o.a, o.b, o.m, some o.x⟩ true) s

/-! ## The side log (R177, R368) -/

/-- The physical key of a byte under the vector table of a module, when its unit is mapped with W. -/
def replayKey (s : State) (pkg slot owner va : Nat) : Option Nat :=
  let e := vhtEntry s pkg slot va
  let pa := (bitsOf e 41 25) <<< 25 + va % 2 ^ 25
  if e % 4 = 1 ∧ e.testBit 3 ∧ physOk pa then some (physKey owner pa) else none

/-- An entry may not be performed yet: an ordered or SC element before it is still on its way to another module (R182, R183). -/
def replayWaits (s : State) (e : LogEntry) : Bool :=
  s.remote.any (fun p => p.2.state == 0 &&
    ((e.ord && p.2.ord && p.2.hart == e.hart) || (e.tick.isSome && p.2.logged && p.2.tick == e.tick)))

/-- SIDE_LOG_REPLAY (R368): the oldest entry of a core's log is performed, once its unit is mapped with W. -/
def execSideLogReplay (ck : Nat) (s : State) : Out :=
  .next (match (s.core ck).log with
    | [] => s
    | e :: r =>
      let ks := (span 0 e.data.length).map (fun i => replayKey s (corePkg ck) e.ctx e.pkg (e.va + i))
      if ks.any (fun k => k.isNone) ∨ replayWaits s e then s
      else if keysBad s [] (ks.filterMap id) then s
      else
        let keys := ks.filterMap id
        let s1 := s.setCore ck { s.core ck with log := r }
        if e.pkg = corePkg ck then putBytes s1 keys e.data
        else
          newRemote s1 { hart := e.hart, core := ck, pkg := e.pkg, keys := keys, kind := 1, fn := 0,
                         val := ofBytes e.data, cmp := 0, state := 0, result := 0, flags := 0, born := e.born
                         slot := e.ctx, vas := span e.va e.data.length, logged := true, ord := e.ord, tick := e.tick })

end Sys2Proof.Machine
end

