-- ==== Sys2Proof/Machine/Copy.lean ====
section
/-!
DEFINITION. The copy engine: LNSET, CPY, CPYR, CPYX (R218-R233) and its steps COPY_PERFORMED, COPY_FAIL, COPY_COMPLETE.
-/
namespace Sys2Proof.Machine

/-! ## Issue -/

/-- LNSET (R230): the level stands in the sd field. It belongs to no class of the matrices (R234): it waits for no access and
none waits for it. -/
def execLnset (o : OpR) (s : State) : Out :=
  vecAlone (.lnset o) s (fun s =>
    let h := s.me
    let b := h.reg o.b
    let c := if subOf o.x = 1 then (match o.x with | none => b | some x => h.reg (scOf x)) else b
    (s.setMe { h with ln := h.ln.put o.d.toNat ⟨BitVec.ofNat 32 (h.reg o.a).toNat, b, c⟩ }).vretire (lenOf o.x))

/-- The deadline of a copy or collective (R331). -/
def deadlineOf (s : State) : Nat :=
  if s.me.csr.dln = 0 then (s.mod s.myPkg).gtime + 1000000 else s.me.csr.dln.toNat

/-- Token k takes new work, once it is complete (R222). CPY, CPYR and CPYX are of the class copy issue (R234): as issue they
retire at once, and no later access, release or fence waits for their engine's steps (R197 note 6). -/
def issueToken (k len : Nat) (work : State → State × Work) (bobj : Option W64) (s : State) : State :=
  match gate (2 ^ k) s with
  | .error t => t
  | .ok s =>
    let r := work s
    let s1 := r.1
    let t : Token := { pending := true, work := some r.2, bobj := bobj, seq := s1.seq, deadline := deadlineOf s1 }
    ((s1.setMe (s1.me.setToken k t)).bump).vretire len

/-- The captured nest, innermost first (R219). -/
def nestOf (h : Hart) (d : Nat) : List LnReg := (span 0 d).map (fun l => h.ln.getD l {})

/-- CPY (R231). -/
def execCpy (o : OpABX) (s : State) : Out :=
  vecAlone (.cpy o) s (fun s =>
    let h := s.me
    let imm := o.x.imm32.toNat
    let sc := scOf o.x
    issueToken (bitsOf imm 18 16) 12
      (fun s => (s, .bytes (h.reg o.a) (h.reg o.b) (bitsOf imm 12 0) (nestOf h (bitsOf imm 15 13))))
      (if sc = 0 then none else some (h.reg sc)) s)

/-- CPYR mode 00 (R232): the destination tags become CF at issue. -/
def execCpyrLoad (o : OpCpyR) (s : State) : Out :=
  vecAlone (.cpyrLoad o) s (fun s =>
    let imm := o.x.imm32.toNat
    let c := bitsOf imm 3 0
    issueToken (bitsOf imm 6 4) 12
      (fun s =>
        let h := s.me
        (s.setMe ((regRun o.d.toNat c).foldl (fun g r => g.setTag r h.cf) h),
          .regIn o.d.toNat c (h.reg o.a + h.reg o.b))) none s)

/-- CPYR mode 01 and CPYX issue while an earlier CPYR still brings groups of their registers in; they wait only for a
collective that holds one (R226, R328). -/
def issueOver (i : Instr) (s : State) (k : State → State) : Out :=
  gated (instrWtk i) s (fun s => if collHolds s (regsOf i) then s.hold wStore else k s)

/-- CPYR mode 01 (R232): the registers, whose groups that an earlier CPYR still brings in are read as they come (R226). -/
def execCpyrStore (o : OpCpyR) (s : State) : Out :=
  issueOver (.cpyrStore o) s (fun s =>
    let imm := o.x.imm32.toNat
    let c := bitsOf imm 3 0
    issueToken (bitsOf imm 6 4) 12
      (fun s => (s, .regOut o.d.toNat c (s.me.reg o.a + s.me.reg o.b)
        ((regRun o.d.toNat c).map s.me.vget))) none s)

/-- The member a CPYX operand names (R227): a hart of the launch on the module, its team placed or away. -/
def cpyxTarget (s : State) (b : Nat) : Option Nat :=
  let core := bitsOf b 10 3
  if b >>> 11 ≠ 0 ∨ 191 < core ∨ s.me.system then none
  else match memberAt s s.me.launch (s.myPkg * 256 + core) (b % 8) with
    | none => none
    | some mid => if memberPkg s s.me.launch mid = s.myPkg then some mid else none

/-- CPYX (R233). -/
def execCpyx (o : OpCpyX) (s : State) : Out :=
  issueOver (.cpyx o) s (fun s =>
    let imm := o.x.imm32.toNat
    let c := bitsOf imm 3 0
    issueToken (bitsOf imm 6 4) 12
      (fun s => (s, .regX o.d.toNat c (cpyxTarget s (s.me.reg o.b).toNat)
        ((regRun o.d.toNat c).map (fun r => (s.me.vget r, s.me.tags.get r))))) none s)

/-! ## The copies of a token -/

/-- The iterations of a nest (R219). -/
def nestCount (l : List LnReg) : Nat := l.foldl (fun n r => n * r.count.toNat) 1

/-- The offset of iteration j on one side. -/
def nestOffset (stride : LnReg → W64) : List LnReg → Nat → Int
  | [], _ => 0
  | r :: l, j => ((j % r.count.toNat : Nat) : Int) * (stride r).toInt + nestOffset stride l (j / r.count.toNat)

/-- Copies or groups of a token's work; engines of other chapters count their own. -/
def copyCount (w : Work) : Nat :=
  match w with
  | .bytes _ _ _ l => nestCount l
  | .regIn _ c _ => 16 * c
  | .regOut _ c _ _ => 16 * c
  | .regX _ c _ _ => 16 * c
  | .gather _ _ => 0

/-- Source and destination of copy j in memory: address and bytes. -/
def copySides (w : Work) (j : Nat) : Option (Nat × Nat) × Option (Nat × Nat) :=
  match w with
  | .bytes a b e l =>
    (some (addr64 (a.toNat + nestOffset LnReg.sstr l j), e), some (addr64 (b.toNat + nestOffset LnReg.dstr l j), e))
  | .regIn _ _ a => (some (addr64 (a.toNat + 64 * j), 64), none)
  | .regOut _ _ a _ => (none, some (addr64 (a.toNat + 64 * j), 64))
  | .regX _ _ _ _ => (none, none)
  | .gather _ _ => (none, none)

/-- The byte keys of an engine access of `n` bytes at `a` with the tables of a hart: window at its first and last byte,
then scalar translation byte by byte. -/
def engineKeys (s : State) (hk a n need : Nat) : Except Trap (List Nat) :=
  match windowOf s hk a n with
  | none => .error (cSpace, BitVec.ofNat 64 a)
  | some _ => (span 0 n).reverse.foldl (fun acc i => match scalarLoc s hk (a + i) 1 1 need with
      | .error t => .error t
      | .ok l => (match acc with | .error t => .error t | .ok ks => .ok (l.key :: ks))) (.ok [])

/-- A 32 MiB unit that the access touches is pending (R221). -/
def engineHeld (s : State) (hk a n : Nat) : Bool :=
  let h := s.hart hk
  a >>> 60 == 0 && !h.system && (unitState s (pkgOf hk) h.ctx (bitsOf a 41 0) == 3 ||
    unitState s (pkgOf hk) h.ctx (bitsOf (a + n - 1) 41 0) == 3)

/-- The check of copy j: its failure, or the keys of its two sides. Checking the source wholly before the destination, Align
before Window for a CPYR and address 0 for a CPYX that fails with Space are the model's choices (logs 159, 160, 161). -/
def copyCheck (s : State) (hk : Nat) (w : Work) (j : Nat) : Except Trap (List Nat × List Nat) :=
  let misaligned : Option W64 := match w with
    | .regIn _ _ a => if a.toNat % 8 ≠ 0 then some a else none
    | .regOut _ _ a _ => if a.toNat % 8 ≠ 0 then some a else none
    | .bytes _ _ _ _ => none
    | .regX _ _ _ _ => none
    | .gather _ _ => none
  let target : Option W64 := match w with
    | .regX _ _ m _ => (match m with
      | none => some 0
      | some mid => (match s.launches.find (s.hart hk).launch with
        | none => some 0
        | some l => if exited l mid then some 0 else none))
    | .regIn _ _ _ => none
    | .regOut _ _ _ _ => none
    | .bytes _ _ _ _ => none
    | .gather _ _ => none
  let p := copySides w j
  let side (q : Option (Nat × Nat)) (need : Nat) : Except Trap (List Nat) :=
    match q with | none => .ok [] | some (a, n) => engineKeys s hk a n need
  match misaligned, target with
  | some a, _ => .error (cAlign, a)
  | none, some a => .error (cSpace, a)
  | none, none => match side p.1 rR with
    | .error t => .error t
    | .ok ks => match side p.2 rW with
      | .error t => .error t
      | .ok kd => .ok (ks, kd)

/-- The engine holds copy j while a unit it touches is pending. -/
def copyHeld (s : State) (hk : Nat) (w : Work) (j : Nat) : Bool :=
  let p := copySides w j
  let side (q : Option (Nat × Nat)) : Bool := match q with | none => false | some (a, n) => engineHeld s hk a n
  side p.1 || side p.2

/-! ## The scoreboard (R228) -/

/-- The interval of byte keys of one side of a CPY or CPYR in a pool: first key and count. -/
def sideInterval (s : State) (hk : Nat) (w : Work) (dst : Bool) : Option (Nat × Nat) :=
  let base : Option (Nat × Int × Int) := match w with
    | .bytes a b e l =>
      let st := fun r => if dst then LnReg.dstr r else LnReg.sstr r
      let lo := l.foldl (fun (t : Int) r => t + min 0 (((r.count.toNat : Int) - 1) * (st r).toInt)) 0
      let hi := l.foldl (fun (t : Int) r => t + max 0 (((r.count.toNat : Int) - 1) * (st r).toInt)) 0
      some ((if dst then b else a).toNat, lo, hi + e)
    | .regIn _ c a => if dst then none else some (a.toNat, 0, 1024 * c)
    | .regOut _ c a _ => if dst then some (a.toNat, 0, 1024 * c) else none
    | .regX _ _ _ _ => none
    | .gather _ _ => none
  match base with
  | none => none
  | some (p, lo, hi) => match windowOf s hk p 1 with
    | some (.pool k) => if 2 ≤ p >>> 60 then some (((k : Int) + lo).toNat, (hi - lo).toNat) else none
    | some (.glob _ _) => none
    | none => none

/-- Two intervals share a byte. -/
def meets (a b : Nat × Nat) : Bool := decide (a.1 < b.1 + b.2) && decide (b.1 < a.1 + a.2)

/-- An earlier CPY or CPYR of the hart still covers bytes that a command numbered `seq` touches, one of the two writing. -/
def earlierCopy (s : State) (hk seq : Nat) (iv : Nat × Nat) (write : Bool) : Bool :=
  (s.hart hk).tokens.any (fun p => p.2.pending && decide (p.2.seq < seq) && (match p.2.work with
    | none => false
    | some w =>
      (match sideInterval s hk w true with | none => false | some v => meets v iv) ||
      (write && (match sideInterval s hk w false with | none => false | some v => meets v iv))))

/-- An earlier matrix command of the hart still reads bytes that a copy numbered `seq` writes. -/
def earlierMatrix (h : Hart) (seq : Nat) (iv : Nat × Nat) : Bool :=
  let hit (c : MCmd) : Bool := decide (c.seq < seq) && c.rd.any (fun r => meets r iv)
  (match h.att with | none => false | some a => a.queue.any hit) ||
    h.frozen.any (fun f => match f with | none => false | some a => a.queue.any hit)

/-- The scoreboard lets copy j of a token go. -/
def copyClear (s : State) (hk : Nat) (t : Token) (ks kd : List Nat) : Bool :=
  let run (l : List Nat) : Option (Nat × Nat) := match l with | [] => none | k :: _ => if inPool k then some (k, l.length) else none
  (match run ks with | none => true | some iv => !earlierCopy s hk t.seq iv false) &&
    (match run kd with
      | none => true
      | some iv => !earlierCopy s hk t.seq iv true && !earlierMatrix (s.hart hk) t.seq iv)

/-! ## The steps of the engine -/

/-- The work of the copy engine; the rest is the gather unit's. -/
def isCopy (w : Work) : Bool :=
  match w with
  | .bytes _ _ _ _ => true
  | .regIn _ _ _ => true
  | .regOut _ _ _ _ => true
  | .regX _ _ _ _ => true
  | .gather _ _ => false

/-- The hart of a copy token that is at work: as class copy issue its accesses come after every earlier access of the hart
(R234, R197 note 7). -/
def copying (s : State) (hk k : Nat) : Option (Hart × Token × Work) :=
  match s.harts.find hk with
  | none => none
  | some h =>
    let t := h.token k
    match t.work with
    | none => none
    | some w => if t.pending && isCopy w && earlierDone s hk t.seq then some (h, t, w) else none

/-- Every granule of the destination that copy j completes becomes full, once no other copy of the token has a byte of it
still to write, whether or not that copy could be performed now (R178). -/
def fillGranules (s : State) (hk : Nat) (w : Work) (done : List Nat) (kd : List Nat) : State :=
  let gs := ((kd.filter inPool).map (fun k => k / 16)).eraseDups
  let waits (g : Nat) : Bool := (span 0 (copyCount w)).any (fun i => !done.contains i && (match (copySides w i).2 with
    | none => false
    | some (a, n) => (match engineKeys s hk a n rW with | .error _ => false | .ok ks => ks.any (fun k => k / 16 == g))))
  { s with fe := (gs.filter (fun g => !waits g)).foldl (fun f g => Cells.set f g 1) s.fe }

/-- Group `j` of register `r` has come with value `x`: a CPYR mode 01 or CPYX issued after number `seq` that has yet to
read it reads it (R226). -/
def Token.reads (seq r j x : Nat) (t : Token) : Token :=
  let put (v : Nat) (f : VReg → VReg) (l : List VReg) : List VReg := l.mapIdx (fun i y => if v + i = r then f y else y)
  let set (y : VReg) : VReg := setElem y 512 j x
  if t.pending && decide (seq < t.seq) then
    match t.work with
    | some (.regOut v c a d) =>
      if t.done.contains (16 * (r - v) + j) then t else { t with work := some (.regOut v c a (put v set d)) }
    | some (.regX v c m d) =>
      if t.done.contains (16 * (r - v) + j) then t
      else { t with work := some (.regX v c m (List.zip (put v set (d.map Prod.fst)) (d.map Prod.snd))) }
    | _ => t
  else t

/-- CPYR mode 01 or CPYX token `t` has yet to read its group `j`, which an earlier CPYR brings in (R226). -/
def groupDue (h : Hart) (t : Token) (w : Work) (j : Nat) : Bool :=
  let due (v : Nat) : Bool := h.tokens.any (fun p => decide (p.2.seq < t.seq) && p.2.bringing h.mid (v + j / 16) (j % 16))
  match w with
  | .bytes _ _ _ _ => false
  | .regIn _ _ _ => false
  | .regOut v _ _ _ => due v
  | .regX v _ _ _ => due v
  | .gather _ _ => false

/-- The effect of copy j of the token numbered `seq`, its check passed. A CPYX gives its target the source's tag with each
group, the model's choice of moment (log 162). -/
def performCopy (s : State) (hk seq : Nat) (w : Work) (j : Nat) (ks kd : List Nat) : State :=
  match w with
  | .bytes _ _ _ _ => putBytes s kd (ks.map s.byteAt)
  | .regIn v _ _ =>
    let x := ofBytes (ks.map s.byteAt)
    let h := s.hart hk
    let r := v + j / 16
    s.setHart hk { h.vset r (setElem (h.vget r) 512 (j % 16) x) with
      tokens := h.tokens.map (fun p => (p.1, p.2.reads seq r (j % 16) x)) }
  | .regOut _ _ _ data =>
    let x := elemOf (data.getD (j / 16) 0) 512 (j % 16)
    putBytes s kd (bytesOf x 64)
  | .regX v _ m data =>
    (match m with
    | none => s
    | some mid =>
      let d := data.getD (j / 16) (0, 0)
      let r := v + j / 16
      updMember s (s.hart hk).launch mid (fun g =>
        { g.vset r (setElem (g.vget r) 512 (j % 16) (elemOf d.1 512 (j % 16))) with tags := g.tags.set r d.2 }))
  | .gather _ _ => s

/-- The last write of a copy performed after its deadline sets the launch's status bit (R331). -/
def copyDeadline (s : State) (hk : Nat) (t : Token) : State :=
  if t.deadline < (s.mod (pkgOf hk)).gtime then missDeadline s (s.hart hk).launch else s

/-- COPY_PERFORMED (R226, R219): copy or group j of a token, when its check and those of every copy below it pass, and
what lies on another module is reached and acknowledged (R221). -/
def execCopyPerformed (hk k j : Nat) (s : State) : Out :=
  .next (match copying s hk k with
    | none => s
    | some (h, t, w) =>
      if copyCount w ≤ j ∨ t.done.contains j ∨ copyHeld s hk w j ∨ groupDue h t w j then s
      else if (span 0 j).any (fun i => !t.done.contains i && (match copyCheck s hk w i with
          | .error _ => true | .ok _ => false)) then s
      else match copyCheck s hk w j with
        | .error _ => s
        | .ok (ks, kd) =>
          if keysBad s ks kd ∨ !copyClear s hk t ks kd ∨ !reachesAll s (pkgOf hk) (ks ++ kd) then s
          else
            let done := t.done ++ [j]
            let s0 := (ks ++ kd).foldl pin s
            let s1 := fillGranules (performCopy s0 hk t.seq w j ks kd) hk w done kd
            let s2 := s1.setHart hk ((s1.hart hk).setToken k { t with done := done })
            if done.length = copyCount w then copyDeadline s2 hk t else s2)

/-- COPY_FAIL (R224): copy j fails its check, and every copy below it is performed. -/
def execCopyFail (hk k j : Nat) (s : State) : Out :=
  .next (match copying s hk k with
    | none => s
    | some (h, t, w) =>
      if copyCount w ≤ j ∨ t.done.contains j ∨ copyHeld s hk w j ∨ (span 0 j).any (fun i => !t.done.contains i) then s
      else match copyCheck s hk w j with
        | .ok _ => s
        | .error e =>
          s.setHart hk (h.setToken k { t with pending := false, failed := true, failJ := j, cause := e.1, val := e.2 }))

/-- Bytes a CPY wrote (R219). -/
def copyBytes (w : Work) : Nat :=
  match w with
  | .bytes _ _ e l => e * nestCount l
  | .regIn _ _ _ => 0
  | .regOut _ _ _ _ => 0
  | .regX _ _ _ _ => 0
  | .gather _ _ => 0

/-- COPY_COMPLETE (R222, R223): every copy is performed; the barrier object's addition comes first. -/
def execCopyComplete (hk k : Nat) (s : State) : Out :=
  .next (match copying s hk k with
    | none => s
    | some (_, t, w) =>
      if t.done.length < copyCount w ∨ (copyBytes w ≠ 0 ∧ t.bobj.any (fun a => objectHeld s hk a.toNat)) then s
      else
        let r := match t.bobj with | none => (s, none) | some a => engineAdd s hk a.toNat (copyBytes w)
        r.1.setHart hk ((r.1.hart hk).setToken k { t with pending := false, work := none, owed := r.2 }))

end Sys2Proof.Machine
end

