-- ==== Sys2Proof/Machine/Block.lean ====
section
/-!
DEFINITION. Blocks that a vector-stream instruction reads or writes whole: runs of pool bytes (R259, R289), and blocks
in any window through the vector port (R289, R314).
-/
namespace Sys2Proof.Machine

/-! ## Pool bytes -/

/-- The runs of byte keys of `n` bytes at `a` in the scratchpad or cluster-shared window, cut at multiples of 1,024, or
the failing address. -/
def poolRuns (s : State) : Nat → Nat → Nat → Except Trap (List (Nat × Nat))
  | 0, _, _ => .ok []
  | f + 1, a, n =>
    if n = 0 then .ok []
    else
      let b := a % 2 ^ 64
      let m := min n (1024 - b % 1024)
      let here : Option Nat :=
        if !inScratch b then none
        else match windowOf s s.cur b m with | none => none | some (.glob _ _) => none | some (.pool k) => some k
      match here with
      | none => .error (cSpace, BitVec.ofNat 64 b)
      | some k => match poolRuns s f (b + m) (n - m) with | .error t => .error t | .ok l => .ok ((k, m) :: l)

/-- The runs of `n` bytes at `a` in one core's scratchpad part, or Space with the pointer (R167, R168). -/
def poolBytes (s : State) (a n : Nat) : Except Trap (List (Nat × Nat)) :=
  if (windowOf s s.cur (a % 2 ^ 64) n).isNone then .error (cSpace, BitVec.ofNat 64 a)
  else match poolRuns s (n / 1024 + 2) a n with
    | .error _ => .error (cSpace, BitVec.ofNat 64 a)
    | .ok l => .ok l

/-- Byte i of a list of runs. -/
def runKeyAt : List (Nat × Nat) → Nat → Nat
  | [], _ => 0
  | (k, n) :: r, i => if i < n then k + i else runKeyAt r (i - n)

/-- `n` bytes from byte `i` of a list of runs, as one number. -/
def readRuns (s : State) (rs : List (Nat × Nat)) (i n : Nat) : Nat :=
  ofBytes ((span i n).map (fun j => s.mem.get (runKeyAt rs j)))

/-- The low `n` bytes of `v` written over a list of runs. -/
def writeRuns (s : State) : List (Nat × Nat) → Nat → Nat → State
  | [], _, _ => s
  | (k, m) :: r, v, n =>
    if n = 0 then s
    else writeRuns (putMem s k (min m n) v) r (v / 2 ^ (8 * min m n)) (n - min m n)

/-- The first `n` bytes of a list of runs, and what follows byte `n`. -/
def takeRuns : List (Nat × Nat) → Nat → List (Nat × Nat)
  | [], _ => []
  | (k, m) :: r, n => if n = 0 then [] else (k, min m n) :: takeRuns r (n - min m n)

def dropRuns : List (Nat × Nat) → Nat → List (Nat × Nat)
  | [], _ => []
  | (k, m) :: r, n => if n < m then (k + n, m - n) :: r else dropRuns r (n - m)

/-- Two lists of runs share a byte. -/
def runsMeet (a b : List (Nat × Nat)) : Bool := a.any (fun x => b.any (meets x))

/-- The first address of `n` bytes at `a` whose unit holds an uncorrectable error. -/
def eccAddr (s : State) (rs : List (Nat × Nat)) (a n : Nat) : Option Nat :=
  if rs.any (fun r => eccHit s r.1 r.2) then
    ((span 0 n).find? (fun i => eccHit s (runKeyAt rs i) 1)).map (fun i => (a + i) % 2 ^ 64)
  else none

def pinRuns (s : State) (rs : List (Nat × Nat)) : State := rs.foldl (fun t r => pin t r.1) s

/-! ## Blocks through the vector port -/

/-- The places of the `el`-byte elements of a block of `n` bytes at `a`, aligned to `al`. -/
def blockPlaces (s : State) (store : Bool) (a n al el : Nat) : Except Trap (List VPlace) :=
  if n ≠ 0 ∧ (windowOf s s.cur (a % 2 ^ 64) n).isNone then .error (cSpace, BitVec.ofNat 64 a)
  else
    if a % al ≠ 0 then .error (cAlign, BitVec.ofNat 64 a)
    else (span 0 (n / el)).foldr (fun i (acc : Except Trap (List VPlace)) =>
      match checkedPlace s store el el ((a + el * i) % 2 ^ 64) with
      | .error t => .error t
      | .ok p => (match acc with | .error t => .error t | .ok l => .ok (p :: l))) (.ok [])

def VPlace.locs (p : VPlace) : List (Loc × Nat) := match p with | .here l => l | .pending _ _ => []

/-- The bytes of a block: access `j` of the instruction when it lies on another module. -/
def readBlock (s : State) (j a n al el : Nat) : Except State (State × Nat) :=
  match blockPlaces s false a n al el with
  | .error t => .error (raise t.1 t.2 s)
  | .ok ps =>
    if ps.any VPlace.isPending then .error (s.hold wUnit)
    else
      let ls := ps.flatMap VPlace.locs
      if ps.any (fun p => p.foreign s) then
        match s.me.remote.find j with
        | none => .error (ask s j (pieceRequest s 0 0 0 ls))
        | some w => (match w.ready with
          | none => .error (s.hold wRemote)
          | some r => .ok (s, r.1))
      else
        let s1 := ls.foldl (fun t p => pin t p.1.key) s
        .ok (s1, readPieces s1 ls)

/-- What an instruction under way has kept as access `j`: a block it has read, or one it is to write. -/
def captured (h : Hart) (j : Nat) : Option Nat := match h.remote.find j with | some ⟨_, some r⟩ => some r.1 | _ => none

/-- Keeps `v`, with a number `n`, as access `j`. -/
def State.capture (s : State) (j n v : Nat) : State :=
  s.setMe { s.me with remote := s.me.remote.put j ⟨n, some (v, 0)⟩ }

/-- What `r` reads, read once, however long the instruction then waits: access `j` keeps it. -/
def State.once (s : State) (j : Nat) (r : Except State (State × Nat)) : Except State (State × Nat) :=
  match captured s.me j with
  | some x => .ok (s, x)
  | none => match r with
    | .error t => .error t
    | .ok (t, x) => .ok (t.capture j 0 x, x)

/-- A block that the instruction reads once, through the vector port. -/
def readOnce (s : State) (j a n al el : Nat) : Except State (State × Nat) := s.once j (readBlock s j a n al el)

/-- The number of the next store of an instruction whose stores are under way: its wait record holds it and 1. -/
def storing (h : Hart) : Option Nat := match h.wait with | some ⟨_, i, 1⟩ => some i | _ => none

/-- Where a store of an instruction lies whose checks are behind it; nowhere when its bytes have gone since. -/
def placeAgain (s : State) (w a : Nat) : VPlace :=
  match placeOf s a w 1 0 with | .error _ => .here [] | .ok p => p

/-- Why a store of `w` bytes has to wait (R177, R257). -/
def storeBlocked (s : State) (w : Nat) (p : VPlace) : Option Nat :=
  if storeWaits s p then some wStore else if p.isPending && !hasLogRoom s 1 w then some wLog else none

/-- Stores (bytes, value, place), one after another, the first numbered `i`; where one has to wait, the hart does (R177). -/
def putFrom : List (Nat × Nat × VPlace) → Nat → State → Except State State
  | [], _, s => .ok s
  | (w, v, p) :: r, i, s => match storeBlocked s w p with
    | some k => .error (s.holdAt k i 1)
    | none => putFrom r (i + 1) (storeOne ⟨.u64, w, w, 0, 0, false, false⟩ 0 v p s)

/-- Stores (address, bytes, value) whose first time has checked places `ps`; they go on where they had to wait. -/
def putList (l : List (Nat × Nat × Nat)) (s : State) (ps : List VPlace) : Except State State :=
  match storing s.me with
  | none => putFrom ((List.zip l ps).map (fun p => (p.1.2.1, p.1.2.2, p.2))) 0 s
  | some i => putFrom ((l.drop i).map (fun p => (p.2.1, p.2.2, placeAgain s p.2.1 p.1))) i s

/-- A block of `n` bytes written with the bytes of `v`. -/
def writeBlock (s : State) (a n al el v : Nat) : Except State State :=
  let l := (span 0 (n / el)).map (fun i => ((a + el * i) % 2 ^ 64, el, v / 2 ^ (8 * el * i) % 2 ^ (8 * el)))
  match (if (storing s.me).isSome then .ok [] else blockPlaces s true a n al el) with
  | .error t => .error (raise t.1 t.2 s)
  | .ok ps => putList l s ps

/-- An instruction of `len` bytes that writes a block and retires once every byte of it is performed (R287, R313): its wait
record holds the number of its stores and 2. -/
def postBlock (s : State) (len a n v : Nat) : State :=
  match s.me.wait with
  | some ⟨16, q, 2⟩ => if earlierDone s s.cur q then s.vretire len else s
  | _ => match writeBlock s a n 8 8 v with
    | .error t => t
    | .ok t => if earlierDone t t.cur t.seq then t.vretire len else t.holdAt wExchange t.seq 2

/-- An instruction that posts a block which it forms once: `first` forms it, `n` bytes with value `v`, and goes on with
the rest; when it has been formed, the instruction goes on with what it formed. -/
def postOnce (s : State) (len a : Nat) (first : (Nat → Nat → State) → State) : State :=
  match s.me.remote.find 0 with
  | some ⟨n, some r⟩ => postBlock s len a n r.1
  | _ => first (fun n v => postBlock (s.capture 0 n v) len a n v)

end Sys2Proof.Machine
end

