-- ==== Sys2Proof/Machine/Merge.lean ====
section
/-!
DEFINITION. The merge network (R278-R285, R305, R306): destinations, the logical tree of switches, combining, slots,
hand-off and rerouting, the sample and the proposal. Everything a round delivers is a function of its streams.
-/
namespace Sys2Proof.Machine

/-! ## Merging (R278, R279) -/

/-- Splitters as a round reads them: one below its predecessor reads as its predecessor. -/
def ascending : Nat → List Nat → List Nat
  | _, [] => []
  | p, x :: r => max p x :: ascending (max p x) r

/-- The destination whose range holds a key. -/
def destOf (set : List Nat) (k : Nat) : Nat := set.countP (fun x => decide (x ≤ k))

/-- `a` goes ahead of the records of a list whose key is not below its own. -/
def mergeIn (a : Rec) (k : List Rec → List Rec) : List Rec → List Rec
  | [] => a :: k []
  | b :: s => if b.key < a.key then b :: mergeIn a k s else a :: k (b :: s)

/-- Two streams merged by key, the first ahead on equal keys. -/
def merge2 : List Rec → List Rec → List Rec
  | [], b => b
  | a :: r, b => mergeIn a (merge2 r) b

/-- Ports merged by key, lower port first. -/
def mergePorts (ps : List (List Rec)) : List Rec := ps.foldr merge2 []

/-- Records in ascending key, earlier first on equal keys. -/
def sortRecs (l : List Rec) : List Rec := l.foldr (fun x acc => merge2 [x] acc) []

/-! ## Combining (R280, R281) -/

def combOp (c : Nat) : Nat := if 4 < c % 8 then 0 else c % 8
def combFmt (c : Nat) : Fmt :=
  match bitsOf c 7 4 with | 8 => .f64 | 9 => .f32 | 10 => .bf16 | 0 => .i64 | 1 => .i32 | _ => .f32
def combExact (c : Nat) : Bool := c.testBit 8
def combPlanes (c : Nat) : Nat := min 4 (bitsOf c 11 9)

/-- The sum of one element over records in port order (R79, R78, R56). -/
def sumElem (f : Fmt) (exact : Bool) (xs : List Nat) : Nat :=
  let w := fmtBits f
  if isInt f then (xs.foldl (fun n x => n + x) 0) % 2 ^ w
  else if exact then (packVal f 0 false (exactSum (xs.map (decodeNum f)))).1
  else
    let g : Fmt := if f = .f64 then .f64 else .f32
    match xs.map (decodeNum f) with
    | [] => 0
    | x :: r =>
      let c := r.foldl (fun c y => decodeNum g (packVal g 0 false (numAdd 0 c y)).1) x
      (roundTo f 0 false c).1

/-- The number of the record whose element is the maximum, and the element (R59). -/
def maxElem (f : Fmt) (xs : List Nat) : Nat × Nat :=
  ((List.zip (span 0 xs.length) xs).foldl (fun (b : Option (Nat × Nat)) p => match b with
    | none => some p
    | some q =>
      let x := decodeNum f q.2
      let y := decodeNum f p.2
      let r := (packVal f 0 false (numMinMax true x y)).1
      some ((if keepsFirst true x y then q.1 else p.1), r)) none).getD (0, 0)

/-- Equal-length payloads combined element by element: 1 + t parts of whole elements; what is left over keeps the bytes
of the lowest port. -/
def combinePays (c : Nat) (ps : List (List Byte)) : List Byte :=
  let f := combFmt c
  let w := fmtBits f
  let xs := ps.map ofBytes
  let len := (ps.headD []).length
  let part := len / (1 + combPlanes c)
  let n := 8 * part / w
  let el (k e : Nat) (x : Nat) : Nat := (x >>> (8 * part * k + w * e)) % 2 ^ w
  let new (k e : Nat) : Nat :=
    if combOp c = 1 then sumElem f (combExact c) (xs.map (el k e))
    else
      let m := maxElem f (xs.map (el 0 e))
      if k = 0 then m.2 else el k e (xs.getD m.1 0)
  let x := (span 0 (1 + combPlanes c)).foldl (fun x k =>
    (span 0 n).foldl (fun x e => putBits x (8 * part * k + w * e) w (new k e)) x) (xs.headD 0)
  bytesOf x len

/-- The header of a combined record: the lowest port's, byte 11 the OR with CMB. -/
def combineHead (x : Rec) (r : List Rec) (pay : List Byte) : Rec :=
  if r.isEmpty then x
  else { x with ovf := (x :: r).any Rec.ovf, rrt := (x :: r).any Rec.rrt, cmb := true, pay := pay }

/-- Payloads joined in port order, cut at 4,096 bytes. -/
def joinRecs : Rec → List Rec → List Byte → List Rec → List Rec
  | x, used, pay, [] => [combineHead x used pay]
  | x, used, pay, y :: r =>
    if 4096 < pay.length + y.pay.length then combineHead x used pay :: joinRecs y [] y.pay r
    else joinRecs x (used ++ [y]) (pay ++ y.pay) r

/-- Records of one set combined. -/
def combineSet (c : Nat) : List Rec → List Rec
  | [] => []
  | x :: r =>
    match combOp c with
    | 0 => x :: r
    | 3 => [combineHead x r x.pay]
    | 4 => joinRecs x [] x.pay r
    | _ => if r.isEmpty then [x] else [combineHead x r (combinePays c ((x :: r).map Rec.pay))]

/-- Two neighbours in a switch's output combine. -/
def joins (c : Nat) (a b : Rec) : Bool :=
  combOp c != 0 && a.key == b.key && a.rnd == b.rnd && (combOp c == 4 || a.pay.length == b.pay.length)

/-- The maximal sets of a switch's output. -/
def setsOf (c : Nat) : List Rec → List (List Rec)
  | [] => []
  | x :: r =>
    match setsOf c r with
    | [] => [[x]]
    | g :: gs => match g with
      | [] => [x] :: gs
      | y :: _ => if joins c x y then (x :: g) :: gs else [x] :: g :: gs

/-- What one switch emits. -/
def switchOut (c : Nat) (ps : List (List Rec)) : List Rec := (setsOf c (mergePorts ps)).flatMap (combineSet c)

/-- Groups of 16, in order. -/
def chunks16 {α : Type} : Nat → List α → List (List α)
  | 0, _ => []
  | f + 1, l => if l.isEmpty then [] else l.take 16 :: chunks16 f (l.drop 16)

/-- The tree of switches over the streams. -/
def treeOut (c : Nat) : Nat → List (List Rec) → List Rec
  | 0, ps => switchOut c ps
  | f + 1, ps => if ps.length ≤ 16 then switchOut c ps else treeOut c f ((chunks16 ps.length ps).map (switchOut c))

/-! ## Dispatch records and the replica table (R304-R306) -/

/-- Two payload bytes counted from the end. -/
def tailU16 (x : Rec) (fromEnd : Nat) : Nat := ofBytes ((x.pay.drop (x.pay.length - fromEnd)).take 2)

/-- The expert of a dispatch record that has one. -/
def expertOf (x : Rec) : Option Nat := if x.kind = 1 ∧ x.key >>> 32 < 256 then some (x.key >>> 32) else none

/-- The version of a tag (R305): the oldest whose boundary is at or above it, or the newest. -/
def versionOf (vs : List Version) (tag : Nat) : Version :=
  match vs.find? (fun v => match v.boundary with | none => true | some b => decide (tag ≤ b)) with
  | some v => v
  | none => { entries := [], boundary := none }

/-- The entry of an expert in a version. -/
def replicaOf (g : Group) (v : Version) (x : Nat) : Replica :=
  match v.entries.find x with
  | some r => r
  | none => { dests := [g.home.getD x 0], cap := 0xFFFFFFFF }

/-! ## Slots, hand-off and rerouting (R282, R283, R306) -/

/-- What the final switches of a round have decided. -/
structure Fate where
  /-- Destination and record, in the order of the final switches. -/
  kept : List (Nat × Rec) := []
  /-- First destination and record that found no slot. -/
  lost : List (Nat × Rec) := []
  /-- Slots taken at each destination. -/
  used : Tab Nat := []
  deriving DecidableEq, Repr

/-- One final switch: its output claims slots in order; `ex` counts expert slots taken per version boundary and expert. -/
def claim (g : Group) (r : Round) (d : Nat) (out : List Rec) (f : Fate) : Fate :=
  (out.foldl (fun (p : Fate × List (Option Nat × Nat)) x =>
    let v := versionOf g.versions x.rnd
    let f := p.1
    let free := f.used.getD d 0 < r.caps.getD d 0xFFFFFFFF || r.caps.getD d 0xFFFFFFFF == 0xFFFFFFFF
    match expertOf x with
    | none =>
      if free then ({ f with kept := f.kept ++ [(d, x)], used := f.used.put d (f.used.getD d 0 + 1) }, p.2)
      else ({ f with lost := f.lost ++ [(d, x)] }, p.2)
    | some e =>
      let c := replicaOf g v e
      let ok := p.2.countP (fun q => q == (v.boundary, e)) < c.cap || c.cap == 0xFFFFFFFF
      let seen := p.2 ++ [(v.boundary, e)]
      if ok && free then
        let dest := c.dests.getD (x.key % 2 ^ 32 % c.dests.length) d
        ({ f with kept := f.kept ++ [(dest, x)], used := f.used.put d (f.used.getD d 0 + 1) }, seen)
      else ({ f with lost := f.lost ++ [(d, x)] }, seen)) (f, [])).1

/-- Every record below a key bound, through the tree and the final switches. -/
def fateOf (g : Group) (r : Round) (bound : Nat) : Fate :=
  let streams : List (List Rec) := (span 0 g.s).map (fun i => match r.streams.find i with
    | none => []
    | some t => t.recs.filter (fun (x : Rec) => decide (x.key < bound)))
  (span 0 g.dests.length).foldl (fun f d =>
    claim g r d (treeOut r.comb 8 (streams.map (fun l => l.filter (fun (x : Rec) => destOf r.set x.key == d)))) f) {}

/-- Where a record that found no slot goes under POLICY: another destination, or nowhere. -/
def rerouteOf (g : Group) (d : Nat) (x : Rec) : Option Nat :=
  let e := tailU16 x 2
  if g.policy = 0 ∧ e < g.dests.length ∧ e ≠ d then some e else none

/-- What a destination receives of a closed round and how many records were dropped there: its own and handed-off records by
key, then those rerouted to it while it has free slots, OVF on the last when anything was dropped there. -/
def deliveries (g : Group) (r : Round) (f : Fate) (e : Nat) : List Rec × Nat :=
  let own := sortRecs ((f.kept.filter (fun p => p.1 == e)).map Prod.snd)
  let sent := sortRecs ((f.lost.filter (fun p => rerouteOf g p.1 p.2 == some e)).map (fun p => { p.2 with rrt := true }))
  let cap := r.caps.getD e 0xFFFFFFFF
  let room := if cap = 0xFFFFFFFF then sent.length else cap - f.used.getD e 0
  let lost := (f.lost.filter (fun p => p.1 == e && (rerouteOf g p.1 p.2).isNone)).length + (sent.length - room)
  let all := own ++ sent.take room
  (if lost = 0 then all
   else (List.zip (span 1 all.length) all).map (fun p => if p.1 = all.length then { p.2 with ovf := true } else p.2), lost)

/-- The key below which the final switches have everything: every stream has sent a key above, or has closed (R286). -/
def boundOf (g : Group) (r : Round) : Nat :=
  if r.closed then 2 ^ 64
  else (span 0 g.s).foldl (fun b i => match r.streams.find i with
    | none => 0
    | some t => if t.closed then b else min b (t.last.getD 0)) (2 ^ 64)

/-- What a destination's final switch can have emitted so far: all of a closed round; before, its own records but for
the last one known, whose OVF and END are not. -/
def emittable (g : Group) (r : Round) (e : Nat) : List Rec :=
  if r.closed then (r.result.getD e ([], 0)).1
  else
    let f := fateOf g r (boundOf g r)
    (sortRecs ((f.kept.filter (fun p => p.1 == e)).map Prod.snd)).dropLast

/-- Records delivered to, and dropped at, every destination of a round that closes. -/
def outcome (g : Group) (r : Round) : List (List Rec × Nat) :=
  let f := fateOf g r (2 ^ 64)
  (span 0 g.dests.length).map (deliveries g r f)

/-- Bytes sent so far, over all rounds, that a destination receives and that no region has received: those in its staging,
in the switches and in the senders' buffers (R286). -/
def backlog (g : Group) (e : Nat) : Nat :=
  g.rounds.foldl (fun n r =>
    let d := r.dests.getD e {}
    if d.ended then n
    else
      let all := if r.closed then (r.result.getD e ([], 0)).1 else (deliveries g r (fateOf g r (2 ^ 64)) e).1
      (all.drop d.got).foldl (fun n x => n + 16 + x.pay.length) n) 0

/-! ## Sampling (R284, R285) -/

/-- Every record of a round as sent: stream, position, record. -/
def sentOf (g : Group) (r : Round) : List (Nat × Nat × Rec) :=
  (span 0 g.s).flatMap (fun i => match r.streams.find i with
    | none => []
    | some t => (List.zip (span 0 t.recs.length) t.recs).map (fun p => (i, p.1, p.2)))

def sampleAt (l : List (Nat × Nat × Rec)) (j : Nat) : List Nat :=
  (l.filter (fun x => x.2.1 % 2 ^ j == 0)).map (fun x => x.2.2.key)

/-- The smallest j from `j` upward whose sample fits. -/
def sampleStep (l : List (Nat × Nat × Rec)) : Nat → Nat → Nat
  | 0, j => j
  | f + 1, j => if (sampleAt l j).length ≤ 65536 then j else sampleStep l f (j + 1)

/-- A sorted list of keys. -/
def sortKeys (l : List Nat) : List Nat := l.foldl (fun acc k => insertKey k acc) []
where
  /-- Insertion in ascending order. -/
  insertKey (k : Nat) : List Nat → List Nat
    | [] => [k]
    | x :: r => if k < x then k :: x :: r else x :: insertKey k r

/-- P(1) … P(D-1) from sorted sampled keys. -/
def proposalFrom (keys : List Nat) (dn : Nat) : Nat → Nat → Option Nat → List Nat
  | 0, _, _ => []
  | f + 1, d, prev =>
    let c := ceilDiv (d * keys.length) dn
    let k := min (keys.getD (c - 1) 0 + 1) (2 ^ 64 - 1)
    let p := match prev with | none => k | some q => if k ≤ q then min (q + 1) (2 ^ 64 - 1) else k
    p :: proposalFrom keys dn f (d + 1) (some p)

def proposal (g : Group) (r : Round) (keys : List Nat) : List Nat :=
  if keys.isEmpty then r.set else proposalFrom (sortKeys keys) g.dests.length (g.dests.length - 1) 1 none

end Sys2Proof.Machine
end

