-- ==== Sys2Proof/Machine/Experts.lean ====
section
/-!
DEFINITION. What the exchange does when a round closes and completes: the sample and proposal (R284, R285), the
transition tables and prefetch (R310, R311), the load counters and the Monarch engine (R309), dropped versions (R308).
-/
namespace Sys2Proof.Machine

/-- The modules a launch is on: every module of its context when it binds PACKAGE or FABRIC. -/
def launchModules (s : State) (lk : Nat) : List Nat :=
  match s.launches.find lk with
  | none => []
  | some l => if l.blk.levels.any (fun v => decide (6 ≤ v.phys)) then (s.ctx l.pkg l.ctx).modules else [l.pkg]

def updGroup (s : State) (gk : Nat) (f : Group → Group) : State := { s with groups := s.groups.upd gk f }

/-- Changes the i-th element of a list. -/
def updAt {α : Type} (f : α → α) : Nat → List α → List α
  | _, [] => []
  | 0, x :: r => f x :: r
  | n + 1, x :: r => x :: updAt f n r

def updRound (s : State) (gk i : Nat) (f : Round → Round) : State :=
  updGroup s gk (fun g => { g with rounds := updAt f i g.rounds })

/-! ## Transition tables (R310) -/

/-- One record's step: the counter of its pair, and the decay of its row on every 64th. -/
def transStep (m : Mod) (layer a b : Nat) : Mod :=
  let row := layer * 256 + a
  let key := row * 256 + b
  let c := (m.trans.get key).toNat
  let t := m.trans.set key (BitVec.ofNat 3 (min 7 (c + 1)))
  let n := (m.rows.get row).toNat + 1
  let t1 := if n % 64 = 0 then
      (span 0 256).foldl (fun t x =>
        if x = b then t else Cells.set t (row * 256 + x) (BitVec.ofNat 3 ((Cells.get t (row * 256 + x)).toNat - 1))) t
    else t
  { m with trans := t1, rows := m.rows.set row (BitVec.ofNat 64 n) }

/-- The round's dispatch records as sent, by key, then sender index, then send position. -/
def transRecs (g : Group) (r : Round) : List Rec := sortRecs ((sentOf g r).map (fun x => x.2.2))

/-- The tables after a round, on a module whose set the group has claimed. -/
def transRound (gk : Nat) (l : List Rec) (m : Mod) : Mod :=
  if m.claim ≠ some gk then m
  else l.foldl (fun m x => match expertOf x with
    | none => m
    | some b =>
      let a := tailU16 x 4
      if a < 256 ∧ 1 ≤ x.rnd ∧ x.rnd ≤ 128 then transStep m (x.rnd - 1) a b else m) m

/-! ## Prefetch (R311) -/

/-- Pairs of tag and expert the round delivered a dispatch record of, as 256*tag + expert, ascending. -/
def deliveredPairs (os : List (List Rec × Nat)) : List Nat :=
  (sortKeys ((os.flatMap Prod.fst).filterMap (fun x => (expertOf x).map (fun e => x.rnd * 256 + e)))).eraseDups

/-- The copy of expert `x`'s weights for a layer to one destination. -/
def weightCopy (c : Pft) (layer x d : Nat) : WCopy :=
  { src := (c.wbase.toNat + layer * c.lstride + x * c.estride) % 2 ^ 64, dest := d, off := c.woff + layer % 2 * c.wlen
    len := c.wlen, at_ := 0 }

/-- The copies one pair asks for. -/
def prefetchPair (m : Mod) (c : Pft) (g : Group) (p : Nat) : Group :=
  let l := p / 256
  if 127 ≤ l then g
  else (span 0 256).foldl (fun g b =>
    let k := (l + 1) * 256 + b
    if c.pfth ≤ (m.trans.get (p * 256 + b)).toNat ∧ !g.fetched.contains k then
      let v := versionOf g.versions (l + 1)
      { g with fetched := g.fetched ++ [k]
               prefetch := g.prefetch ++ (replicaOf g v b).dests.map (weightCopy c (l + 1) b) }
    else g) g

/-- The round's prefetch decisions. -/
def prefetchRound (m : Mod) (os : List (List Rec × Nat)) (g : Group) : Group :=
  match g.pft with
  | none => g
  | some c => if c.pfth = 0 then g else (deliveredPairs os).foldl (fun g p => prefetchPair m c g p) g

/-! ## Close (R276, R284, R285) -/

/-- The last round of a group closes. -/
def closeRound (s : State) (gk : Nat) : State :=
  match s.groups.find gk with
  | none => s
  | some g =>
    let i := g.rounds.length - 1
    match g.rounds[i]? with
    | none => s
    | some r =>
      let l := sentOf g r
      let j := sampleStep l 40 0
      let keys := sampleAt l j
      let p := proposal g r keys
      let cnt := (span 0 g.dests.length).map (fun d => l.countP (fun x => destOf r.set x.2.2.key == d))
      let r0 : Round := { r with closed := true, prop := p, nsamp := keys.length, j := j, sentd := cnt }
      let os := outcome g r0
      let r1 : Round := { r0 with result := os }
      let recs := transRecs g r1
      let s1 : State := { s with mods := s.mods.map (fun e => (e.1, transRound gk recs e.2)) }
      let pkg := match s1.launches.find g.launch with | none => 0 | some x => x.pkg
      updGroup s1 gk (fun g => prefetchRound (s1.mod pkg) os
        { g with rounds := updAt (fun _ => r1) i g.rounds, set := if g.rebal then p else g.set })

/-! ## Completion (R276, R308, R309) -/

/-- Dispatch records with an expert among those delivered to each destination. -/
def loadsOf (os : List (List Rec × Nat)) : List Nat := os.map (fun o => o.1.countP (fun x => (expertOf x).isSome))

/-- RLAST of every expert. -/
def rlastOf (os : List (List Rec × Nat)) : Tab Nat :=
  let xs := (os.flatMap Prod.fst).filterMap expertOf
  (span 0 256).filterMap (fun e => if xs.contains e then some (e, xs.countP (fun y => y == e)) else none)

/-- The expert to replicate: the largest RLAST above HI, the lower expert on ties, with fewer than 8 copies. -/
def hotExpert (g : Group) (hi : Nat) (rl : Tab Nat) : Option Nat :=
  let v := g.versions.getLast?.getD { entries := [], boundary := none }
  (rl.foldl (fun (b : Option (Nat × Nat)) p =>
    if hi < p.2 ∧ (replicaOf g v p.1).dests.length < 8 then
      (match b with | none => some p | some q => if q.2 < p.2 then some p else some q)
    else b) none).map Prod.fst

/-- The destination the Monarch engine targets: on the least loaded die below LO, lower module and die on ties, the
lowest index that is not yet a copy. -/
def monarchTarget (g : Group) (lo : Nat) (loads : List Nat) (x : Nat) : Option Nat :=
  let die (d : Nat) : Nat := let c := (g.dests.getD d (0, 0)).2; corePkg c * 8 + dieOfCore c
  let ds := span 0 g.dests.length
  let load (k : Nat) : Nat := ds.foldl (fun n d => if die d = k then n + loads.getD d 0 else n) 0
  let best := (sortKeys (ds.map die)).foldl (fun (b : Option Nat) k =>
    if load k < lo then (match b with | none => some k | some q => if load k < load q then some k else some q) else b) none
  match best with
  | none => none
  | some k =>
    let have_ := (replicaOf g (g.versions.getLast?.getD { entries := [], boundary := none }) x).dests
    ds.find? (fun d => die d == k && !have_.contains d)

/-- The proposal made when a round completes. -/
def propose (g : Group) (os : List (List Rec × Nat)) : Group :=
  match g.pft with
  | none => g
  | some c =>
    if !c.enrep ∨ g.mst = 1 then g
    else match hotExpert g c.hi g.rlast with
      | none => g
      | some x => match monarchTarget g c.lo (loadsOf os) x with
        | none => g
        | some d =>
          let lh := ((os.flatMap Prod.fst).filter (fun y => (expertOf y).isSome)).foldl (fun n y => max n y.rnd) 0
          { g with mst := 1, mx := x, md := d, monarch := some (weightCopy c (lh + 1) x d) }

/-- Every round opened so far has completed. -/
def Group.idle (g : Group) : Bool := g.rounds.all Round.completed

/-- Versions that no round needs any more are dropped (R308). -/
def dropVersions (g : Group) : Group :=
  if g.idle then { g with versions := g.versions.drop (g.versions.length - 1) } else g

/-- The block of XLOAD as one number, as a round completes (R316). -/
def loadBlock (g : Group) : Nat :=
  match g.lastDone with
  | none => 2 ^ 64 - 1
  | some i =>
    let v := g.versions.getLast?.getD { entries := [], boundary := none }
    let e (x : Nat) : Nat := g.rlast.getD x 0 % 2 ^ 32 + ((replicaOf g v x).dests.length - 1) <<< 32 +
      (if (g.staged.find x).isSome then 1 <<< 35 else 0)
    i + g.mst <<< 64 + g.mx <<< 72 + g.md <<< 80 + ((span 0 256).foldr (fun x n => e x + n <<< 64) 0) <<< 128

/-- Round i completes: counters, versions, proposal, and what XLOAD shows of all that. -/
def completeRound (s : State) (gk i : Nat) : State :=
  updGroup s gk (fun g =>
    match g.rounds[i]? with
    | none => g
    | some r =>
      let g1 : Group := { g with
        rounds := updAt (fun r => { r with completed := true }) i g.rounds, lastDone := some i, rlast := rlastOf r.result }
      let g2 := propose (dropVersions g1) r.result
      { g2 with shown := loadBlock g2 })

end Sys2Proof.Machine
end

