-- ==== Sys2Proof/Machine/Matrix.lean ====
section
/-!
DEFINITION. The matrix unit (R246-R269): attachments, the commands and their queue, the array's steps in the orders of
R75 and R76, and the accumulator transfers.
-/
namespace Sys2Proof.Machine

/-! ## Attachments -/

def cMatrix : Nat := 0x0F

/-- The core a hart's matrix commands work on: its own, or for a system hart the core it serves (R260). -/
def matCore (s : State) : Option Nat := if s.me.system then servedCore s else some s.myCore

/-- Every attachment: hart key, 0 for the hart's own and i + 1 for frozen one i, the attachment. -/
def attachments (s : State) : List (Nat × Nat × Attach) :=
  s.harts.flatMap (fun e =>
    (match e.2.att with | none => [] | some a => [(e.1, 0, a)]) ++
      (List.zip (span 1 e.2.frozen.length) e.2.frozen).filterMap (fun p => p.2.map (fun a => (e.1, p.1, a))))

/-- An attachment of a resumed team whose rows are still to be granted (R261). -/
def rowless (s : State) (x : Nat × Nat × Attach) : Bool := !isSystemKey x.1 && (s.core (coreOf x.1)).rowsDue

/-- Rows of a list of attachments. -/
def rowsOf (l : List (Nat × Nat × Attach)) : Nat := l.foldl (fun n x => n + x.2.2.rows) 0

/-- Rows that came to a hart's MATT before its team was swapped out, and are still to be taken (R18). -/
def Hart.granted (h : Hart) : Nat := match h.wait with | none => 0 | some w => if w.kind = wGrant then w.a else 0

/-- Such rows of the harts of a list. -/
def grantsOf (l : Tab Hart) : Nat := l.foldl (fun n e => n + e.2.vector.granted) 0

/-- Rows of a quad that no attachment and no such MATT holds. -/
def freeRows (s : State) (quad : Nat) : Nat :=
  256 - rowsOf ((attachments s).filter (fun x => quadOf x.2.2.core == quad && !rowless s x)) -
    grantsOf (s.harts.filter (fun e => quadOf (coreOf e.1) == quad && !(s.core (coreOf e.1)).rowsDue))

/-- Rows the team of a core is still to be granted. -/
def dueRows (s : State) (ck : Nat) : Nat :=
  rowsOf ((attachments s).filter (fun x => coreOf x.1 == ck && rowless s x)) +
    grantsOf (s.harts.filter (fun e => coreOf e.1 == ck && (s.core ck).rowsDue))

/-- An extent of a core overlaps a live or frozen one (R246, R260). -/
def extentTaken (s : State) (ck base len : Nat) : Bool :=
  (attachments s).any (fun x => x.2.2.core == ck && decide (base < x.2.2.base + x.2.2.len) &&
    decide (x.2.2.base < base + len))

/-- BASE or LEN breaks the table of R263. -/
def extentBad (base len : Nat) : Bool :=
  base % 1024 ≠ 0 || len % 1024 ≠ 0 || decide (len < 1024) || decide (4194304 < base + len)

/-- The order of R255 and R256: class, longest wait, COREID, HARTID; the last number orders one hart's attachments. -/
def orderKey (cls since hk i : Nat) : List Nat := [cls, since, coreId (coreOf hk), hartId hk, hk, i]

def lexLt : List Nat → List Nat → Bool
  | [], [] => false
  | [], _ :: _ => true
  | _ :: _, [] => false
  | a :: r, b :: q => if a = b then lexLt r q else decide (a < b)

/-- The quad a waiting MATT of a hart waits on. -/
def waitQuad (hk : Nat) (h : Hart) : Option Nat :=
  if h.system then
    (if h.sys.tstatus.getLsbD tsSrv then some (quadOf (pkgOf hk * 256 + h.sys.tstatus.toNat % 256)) else none)
  else some (quadOf (coreOf hk))

/-- A MATT of another hart waits for rows of the quad ahead of this one. -/
def behind (s : State) (quad : Nat) (mine : List Nat) : Bool :=
  s.harts.any (fun e => e.1 != s.cur && (match e.2.vector.wait with
    | none => false
    | some w => w.kind == wMatt && waitQuad e.1 e.2 == some quad && lexLt (orderKey e.2.cls w.b e.1 0) mine))

/-- A fresh plane (R249). -/
def emptyPlane : MPlane := {}

/-- An attachment handle, nonzero and unique among the module's live attachments (R247). -/
def newHandle (s : State) : Nat :=
  freshHandle (((attachments s).filter (fun x => pkgOf x.1 == s.myPkg)).map (fun x => x.2.2.handle))
    (Config.handle s.seq).toNat

/-- MATT (R263): the overlap check is made as it arrives, and again as it is granted. -/
def execMatt (o : OpAB) (s : State) : Out :=
  scalar o.x s (fun s =>
    let h := s.me
    let sb := (h.reg o.b).toNat
    let want := min 256 (roundUp (bitsOf (h.reg o.a).toNat 8 0) 16)
    let need := min want (roundUp (bitsOf (h.reg o.a).toNat 24 16) 16)
    let base := bitsOf sb 21 0
    let len := bitsOf sb 54 32
    if h.att.isSome then s.vretire (lenOf o.x)
    else if extentBad base len then raise cSpace (BitVec.ofNat 64 sb) s
    else match matCore s with
      | none => raise cMatrix 0 s
      | some ck =>
        let quad := quadOf ck
        let free := freeRows s quad + h.granted
        let now := (s.mod s.myPkg).gtime
        let since := match h.wait with | none => now | some w => if w.kind = wMatt then w.b else now
        let waiting := match h.wait with | none => false | some w => w.kind == wMatt || w.kind == wGrant
        if !waiting && extentTaken s ck base len then raise cMatrix 0 s
        else if want = 0 ∨ (need = 0 ∧ free = 0) then s.vretire (lenOf o.x)
        else if h.granted = 0 ∧ (free < need ∨ behind s quad (orderKey h.cls since s.cur 0)) then s.holdAt wMatt need since
        else if extentTaken s ck base len then raise cMatrix 0 s
        else
          let a : Attach :=
            { handle := newHandle s, core := ck, rows := min want free, infmt := 10, accfmt := 9, chain := h.sysord
              split := 1, active := emptyPlane, shadow := emptyPlane, base := base, len := len, queue := [], flags := 0 }
          ((s.setMe { h with att := some a }).bump).vretire (lenOf o.x))

/-- The pending flags are ORed into FFLAGS and cleared (R258). -/
def Hart.fold (h : Hart) : Hart :=
  match h.att with
  | none => h
  | some a => { h.orFlags a.flags with att := some { a with flags := 0 } }

/-- MDET (R264). -/
def execMdet (o : OpN) (s : State) : Out :=
  scalar o.x s (fun s =>
    if s.me.busy then s.hold wMatrix
    else (s.setMe { s.me.fold with att := none }).vretire (lenOf o.x))

/-- A command of the hart's own attachment (R248). -/
def withAttach (s : State) (k : Attach → State → State) : State :=
  match s.me.att with
  | none => raise cMatrix 0 s
  | some a => k a s

/-- MCFG (R265). -/
def execMcfg (o : OpX) (s : State) : Out :=
  scalar (some o.x) s (fun s => withAttach s (fun _ s =>
    if s.me.busy then s.hold wMatrix
    else
      let h := s.me.fold
      let i := o.x.imm32.toNat
      let take := i.testBit 11
      (s.setMe { h with att := h.att.map (fun a => { a with
        infmt := bitsOf i 3 0, accfmt := bitsOf i 7 4
        chain := if take then h.sysord else i.testBit 8
        split := if take then 1 else 2 ^ bitsOf i 10 9
        active := emptyPlane, shadow := emptyPlane }) }).vretire 12))

/-! ## Bytes the commands name -/

/-- W of R75. -/
def stepWidth (f : Fmt) : Nat :=
  match f with | .f64 => 4 | .f32 => 8 | .bf16 => 16 | .f16 => 16 | _ => 32

/-- Bytes of `k` consecutive elements of an input format. -/
def rowBytes (f : Fmt) (k : Nat) : Nat := if isGx f then k / 32 * (8 * gxLanes f) else k * fmtBytes f

/-- The base address and those of the planes in force (R262). -/
def planeBases (s : State) (a : Nat) : List Nat := (planeAddrs s a).map Prod.snd

/-- Runs for the primal and each plane: `rs a` lists the ranges at a base, which is the pointer of a failure (R167, R168);
a range of no bytes names none and is not checked (R259). -/
def allRuns (s : State) (rs : Nat → List (Nat × Nat)) : List Nat → Except Trap (List (List (Nat × Nat)))
  | [] => .ok []
  | a :: r =>
    match ((rs a).filter (fun p => p.2 != 0)).foldr (fun p (acc : Except Trap (List (Nat × Nat))) => match poolBytes s p.1 p.2 with
        | .error _ => .error (cSpace, BitVec.ofNat 64 a)
        | .ok l => (match acc with | .error t => .error t | .ok m => .ok (l ++ m))) (.ok []) with
    | .error t => .error t
    | .ok l => match allRuns s rs r with | .error t => .error t | .ok m => .ok (l :: m)

/-- The first base that is not a multiple of 8. -/
def misaligned (as : List Nat) : Option Nat := as.find? (fun a => a % 8 ≠ 0)

/-- The checks of a command that reads or writes pool bytes, after Matrix-attach (R259). -/
def withRuns (s : State) (a : Nat) (rs : Nat → List (Nat × Nat)) (k : List (List (Nat × Nat)) → State) : State :=
  match allRuns s rs (planeBases s a) with
  | .error t => raise t.1 t.2 s
  | .ok l => match misaligned (planeBases s a) with
    | some b => raise cAlign (BitVec.ofNat 64 b) s
    | none => k l

/-! ## Issue -/

/-- N, NC, MR and Q of a shape word (R252). -/
def shN (x : Nat) : Nat := bitsOf x 12 0
def shNC (x : Nat) : Nat := min (bitsOf x 28 16) (shN x)
def shMR (x : Nat) : Nat := min (bitsOf x 40 32) 256
def shQ (x : Nat) : Nat := bitsOf x 63 48

/-- Bytes of an accumulator cell. -/
def accBytes (a : Attach) : Nat := if a.accfmt = 8 then 8 else 4

/-- The accumulator region of R253 is out of the extent or not a multiple of 8. -/
def regionBad (a : Attach) (x b n : Nat) : Bool :=
  b % 8 ≠ 0 || decide (b < a.base) || decide (a.base + a.len < b + (1 + n) * (shMR x * shN x * accBytes a))

/-- The depths of the active and the shadow plane when the queue has run. -/
def depthsAfter (a : Attach) : Nat × Nat :=
  a.queue.foldl (fun p c => match c.kind with
    | 0 => (p.1, bitsOf c.shape 24 16)
    | 1 => (p.2, p.1)
    | _ => p) (a.active.kt, a.shadow.kt)

/-- A command joins the queue and retires (R254). -/
def issueCmd (len kind : Nat) (src : List (List (Nat × Nat))) (acc shape mask n : Nat) (s : State) : State :=
  let now := (s.mod s.myPkg).gtime
  let s1 := (src.flatMap id).foldl (fun t r => pin t r.1) s
  let h := s1.me
  let c : MCmd :=
    { kind := kind, seq := s1.seq, cls := h.cls, since := now, last := now, src := src, acc := acc, shape := shape
      mask := mask, n := n, step := 0 }
  ((s1.setMe { h with att := h.att.map (fun a => { a with queue := a.queue ++ [c] }) }).bump).vretire len

/-- MLDS (R266): the queued rows word holds the rows in 8:0 and the rounded depth in 24:16. -/
def execMlds (o : OpAB) (s : State) : Out :=
  scalar o.x s (fun s => withAttach s (fun a s =>
    let f := fmtOf a.infmt
    let sb := (s.me.reg o.b).toNat
    let r := min 256 (bitsOf sb 8 0)
    let kt := min 256 (roundUp (bitsOf sb 24 16) (stepWidth f))
    if a.rows < r then raise cMatrix 0 s
    else
      withRuns s (s.me.reg o.a).toNat (fun b => [(b, r * rowBytes f kt)]) (fun src =>
        issueCmd (lenOf o.x) 0 src 0 (r + kt * 65536) 0 s.me.planesInForce s)))

/-- MSWAP (R267). -/
def execMswap (o : OpN) (s : State) : Out :=
  scalar o.x s (fun s => withAttach s (fun _ s => issueCmd (lenOf o.x) 1 [] 0 0 0 0 s))

/-- MSTRM (R268). -/
def execMstrm (o : OpR) (s : State) : Out :=
  scalar o.x s (fun s => withAttach s (fun a s =>
    let x := (s.me.reg o.d).toNat
    let b := (s.me.reg o.b).toNat
    let n := s.me.planesInForce
    let kt := (depthsAfter a).1
    let mask := match o.x with | none => 0xFFFFFFFF | some e => e.imm32.toNat
    if shN x = 0 then s.vretire (lenOf o.x)
    else if a.rows < shMR x then raise cMatrix 0 s
    else match allRuns s (fun p => [(p, shN x * rowBytes (fmtOf a.infmt) kt)]) (planeBases s (s.me.reg o.a).toNat) with
      | .error t => raise t.1 t.2 s
      | .ok src =>
        if regionBad a x b n then raise cSpace (BitVec.ofNat 64 b) s
        else match misaligned (planeBases s (s.me.reg o.a).toNat) with
          | some p => raise cAlign (BitVec.ofNat 64 p) s
          | none => issueCmd (lenOf o.x) 2 src b x mask n s))

/-! ## The array (R251, R254, R255, R262) -/

/-- The binary64 pattern of an exact value that binary64 holds, a NaN kept as it is. -/
def embed (x : Num) : BitVec 64 :=
  BitVec.ofNat 64 (match x with
    | .nan s _ p => (if s then 2 ^ 63 else 0) + 0x7FF <<< 52 + p % 2 ^ 52
    | .inf s => infBits .f64 s
    | .fin s m e => (roundFin .f64 0 false s m e).1)

/-- Element k of a row or column of `kt` elements whose bytes are `x`. -/
def inputAt (f : Fmt) (kt x k : Nat) : Num :=
  if isGx f then gxElemIn f (kt / 32) x k else decodeNum f ((x >>> (fmtBits f * k)) % 2 ^ fmtBits f)

/-- Weights of a plane read from memory, keyed row*256 + k. -/
def loadWeights (s : State) (f : Fmt) (r kt : Nat) (rs : List (Nat × Nat)) : Cells 64 :=
  let rb := rowBytes f kt
  (span 0 r).foldl (fun c i =>
    let x := readRuns s rs (i * rb) rb
    (span 0 kt).foldl (fun c k => Cells.set c (i * 256 + k) (embed (inputAt f kt x k))) c) []

/-- The effect of MLDS on an attachment. -/
def runMlds (s : State) (a : Attach) (c : MCmd) : Attach :=
  let r := bitsOf c.shape 8 0
  let kt := bitsOf c.shape 24 16
  let ws := c.src.map (loadWeights s (fmtOf a.infmt) r kt)
  { a with shadow := { kt := kt, w := ws.headD [], tan := ws.drop 1 } }

/-- RN(t + p) in the accumulate format. -/
def accStep (f : Fmt) (t : Nat × Flags) (p : Val) : Nat × Flags :=
  let r := packVal f 0 false (numAdd 0 (decodeNum f t.1) p.x)
  (r.1, t.2 ||| r.2 ||| p.fl)

/-- A chain of additions onto a start. -/
def accChain (f : Fmt) (t : Nat × Flags) (ps : List Val) : Nat × Flags := ps.foldl (accStep f) t

/-- Even and odd numbers of a list of products. -/
def evens (ps : List Val) : List Val := (List.zip (span 0 ps.length) ps).filterMap (fun q => if q.1 % 2 = 0 then some q.2 else none)
def odds (ps : List Val) : List Val := (List.zip (span 0 ps.length) ps).filterMap (fun q => if q.1 % 2 = 1 then some q.2 else none)

/-- One k-step of the native order (R75). -/
def nativeStep (f : Fmt) (acc : Nat × Flags) (ps : List Val) : Nat × Flags :=
  let ev := accChain f acc (evens ps)
  let od := accChain f (0, 0) (odds ps)
  accStep f (ev.1, ev.2 ||| od.2) ⟨decodeNum f od.1, 0⟩

/-- The whole sum of the chain order (R76) for row `rho`. -/
def chainSum (f : Fmt) (split kt rho : Nat) (acc : Nat × Flags) (p : Nat → Val) : Nat × Flags :=
  let ks := kt / split
  let off := (rho % 16 * 16) % ks
  (span 0 split).foldl (fun acc sg =>
    let t := accChain f (0, 0) ((span 0 ks).map (fun i => p (sg * ks + (off + i) % ks)))
    accStep f (acc.1, acc.2 ||| t.2) ⟨decodeNum f t.1, 0⟩) acc

/-- Key of accumulator cell (i, n) of tangent plane k of a region at b. -/
def cellKey (a : Attach) (x b k i n : Nat) : Nat :=
  let ab := accBytes a
  accKey a.core (b + (i * shN x + n) * ab + k * (shMR x * shN x * ab))

/-- Passes of an MSTRM: plane of weights, plane of activations, plane written. -/
def passOf (p : Nat) : Nat × Nat × Nat :=
  if p = 0 then (0, 0, 0) else if p % 2 = 1 then ((p + 1) / 2, 0, (p + 1) / 2) else (0, p / 2, p / 2)

/-- Steps of a command. -/
def stepsOf (a : Attach) (c : MCmd) : Nat :=
  if c.kind = 2 then max 1 ((1 + 2 * c.n) * ceilDiv (shN c.shape) 16 * (a.active.kt / stepWidth (fmtOf a.infmt))) else 1

/-- One step of an MSTRM: the cells it writes and the flags it raises. -/
def strmStep (s : State) (a : Attach) (c : MCmd) : State × Flags :=
  let f := fmtOf a.infmt
  let g := fmtOf a.accfmt
  let w := stepWidth f
  let kt := a.active.kt
  let ks := kt / w
  if ks = 0 then (s, 0)
  else
    let grp := (c.step / ks) % ceilDiv (shN c.shape) 16
    let k0 := c.step % ks
    let pass := passOf (c.step / (ks * ceilDiv (shN c.shape) 16))
    let wt := if pass.1 = 0 then a.active.w else a.active.tan.getD (pass.1 - 1) []
    let rs := c.src.getD pass.2.1 []
    let kr := min (shQ c.shape) kt
    let rows := (span 0 (shMR c.shape)).filter (fun i => c.mask.testBit (i / 16))
    let cols := (span (16 * grp) 16).filter (fun n => decide (n < shNC c.shape) && c.mask.testBit (24 + n / 16 % 8))
    let rb := rowBytes f kt
    cols.foldl (fun (p : State × Flags) n =>
      let x := readRuns s rs (n * rb) rb
      rows.foldl (fun (p : State × Flags) i =>
        let prod (k : Nat) : Val :=
          if k < kr ∧ c.mask.testBit (16 + k / 32) then
            numMul (decodeNum .f64 (wt.get (i * 256 + k)).toNat) (inputAt f kt x k)
          else ⟨Num.zero, 0⟩
        let key := cellKey a c.shape c.acc pass.2.2 i n
        let old : Nat × Flags := (p.1.mem.load key (accBytes a), 0)
        let r := if a.chain then (if k0 + 1 = ks then chainSum g a.split kt i old prod else old)
          else nativeStep g old ((span (k0 * w) w).map prod)
        (putMem p.1 key (accBytes a) r.1, if pass.2.2 = 0 then p.2 ||| r.2 else p.2)) p) (s, 0)

/-- Bytes the step touches hold no uncorrectable error. -/
def stepClean (s : State) (a : Attach) (c : MCmd) : Bool :=
  !(c.rd.any (fun r => eccHit s r.1 r.2)) && (c.kind != 2 ||
    !eccHit s (accKey a.core c.acc) ((1 + c.n) * (shMR c.shape * shN c.shape * accBytes a)))

/-- Head commands of a quad's attachments that can run: order key, hart, index, attachment, command. The wait of a command is
counted from its issue (R255, log 166). -/
def ready (s : State) (quad : Nat) : List (List Nat × Nat × Nat × Attach × MCmd) :=
  (attachments s).filterMap (fun x =>
    let a := x.2.2
    match a.queue with
    | [] => none
    | c :: _ =>
      if quadOf a.core = quad ∧ !rowless s x ∧ !c.rd.any (fun r => earlierCopy s x.1 c.seq r false) ∧ stepClean s a c ∧
          (c.kind = 1 ∨ earlierDone s x.1 c.seq) then
        some (orderKey c.cls c.since x.1 x.2.1, x.1, x.2.1, a, c)
      else none)

/-- The first in an order. -/
def firstOf {α : Type} (l : List (List Nat × α)) : Option α :=
  (l.foldl (fun (b : Option (List Nat × α)) x => match b with
    | none => some x
    | some y => if lexLt x.1 y.1 then some x else some y) none).map Prod.snd

/-- Replaces attachment `i` of a hart. -/
def setAttach (s : State) (hk i : Nat) (a : Attach) : State :=
  let h := s.hart hk
  s.setHart hk (if i = 0 then { h with att := some a }
    else { h with frozen := (List.zip (span 1 h.frozen.length) h.frozen).map (fun p => if p.1 = i then some a else p.2) })

/-- MATRIX_STEP (R254, R255): one step of the head command that comes first. -/
def execMatrixStep (quad : Nat) (s : State) : Out :=
  .next (match firstOf (ready s quad) with
    | none => s
    | some (hk, i, a, c) =>
      let r : State × Flags := if c.kind = 2 then strmStep s a c else (s, 0)
      let a1 : Attach := match c.kind with
        | 0 => runMlds s a c
        | 1 => { a with active := a.shadow, shadow := a.active }
        | _ => a
      let now := (s.mod (pkgOf hk)).gtime
      let rest := a.queue.drop 1
      let q := if c.step + 1 < stepsOf a c then { c with step := c.step + 1, last := now } :: rest else rest
      setAttach r.1 hk i { a1 with queue := q, flags := a.flags ||| r.2 })

/-- A command at GTIME `now`: its class has fallen by 1 for each 4,096 clk, at 2.4 clk a ns, that it has waited (R255, R15). -/
def MCmd.aged (now : Nat) (c : MCmd) : MCmd :=
  let n := (now - c.last) * 12 / 20480
  { c with cls := c.cls - n, last := c.last + ceilDiv (n * 20480) 12 }

/-- MATRIX_CLASS_AGING (R255): the commands of a hart, those behind the head too, have waited without running. -/
def execMatrixClassAging (quad hk : Nat) (s : State) : Out :=
  .next ((attachments s).foldl (fun t x =>
    if x.1 = hk ∧ quadOf x.2.2.core = quad then
      setAttach t hk x.2.1 { x.2.2 with queue := x.2.2.queue.map (MCmd.aged (s.mod (pkgOf hk)).gtime) }
    else t) s)

/-! ## Accumulator transfers (R269) -/

/-- A transfer: earlier commands first, then the flags folded. That more rows than the grant raise Matrix-attach is log 170. -/
def transfer (x : Option Ext) (d b : BitVec 5) (s : State) (k : Attach → Nat → Nat → State → State) : Out :=
  scalar x s (fun s => withAttach s (fun a s =>
    let sh := (s.me.reg d).toNat
    let off := (s.me.reg b).toNat
    if shN sh = 0 then (if s.me.busy then s.hold wMatrix else (s.setMe s.me.fold).vretire (lenOf x))
    else if a.rows < shMR sh then raise cMatrix 0 s
    else k a sh off s))

/-- Rows and columns taken, ascending. -/
def cellsOf (x : Nat) : List (Nat × Nat) := (span 0 (shMR x)).flatMap (fun i => (span 0 (shNC x)).map (fun n => (i, n)))

/-- The bytes of the accumulator cells a transfer names, of the primal and `n` planes. -/
def cellBytes (a : Attach) (x b n : Nat) : List Nat :=
  (span 0 (n + 1)).flatMap (fun k => (cellsOf x).flatMap (fun c => span (cellKey a x b k c.1 c.2) (accBytes a)))

/-- MACZ (R269). -/
def execMacz (o : OpDB) (s : State) : Out :=
  transfer o.x o.d o.b s (fun a x b s =>
    if regionBad a x b s.me.planesInForce then raise cSpace (BitVec.ofNat 64 b) s
    else if s.me.busy then s.hold wMatrix
    else if keysBad s [] (cellBytes a x b s.me.planesInForce) then s.hold wStore
    else
      let t := (span 0 (s.me.planesInForce + 1)).foldl (fun t k =>
        (cellsOf x).foldl (fun t p => putMem t (cellKey a x b k p.1 p.2) (accBytes a) 0) t) s
      let t := renewUnits t (cellBytes a x b s.me.planesInForce)
      (t.setMe t.me.fold).vretire (lenOf o.x))

/-- Address of element (i, n) at a base. -/
def macAddr (x eb base i n : Nat) : Nat := (base + (i * shQ x + n) * eb) % 2 ^ 64

/-- MACST and MACLD after Matrix-attach: `put` moves one element; `write` is true for MACST. -/
def macMove (len : Nat) (sa : BitVec 5) (write : Bool) (a : Attach) (x b : Nat)
    (put : Fmt → Nat → Nat → Nat → State → State × Flags) (s : State) : State :=
  let f := s.me.cf
  let eb := fmtBytes f
  let base := (s.me.reg sa).toNat
  let n := s.me.planesInForce
  match allRuns s (fun p => (span 0 (shMR x)).map (fun i => (macAddr x eb p i 0, shNC x * eb))) (planeBases s base) with
  | .error t => raise t.1 t.2 s
  | .ok runs =>
    let iv := runs.flatMap id
    if regionBad a x b n then raise cSpace (BitVec.ofNat 64 b) s
    else match misaligned (planeBases s base) with
      | some p => raise cAlign (BitVec.ofNat 64 p) s
      | none =>
        if !isFloat f then raise 0x03 0 s
        else if s.me.busy then s.hold wMatrix
        else if iv.any (fun r => earlierCopy s s.cur s.seq r write || (write && matrixReads s.me r.1 r.2)) then s.hold wStore
        else if (let ks := iv.flatMap (fun r => span r.1 r.2)
            if write then keysBad s (cellBytes a x b n) ks else keysBad s ks (cellBytes a x b n)) then s.hold wStore
        else
          let s0 := iv.foldl (fun t r => pin t r.1) s
          let r := (List.zip (span 0 (n + 1)) runs).foldl (fun (p : State × Flags) q =>
            (cellsOf x).foldl (fun (p : State × Flags) c =>
              let t := put f (cellKey a x b q.1 c.1 c.2) (runKeyAt q.2 ((c.1 * shNC x + c.2) * eb)) eb p.1
              (t.1, if q.1 = 0 then p.2 ||| t.2 else p.2)) p) (s0, (0 : Flags))
          let t := renewUnits r.1 (if write then iv.flatMap (fun r => span r.1 r.2) else cellBytes a x b n)
          (t.setMe (t.me.fold.orFlags r.2)).vretire len

/-- MACST (R269). -/
def execMacst (o : OpR) (s : State) : Out :=
  transfer o.x o.d o.b s (fun a x b s =>
    macMove (lenOf o.x) o.a true a x b (fun f cell key eb t =>
      let r := roundTo f 0 t.me.sate4 (decodeNum (fmtOf a.accfmt) (t.mem.load cell (accBytes a)))
      (putMem t key eb r.1, r.2)) s)

/-- MACLD (R269). -/
def execMacld (o : OpR) (s : State) : Out :=
  transfer o.x o.d o.b s (fun a x b s =>
    macMove (lenOf o.x) o.a false a x b (fun f cell key eb t =>
      let r := roundTo (fmtOf a.accfmt) 0 false (decodeNum f (t.mem.load key eb))
      (putMem t cell (accBytes a) r.1, r.2)) s)

end Sys2Proof.Machine
end

