-- ==== Sys2Proof/Machine/Exchange.lean ====
section
/-!
DEFINITION. The exchange instructions (R272-R299) and the steps SWITCH_EMIT and RECORD_DELIVERY.
-/
namespace Sys2Proof.Machine

/-! ## Record regions (R272, R273) -/

/-- A record as it lies in memory: key and all its bytes. -/
structure Raw where
  key : Nat
  len : Nat
  x   : Nat
  deriving DecidableEq, Repr

/-- A header is in the windows; the length field of the record there. -/
def recLen (s : State) (a : Nat) : Except Trap Nat :=
  match poolBytes s a 16 with
  | .error t => .error t
  | .ok rs => .ok (readRuns s rs 8 2)

/-- Offsets and sizes of `n` records from offset `off`, of a region at `a` with `bytes` of records: Align with the
region's address unless the walk ends exactly. -/
def walkRegion (s : State) (a bytes : Nat) : Nat → Nat → Except Trap (List (Nat × Nat))
  | 0, off => if off = 16 + bytes then .ok [] else .error (cAlign, BitVec.ofNat 64 a)
  | n + 1, off =>
    if 16 + bytes < off + 16 then .error (cAlign, BitVec.ofNat 64 a)
    else match recLen s (a + off) with
      | .error t => .error t
      | .ok len =>
        if len % 16 ≠ 0 ∨ len < 16 ∨ 4096 < len then .error (cAlign, BitVec.ofNat 64 a)
        else match walkRegion s a bytes n (off + 16 + len) with
          | .error t => .error t
          | .ok l => .ok ((off, 16 + len) :: l)

/-- A region that may be read: its runs, its size and its records. -/
def readRegion (s : State) (a : Nat) : Except Trap (List (Nat × Nat) × Nat × List Raw) :=
  match poolBytes s a 16 with
  | .error t => .error t
  | .ok h =>
    if a % 16 ≠ 0 then .error (cAlign, BitVec.ofNat 64 a)
    else
      let bytes := readRuns s h 8 6
      match walkRegion s a bytes (readRuns s h 0 8) 16 with
      | .error t => .error t
      | .ok l => match poolBytes s a (16 + bytes) with
        | .error t => .error t
        | .ok rs => match eccAddr s rs a (16 + bytes) with
          | some b => .error (cUncorrectable, BitVec.ofNat 64 b)
          | none => .ok (rs, 16 + bytes, l.map (fun p =>
              let x := readRuns s rs p.1 p.2
              ⟨x % 2 ^ 64, p.2, x⟩))

/-- The record a sender's bytes name (R272). -/
def recOf (w : Raw) : Rec where
  key := w.key
  kind := bitsOf w.x 87 80
  ovf := false
  rrt := false
  cmb := false
  src := 0
  rnd := bitsOf w.x 127 112
  pay := bytesOf (w.x >>> 128) (w.len - 16)

/-- The bytes of a record as one number. -/
def recBits (x : Rec) : Nat :=
  x.key + x.pay.length <<< 64 + x.kind <<< 80 + (if x.ovf then 1 <<< 88 else 0) + (if x.rrt then 1 <<< 89 else 0) +
    (if x.cmb then 1 <<< 90 else 0) + x.src <<< 96 + x.rnd <<< 112 + ofBytes x.pay <<< 128

/-- The bytes of raw records joined: number and length. -/
def joinRaw (l : List Raw) : Nat × Nat := l.foldr (fun w p => (w.x + p.1 <<< (8 * w.len), w.len + p.2)) (0, 0)

/-- A region of raw records: header and bytes. -/
def regionRaw (l : List Raw) : Nat × Nat :=
  let p := joinRaw l
  (l.length + p.2 <<< 64 + p.1 <<< 128, 16 + p.2)

/-! ## XRUN and XMRG (R290, R291) -/

/-- A record of the selection tree: run, place in the input, record. -/
abbrev Sel := Nat × Nat × Raw

/-- The record of a run with the smallest key, earliest in input on ties. -/
def pickSel (run : Nat) (t : List Sel) : Option Sel :=
  (t.filter (fun x => x.1 == run)).foldl (fun (b : Option Sel) x => match b with
    | none => some x
    | some y =>
      if x.2.2.key < y.2.2.key ∨ (x.2.2.key = y.2.2.key ∧ x.2.1 < y.2.1) then some x else some y) none

/-- Replacement selection: the runs. -/
def selectRuns : Nat → List Sel → List (Nat × Raw) → Nat → List Raw → List (List Raw)
  | 0, _, _, _, cur => [cur]
  | f + 1, t, rest, run, cur =>
    if t.isEmpty then (if cur.isEmpty then [] else [cur])
    else match pickSel run t with
      | none => cur :: selectRuns f t rest (run + 1) []
      | some x =>
        let t1 := t.filter (fun y => y.2.1 != x.2.1)
        match rest with
        | [] => selectRuns f t1 [] run (cur ++ [x.2.2])
        | y :: r => selectRuns f (t1 ++ [(if x.2.2.key ≤ y.2.key then run else run + 1, y.1, y.2)]) r run (cur ++ [x.2.2])

/-- The runs of a region's records. -/
def runsOf (l : List Raw) : List (List Raw) :=
  let ix := List.zip (span 0 l.length) l
  selectRuns (2 * l.length + 2) ((ix.take 4096).map (fun p => (0, p.1, p.2))) (ix.drop 4096) 0 []

/-- A run set: header and regions. -/
def runSetRaw (rs : List (List Raw)) : Nat × Nat :=
  let p := (rs.map regionRaw).foldr (fun w p => (w.1 + p.1 <<< (8 * w.2), w.2 + p.2)) (0, 0)
  (rs.length + p.2 <<< 64 + p.1 <<< 128, 16 + p.2)

/-- Output of XRUN and XMRG at `d`: the checks over the worst size, then the bytes. -/
def writeOut (s : State) (len d worst : Nat) (input : List (Nat × Nat)) (out : Nat × Nat) : State :=
  match poolBytes s d worst with
  | .error t => raise t.1 t.2 s
  | .ok rs =>
    let used := takeRuns rs out.2
    if d % 16 ≠ 0 then raise cAlign (BitVec.ofNat 64 d) s
    else if runsMeet rs input then raise cSpace (BitVec.ofNat 64 d) s
    else if used.any (fun r => eccStoreHit s r.1 r.2) then raise cUncorrectable (BitVec.ofNat 64 d) s
    else if used.any (fun r => matrixReads s.me r.1 r.2) then s.hold wStore
    else (writeRuns (pinRuns s rs) rs out.1 out.2).vretire len

/-- XRUN (R290). -/
def execXrun (o : OpDA) (s : State) : Out :=
  scalar o.x s (fun s =>
    match readRegion s (s.me.reg o.a).toNat with
    | .error t => raise t.1 t.2 s
    | .ok (rs, n, l) =>
      writeOut s (lenOf o.x) (s.me.reg o.d).toNat (n + 16 * ceilDiv l.length 4096) rs (runSetRaw (runsOf l)))

/-- The regions of a run set from offset `off`. -/
def readRunSet (s : State) (a : Nat) : Nat → Nat → Except Trap (List (List Raw) × Nat)
  | 0, off => .ok ([], off)
  | n + 1, off => match readRegion s (a + off) with
    | .error t => .error t
    | .ok (_, m, l) => match readRunSet s a n (off + m) with
      | .error t => .error t
      | .ok (ls, e) => .ok (l :: ls, e)

/-- Raw records in ascending key, earlier first on equal keys. -/
def insertRaw (w : Raw) : List Raw → List Raw
  | [] => [w]
  | x :: r => if x.key < w.key then x :: insertRaw w r else w :: x :: r

def sortRaw (l : List Raw) : List Raw := l.foldr insertRaw []

/-- XMRG (R291). -/
def execXmrg (o : OpDA) (s : State) : Out :=
  scalar o.x s (fun s =>
    let a := (s.me.reg o.a).toNat
    match poolBytes s a 16 with
    | .error t => raise t.1 t.2 s
    | .ok h =>
      if a % 16 ≠ 0 then raise cAlign (BitVec.ofNat 64 a) s
      else
        let n := readRuns s h 0 8
        let bytes := readRuns s h 8 8
        match poolBytes s a (16 + bytes) with
        | .error t => raise t.1 t.2 s
        | .ok rs => match readRunSet s a n 16 with
          | .error t => raise t.1 t.2 s
          | .ok (ls, e) =>
            if e ≠ 16 + bytes then raise cAlign (BitVec.ofNat 64 a) s
            else match eccAddr s rs a (16 + bytes) with
            | some b => raise cUncorrectable (BitVec.ofNat 64 b) s
            | none => writeOut s (lenOf o.x) (s.me.reg o.d).toNat (16 + bytes - 16 * n) rs (regionRaw (sortRaw (ls.flatMap id))))

/-! ## Groups (R274, R275) -/

/-- The byte a group operand reaches (R275): as XSPLT reads its descriptor, through the vector table; while that maps no
byte there, as the scalar tables do; none when it reaches no byte. -/
def groupByte (s : State) (a : Nat) : Option Nat :=
  match vectorLoc s s.cur a 1 1 0, scalarLoc s s.cur a 1 1 0 with
  | .ok (.here l), _ => some l.key
  | _, .ok l => some l.key
  | _, .error _ => none

/-- The installed group of the hart's context that an address names. -/
def groupNamed (s : State) (a : Nat) : Option (Nat × Group) :=
  match groupByte s a with
  | none => none
  | some k => s.groups.find? (fun e => e.2.key == k && e.2.ctx == s.me.ctx)

/-- An instruction that names an installed group; Space with the address when there is none. -/
def withGroup (r : BitVec 5) (s : State) (k : Nat → Group → State → State) : State :=
  match groupNamed s (s.me.reg r).toNat with
  | none => raise cSpace (s.me.reg r) s
  | some (gk, g) => k gk g s

/-- A round of the group is open. -/
def Group.open_ (g : Group) : Bool := match g.rounds.getLast? with | none => false | some r => !r.closed

/-- A DEST word names a hart of the launch, its team placed or away: its member and the core of its team (R274). -/
def destMember (s : State) (w : Nat) : Option (Nat × Nat) :=
  if 191 < bitsOf w 19 12 ∨ s.me.system then none
  else match memberAt s s.me.launch (bitsOf w 11 0 * 256 + bitsOf w 19 12) (bitsOf w 22 20) with
    | none => none
    | some mid => some (mid, match s.launches.find s.me.launch with | none => 0 | some l => l.teams.getD (mid / 8) 0)

/-- A word of a collective's list names a hart of the launch, exited or not (R322): its member. -/
def listedMember (s : State) (w : Nat) : Option Nat :=
  if 191 < bitsOf w 19 12 ∨ s.me.system then none
  else memberNamed s s.me.launch (bitsOf w 11 0 * 256 + bitsOf w 19 12) (bitsOf w 22 20)

/-- A module, or the context on it, already holds all the groups it may. -/
def groupsFull (s : State) : Bool :=
  (launchModules s s.me.launch).any (fun p =>
    let here := s.groups.filter (fun e => (launchModules s e.2.launch).contains p)
    decide (64 ≤ here.length) || decide (16 ≤ (here.filter (fun e => e.2.ctx == s.me.ctx)).length))

/-- A change of the group waits for the round that is open: the number of its issue (R297). -/
def changeOf (gk : Nat) (h : Hart) : Option Nat :=
  match h.vector.wait with
  | none => none
  | some w => if (w.kind = wExchange ∨ w.kind = wRemote ∨ w.kind = wUnit) ∧ w.a = gk ∧ 4 ≤ w.b then some w.b else none

/-- The changes of a group that wait, by harts placed or away. -/
def waitingChanges (s : State) (gk : Nat) : List Nat :=
  s.harts.filterMap (fun e => changeOf gk e.2) ++
    s.images.flatMap (fun e => if e.2.loaded then [] else e.2.harts.filterMap (fun x => changeOf gk x.2))

/-- A change of a group is made once `ok` holds and no change issued before it waits; until then it waits (R297). -/
def withTurn (gk : Nat) (ok : Bool) (s : State) (k : State → State) : State :=
  let mine := changeOf gk s.me
  if ok && (waitingChanges s gk).all (fun n => match mine with | none => false | some m => decide (m ≤ n)) then k s
  else match mine with
    | some _ => s.hold wExchange
    | none => (s.holdAt wExchange gk (4 + s.seq)).bump

/-- The descriptor at `a`, read once and checked (R274, R275); the group without splitters. -/
def readGroup (s : State) (a key : Nat) : Except State (State × Group) :=
  if a >>> 60 ≠ 0 ∧ a >>> 60 ≠ 2 then .error (raise cSpace (BitVec.ofNat 64 a) s)
  else match readOnce s 0 a 16 64 4 with
    | .error t => .error t
    | .ok (s, x) =>
      let d := bitsOf x 31 16
      let n := bitsOf x 63 32
      let rcap := bitsOf x 95 64
      let bad : State := raise cSpace (BitVec.ofNat 64 a) s
      if d < 1 ∨ 4096 < d ∨ n < 1 ∨ 2 ^ 24 < n ∨ rcap % 16 ≠ 0 ∨ rcap < 4128 ∨ 4194304 < rcap then .error bad
      else match readOnce s 1 ((a + 16) % 2 ^ 64) (4 * d) 16 4 with
        | .error t => .error t
        | .ok (s, y) =>
          let ds := (span 0 d).map (fun i => destMember s (bitsOf y (32 * i + 31) (32 * i)))
          let ms := ds.filterMap id
          if ds.any Option.isNone ∨ (ms.map Prod.fst).eraseDups.length ≠ ms.length ∨ groupsFull s then .error bad
          else if s.levels.length ≤ bitsOf x 7 4 then .error (raise 0x0B (BitVec.ofNat 64 (bitsOf x 7 4)) s)
          else .ok (s, {
            launch := s.me.launch, ctx := s.me.ctx, key := key, rebal := x.testBit 0
            policy := if bitsOf x 2 1 = 3 then 1 else bitsOf x 2 1
            layer := x.testBit 3, level := bitsOf x 7 4, s := n, rcap := rcap, dests := ms, set := [], comb := 0
            caps := (span 0 d).map (fun _ => 0xFFFFFFFF), rounds := [], home := []
            versions := [{ entries := [], boundary := none }], staged := [], maxTag := 0, pft := none, rlast := []
            lastDone := none, mst := 0, mx := 0, md := 0, shown := 2 ^ 64 - 1, monarch := none, prefetch := [], fetched := [] })

/-- The splitters at `b`: D - 1 words, access 2 of the instruction. -/
def readSplitters (s : State) (b d : Nat) : Except State (State × List Nat) :=
  match readBlock s 2 b (8 * (d - 1)) 8 8 with
  | .error t => .error t
  | .ok (s, x) => .ok (s, ascending 0 ((span 0 (d - 1)).map (fun i => bitsOf x (64 * i + 63) (64 * i))))

/-- The lowest destination of a round at which a record was dropped. -/
def firstOver (r : Round) : Option Nat :=
  let os := r.result
  (span 0 os.length).find? (fun d => decide (0 < (os.getD d ([], 0)).2))

/-- The destination that a hart's first XROUND of a round raises Capacity for, under POLICY 2 (R299). -/
def capacityDue (g : Group) (r : Round) (h : Hart) : Option Nat :=
  if g.policy = 2 ∧ !r.told.contains (h.launch, h.mid) then firstOver r else none

/-- The wait of a hart whose XROUND of group `gk` has had its event, as it outlasts the group: 1 more than the destination
of a Capacity it has to raise, else 0 (R18, R299). -/
def roundMet (gk : Nat) (g : Group) (h : Hart) : Option Wait :=
  match h.wait with
  | some ⟨9, k, i⟩ =>
    if k ≠ gk then none
    else match g.rounds[i]? with
      | none => none
      | some r => if r.completed then some ⟨wRounded, gk, match capacityDue g r h with | none => 0 | some d => d + 1⟩ else none
  | _ => none

/-- What a hart keeps when a group is released: of its posted regions, stream and owed causes none, but for what an XROUND
whose round has completed is still to raise. -/
def Hart.leaveGroup (gk : Nat) (g : Group) (h : Hart) : Hart :=
  let met := roundMet gk g h
  { h with
    posted := h.posted.filter (fun p => p.group != gk)
    owedX := if met.isSome then h.owedX else h.owedX.filter (fun p => p.1 != gk)
    stream := match h.stream with | none => none | some t => if t.1 = gk then none else some t
    wait := match met with | none => h.wait | some w => some w }

/-- The group is released: its claim on the transition tables ends, and its posted regions go (R296, R310). -/
def releaseGroup (s : State) (gk : Nat) : State :=
  match s.groups.find gk with
  | none => s
  | some g => { s with
    groups := s.groups.del gk
    mods := s.mods.map (fun e => (e.1, if e.2.claim = some gk then { e.2 with claim := none } else e.2))
    harts := s.harts.map (fun e => (e.1, e.2.leaveGroup gk g))
    images := s.images.map (fun e => (e.1, { e.2 with harts := e.2.harts.map (fun x => (x.1, x.2.leaveGroup gk g)) })) }

/-- XSPLT (R296). -/
def execXsplt (o : OpAB) (s : State) : Out :=
  scalar o.x s (fun s =>
    let a := (s.me.reg o.a).toNat
    let b := (s.me.reg o.b).toNat
    let len := lenOf o.x
    match groupNamed s a with
    | none =>
      if b = 0 then raise cSpace (s.me.reg o.a) s
      else match groupByte s a with
        | none => (match readGroup s a 0 with | .error t => t | .ok _ => raise cSpace (s.me.reg o.a) s)
        | some key => match readGroup s a key with
          | .error t => t
          | .ok (s, g) => match readSplitters s b g.dests.length with
            | .error t => t
            | .ok (s, set) =>
              let g1 : Group := { g with set := set, home := (span 0 256).map (fun x => destOf set (x <<< 32)) }
              ({ s with groups := s.groups.put s.seq g1 }.bump).vretire len
    | some (gk, g) =>
      if b = 0 then (if g.idle then (releaseGroup s gk).vretire len else s.hold wExchange)
      else withTurn gk (!g.open_) s (fun s => match readSplitters s b g.dests.length with
        | .error t => t
        | .ok (s, set) => (updGroup s gk (fun g => { g with set := set })).vretire len))

/-- XCOMB (R297): the reserved bits of the word read as zero. -/
def execXcomb (o : OpAB) (s : State) : Out :=
  scalar o.x s (fun s => withGroup o.a s (fun gk g s =>
    withTurn gk (!g.open_) s (fun s =>
      (updGroup s gk (fun g => { g with comb := (s.me.reg o.b).toNat % 4096 })).vretire (lenOf o.x))))

/-- XCAPSET (R297). -/
def execXcapset (o : OpAB) (s : State) : Out :=
  scalar o.x s (fun s => withGroup o.a s (fun gk g s =>
    let d := g.dests.length
    withTurn gk (!g.open_) s (fun s => match readBlock s 0 (s.me.reg o.b).toNat (4 * d) 4 4 with
      | .error t => t
      | .ok (s, x) =>
        let caps := (span 0 d).map (fun i => bitsOf x (32 * i + 31) (32 * i))
        (updGroup s gk (fun g => { g with caps := caps })).vretire (lenOf o.x))))

/-! ## Streams (R276, R292, R295) -/

/-- The hart's open stream closes, and the round with it when it is the last (R276). -/
def closeStream (s : State) : State :=
  match s.me.stream with
  | none => s
  | some (gk, i) =>
    let s1 := s.setMe { s.me with stream := none }
    match s1.groups.find gk with
    | none => s1
    | some g =>
      let ri := g.rounds.length - 1
      let s2 := updRound s1 gk ri (fun r => { r with streams := r.streams.upd i (fun t => { t with closed := true }) })
      match s2.groups.find gk with
      | none => s2
      | some g2 => match g2.rounds[ri]? with
        | none => s2
        | some r => if r.streams.length = g2.s ∧ r.streams.all (fun t => t.2.closed) then closeRound s2 gk else s2

/-- The lowest round in which index i has opened no stream. -/
def roundFor (g : Group) (i : Nat) : Nat :=
  ((span 0 g.rounds.length).find? (fun r => match g.rounds[r]? with
    | none => false
    | some x => (x.streams.find i).isNone)).getD g.rounds.length

/-- A new round with what applies to it (R278, R280, R282). -/
def newRound (g : Group) : Round where
  set := g.set
  comb := g.comb
  caps := g.caps
  streams := []
  closed := false
  completed := false
  dests := []
  prop := []
  nsamp := 0
  j := 0
  sentd := []
  result := []
  told := []

/-- Index i can be opened now: no earlier round is open, and no change of the group waits for its turn. -/
def canOpen (s : State) (gk i : Nat) (g : Group) : Bool :=
  decide (roundFor g i ≠ g.rounds.length) || (!g.open_ && (waitingChanges s gk).isEmpty)

/-- A stream of sender index i joins the lowest round in which the index has none (R276). -/
def joinRound (s : State) (gk i : Nat) (g : Group) (t : Stream) : State :=
  let r := roundFor g i
  let g1 : Group := if r = g.rounds.length then { g with rounds := g.rounds ++ [newRound g] } else g
  updRound { s with groups := s.groups.put gk g1 } gk r (fun x => { x with streams := x.streams.put i t })

/-- The stream a hart opens on a module. -/
def openedBy (h : Hart) (pkg : Nat) : Stream :=
  { launch := h.launch, mid := h.mid, pkg := pkg, closed := false, last := none, recs := [] }

/-- XOPEN (R295). Its wait record holds the group and the index; one whose stream was opened as its team left goes on. -/
def execXopen (o : OpAB) (s : State) : Out :=
  scalar o.x s (fun s =>
    if s.me.wait.any (fun w => w.kind == wOpened) then s.vretire (lenOf o.x)
    else withGroup o.a s (fun gk g0 s =>
    let i := (s.me.reg o.b).toNat
    if g0.s ≤ i then raise cSpace (s.me.reg o.a) s
    else
      let s := closeStream s
      match s.groups.find gk with
      | none => s.vretire (lenOf o.x)
      | some g =>
        if !canOpen s gk i g then s.holdAt wOpen gk i
        else
          let s2 := joinRound s gk i g (openedBy s.me s.myPkg)
          (s2.setMe { s2.me with stream := some (gk, i) }).vretire (lenOf o.x)))

/-- XCLOSE (R295). -/
def execXclose (o : OpN) (s : State) : Out := scalar o.x s (fun s => (closeStream s).vretire (lenOf o.x))

/-- The first key below its predecessor. -/
def disorder : Option Nat → List Raw → Option Nat
  | _, [] => none
  | k, w :: r =>
    match k with
    | none => disorder (some w.key) r
    | some p => if w.key < p then some w.key else disorder (some w.key) r

/-- The records of a region as an XSEND sends them (R292, R272). -/
def stamped (g : Group) (pkg : Nat) (l : List Raw) : List Rec :=
  l.map (fun w =>
    let x := recOf w
    { x with src := pkg, rnd := if g.layer then x.rnd else (g.rounds.length - 1) % 65536 })

/-- Up to `n` records from offset `off` of the region at `a`, as far as they can be read. -/
def recordsFrom (s : State) (a : Nat) : Nat → Nat → List Raw
  | 0, _ => []
  | n + 1, off => match recLen s (a + off) with
    | .error _ => []
    | .ok len => match poolBytes s (a + off) (16 + len) with
      | .error _ => []
      | .ok rs =>
        let x := readRuns s rs 0 (16 + len)
        if len % 16 ≠ 0 ∨ len < 16 ∨ 4096 < len then [] else ⟨x % 2 ^ 64, 16 + len, x⟩ :: recordsFrom s a n (off + 16 + len)

/-- Records join stream `i` of the group's open round. -/
def joinStream (gk i : Nat) (xs : List Rec) (s : State) : State :=
  let s1 := updRound s gk ((match s.groups.find gk with | none => 0 | some g => g.rounds.length) - 1) (fun r => { r with
    streams := r.streams.upd i (fun t =>
      { t with last := (match xs.getLast? with | none => t.last | some x => some x.key), recs := t.recs ++ xs }) })
  updGroup s1 gk (fun g => { g with maxTag := xs.foldl (fun n x => max n x.rnd) g.maxTag })

/-- The first round a destination has not wholly received. -/
def pendingRound (g : Group) (d : Nat) : Option Nat :=
  (span 0 g.rounds.length).find? (fun i => match g.rounds[i]? with
    | none => false
    | some r => !(r.dests.getD d {}).ended)

/-- A destination receives and has received everything that can leave its final switch: what waits, waits for another
sender's keys and not for the destination (R286). -/
def starved (s : State) (gk : Nat) (g : Group) (d : Nat) : Bool :=
  match memberKey s g.launch (g.dests.getD d (0, 0)).1 with
  | none => false
  | some hk => (match (s.hart hk).posted with | [] => false | p :: _ => p.group == gk) &&
    (match pendingRound g d with
     | none => true
     | some i => match g.rounds[i]? with
       | none => true
       | some r => decide ((emittable g r d).length ≤ (r.dests.getD d {}).got))

/-- The staging of a destination that does not receive, the switches and the senders' buffers are full (R286). -/
def crowded (s : State) (gk : Nat) (g : Group) (d : Nat) : Bool :=
  decide (65536 + Config.sendRoom < backlog g d) && !starved s gk g d

/-- The first `m` records can leave: they feed no destination whose staging, switches and buffers are full (R286). -/
def sendFits (s : State) (gk i : Nat) (xs : List Rec) (m : Nat) : Bool :=
  m == 0 || (match s.groups.find gk, (joinStream gk i (xs.take m) s).groups.find gk with
    | some g0, some g => (span 0 g.dests.length).all (fun d => decide (backlog g d ≤ backlog g0 d) || !crowded s gk g d)
    | _, _ => true)

/-- An XSEND of `len` bytes sends on from offset `off` of the region at `a`, `n` records being left: as many as fit, up to
a record boundary where its hart may be stopped (R286, R288). -/
def sendOn (len a off n : Nat) (s : State) : State :=
  match s.me.stream with
  | none => (s.setMe { s.me with sending := none }).vretire len
  | some (gk, i) => match s.groups.find gk with
    | none => (s.setMe { s.me with sending := none }).vretire len
    | some g =>
      let k := min n (1 + Config.sendBurst s.seq)
      let ws := recordsFrom s a k off
      let xs := stamped g s.myPkg ws
      let m := ((span 0 (ws.length + 1)).reverse.find? (sendFits s gk i xs)).getD 0
      let s1 := (joinStream gk i (xs.take m) s).bump
      if m = n ∨ (m = ws.length ∧ m < k) then (s1.setMe { s1.me with sending := none }).vretire len
      else
        (s1.setMe { s1.me with sending := some (a, off + (ws.take m).foldl (fun b w => b + w.len) 0, n - m) }).hold wExchange

/-- XSEND (R292). -/
def execXsend (o : OpA) (s : State) : Out :=
  scalar o.x s (fun s =>
    match s.me.sending with
    | some (a, off, n) => sendOn (lenOf o.x) a off n s
    | none => match readRegion s (s.me.reg o.a).toNat with
    | .error t => raise t.1 t.2 s
    | .ok (rs, _, l) =>
      match l with
      | [] => s.vretire (lenOf o.x)
      | w :: _ => match s.me.stream with
        | none => raise 0x0D (BitVec.ofNat 64 w.key) s
        | some (gk, i) => match s.groups.find gk with
          | none => raise 0x0D (BitVec.ofNat 64 w.key) s
          | some g =>
            let ri := g.rounds.length - 1
            let last := match g.rounds[ri]? with
              | none => none
              | some r => (match r.streams.find i with | none => none | some t => t.last)
            match disorder last l with
            | some k => raise 0x0D (BitVec.ofNat 64 k) s
            | none => sendOn (lenOf o.x) (s.me.reg o.a).toNat 16 l.length (pinRuns s rs))

/-! ## Receiving (R293, R286) -/

/-- XRECV (R293). -/
def execXrecv (o : OpR) (s : State) : Out :=
  scalar o.x s (fun s => withGroup o.a s (fun gk g s =>
    let a := (s.me.reg o.d).toNat
    let b := s.me.reg o.b
    let mine := if s.me.launch = g.launch ∧ !s.me.system then
        (span 0 g.dests.length).find? (fun d => (g.dests.getD d (0, 0)).1 == s.me.mid) else none
    match mine with
    | none => raise cSpace (s.me.reg o.a) s
    | some d => match poolBytes s a g.rcap with
      | .error t => raise t.1 t.2 s
      | .ok rs =>
        if a % 16 ≠ 0 then raise cAlign (BitVec.ofNat 64 a) s
        else if b.toNat % 32 ≠ 0 then raise cAlign b s
        else
          let h := s.me
          ((pinRuns s rs).setMe { h with
            posted := h.posted ++ [{ group := gk, dest := d, runs := rs, bobj := b, at_ := 16, count := 0 }] }).vretire
              (lenOf o.x)))

/-- The first round whose records for a destination have not all left the final switch. -/
def emittingRound (g : Group) (d : Nat) : Option Nat :=
  (span 0 g.rounds.length).find? (fun i => match g.rounds[i]? with
    | none => false
    | some r => !(r.closed && decide ((emittable g r d).length ≤ (r.dests.getD d {}).emitted)))

/-- Bytes of staging a destination uses. -/
def stagingUsed (g : Group) (d : Nat) : Nat :=
  g.rounds.foldl (fun n r => (r.dests.getD d {}).staging.foldl (fun n x => n + 16 + x.pay.length) n) 0

/-- The fixed route of a stream to a module crosses a port that is out of routing: from where the stream was opened, or
from where some record of it was sent (R381). -/
def Stream.cut (t : Stream) (s : State) (pkg : Nat) : Bool := routeCut s t.pkg pkg || t.recs.any (fun x => routeCut s x.src pkg)

/-- SWITCH_EMIT (R279, R281, R282, R286): the next record leaves the final switch of destination `d` for its staging. -/
def execSwitchEmit (pkg gk d : Nat) (s : State) : Out :=
  .next (match s.groups.find gk with
    | none => s
    | some g =>
      if corePkg (g.dests.getD d (0, 0)).2 ≠ pkg ∨ g.dests.length ≤ d then s
      else match emittingRound g d with
        | none => s
        | some i => match g.rounds[i]? with
          | none => s
          | some r =>
            let ds := r.dests.getD d {}
            match (emittable g r d)[ds.emitted]? with
            | none => s
            | some x =>
              if 65536 < stagingUsed g d + 16 + x.pay.length then s
              else if r.streams.any (fun t => t.2.cut s pkg) then s
              else updRound s gk i (fun r => { r with
                dests := r.dests.put d { ds with emitted := ds.emitted + 1, staging := ds.staging ++ [x] } }))

/-- Every byte written into a receive region makes its granule full (R178). -/
def putRegion (s : State) (rs : List (Nat × Nat)) (at_ v n : Nat) : State :=
  let w := takeRuns (dropRuns rs at_) n
  w.foldl (fun t r => setFull t r.1 r.2) (writeRuns s w v n)

/-- The region a hart fills is finished: header, addition, and the round's end for the destination (R293, R276). -/
def finishRegion (hk gk i d : Nat) (p : Posted) (ended : Bool) (s : State) : State :=
  let bytes := p.at_ - 16
  let s1 := putRegion s p.runs 0 (p.count + bytes <<< 64 + (if ended then 1 <<< 120 else 0)) 16
  let r := if p.bobj = 0 then (s1, none) else engineAdd s1 hk p.bobj.toNat (16 + bytes)
  let h := r.1.hart hk
  let s2 := r.1.setHart hk { h with
    posted := h.posted.drop 1
    owedX := match r.2 with | none => h.owedX | some t => h.owedX ++ [(gk, t.1, p.bobj)] }
  if !ended then s2
  else
    let s3 := updRound s2 gk i (fun r => { r with dests := r.dests.put d { r.dests.getD d {} with ended := true } })
    match s3.groups.find gk with
    | none => s3
    | some g => match g.rounds[i]? with
      | none => s3
      | some r =>
        if (span 0 g.dests.length).all (fun e => (r.dests.getD e {}).ended) then completeRound s3 gk i else s3

/-- Everything a destination receives of a round has left the switch, and the round has closed. -/
def allEmitted (g : Group) (r : Round) (d : Nat) : Bool :=
  r.closed && decide ((emittable g r d).length ≤ (r.dests.getD d {}).emitted)

/-- RECORD_DELIVERY (R293): the next record of destination `d` goes from staging into its hart's region, or a full
region or a round's end finishes the region. -/
def execRecordDelivery (pkg gk d : Nat) (s : State) : Out :=
  .next (match s.groups.find gk with
    | none => s
    | some g => match memberKey s g.launch (g.dests.getD d (0, 0)).1 with
      | none => s
      | some hk =>
        if pkgOf hk ≠ pkg ∨ g.dests.length ≤ d then s
        else match (s.hart hk).posted, pendingRound g d with
          | p :: _, some i => (match g.rounds[i]? with
            | none => s
            | some r =>
              if p.group ≠ gk ∨ (p.bobj ≠ 0 ∧ objectHeld s hk p.bobj.toNat) then s
              else
                let ds := r.dests.getD d {}
                match ds.staging with
                | [] => if allEmitted g r d then finishRegion hk gk i d p true s else s
                | x :: rest =>
                  let n := 16 + x.pay.length
                  if g.rcap < p.at_ + n then finishRegion hk gk i d p false s
                  else
                    let s1 := putRegion s p.runs p.at_ (recBits x) n
                    let s2 := updRound s1 gk i (fun r => { r with
                      dests := r.dests.put d { ds with staging := rest, got := ds.got + 1 } })
                    let p1 : Posted := { p with at_ := p.at_ + n, count := p.count + 1 }
                    let h := s2.hart hk
                    let s3 := s2.setHart hk { h with posted := p1 :: h.posted.drop 1 }
                    if rest.isEmpty && allEmitted g r d then finishRegion hk gk i d p1 true s3 else s3)
          | _, _ => s)

/-! ## XSAMP and XROUND (R298, R299) -/

/-- Records sent in a round. -/
def sentCount (r : Round) : Nat := r.streams.foldl (fun n t => n + t.2.recs.length) 0

/-- The block of XSAMP as one number. -/
def sampleBlock (g : Group) : Nat :=
  let d := g.dests.length
  let dw (l : List Nat) : Nat := l.foldr (fun x n => x % 2 ^ 64 + n <<< 64) 0
  match (span 0 g.rounds.length).reverse.find? (fun i => match g.rounds[i]? with | none => false | some r => r.closed) with
  | none => 2 ^ 64 - 1
  | some i => match g.rounds[i]? with
    | none => 2 ^ 64 - 1
    | some r =>
      let os := r.result
      i + sentCount r <<< 64 + r.nsamp <<< 128 + r.j <<< 160 +
        dw (r.sentd ++ os.map (fun o => o.1.length) ++ os.map Prod.snd ++ r.prop.take (d - 1)) <<< 192

/-- XSAMP (R298). -/
def execXsamp (o : OpDA) (s : State) : Out :=
  scalar o.x s (fun s => postOnce s (lenOf o.x) (s.me.reg o.d).toNat (fun post =>
    withGroup o.a s (fun _ g _ => post (16 + 32 * g.dests.length) (sampleBlock g))))

/-- What an XROUND of group `gk` does once its round has completed: a cause owed, else the Capacity due, else it returns
(R299). `told` marks the round. -/
def roundReturn (s : State) (gk len : Nat) (due : Option Nat) (told : State → State) : State :=
  match s.me.owedX.find? (fun p => p.1 == gk) with
  | some p => raise p.2.1 p.2.2 (s.setMe { s.me with owedX := s.me.owedX.erase p })
  | none => match due with
    | some d => raise 0x17 (BitVec.ofNat 64 d) (told s)
    | none => s.retire len

/-- XROUND (R299). Its wait record holds the group and the round, or that its event has come. -/
def execXround (o : OpAB) (s : State) : Out :=
  scalar o.x s (fun s =>
    match s.me.wait with
    | some ⟨24, gk, c⟩ => roundReturn s gk (lenOf o.x) (if c = 0 then none else some (c - 1)) id
    | _ => withGroup o.a s (fun gk g s =>
      let i := (s.me.reg o.b).toNat
      match g.rounds[i]? with
      | none => s.holdAt wRound gk i
      | some r =>
        if !r.completed then s.holdAt wRound gk i
        else roundReturn s gk (lenOf o.x) (capacityDue g r s.me)
          (fun s => updRound s gk i (fun r => { r with told := r.told ++ [(s.me.launch, s.me.mid)] }))))

end Sys2Proof.Machine
end

