-- ==== Sys2Proof/Machine/Collective.lean ====
section
/-!
DEFINITION. Collectives (R320-R335): GRPSET, COLL, CWAIT and the steps STAGING_RESERVATION and COLLECTIVE_COMPLETE.
-/
namespace Sys2Proof.Machine

def cGroup : Nat := 0x10

/-! ## Instances -/

/-- The instance a hart waits for is over when it is no longer in the table. -/
def Owed.ended (s : State) (o : Owed) : Bool := (s.colls.find o.coll).isNone

/-- What a hart is owed on a group register, in issue order. -/
def owedOn (s : State) (h : Hart) (reg : Nat) : List Owed :=
  s.owed.filter (fun o => o.launch == h.launch && o.mid == h.mid && o.reg == reg)

/-- Changes what one member of an instance is owed. -/
def updOwed (s : State) (ck : Nat) (m : CMember) (f : Owed → Owed) : State :=
  { s with owed := s.owed.map (fun o =>
      if o.coll = ck ∧ o.launch = m.launch ∧ o.mid = m.mid ∧ o.reg = m.reg then f o else o) }

/-- An instance ends with Group at every member that issued it (R323, R324). -/
def endColl (s : State) (ck : Nat) : State :=
  match s.colls.find ck with
  | none => s
  | some c =>
    let s1 := c.members.foldl (fun s m =>
      updOwed s ck m (fun o => { o with cause := some (cGroup, BitVec.ofNat 64 m.reg) })) s
    { s1 with colls := s1.colls.del ck }

/-- A gathering instance that a listed member has exited without issuing (R323). -/
def abandoned (s : State) (c : Coll) : Bool :=
  c.state == 0 && (match s.launches.find c.launch with
    | none => true
    | some l => (c.members.flatMap CMember.list).any (fun m =>
        exited l m && !c.members.any (fun x => x.mid == m)))

def endAbandoned (s : State) : State :=
  (Tab.keys (s.colls.filter (fun e => abandoned s e.2))).foldl endColl s

/-- The operating format of a member. -/
def CMember.f (m : CMember) : Fmt := fmtOf m.fmt

/-- The checks of R323 and R324 when the last member arrives. -/
def collOk (c : Coll) : Bool :=
  match c.members with
  | [] => false
  | m :: _ =>
    c.members.length == m.size && (span 0 m.size).all (fun r => c.members.any (fun x => x.rank == r)) &&
      c.members.all (fun x => x.size == m.size && x.kind == m.kind && x.op == m.op && x.exact == m.exact &&
        x.fmt == m.fmt && x.vl == m.vl && x.root == m.root && x.n == m.n) &&
      decide (m.root < m.size) &&
      (!(m.kind == 2 || m.kind == 3) || (match c.members.find? (fun x => x.rank == m.root) with
        | none => false
        | some r => decide (m.size * m.vl ≤ maxVl m.f r.vlcap)))

/-- The last member has arrived, by the largest P among them: the instance waits for staging, or ends (R323). -/
def checkColl (s : State) (ck : Nat) : State :=
  match s.colls.find ck with
  | none => s
  | some c =>
    if c.members.length < c.members.foldl (fun n m => max n m.size) 1 then s
    else if collOk c then { s with colls := s.colls.put ck { c with state := 1 } } else endColl s ck

/-! ## GRPSET and CWAIT (R322, R329) -/

/-- The waits and the raised causes of CWAIT on a register: stop here, or go on with the flags of its collectives. -/
def waitColls (s : State) (reg : Nat) : Except State State :=
  let l := owedOn s s.me reg
  if l.any (fun o => !o.ended s) then .error (s.hold wColl)
  else match l.find? (fun o => o.cause.isSome || o.dl.isSome) with
    | some o => match o.cause, o.dl with
      | some t, _ => .error (raise t.1 t.2 { s with owed := s.owed.map (fun x => if x = o then { o with cause := none } else x) })
      | none, some d => .error (raise 0x11 d { s with owed := s.owed.map (fun x => if x = o then { o with dl := none } else x) })
      | none, none => .ok s
    | none => .ok ({ s with owed := s.owed.filter (fun o => !l.contains o) }.setMe (l.foldl (fun (h : Hart) (o : Owed) => h.orFlags o.flags) s.me))

/-- CWAIT (R329). -/
def execCwait (o : OpG) (s : State) : Out :=
  scalar o.x s (fun s =>
    let g := o.g.toNat % 8
    if !(s.me.group g).usable then raise cGroup (BitVec.ofNat 64 g) s
    else match waitColls s g with
      | .error t => t
      | .ok t => t.vretire (lenOf o.x))

/-- The identity of a list (R321). -/
def listIdent (s : State) (a : Nat) : Nat :=
  (if bitsOf a 59 48 = 0xFFF then s.myPkg else bitsOf a 59 48) <<< 48 + bitsOf a 41 0

/-- The register a list gives (R321, R322), unusable when the list does not fit. -/
def groupFrom (s : State) (a x : Nat) : GroupReg :=
  let p := bitsOf x 31 0
  let ms := (span 0 p).map (fun i => listedMember s (bitsOf x (159 + 32 * i) (128 + 32 * i)))
  let ids := ms.filterMap id
  match (span 0 ids.length).find? (fun i => ids.getD i 0 == s.me.mid) with
  | none => {}
  | some r =>
    if ms.any Option.isNone ∨ ids.eraseDups.length ≠ ids.length then {}
    else { usable := true, ident := listIdent s a, size := p, rank := r, bobj := BitVec.ofNat 64 (bitsOf x 127 64)
           count := 0, list := ids }

/-- GRPSET (R322). -/
def execGrpset (o : OpGA) (s : State) : Out :=
  scalar o.x s (fun s =>
    let g := o.g.toNat % 8
    let a := (s.me.reg o.a).toNat
    match waitColls s g with
    | .error t => t
    | .ok s =>
      if a >>> 60 ≠ 0 then raise cSpace (s.me.reg o.a) s
      else match readOnce s 0 a 16 16 4 with
        | .error t => t
        | .ok (s, x) =>
          let p := bitsOf x 31 0
          let put (s : State) (r : GroupReg) : State :=
            (s.setMe { s.me with groups := s.me.groups.put g r }).vretire (lenOf o.x)
          if p < 1 ∨ 4096 < p ∨ s.me.system then put s {}
          else if (windowOf s s.cur a (16 + 4 * p)).isNone then raise cSpace (s.me.reg o.a) s
          else match readOnce s 1 ((a + 16) % 2 ^ 64) (4 * p) 16 4 with
            | .error t => t
            | .ok (s, y) => put s (groupFrom s a (x % 2 ^ 128 + y <<< 128)))

/-! ## COLL (R323, R326, R328) -/

/-- Collectives of the hart that are not complete. -/
def openColls (s : State) : Nat :=
  (s.owed.filter (fun o => o.launch == s.me.launch && o.mid == s.me.mid && !o.ended s)).length

/-- The units of vs1 and its planes that a member gives, in the operating format, and the flags of their conversion. -/
def gathered (h : Hart) (f : Fmt) (r n units : Nat) : List VReg × Flags :=
  ((span 0 (n + 1)).map (fun k => putUnits f 0 ((span 0 units).map (fun e => (e, (unitAt h f r k e).1)))),
    allFlags ((span 0 units).map (fun e => unitAt h f r 0 e)))

/-- The members of a hart's instances whose vd is register `r` and still to be written, issued before number `seq`. -/
def pendingOn (s : State) (lk mid r seq : Nat) : List CMember :=
  s.colls.flatMap (fun e => e.2.members.filter (fun m => m.launch == lk && m.mid == mid && !m.written && collWrites m &&
    m.vd == r && decide (m.seq < seq)))

/-- A register of a member waits for what its hart issued before number `seq`: groups of a CPYR, or the vd of a COLL. -/
def registerDue (s : State) (lk mid r seq : Nat) : Bool :=
  !(pendingOn s lk mid r seq).isEmpty || (match memberHart s lk mid with
    | none => false
    | some h => h.tokens.any (fun p => decide (p.2.seq < seq) && (span 0 16).any (p.2.bringing h.mid r)))

/-- A hart with the tag that register `r` will have: that of the latest COLL still to write it. -/
def expecting (s : State) (h : Hart) (r : Nat) : Hart :=
  match (pendingOn s h.launch h.mid r s.seq).foldl (fun (b : Option CMember) m => match b with
      | none => some m
      | some x => if x.seq < m.seq then some m else b) none with
  | none => h
  | some m => if h.system then h else h.setTag r m.f

/-- How many units of vs1 a member gives. -/
def givenUnits (m : CMember) : Nat :=
  min (if m.kind = 3 ∧ m.rank = m.root then m.size * m.vl else m.vl) (maxVl m.f 128)

/-- The engine reads the source of every member of an instance whose register is there by now (R328). -/
def readSources (s : State) (ck : Nat) : State :=
  match s.colls.find ck with
  | none => s
  | some c => c.members.foldl (fun s m =>
      if !m.due || registerDue s m.launch m.mid m.vs1 m.seq then s
      else match memberHart s m.launch m.mid with
        | none => s
        | some h =>
          let g := gathered h m.f m.vs1 m.n (givenUnits m)
          let s1 := updOwed s ck m (fun o => { o with flags := o.flags ||| g.2 })
          { s1 with colls := s1.colls.upd ck (fun c => { c with members := c.members.map (fun x =>
              if x.seq = m.seq then { x with src := g.1, due := false } else x) }) }) s

/-- A COLL of one kind, as the decoder names it. It retires at issue; a source that an earlier engine operation of the hart
is still to write is read later (R328). -/
def coll (o : OpColl) (kind : Nat) (s : State) : Out :=
  gated o.x.wtk.toNat s (fun s =>
    let h := s.me
    let imm := o.x.imm32.toNat
    let op := bitsOf imm 5 3
    let root := imm >>> 8
    let g := o.g.toNat
    let r := h.group g
    let f := faOf (some o.x) h
    let n := h.planesInForce
    if !r.usable ∨ r.size ≤ r.rank then raise cGroup (BitVec.ofNat 64 g) s
    else if (3 ≤ op ∧ isFloat f) ∨ (kind ≤ 1 ∧ isGx f) then raise 0x03 (BitVec.ofNat 64 o.a.toNat) s
    else match badSource .any f (expecting s h o.a.toNat) [o.a.toNat] with
      | some v => raise 0x03 (BitVec.ofNat 64 v) s
      | none =>
        if 8 ≤ openColls s then s.hold wColl
        else
          let due := !h.system && registerDue s h.launch h.mid o.a.toNat s.seq
          let m0 : CMember :=
            { launch := h.launch, mid := h.mid, reg := g, rank := r.rank, size := r.size, kind := kind, op := op
              exact := imm.testBit 6, fmt := fmtCode f, vl := h.csr.vl, root := root, n := n, vd := o.d.toNat
              mask := if o.m = 15 then none else some (maskOf s o.m.toNat), vlcap := s.me.cap
              sat4 := h.sate4, bobj := r.bobj, list := r.list, src := [], deadline := deadlineOf s, written := false
              seq := s.seq, vs1 := o.a.toNat, due := due }
          let src := if due then ([], 0) else gathered h f o.a.toNat n (givenUnits m0)
          let m : CMember := { m0 with src := src.1 }
          let here := s.colls.find? (fun e =>
            e.2.state == 0 && e.2.ident == r.ident && e.2.index == r.count && e.2.launch == h.launch)
          let ck := match here with | none => s.seq | some e => e.1
          let c : Coll := match here with
            | none => { ident := r.ident, index := r.count, launch := h.launch, members := [], state := 0, staged := [] }
            | some e => e.2
          let s1 : State := { s with
            colls := s.colls.put ck { c with members := c.members ++ [m] }
            owed := s.owed ++ [{ launch := h.launch, mid := h.mid, reg := g, coll := ck, cause := none, dl := none, flags := 0 }] }
          let h1 := { h with groups := h.groups.put g { r with count := r.count + 1 } }.orFlags src.2
          endAbandoned (checkColl ((s1.bump.setMe h1).vretire 12) ck))

/-- COLL.REDUCE (R324). -/
def execCollReduce (o : OpColl) (s : State) : Out := coll o 0 s
/-- COLL.ALLRED (R324). -/
def execCollAllred (o : OpColl) (s : State) : Out := coll o 1 s
/-- COLL.GATHER (R324). -/
def execCollGather (o : OpColl) (s : State) : Out := coll o 2 s
/-- COLL.SCATTER (R324). -/
def execCollScatter (o : OpColl) (s : State) : Out := coll o 3 s
/-- COLL.BCAST (R324). -/
def execCollBcast (o : OpColl) (s : State) : Out := coll o 4 s

/-! ## Staging (R332) -/

/-- Staging an instance needs on each module, ascending PKGID. -/
def stagingNeed (s : State) (c : Coll) : Tab Nat :=
  c.members.foldl (fun t m =>
    let p := memberPkg s m.launch m.mid
    t.put p (t.getD p 0 + m.vl * unitBytes m.f * (1 + m.n))) []

/-- 16 MiB of staging on every module hold it beside what is reserved. -/
def stagingFits (s : State) (c : Coll) : Bool :=
  (stagingNeed s c).all (fun e =>
    decide (s.colls.foldl (fun n x => n + x.2.staged.getD e.1 0) 0 + e.2 ≤ 16777216))

/-- A member of an instance that is to have staging must be written after instances that have none yet: it waits for them
(R228, R328), and no staging waits with it. -/
def targetBehind (s : State) (c : Coll) : Bool :=
  c.members.any (fun m => collWrites m && s.colls.any (fun e => e.2.state != 2 && e.2.members.any (fun x =>
    x.launch == m.launch && x.mid == m.mid && decide (x.seq < m.seq) &&
      ((!x.written && collWrites x && x.vd == m.vd) || (x.due && x.vs1 == m.vd)))))

/-- The instance can take staging: its members have all issued, its sources are read, and it waits for no instance that has
none. -/
def wantsStaging (s : State) (c : Coll) : Bool := c.state == 1 && !c.members.any CMember.due && !targetBehind s c

/-- STAGING_RESERVATION (R332): the engine reads the sources that are there, and takes all of an instance's staging at
once, in ascending identity among the waiting instances that can take it. -/
def execStagingReservation (ck : Nat) (s0 : State) : Out :=
  let s := (Tab.keys s0.colls).foldl readSources s0
  .next (match s.colls.find ck with
    | none => s
    | some c =>
      if !wantsStaging s c ∨ !stagingFits s c then s
      else if s.colls.any (fun e => e.1 != ck && wantsStaging s e.2 && stagingFits s e.2 &&
          (decide (e.2.ident < c.ident) || (e.2.ident == c.ident && decide (e.1 < ck)))) then s
      else { s with colls := s.colls.put ck { c with
          state := 2, staged := stagingNeed s c
          members := c.members.map (fun m => { m with pkg := memberPkg s m.launch m.mid }) } })

/-! ## Results (R324, R325, R327) -/

/-- Plane k of unit e of a member's part. -/
def partOf (m : CMember) (k e : Nat) : Nat := rawUnit m.f (m.src.getD k 0) e

/-- The members in rank order from the owner of an element on (R77). -/
def chainFrom (c : Coll) (p e : Nat) : List CMember :=
  let o := e / 8 % p
  ((span 0 p).map (fun i => (o + i) % p)).filterMap (fun r => c.members.find? (fun m => m.rank == r))

/-- Members in rank order. -/
def ranked (c : Coll) (p : Nat) : List CMember := (span 0 p).filterMap (fun r => c.members.find? (fun m => m.rank == r))

/-- A chain of sums, rounded to `g` at each step. -/
def sumChain (g : Fmt) (sat4 : Bool) : List Num → Num × Flags
  | [] => (Num.zero, 0)
  | x :: r => r.foldl (fun (p : Num × Flags) y =>
      let q := packVal g 0 sat4 (numAdd 0 p.1 y)
      (decodeNum g q.1, p.2 ||| q.2)) (x, 0)

/-- The extremum of a chain: the member kept, its element, the flags (R59, R325). -/
def keepChain (f : Fmt) (mx sat4 : Bool) (e : Nat) (ms : List CMember) : Option (CMember × Nat × Flags) :=
  ms.foldl (fun acc m => match acc with
    | none => some (m, partOf m 0 e, 0)
    | some (k, x, fl) =>
      let a := decodeNum f x
      let b := decodeNum f (partOf m 0 e)
      let r := packVal f 0 sat4 (numMinMax mx a b)
      some (if keepsFirst mx a b then k else m, r.1, fl ||| r.2)) none

/-- Red of element e: its bits in plane k, and the flags of the primal. -/
def redUnit (c : Coll) (m : CMember) (k e : Nat) : Nat × Flags :=
  let f := m.f
  let w := fmtBits f
  let ms := chainFrom c m.size e
  let sat4 := match ms with | [] => false | x :: _ => x.sat4
  match m.op with
  | 0 =>
    if isInt f then (if k = 0 then ((ms.foldl (fun n x => n + partOf x 0 e) 0) % 2 ^ w, 0) else (0, 0))
    else if m.exact then
      let r := packVal f 0 sat4 (exactSum ((ranked c m.size).map (fun x => decodeNum f (partOf x k e))))
      (r.1, if k = 0 then r.2 else 0)
    else
      let r := sumChain (if k = 0 then f else tanFmt f) (k = 0 && sat4) (ms.map (fun x => decodeNum f (partOf x k e)))
      let all : Nat × Flags := ((roundTo f 0 sat4 r.1).1, if k = 0 then r.2 else 0)
      match ms with
      | [x] => if k = 0 ∨ f = tanFmt f then (partOf x k e, 0) else all
      | _ => all
  | 3 => if k = 0 then (ms.foldl (fun n x => n &&& partOf x 0 e) (2 ^ w - 1), 0) else (0, 0)
  | 4 => if k = 0 then (ms.foldl (fun n x => n ||| partOf x 0 e) 0, 0) else (0, 0)
  | _ =>
    match keepChain f (m.op == 2) sat4 e ms with
    | none => (0, 0)
    | some (x, v, fl) => if k = 0 then (v, fl) else if isInt f then (0, 0) else (partOf x k e, 0)

/-- Unit e of plane k that a member's vd receives. GATHER, SCATTER and BCAST move the plane bits of an integer format too
(log 163). -/
def collUnit (c : Coll) (m : CMember) (k e : Nat) : Nat × Flags :=
  let root := c.members.find? (fun x => x.rank == m.root)
  let from_ (x : Option CMember) (i : Nat) : Nat × Flags := match x with | none => (0, 0) | some y => (partOf y k i, 0)
  match m.kind with
  | 2 => from_ (c.members.find? (fun x => x.rank == e / m.vl)) (e % m.vl)
  | 3 => from_ root (m.rank * m.vl + e)
  | 4 => from_ root e
  | _ => redUnit c m k e

/-- Units of vd the kind writes at a member. -/
def collCount (m : CMember) : Nat := if !collWrites m then 0 else if m.kind = 2 then m.size * m.vl else m.vl

/-- The units the mask lets through. -/
def collActive (m : CMember) : List Nat :=
  (span 0 (collCount m)).filter (fun e => match m.mask with
    | none => true
    | some k => maskBit k (if isGx m.f then gxLanes m.f * e else e))

/-- vd and its planes written at a member's hart. -/
def writeMember (c : Coll) (m : CMember) (h : Hart) : Hart :=
  if !collWrites m then h
  else
    let f := m.f
    let es := collActive m
    let h1 := (span 0 (m.n + 1)).foldl (fun h k =>
      h.setPlane m.vd k (putUnits f (h.plane m.vd k) (es.map (fun e => (e, (collUnit c m k e).1))))) h
    h1.setTag m.vd f

/-- A member's addition to its object (R330), in its image when its team is away (R333). -/
def memberAdd (s : State) (m : CMember) : State × Option Trap :=
  let n := collCount m * unitBytes m.f
  if m.bobj = 0 ∨ n = 0 then (s, none)
  else forMember s m.launch m.mid none (fun s hk => engineAdd s hk m.bobj.toNat n)

/-- The member's object cannot take an addition yet. -/
def memberHeld (s : State) (m : CMember) : Bool :=
  m.bobj != 0 && collCount m * unitBytes m.f != 0 &&
    (forMember s m.launch m.mid false (fun s hk => (s, objectHeld s hk m.bobj.toNat))).2

/-- The engine may write a member's vd: what its hart issued before has written it or read it (R226, R328). -/
def targetFree (s : State) (m : CMember) : Bool :=
  !collWrites m || (!registerDue s m.launch m.mid m.vd m.seq &&
    !s.colls.any (fun e => e.2.members.any (fun x =>
      x.launch == m.launch && x.mid == m.mid && x.due && x.vs1 == m.vd && decide (x.seq < m.seq))))

/-- The deadline of an instance whose last vd has just been written on module `p` (R331). -/
def settleDeadline (s : State) (ck p : Nat) (c : Coll) : State :=
  let dl := c.members.foldl (fun n x => min n x.deadline) (2 ^ 64)
  if (s.mod p).gtime ≤ dl then s
  else c.members.foldl (fun s x =>
    let s' := missDeadline s x.launch
    match s'.launches.find x.launch with
    | none => s'
    | some l => if l.blk.dlfault then updOwed s' ck x (fun o => { o with dl := some (BitVec.ofNat 64 dl) }) else s') s

/-- The modules from and to which chunks cross for a member's result: every part to the owner of each chunk of a reduction,
and what the owner forms to the member (R77, R325); the parts of a GATHER to its root; the root's part (R324). -/
def collRoutes (s : State) (c : Coll) (m : CMember) : List (Nat × Nat) :=
  let to_ := memberPkg s m.launch m.mid
  if collCount m = 0 then []
  else match m.kind with
  | 2 => c.members.map (fun x => (x.pkg, to_))
  | 3 => (c.members.filter (fun x => x.rank == m.root)).map (fun x => (x.pkg, to_))
  | 4 => (c.members.filter (fun x => x.rank == m.root)).map (fun x => (x.pkg, to_))
  | _ =>
    let owners := c.members.filter (fun x => decide (x.rank < ceilDiv (collCount m) 8))
    owners.flatMap (fun o => (o.pkg, to_) :: c.members.map (fun x => (x.pkg, o.pkg)))

/-- COLLECTIVE_COMPLETE (R330, R331): the member of a rank receives its result, its flags and its addition; the last vd
written settles the deadline, and the last member ends the instance. -/
def execCollectiveComplete (ck rank : Nat) (s : State) : Out :=
  .next (match s.colls.find ck with
    | none => s
    | some c =>
      match (if c.state = 2 then c.members.find? (fun m => m.rank == rank && !m.written) else none) with
      | none => s
      | some m =>
        if (collRoutes s c m).any (fun r => routeCut s r.1 r.2) then s
        else if memberHeld s m ∨ !targetFree s m then s
        else
          let r := memberAdd (updMember s m.launch m.mid (writeMember c m)) m
          let fl := if collWrites m then allFlags ((collActive m).map (collUnit c m 0)) else 0
          let s1 := updOwed r.1 ck m (fun o => { o with cause := r.2, flags := o.flags ||| fl })
          let c1 : Coll := { c with members := c.members.map (fun x => if x.rank = rank then { x with written := true } else x) }
          let s2 := if collWrites m && c1.members.all (fun x => x.written || !collWrites x) then
              settleDeadline s1 ck (memberPkg s1 m.launch m.mid) c1 else s1
          if c1.members.all CMember.written then { s2 with colls := s2.colls.del ck }
          else { s2 with colls := s2.colls.put ck c1 })

end Sys2Proof.Machine
end

