-- ==== Sys2Proof/Machine/Coord.lean ====
section
/-!
DEFINITION. Coordinate regions: CRINIT, CLD, CST, CSCAN, CDENSE (R337-R350), and VSTC (R354).
-/
namespace Sys2Proof.Machine

def cIndex : Nat := 0x0E

/-! ## The shape of the index tree (R340) -/

/-- The node of a level whose children include child `p`, and `p`'s place in it. -/
def ownerAt : List (Nat × Nat) → Nat → Nat × Nat
  | [], p => (0, p)
  | (_, n) :: r, p => if p < n then (0, p) else match ownerAt r (p - n) with | (i, q) => (i + 1, q)

/-- The number of children of the nodes before node `i`. -/
def childrenBefore (l : List (Nat × Nat)) (i : Nat) : Nat := (l.take i).foldl (fun n x => n + x.2) 0

/-- Nodes of a tree. -/
def treeNodes (t : List (List (Nat × Nat))) : List Nat := t.flatMap (fun l => l.map Prod.fst)

/-- Node `i` of the lowest level gains a child: the leaf of 61 keeps 30, the internal node of 121 keeps 60, and a root
that splits gets a new root. `fresh` numbers the nodes taken. -/
def gainChild (leaf : Bool) : List Nat → List (List (Nat × Nat)) → Nat → List (List (Nat × Nat))
  | _, [], _ => []
  | fresh, lv :: up, i =>
    let x := lv.getD i (0, 0)
    let cap := if leaf then 60 else 120
    let low := if leaf then 30 else 60
    if x.2 < cap then lv.set i (x.1, x.2 + 1) :: up
    else
      let new := lv.take i ++ [(x.1, low), (fresh.headD 0, x.2 + 1 - low)] ++ lv.drop (i + 1)
      match up with
      | [] => [new, [((fresh.drop 1).headD 0, 2)]]
      | p :: _ => new :: gainChild false (fresh.drop 1) up (ownerAt p i).1

/-- Node `i` of the lowest level loses a child: an empty node is freed and its parent loses it; the root leaf stays. -/
def loseChild : List (List (Nat × Nat)) → Nat → List (List (Nat × Nat))
  | [], _ => []
  | lv :: up, i =>
    let x := lv.getD i (0, 0)
    match up with
    | [] => [lv.set i (x.1, x.2 - 1)]
    | p :: _ =>
      if x.2 ≤ 1 then (lv.take i ++ lv.drop (i + 1)) :: loseChild up (ownerAt p i).1
      else lv.set i (x.1, x.2 - 1) :: up

/-- A root with one child is freed, and that child becomes the root, and so on; the levels stand root first. -/
def dropRoots : List (List (Nat × Nat)) → List (List (Nat × Nat))
  | [] => []
  | [l] => [l]
  | l :: m :: r => match l with
    | [(n, k)] => if k = 1 then dropRoots (m :: r) else [(n, k)] :: m :: r
    | x => x :: m :: r

/-- The nodes from leaf `i` up to the root. -/
def pathOf : List (List (Nat × Nat)) → Nat → List Nat
  | [], _ => []
  | lv :: up, i => (lv.getD i (0, 0)).1 :: (match up with | [] => [] | p :: _ => pathOf up (ownerAt p i).1)

/-- Keys below `k`. -/
def rankOf (pairs : List (Nat × Nat)) (k : Nat) : Nat := pairs.countP (fun p => decide (p.1 < k))

/-- The leaf that holds key `k`, or that a new pair with key `k` goes to. -/
def leafFor (r : Region) (k : Nat) : Nat :=
  let leaves := r.shape.headD []
  let p := rankOf r.pairs k
  let right := (ownerAt leaves p).1
  if p = 0 then 0
  else if (Tab.find r.pairs k).isSome then right
  else
    let left := (ownerAt leaves (p - 1)).1
    if r.pairs.length ≤ p ∨ left = right ∨ Config.gapLeft r.ver then left else right

/-- Free nodes for `n` splits, of a pool with `total` nodes. -/
def freeNodes (used : List Nat) (total start : Nat) : Nat → List Nat
  | 0 => []
  | n + 1 =>
    let k := ((span 0 (used.length + 1)).map (fun j => 1 + (start + j) % (total - 1))).find? (fun v => !used.contains v)
    k.getD 0 :: freeNodes (k.getD 0 :: used) total start n

/-! ## The header (R338) -/

/-- The fields of a shape record of 128 bytes. -/
def shRank (x : Nat) : Nat := bitsOf x 7 0
def shVfmt (x : Nat) : Nat := bitsOf x 15 8
def shExt (x i : Nat) : Nat := bitsOf x (64 * i + 127) (64 * i + 64)
def shPool (x : Nat) : Nat := bitsOf x 639 576
def shPsize (x : Nat) : Nat := bitsOf x 703 640
def shCount (x : Nat) : Nat := bitsOf x 831 768
def shNfree (x : Nat) : Nat := bitsOf x 863 832
def shExts (x : Nat) : List Nat := (span 0 (shRank x)).map (shExt x)

/-- The product of the extents (R339). -/
def shVolume (x : Nat) : Nat := (shExts x).foldl (· * ·) 1

/-- The record with live fields. -/
def withLive (x root count nfree : Nat) : Nat := putBits (putBits (putBits x 704 64 root) 768 64 count) 832 32 nfree

/-- The byte key of `n` bytes of node `i` of the pool at global address `base`, or its trap with the node's address (R345). -/
def nodeKey (s : State) (base i n need : Nat) : Except Trap Nat :=
  let a := base + 1024 * i
  match scalarLoc s s.cur (0x0FFF000000000000 + a) n 1 need with
  | .error t => .error (t.1, BitVec.ofNat 64 a)
  | .ok l => if eccHit s l.key n then .error (cUncorrectable, BitVec.ofNat 64 a) else .ok l.key

/-- The first trap of a list of nodes. -/
def nodesTrap (s : State) (base need : Nat) : List Nat → Option Trap
  | [] => none
  | i :: r => match nodeKey s base i 1024 need with | .error t => some t | .ok _ => nodesTrap s base need r

/-- An open region: header key, handle, shape record, index. -/
structure Opened where
  hdr  : Nat
  base : Nat
  x    : Nat
  r    : Region
  deriving DecidableEq, Repr

/-- The checks of a region pointer and its header (R337). -/
def openRegion (s : State) (ptr : Nat) : Except Trap Opened :=
  let base := bitsOf ptr 41 0
  if ptr >>> 60 ≠ 4 ∨ bitsOf ptr 59 42 ≠ 0 then .error (cSpace, BitVec.ofNat 64 ptr)
  else if (windowOf s s.cur (0x0FFF000000000000 + base) 128).isNone then .error (cSpace, BitVec.ofNat 64 ptr)
  else match nodeKey s base 0 128 rR with
    | .error t => .error t
    | .ok k =>
      let x := loadMem s k 128
      if shRank x < 1 ∨ 8 < shRank x ∨ 13 < shVfmt x ∨ bitsOf (shPool x) 41 0 ≠ base then
        .error (cSpace, BitVec.ofNat 64 ptr)
      else match s.regions.find k with
        | none => .error (cSpace, BitVec.ofNat 64 ptr)
        | some r => if r.raw.isEmpty then .ok ⟨k, base, x, r⟩ else .error (cSpace, BitVec.ofNat 64 ptr)

/-- The engine writes a header and an index. -/
def putIndex (s : State) (hdr x : Nat) (r : Region) : State :=
  { s with mem := s.mem.store hdr 128 x, regions := s.regions.put hdr { r with ver := s.seq } }.bump

/-! ## CRINIT (R346) -/

/-- `n` bytes in blocks of `el`, aligned to `al`, through the scalar tables: access 0 of the instruction when they lie on
another module. -/
def scalarBlock (s : State) (a n al el : Nat) : Except State (State × Nat) :=
  let get (i : Nat) := scalarLoc s s.cur ((a + el * i) % 2 ^ 64) el (if i = 0 then al else 1) rR
  let ix := span 0 (n / el)
  let bad := ix.findSome? (fun i => match get i with
    | .error t => some t
    | .ok l => if eccHit s l.key el then some (cUncorrectable, BitVec.ofNat 64 (a + el * i)) else none)
  match bad with
  | some t => .error (raise t.1 t.2 s)
  | none =>
    let ls := ix.filterMap (fun i => match get i with | .error _ => none | .ok l => some (l, el))
    if ls.any (fun p => p.1.foreign s.myPkg) then
      match s.me.remote.find 0 with
      | none => .error (ask s 0 (pieceRequest s 0 0 0 ls))
      | some w => (match w.ready with | none => .error (s.hold wRemote) | some r => .ok (s, r.1))
    else
      let s1 := ls.foldl (fun t p => pin t p.1.key) s
      .ok (s1, readPieces s1 ls)

/-- As `scalarBlock`, for an instruction that reads its block once, however long it then waits. -/
def scalarBlockOnce (s : State) (a n al el : Nat) : Except State (State × Nat) := s.once 0 (scalarBlock s a n al el)

/-- The record breaks R338 or R339. -/
def recordBad (pkg x : Nat) : Bool :=
  let p := shPool x
  let m := bitsOf p 59 48
  decide (shRank x < 1) || decide (8 < shRank x) || decide (13 < shVfmt x) || (shExts x).any (fun e => e == 0) ||
    decide (2 ^ 64 - 1 < shVolume x) || p >>> 60 != 0 || bitsOf p 47 42 != 0 || !(m == 0xFFF || m == pkg) ||
    p % 1024 != 0 || shPsize x % 1024 != 0 || decide (shPsize x < 2048) || decide (2 ^ 42 < shPsize x)

/-- The runs of byte keys of a pool of `n` bytes at global address `a`, page by page, or the first trap. -/
def poolPages (s : State) : Nat → Nat → Nat → Except Trap (List (Nat × Nat))
  | 0, _, _ => .ok []
  | f + 1, a, n =>
    if n = 0 then .ok []
    else
      let m := min n (65536 - a % 65536)
      match scalarLoc s s.cur (0x0FFF000000000000 + a) m 1 (rR + rW) with
      | .error t => .error (t.1, BitVec.ofNat 64 a)
      | .ok l =>
        match (span 0 (m / 1024)).find? (fun i => !physOk ((l.key + 1024 * i + 1023) % 2 ^ 42)) with
        | some i => .error (cProtection, BitVec.ofNat 64 (a + 1024 * i))
        | none => match poolPages s f (a + m) (n - m) with
          | .error t => .error t
          | .ok [] => .ok [(l.key, m)]
          | .ok ((k, c) :: r) => if l.key + m = k then .ok ((l.key, m + c) :: r) else .ok ((l.key, m) :: (k, c) :: r)

/-- An older side-log entry of the hart covers a byte of the pool. -/
def logInPool (s : State) (a n : Nat) : Bool :=
  (s.core s.myCore).log.any (fun e => e.hart == s.cur && e.pkg == s.myPkg && decide (e.va < a + n) &&
    decide (a < e.va + e.data.length))

/-- CRINIT sd, [sa] (R346). -/
def execCrinit (o : OpDA) (s : State) : Out :=
  scalarE o.x s (fun s =>
    let a := (s.me.reg o.a).toNat
    if a >>> 60 ≠ 0 then .error (raise cSpace (BitVec.ofNat 64 a) s)
    else match scalarBlockOnce s a 128 64 64 with
      | .error t => .error t
      | .ok (s, x) =>
        if recordBad s.myPkg x then .error (raise cSpace (BitVec.ofNat 64 a) s)
        else
          let base := bitsOf (shPool x) 41 0
          let n := shPsize x
          match poolPages s (n / 65536 + 2) base n with
          | .error t => .error (raise t.1 t.2 s)
          | .ok runs =>
            if logInPool s base n then .error (s.hold wStore)
            else
              let hdr := (runs.headD (0, 0)).1
              let r : Region := { runs := runs, raw := [], ver := 0, pairs := [], shape := [[(1, 0)]] }
              let s1 : State := { s with
                regions := s.regions.map (fun e => (e.1, runs.foldl (fun g p => g.touch p.1 p.2) e.2))
                ecc := s.ecc.filter (fun p => !(inRuns (takeRuns runs 2048) (8 * p.1))) }
              .ok ((putIndex s1 hdr (withLive x 1 0 (n / 1024 - 2)) r).wr (lenOf o.x) o.d
                (BitVec.ofNat 64 (4 <<< 60 + base))))

/-! ## Keys and elements -/

/-- L of R345. -/
def coordCount (s : State) : Nat := min s.me.csr.vl s.me.cap

/-- A key register must be tagged I64 or U64. -/
def keysOk (h : Hart) (r : Nat) : Bool := h.tag r == .i64 || h.tag r == .u64

def keyAt (h : Hart) (r e : Nat) : Nat := elemOf (h.vget r) 64 e

/-- Element `e` of a register at format `f`, with +0 in the planes in force. -/
def putZeroTan (h : Hart) (r : Nat) (f : Fmt) (e v : Nat) : Hart :=
  mapPlanes h.planesInForce (h.vset r (setElem (h.vget r) (fmtBits f) e v)) (fun k g =>
    g.setPlane r k (setElem (g.plane r k) (fmtBits f) e 0))

/-- Elements one after another; a trap at one leaves those below it done. -/
def coordElems (f : Nat → State → Except Trap State) : List Nat → State → Except (State × Nat × Trap) State
  | [], s => .ok s
  | e :: r, s => match f e s with
    | .error t => .error (s, e, t)
    | .ok t => coordElems f r t

/-- What a coordinate instruction does when its elements are done, its tags among it, or at a trap (R129). -/
def coordEnd (len : Nat) (tagIt : Hart → Hart) (r : Except (State × Nat × Trap) State) : State :=
  match r with
  | .ok t => (t.setMe (tagIt t.me)).vretire len
  | .error (t, e, c) => raise c.1 c.2 (t.setMe { t.me with csr := { t.me.csr with vstart := e } })

/-- The element loop of an instruction on region [sa], its checks of sa and of the key register passed. -/
def onRegion (o : OpR) (keys : Option Nat) (rs : List Nat) (s : State) (k : Opened → State → State) : Out :=
  aloneOf (wtkOf o.x) rs s (fun s =>
    match openRegion s (s.me.reg o.a).toNat with
    | .error t => raise t.1 t.2 s
    | .ok g =>
      match keys with
      | none => k g s
      | some r => if keysOk s.me r then k g s else raise 0x03 (BitVec.ofNat 64 r) s)

/-- The value of a key: absent keys, and keys of V or more, read as zero. -/
def regionValue (g : Opened) (k : Nat) : Nat := (Tab.find g.r.pairs k).getD 0

/-- CLD vd, [sa], vb (R347). -/
def execCld (o : OpR) (s : State) : Out :=
  onRegion o (some o.b.toNat) [o.d.toNat, o.b.toNat] s (fun g s =>
    let f := fmtOf (shVfmt g.x)
    let h := s.me
    coordEnd (lenOf o.x) (fun h => h.setTag o.d.toNat f)
      (coordElems (fun e s =>
        let k := keyAt h o.b.toNat e
        match (if k < shVolume g.x then nodesTrap s g.base rR (pathOf g.r.shape (leafFor g.r k)).reverse else none) with
        | some t => .error t
        | none => .ok (s.setMe (putZeroTan s.me o.d.toNat f e (regionValue g k)))) (range h.csr.vstart (coordCount s)) s))

/-- A value is zero: integer 0, or ±0 (R348). -/
def isZeroAt (f : Fmt) (x : Nat) : Bool := if isInt f then x == 0 else x % 2 ^ (fmtBits f - 1) == 0

/-- The nodes that a new shape has changed, added or freed. -/
def changedNodes (old new : List (List (Nat × Nat))) : List Nat :=
  let a := old.flatMap id
  let b := new.flatMap id
  ((b.filter (fun x => !a.contains x) ++ a.filter (fun x => !b.contains x)).map Prod.fst).eraseDups

/-- One element of CST: key `k` of the region at `ptr` receives `x` (R341, R348). -/
def storeKey (ptr k x : Nat) (s : State) : Except Trap State :=
  match openRegion s ptr with
  | .error t => .error t
  | .ok g =>
    let r := g.r
    let i := leafFor r k
    let path := pathOf r.shape i
    let total := shPsize g.x / 1024
    let done (pairs : List (Nat × Nat)) (shape : List (List (Nat × Nat))) (count : Nat) : Except Trap State :=
      let nfree := shNfree g.x + (treeNodes r.shape).length - (treeNodes shape).length
      let root := ((shape.getLast?.getD []).headD (0, 0)).1
      match nodesTrap s g.base (rR + rW) ([0] ++ path.take 1 ++ changedNodes r.shape shape) with
      | some t => .error t
      | none => .ok (putIndex s g.hdr (withLive g.x root count nfree) { r with pairs := pairs, shape := shape })
    match (if k < shVolume g.x then nodesTrap s g.base rR path.reverse else some (cSpace, BitVec.ofNat 64 ptr)) with
    | some t => .error t
    | none =>
      let had := (Tab.find r.pairs k).isSome
      if isZeroAt (fmtOf (shVfmt g.x)) x then
        (if had then done (Tab.del r.pairs k) (dropRoots (loseChild r.shape i).reverse).reverse (shCount g.x - 1) else .ok s)
      else if had then done (Tab.put r.pairs k x) r.shape (shCount g.x)
      else
        let fresh := freeNodes (treeNodes r.shape) total (Config.node r.ver) (r.shape.length + 1)
        let shape := gainChild true fresh r.shape i
        if shNfree g.x + (treeNodes r.shape).length < (treeNodes shape).length then .error (cIndex, BitVec.ofNat 64 ptr)
        else done (Tab.put r.pairs k x) shape (shCount g.x + 1)

/-- CST vs, [sa], vb (R348). -/
def execCst (o : OpR) (s : State) : Out :=
  onRegion o (some o.b.toNat) [o.d.toNat, o.b.toNat] s (fun g s =>
    let f := fmtOf (shVfmt g.x)
    let h := s.me
    match badSource .any f h [o.d.toNat] with
    | some r => raise 0x03 (BitVec.ofNat 64 r) s
    | none =>
      coordEnd (lenOf o.x) id
        (coordElems (fun e s =>
          let v := sourceAt h f o.d.toNat 0 e
          match storeKey (h.reg o.a).toNat (keyAt h o.b.toNat e) v.1 s with
          | .error t => .error t
          | .ok t => .ok (t.setMe (t.me.orFlags v.2))) (range h.csr.vstart (coordCount s)) s))

/-- Where a scan from key `k` goes on when elements below `v` stand in register `d`: at `k`, or above the last key that
the first attempt wrote (R349). -/
def scanFrom (h : Hart) (d v k : Nat) : Nat :=
  if v = 0 ∨ keyAt h d (v - 1) < k then k else keyAt h d (v - 1) + 1

/-- The pairs that the elements of a scan from `v` on receive. -/
def scanPairs (pairs : List (Nat × Nat)) (h : Hart) (d v k : Nat) : List (Nat × Nat) :=
  (pairs.filter (fun p => decide (scanFrom h d v k ≤ p.1))).drop (if scanFrom h d v k = k then v else 0)

/-- The last leaf of a tree, which a scan that finds no more keys has read. -/
def lastLeaf (r : Region) : Nat := (r.shape.headD []).length - 1

/-- CSCAN vd, [sa], sb (R349): keys to vd, values to vd + 1. -/
def execCscan (o : OpR) (s : State) : Out :=
  onRegion o none [o.d.toNat, o.d.toNat + 1] s (fun g s =>
    let f := fmtOf (shVfmt g.x)
    let d := o.d.toNat
    let l := coordCount s
    let k0 := (s.me.reg o.b).toNat
    let v0 := s.me.csr.vstart
    let found := scanPairs g.r.pairs s.me d v0 k0
    coordEnd (lenOf o.x) (fun h => (h.setTag d .u64).setTag (d + 1) f)
      (coordElems (fun e s =>
        let put (k v : Nat) : State := s.setMe (putZeroTan (putZeroTan s.me d .u64 e k) (d + 1) f e v)
        let p := found[e - v0]?
        let leaf := match p with | none => lastLeaf g.r | some q => leafFor g.r q.1
        match (if k0 < shVolume g.x then nodesTrap s g.base rR (pathOf g.r.shape leaf).reverse else none) with
        | some t => .error t
        | none => .ok (match p with | none => put (2 ^ 64 - 1) 0 | some q => put q.1 q.2)) (range v0 l) s))

/-! ## CDENSE (R350) -/

def boxOrig (y i : Nat) : Nat := bitsOf y (64 * i + 63) (64 * i)
def boxLen (y i : Nat) : Nat := bitsOf y (64 * i + 575) (64 * i + 512)
def boxStride (y i : Nat) : Int := toSigned 64 (bitsOf y (64 * i + 1087) (64 * i + 1024))
def boxDst (y : Nat) : Nat := bitsOf y 1599 1536

/-- Digit `i` of box coordinate number `n`, the last dimension fastest. -/
def boxDigit (rank y n i : Nat) : Nat := n / (range (i + 1) rank).foldl (fun m j => m * boxLen y j) 1 % boxLen y i

/-- The key of a coordinate (R339). -/
def coordKey (exts : List Nat) (c : Nat → Nat) : Nat :=
  (span 0 exts.length).foldl (fun k i => k * exts.getD i 1 + c i) 0

/-- A CDENSE with its checks behind it: region, box record, element bytes. -/
structure Box where
  g : Opened
  y : Nat
  w : Nat
  deriving DecidableEq, Repr

def Box.rank (b : Box) : Nat := (shExts b.g.x).length
def Box.volume (b : Box) : Nat := (span 0 b.rank).foldl (fun m i => m * boxLen b.y i) 1
/-- Some ORIG + LEN is above its extent, or the box holds more than 2^32 coordinates. -/
def Box.bad (b : Box) : Bool :=
  (span 0 b.rank).any (fun i => decide ((shExts b.g.x).getD i 0 < boxOrig b.y i + boxLen b.y i)) || decide (2 ^ 32 < b.volume)
/-- The destination address, key and leaf of box coordinate number `j`. -/
def Box.addr (b : Box) (j : Nat) : Nat :=
  addr64 (boxDst b.y + (span 0 b.rank).foldl (fun (t : Int) i => t + (boxDigit b.rank b.y j i : Int) * boxStride b.y i) 0)
def Box.key (b : Box) (j : Nat) : Nat := coordKey (shExts b.g.x) (fun i => boxOrig b.y i + boxDigit b.rank b.y j i)
def Box.leaf (b : Box) (j : Nat) : Nat := leafFor b.g.r (b.key j)

/-- The first failure of the destination elements (R175). -/
def Box.trap (b : Box) (s : State) : Option Trap :=
  (span 0 b.volume).findSome? (fun j => match checkedPlace s true b.w b.w (b.addr j) with | .error t => some t | .ok _ => none)

/-- The coordinates from `j` on that the leaf of `j` holds: they are read together (R350). -/
def Box.reach (b : Box) (j : Nat) : List Nat := (range j b.volume).takeWhile (fun i => b.leaf i == b.leaf j)

/-- Coordinate `j` as the engine has read it, when it has: access j + 1 of the instruction. -/
def readAhead (h : Hart) (j : Nat) : Option Nat :=
  match h.remote.find (j + 1) with | some ⟨_, some v⟩ => some v.1 | _ => none

/-- The engine reads the leaf of coordinate `j` in one atomic read. -/
def Box.readLeaf (b : Box) (j : Nat) (s : State) : State :=
  s.setMe { s.me with remote := (b.reach j).foldl (fun t i => t.put (i + 1) ⟨0, some (regionValue b.g (b.key i), 0)⟩) s.me.remote }

/-- The stores from coordinate `j` on of what has been read. -/
def Box.stores (b : Box) (s : State) (j : Nat) : List (Nat × Nat × VPlace) :=
  ((range j b.volume).takeWhile (fun i => (readAhead s.me i).isSome)).map (fun i =>
    (b.w, (readAhead s.me i).getD 0, placeAgain s b.w (b.addr i)))

/-- The CDENSE of `len` bytes goes on from coordinate `j`: the leaf is read unless it has been, its coordinates are written,
and at the leaf's end the hart keeps the number of the next coordinate (R350). -/
def Box.go (b : Box) (len j : Nat) (s : State) : State :=
  if b.volume ≤ j then s.vretire len
  else match (if (readAhead s.me j).isSome then none else nodesTrap s b.g.base rR (pathOf b.g.r.shape (b.leaf j)).reverse) with
    | some t => raise t.1 t.2 s
    | none =>
      let s1 := if (readAhead s.me j).isSome then s else b.readLeaf j s
      let l := b.stores s1 j
      match putFrom l j s1 with
      | .error t => t
      | .ok t => if b.volume ≤ j + l.length then t.vretire len else t.holdAt wCoord (j + l.length) 1

/-- Where a CDENSE under way keeps the header it has checked: an access beyond those of its coordinates. -/
def boxHeader : Nat := 2 ^ 33

/-- A region whose header `x` has been checked, as its nodes stand now. -/
def reopened (s : State) (base x : Nat) : Opened :=
  let k := match scalarLoc s s.cur (0x0FFF000000000000 + base) 128 1 0 with | .error _ => 0 | .ok l => l.key
  ⟨k, base, x, (s.regions.find k).getD { runs := [], raw := [], ver := 0, pairs := [], shape := [] }⟩

/-- CDENSE [sa], sb (R350). A resumed one checks nothing again. -/
def execCdense (o : OpAB) (s : State) : Out :=
  aloneOf (wtkOf o.x) [] s (fun s =>
    let ptr := (s.me.reg o.a).toNat
    let box (g : Opened) (y : Nat) : Box := ⟨g, y, fmtBytes (fmtOf (shVfmt g.x))⟩
    match storing s.me, captured s.me boxHeader, captured s.me 0 with
    | some j, some x, some y => (box (reopened s (bitsOf ptr 41 0) x) y).go (lenOf o.x) j s
    | _, _, _ =>
      match openRegion s ptr with
      | .error t => raise t.1 t.2 s
      | .ok g => match scalarBlockOnce s (s.me.reg o.b).toNat 256 8 8 with
        | .error t => t
        | .ok (s, y) =>
          let b := box g y
          if b.bad then raise cSpace (BitVec.ofNat 64 ptr) s
          else match b.trap s with
            | some t => raise t.1 t.2 s
            | none => b.go (lenOf o.x) 0 (s.capture boxHeader 0 g.x))

/-! ## VSTC (R354) -/

/-- The pieces of a compressed store at `a`: address, bytes, value. -/
def compressed (f : Fmt) (a vl : Nat) (kept : List (Nat × Nat)) : List (Nat × Nat × Nat) :=
  let words := ceilDiv vl 64
  let w := fmtBytes f
  [(a, 8, kept.length)] ++
    (span 0 words).map (fun i => ((a + 8 + 8 * i) % 2 ^ 64, 8,
      (kept.filter (fun p => p.1 / 64 == i)).foldl (fun n p => n + 2 ^ (p.1 % 64)) 0)) ++
    (List.zip (span 0 kept.length) kept).map (fun p => ((a + 8 + 8 * words + p.1 * w) % 2 ^ 64, w, p.2.2))

/-- The places of a list of stores (address, bytes, value), each aligned to its size, or the first failure. -/
def checkedPlaces (s : State) : List (Nat × Nat × Nat) → Except Trap (List VPlace)
  | [] => .ok []
  | (a, w, _) :: r => match checkedPlace s true w w a with
    | .error t => .error t
    | .ok p => match checkedPlaces s r with | .error t => .error t | .ok l => .ok (p :: l)

/-- Bytes of vs that VSTC takes for its active elements `acts`. -/
def vstcNeed (f t : Fmt) (acts : List Nat) : Nat :=
  let m := acts.foldl (fun m e => max m (e + 1)) 0
  min 1024 (if isGx t then ceilDiv m 32 * (8 * gxLanes t) else m * max (fmtBytes f) (fmtBytes t))

/-- VSTC vs, [sa + sb] (R354): once its tag is checked, it waits for the groups that hold its active elements (R226). -/
def execVstc (o : OpM) (s : State) : Out :=
  gated (wtkOf o.x) s (fun s =>
    if collHolds s [o.d.toNat] then s.hold wStore
    else
    let h := s.me
    let f := faOf o.x h
    let d := o.d.toNat
    let a := ((h.reg o.a).toNat + (h.reg o.b).toNat) % 2 ^ 64
    match formatTrap .any f f h d [d] with
    | some r => raise 0x03 (BitVec.ofNat 64 r) s
    | none =>
      let acts := (span 0 h.csr.vl).filter (selects s o.m)
      let kept := (acts.map (fun e => (e, sourceBits h f d 0 e))).filter (fun p => !isZeroAt f p.2)
      let l := compressed f a h.csr.vl kept
      if h.lacks d 0 (vstcNeed f (h.tag d) acts) then s.hold wStore
      else match (if (storing h).isSome then .ok [] else checkedPlaces s l) with
      | .error t => raise t.1 t.2 s
      | .ok ps => match putList l s ps with
        | .error t => t
        | .ok t => (t.setMe (t.me.orFlags (allFlags (acts.map (sourceAt h f d 0))))).vretire (lenOf o.x))

end Sys2Proof.Machine
end

