-- ==== Sys2Proof/Machine/Exit.lean ====
section
/-!
DEFINITION. EXIT (R103) and what a hart's end does to its launch (R93, R96, R99, R323).
-/
namespace Sys2Proof.Machine

/-- Every member of the team has exited: the core is free. -/
def freeTeam (s : State) (ck lk t : Nat) : State :=
  match s.launches.find lk with
  | none => s
  | some l =>
    if l.teamOver t then
      s.setCore ck { s.core ck with team := none }
    else s

/-- Every hart of the launch has finished EXIT: its groups end and it is DONE (R93). -/
def completeLaunch (s : State) (lk : Nat) : State :=
  match s.launches.find lk with
  | none => s
  | some l =>
    if (allMids l.blk.levels).all (exited l) then
      finish ((Tab.keys (s.groups.filter (fun e => e.2.launch == lk))).foldl releaseGroup s) lk 2
    else s

/-- A member has left: phased units advance, collectives it leaves open are checked, its team and launch may be over. -/
def leaveLaunch (s : State) (ck lk mid : Nat) : State :=
  match s.launches.find lk with
  | none => s
  | some l =>
    let s1 : State := { s with launches := s.launches.put lk { l with members := l.members.put mid true } }
    let phased := (span 0 l.blk.levels.length).filter (fun i => match l.blk.levels[i]? with | none => false | some v => v.phased)
    let s2 := phased.foldl (fun s i => advancePhase s lk i mid) s1
    completeLaunch (freeTeam (endAbandoned s2) ck lk (mid / 8)) lk

/-- The hart ends; the system hart of its die executes next. -/
def endHart (s : State) : State :=
  let h := s.me
  if h.system then s.setMe { h with stat := .stopped }
  else
    let s1 : State := { s with
      harts := s.harts.del s.cur
      owed := s.owed.filter (fun o => !(o.launch == h.launch && o.mid == h.mid)) }
    { leaveLaunch s1 (coreOf s.cur) h.launch h.mid with cur := servantOf s.cur }

/-- What EXIT releases at: the outermost level, and at least the scope at which the launch's completion does (R93, R103). -/
def exitPhys (s : State) : Nat := max (physOf s (s.levels.length - 1)) (launchPhys s.levels)

/-- A frozen attachment still has commands. -/
def Hart.frozenBusy (h : Hart) : Bool := h.frozen.any (fun f => match f with | none => false | some a => !a.queue.isEmpty)

/-- EXIT (R103). -/
def execExit (o : OpN) (s : State) : Out :=
  scalar o.x s (fun s =>
    match gate 255 s with
    | .error t => t
    | .ok s =>
      if 0 < openColls s then s.hold wColl
      else
        let s := closeStream s
        if s.me.busy || s.me.frozenBusy then s.hold wMatrix
        else
          let s := s.setMe { s.me.fold with att := none }
          if hasLog s s.cur || !performedAt s (exitPhys s) then s.hold wExit else endHart s)

end Sys2Proof.Machine
end

