-- ==== Sys2Proof/Machine/Fpu.lean ====
section
/-!
DEFINITION. The scalar floating-point instructions (R117).
-/
namespace Sys2Proof.Machine

/-- The format of the width bit (R37). -/
def fpuFmt (w : BitVec 1) : Fmt := if w = 0 then .f64 else .f32

/-- A register as an operand: binary32 is bits 31:0 (R117). -/
def fpuNum (f : Fmt) (a : W64) : Num := decodeNum f (a.toNat % 2 ^ fmtBits f)

/-- A scalar result with flags; a binary32 result has bits 63:32 zero. -/
def State.wrF (s : State) (n : Nat) (d : BitVec 5) (r : Nat × Flags) : State :=
  s.setMe (((s.me.setReg d (BitVec.ofNat 64 r.1)).orFlags r.2).done n)

/-- Two sources, one rounding. -/
def fpu2 (o : OpF) (op : Nat → Num → Num → Val) (s : State) : Out :=
  scalar o.x s (fun s =>
    let f := fpuFmt o.w
    let rm := rmOf o.x s.me
    s.wrF (lenOf o.x) o.d (packVal f rm false (op rm (fpuNum f (s.me.reg o.a)) (fpuNum f (s.me.reg o.b)))))

/-- FADD (R117). -/
def execFadd (o : OpF) (s : State) : Out := fpu2 o (fun rm a b => numAdd rm a b) s

/-- FSUB (R117). -/
def execFsub (o : OpF) (s : State) : Out := fpu2 o (fun rm a b => numSub rm a b) s

/-- FMUL (R117). -/
def execFmul (o : OpF) (s : State) : Out := fpu2 o (fun _ a b => numMul a b) s

/-- FDIV (R117). -/
def execFdiv (o : OpF) (s : State) : Out := fpu2 o (fun _ a b => numDiv a b) s

/-- FMIN (R59, R117). -/
def execFmin (o : OpF) (s : State) : Out := fpu2 o (fun _ a b => numMinMax false a b) s

/-- FMAX (R59, R117). -/
def execFmax (o : OpF) (s : State) : Out := fpu2 o (fun _ a b => numMinMax true a b) s

/-- FSQRT (R117). -/
def execFsqrt (o : OpF2) (s : State) : Out :=
  scalar o.x s (fun s =>
    let f := fpuFmt o.w
    s.wrF (lenOf o.x) o.d (packVal f (rmOf o.x s.me) false (numSqrt (fpuNum f (s.me.reg o.a)))))

/-- A comparison's truth value and flags: `q` tells that quiet NaNs raise NV too (R117, R144). -/
def fpCompare (q : Bool) (rel : Ordering → Bool) (a b : Num) : Bool × Flags :=
  if a.isNan || b.isNan then (false, if q || a.isSig || b.isSig then fNV else 0)
  else (rel (numCmp a b), 0)

def fpuCmp (o : OpF) (q : Bool) (rel : Ordering → Bool) (s : State) : Out :=
  scalar o.x s (fun s =>
    let f := fpuFmt o.w
    let r := fpCompare q rel (fpuNum f (s.me.reg o.a)) (fpuNum f (s.me.reg o.b))
    s.wrF (lenOf o.x) o.d (if r.1 then 1 else 0, r.2))

/-- FCMPEQ (R117). -/
def execFcmpeq (o : OpF) (s : State) : Out := fpuCmp o false (fun c => c == .eq) s

/-- FCMPLT (R117). -/
def execFcmplt (o : OpF) (s : State) : Out := fpuCmp o true (fun c => c == .lt) s

/-- FCMPLE (R117). -/
def execFcmple (o : OpF) (s : State) : Out := fpuCmp o true (fun c => c != .gt) s

/-- FMA (R117): one rounding, sc the addend. -/
def execFma (o : OpFX) (s : State) : Out :=
  scalar (some o.x) s (fun s =>
    let f := fpuFmt o.w
    let rm := rmOf (some o.x) s.me
    s.wrF 12 o.d (packVal f rm false (numFma rm false false (fpuNum f (s.me.reg o.a)) (fpuNum f (s.me.reg o.b))
      (fpuNum f (s.me.reg (scOf o.x))))))

/-- FCVTI (R62, R117). -/
def execFcvti (o : OpF2) (s : State) : Out :=
  scalar o.x s (fun s =>
    s.wrF (lenOf o.x) o.d (roundToInt .i64 (rmOf o.x s.me) (fpuNum (fpuFmt o.w) (s.me.reg o.a))))

/-- FCVTF (R62, R117). -/
def execFcvtf (o : OpF2) (s : State) : Out :=
  scalar o.x s (fun s =>
    s.wrF (lenOf o.x) o.d (roundTo (fpuFmt o.w) (rmOf o.x s.me) false (Num.ofInt (s.me.reg o.a).toInt)))

/-- FCVTDS (R62, R117). -/
def execFcvtds (o : OpDA) (s : State) : Out :=
  scalar o.x s (fun s =>
    s.wrF (lenOf o.x) o.d (roundTo .f32 (rmOf o.x s.me) false (fpuNum .f64 (s.me.reg o.a))))

/-- FCVTSD (R117): exact; a signalling NaN is quieted with NV. -/
def execFcvtsd (o : OpDA) (s : State) : Out :=
  scalar o.x s (fun s => s.wrF (lenOf o.x) o.d (roundTo .f64 0 false (fpuNum .f32 (s.me.reg o.a))))

/-- FABS (R117): the sign bit cleared. -/
def execFabs (o : OpF2) (s : State) : Out :=
  scalar o.x s (fun s =>
    let w := fmtBits (fpuFmt o.w)
    s.wrF (lenOf o.x) o.d ((s.me.reg o.a).toNat % 2 ^ (w - 1), 0))

/-- FNEG (R117): the sign bit flipped. -/
def execFneg (o : OpF2) (s : State) : Out :=
  scalar o.x s (fun s =>
    let w := fmtBits (fpuFmt o.w)
    s.wrF (lenOf o.x) o.d (((s.me.reg o.a).toNat % 2 ^ w) ^^^ 2 ^ (w - 1), 0))

/-- FCLASS (R117). -/
def execFclass (o : OpF2) (s : State) : Out :=
  scalar o.x s (fun s =>
    let f := fpuFmt o.w
    s.wrF (lenOf o.x) o.d (numClass f ((s.me.reg o.a).toNat % 2 ^ fmtBits f), 0))

end Sys2Proof.Machine
end

