-- ==== Sys2Proof/Machine/Hazel.lean ====
section
/-!
DEFINITION. The Hazel gathers and scatters: GTH, SCT, SCTADD and their completion (R351-R353).
-/
namespace Sys2Proof.Machine

/-! ## The descriptor (R351) -/

def hzIdx (x : Nat) : Nat := bitsOf x 63 0
def hzTable (x : Nat) : Nat := bitsOf x 127 64
def hzOut (x : Nat) : Nat := bitsOf x 191 128
def hzN (x : Nat) : Nat := bitsOf x 223 192
def hzRows (x : Nat) : Nat := bitsOf x 255 224
def hzRowBytes (x : Nat) : Nat := bitsOf x 268 256
def hzIndexBytes (x : Nat) : Nat := if x.testBit 272 then 8 else 4

/-- The element format of SCTADD: any value but 8, 0 and 1 reads as 9. -/
def hzFmt (x : Nat) : Fmt :=
  match bitsOf x 279 276 with | 8 => .f64 | 0 => .i64 | 1 => .i32 | _ => .f32

/-- GTH, SCT or SCTADD (fn 0-2): the descriptor at sa, the token in the sd field, the object in sb (R353). -/
def hazel (o : OpR) (fn : Nat) (s : State) : Out :=
  aloneOf (wtkOf o.x) [] s (fun s =>
    match gate (2 ^ o.d.toNat) s with
    | .error t => t
    | .ok s =>
      match scalarBlock s (s.me.reg o.a).toNat 64 8 8 with
        | .error t => t
        | .ok (s, x) =>
          issueToken o.d.toNat (lenOf o.x) (fun s => (s, .gather fn x))
            (if o.b = 0 then none else some (s.me.reg o.b)) s)

/-- GTH (R352). -/
def execGth (o : OpR) (s : State) : Out := hazel o 0 s
/-- SCT (R352). -/
def execSct (o : OpR) (s : State) : Out := hazel o 1 s
/-- SCTADD (R352). -/
def execSctadd (o : OpR) (s : State) : Out := hazel o 2 s

/-! ## The engine -/

/-- The byte keys of `n` bytes at `a`, aligned to `al`, that the engine reads (`rd`) or writes, or the first failure. -/
def engineRun (s : State) (hk a n al : Nat) (rd wr : Bool) : Except Trap (List Nat) :=
  if n = 0 then .ok []
  else match windowOf s hk a n with
    | none => .error (cSpace, BitVec.ofNat 64 a)
    | some _ =>
      if a % al ≠ 0 then .error (cAlign, BitVec.ofNat 64 a)
      else engineKeys s hk a n ((if rd then rR else 0) + (if wr then rW else 0))

/-- The runs of rows at `base`, the row numbers given. -/
def rowRuns (s : State) (hk base bytes : Nat) (rd wr : Bool) : List Nat → Except Trap (Tab (List Nat))
  | [] => .ok []
  | r :: l => match engineRun s hk ((base + r * bytes) % 2 ^ 64) bytes 8 rd wr with
    | .error t => .error t
    | .ok ks => match rowRuns s hk base bytes rd wr l with | .error t => .error t | .ok m => .ok (m.put r ks)

/-- What the engine found: indices, buffer rows by position, table rows by index. -/
structure Gather where
  /-- Byte keys of the index array. -/
  keys  : List Nat
  idx   : List Nat
  out   : Tab (List Nat)
  table : Tab (List Nat)
  deriving DecidableEq, Repr

/-- The checks of a gather or scatter, all before any write (R353). -/
def gatherCheck (s : State) (hk fn x : Nat) : Except Trap Gather :=
  let n := hzN x
  let ib := hzIndexBytes x
  match engineRun s hk (hzIdx x) (n * ib) ib true false with
  | .error t => .error t
  | .ok ks =>
    let idx := (span 0 n).map (fun p => ofBytes ((span (p * ib) ib).map (fun i => s.byteAt (ks.getD i 0))))
    match rowRuns s hk (hzOut x) (hzRowBytes x) (fn != 0) (fn == 0) (span 0 n) with
    | .error t => .error t
    | .ok out =>
      match rowRuns s hk (hzTable x) (hzRowBytes x) (fn != 1) (fn != 0) (idx.filter (fun i => decide (i < hzRows x))) with
      | .error t => .error t
      | .ok table => .ok ⟨ks, idx, out, table⟩

/-- Sum of two rows, element by element, with flags (R352). -/
def addRows (f : Fmt) (a b : List Byte) : List Byte × Flags :=
  let w := fmtBytes f
  (span 0 (a.length / w)).foldl (fun (p : List Byte × Flags) i =>
    let x := ofBytes ((a.drop (w * i)).take w)
    let y := ofBytes ((b.drop (w * i)).take w)
    let r := if isInt f then ((x + y) % 2 ^ (8 * w), 0) else packVal f 0 false (numAdd 0 (decodeNum f x) (decodeNum f y))
    (p.1 ++ bytesOf r.1 w, p.2 ||| r.2)) ([], 0)

/-- The gather whose indices were read before, its checks behind it: a row that has gone since has no bytes. -/
def gatherAgain (s : State) (hk x : Nat) (idx : List Nat) : Gather :=
  let at_ (base r : Nat) : List Nat :=
    match engineRun s hk ((base + r * hzRowBytes x) % 2 ^ 64) (hzRowBytes x) 8 false false with
    | .error _ => [] | .ok ks => ks
  { keys := [], idx := idx
    out := (span 0 idx.length).foldl (fun t p => Tab.put t p (at_ (hzOut x) p)) []
    table := (idx.filter (fun i => decide (i < hzRows x))).foldl (fun t i => Tab.put t i (at_ (hzTable x) i)) [] }

/-- The in-range row of position `p`, as byte keys. -/
def Gather.row (g : Gather) (p : Nat) : Option (List Nat) := g.table.find (g.idx.getD p 0)

/-- Position `p` is the highest that names its row. -/
def Gather.lastAt (g : Gather) (p : Nat) : Bool :=
  !(range (p + 1) g.idx.length).any (fun q => g.idx.getD q 0 == g.idx.getD p 0)

/-- The byte keys written at position `p`: its buffer row, or the table row it is the last to name. -/
def Gather.writes (g : Gather) (fn p : Nat) : List Nat :=
  if fn = 0 then g.out.getD p [] else if g.lastAt p then (g.row p).getD [] else []

/-- The byte keys read at position `p`. -/
def Gather.reads (g : Gather) (fn p : Nat) : List Nat :=
  match fn with
  | 0 => (g.row p).getD []
  | 1 => if g.lastAt p && (g.row p).isSome then g.out.getD p [] else []
  | _ => if (g.row p).isNone then [] else g.out.getD p [] ++ (if g.lastAt p then (g.row p).getD [] else [])

/-- The bytes counted for the object: those written (R353). -/
def Gather.bytes (g : Gather) (fn : Nat) : Nat := (span 0 g.idx.length).foldl (fun n p => n + (g.writes fn p).length) 0

/-- A byte needed at positions `ps` holds an uncorrectable error, which goes to the system hart (R371), or nothing reaches
its module. -/
def Gather.held (g : Gather) (s : State) (pkg fn : Nat) (ps : List Nat) : Bool :=
  let rd := g.keys ++ ps.flatMap (g.reads fn)
  let wr := ps.flatMap (g.writes fn)
  keysBad s rd wr || !reachesAll s pkg (rd ++ wr)

/-- What a tile has done: memory, the rows and sums the token keeps, the flags. -/
structure TileWork where
  s     : State
  latch : Tab (List Byte)
  flags : Flags
  deriving DecidableEq, Repr

/-- Position `p` (R352), its memory read as it stood in `s`: GTH writes the row read once for its index, SCT writes the
row of the last position, SCTADD forms the sum and at the last position adds it to the table row. -/
def Gather.step (g : Gather) (s : State) (fn x : Nat) (w : TileWork) (p : Nat) : TileWork :=
  let i := g.idx.getD p 0
  let wr := g.writes fn p
  let put (bs : List Byte) : State := putBytes (wr.foldl pin w.s) wr bs
  let buffer := (g.out.getD p []).map s.byteAt
  match fn with
  | 0 => match g.row p with
    | none => { w with s := put (List.replicate (hzRowBytes x) 0) }
    | some ks =>
      let row := (w.latch.find i).getD (ks.map s.byteAt)
      { w with s := put row, latch := w.latch.put i row }
  | 1 => if g.lastAt p && (g.row p).isSome then { w with s := put buffer } else w
  | _ => match g.row p with
    | none => w
    | some ks =>
      let c := match w.latch.find i with | none => (buffer, 0) | some c => addRows (hzFmt x) c buffer
      if g.lastAt p then
        let d := addRows (hzFmt x) (ks.map w.s.byteAt) c.1
        ⟨put d.1, w.latch.del i, w.flags ||| c.2 ||| d.2⟩
      else ⟨w.s, w.latch.put i c.1, w.flags ||| c.2⟩

/-- Granules of a pool that positions `ps` complete, none of the positions `rest` writing them, become full (R178). -/
def Gather.fill (g : Gather) (fn : Nat) (ps rest : List Nat) (s : State) : State :=
  let gran (l : List Nat) : List Nat := ((l.flatMap (g.writes fn)).filter inPool).map (fun k => k / 16)
  { s with fe := ((gran ps).filter (fun m => !(gran rest).contains m)).foldl (fun f m => Cells.set f m 1) s.fe }

/-- A tile: the positions `ps`, positions `rest` still to come. -/
def gatherTile (s : State) (fn x : Nat) (g : Gather) (ps rest : List Nat) (latch : Tab (List Byte)) (fl : Flags) : TileWork :=
  let w := ps.foldl (g.step s fn x) ⟨s, latch, fl⟩
  { w with s := g.fill fn ps rest w.s }

/-- The tile that token `t` is at is done; the last one makes the addition and completes the token. -/
def tileDone (s : State) (hk k fn x : Nat) (t : Token) (g : Gather) : State :=
  let n := g.idx.length
  let j := t.done.length
  let ps := range (256 * j) (min n (256 * (j + 1)))
  let last := decide (n ≤ 256 * (j + 1))
  if g.held s (pkgOf hk) fn (if j = 0 then span 0 n else ps) ∨ (last ∧ g.bytes fn ≠ 0 ∧ t.bobj.any (fun a => objectHeld s hk a.toNat)) then s
  else
    let w := gatherTile s fn x g ps (range (256 * (j + 1)) n) t.latch t.flags
    if last then
      let q := match t.bobj with | none => (w.s, none) | some a => engineAdd w.s hk a.toNat (g.bytes fn)
      q.1.setHart hk ((q.1.hart hk).setToken k
        { t with pending := false, work := none, owed := q.2, flags := w.flags, index := [], latch := [] })
    else w.s.setHart hk ((w.s.hart hk).setToken k
      { t with done := t.done ++ [j], flags := w.flags, index := g.idx, latch := w.latch })

/-- What the engine knows of the gather of token `t`: its first tile checks everything, later ones find it again. -/
def gatherOf (s : State) (hk fn x : Nat) (t : Token) : Except Trap Gather :=
  if t.done.isEmpty then gatherCheck s hk fn x else .ok (gatherAgain s hk x t.index)

/-- HAZEL_COMPLETE (R353): the gather or scatter of token `k` does its next tile of 256 positions, and with the last one
is done; or its checks fail before anything is written. -/
def execHazelComplete (hk k : Nat) (s : State) : Out :=
  .next (match s.harts.find hk with
    | none => s
    | some h =>
      let t := h.token k
      match (if t.pending && earlierDone s hk t.seq then t.work else none) with
      | some (.gather fn x) =>
        (match gatherOf s hk fn x t with
        | .error e =>
          s.setHart hk (h.setToken k { t with pending := false, failed := true, failJ := 0, cause := e.1, val := e.2 })
        | .ok g => tileDone s hk k fn x t g)
      | some (.bytes _ _ _ _) => s
      | some (.regIn _ _ _) => s
      | some (.regOut _ _ _ _) => s
      | some (.regX _ _ _ _) => s
      | none => s)

end Sys2Proof.Machine
end

