-- ==== Sys2Proof/Machine/Sha.lean ====
section
/-!
DEFINITION. SHA-256, by which firmware is measured and its signatures are checked (R384). The two tables of the hash are computed
from what defines them: the first 32 bits after the point of the square roots of the first 8 primes and of the cube
roots of the first 64.
-/
namespace Sys2Proof.Machine

/-- The primes below 312: the first 64. -/
def smallPrimes : List Nat := (range 2 312).filter (fun n => (range 2 18).all (fun d => n == d || n % d != 0))

/-- The largest `r` with `r^e ≤ n`, its bits found from bit `b - 1` down and added to `r`. -/
def rootFrom (e n : Nat) : Nat → Nat → Nat
  | 0, r => r
  | b + 1, r => rootFrom e n b (if (r + 2 ^ b) ^ e ≤ n then r + 2 ^ b else r)

/-- 32 bits after the point of the `e`-th root of `p`. -/
def rootBits (e p : Nat) : W32 := BitVec.ofNat 32 (rootFrom e (p * 2 ^ (32 * e)) 40 0)

/-- The working words a to h of the hash. -/
structure ShaWords where
  a : W32
  b : W32
  c : W32
  d : W32
  e : W32
  f : W32
  g : W32
  h : W32
  deriving DecidableEq, Repr

/-- Word by word sum. -/
def ShaWords.plus (x y : ShaWords) : ShaWords :=
  { a := x.a + y.a, b := x.b + y.b, c := x.c + y.c, d := x.d + y.d, e := x.e + y.e, f := x.f + y.f, g := x.g + y.g
    h := x.h + y.h }

/-- The words before the first block. -/
def shaStart : ShaWords :=
  let w (i : Nat) : W32 := rootBits 2 (smallPrimes.getD i 0)
  { a := w 0, b := w 1, c := w 2, d := w 3, e := w 4, f := w 5, g := w 6, h := w 7 }

/-- The exclusive or of three values made from one word. -/
def xor3 (f g k : W32 → W32) (x : W32) : W32 := f x ^^^ (g x ^^^ k x)

/-- Rotation right. -/
def ror (n : Nat) (x : W32) : W32 := (x >>> n) ||| (x <<< (32 - n))

/-- One round, whose constant plus message word is `kw`. -/
def ShaWords.round (x : ShaWords) (kw : W32) : ShaWords :=
  let pickFg := x.g ^^^ (x.e &&& (x.f ^^^ x.g))
  let most := (x.a &&& (x.b ||| x.c)) ||| (x.b &&& x.c)
  let t := kw + x.h + pickFg + xor3 (ror 6) (ror 11) (ror 25) x.e
  { a := t + most + xor3 (ror 2) (ror 13) (ror 22) x.a, b := x.a, c := x.b, d := x.c, e := t + x.d, f := x.e, g := x.f, h := x.g }

/-- `x` after one round for each prime, with the 16 words of the message that are next, oldest first. -/
def shaRounds : List Nat → List W32 → ShaWords → ShaWords
  | [], _, x => x
  | p :: ps, w, x =>
    let at_ (i : Nat) : W32 := w.getD i 0
    let new := at_ 0 + xor3 (ror 7) (ror 18) (· >>> 3) (at_ 1) + at_ 9 + xor3 (ror 17) (ror 19) (· >>> 10) (at_ 14)
    shaRounds ps (w.drop 1 ++ [new]) (x.round (rootBits 3 p + at_ 0))

/-- One block of the message: the 512 bits of a number, the first word highest. -/
def shaBlock (block : Nat) (x : ShaWords) : ShaWords :=
  x.plus (shaRounds smallPrimes ((span 0 16).map (fun i => BitVec.ofNat 32 (block >>> (480 - 32 * i)))) x)

/-- The digest of a message of `n` bytes, the first one highest in the number `m`: the message, a one bit, zeros, and its
length in the last 64 bits, as blocks. -/
def shaOf (n m : Nat) : BitVec 256 :=
  let k := (n + 72) / 64
  let pad := 8 * (64 * k - n)
  let whole := m * 2 ^ pad + 2 ^ (pad - 1) + 8 * n
  let x := (span 0 k).foldl (fun x i => shaBlock ((whole >>> (512 * (k - 1 - i))) % 2 ^ 512) x) shaStart
  x.a ++ x.b ++ x.c ++ x.d ++ x.e ++ x.f ++ x.g ++ x.h

/-- Bytes as a number, the first one highest. -/
def ofBytesBE (l : List Byte) : Nat := l.foldl (fun n b => 256 * n + b.toNat) 0

/-- The digest of a list of bytes. -/
def digestOf (l : List Byte) : BitVec 256 := shaOf l.length (ofBytesBE l)

/-- A digest as its 32 bytes, the first one highest. -/
def digestBytes (d : BitVec 256) : List Byte := (bytesOf d.toNat 32).reverse

/-- SHA-256(old ‖ digest). -/
def extendMeasure (old d : BitVec 256) : BitVec 256 := shaOf 64 (old.toNat * 2 ^ 256 + d.toNat)

end Sys2Proof.Machine
end

