-- ==== Sys2Proof/Machine/Lms.lean ====
section
/-!
DEFINITION. The check of an LMS signature with LMS_SHA256_M32_H20 and LMOTS_SHA256_N32_W4, by which firmware stages are
verified (R384). PRESUMED: the spec names NIST SP 800-208 and its parameter sets; the algorithm and its byte layout are
those of that standard.
-/
namespace Sys2Proof.Machine

/-- SHA-256 of fields joined, each a number of so many bytes, the first highest. -/
def hashOf (l : List (Nat × Nat)) : Nat :=
  let r := l.foldl (fun (p : Nat × Nat) f => (p.1 + f.1, p.2 * 2 ^ (8 * f.1) + f.2 % 2 ^ (8 * f.1))) (0, 0)
  (shaOf r.1 r.2).toNat

/-- The type codes of the two parameter sets. -/
def lmsType : Nat := 8
def otsType : Nat := 3

/-- `n` bytes of a string from byte `i` on, as a number, the first highest. -/
def fieldAt (l : List Byte) (i n : Nat) : Nat := ofBytesBE ((l.drop i).take n)

/-- Digits of four bits of a string of 34 bytes, the highest first. -/
def digit16 (x i : Nat) : Nat := (x >>> (4 * (67 - i))) % 16

/-- A chain of the one-time signature, `n` steps from step `j`. -/
def otsChain (id q i : Nat) : Nat → Nat → Nat → Nat
  | 0, _, x => x
  | n + 1, j, x => otsChain id q i n (j + 1) (hashOf [(16, id), (4, q), (2, i), (1, j), (32, x)])

/-- The one-time public key that a signature of message `img` leads to: its randomizer `c` and its 67 values. -/
def otsKey (id q c : Nat) (y : Nat → Nat) (img : List Byte) : Nat :=
  let h := hashOf [(16, id), (4, q), (2, 0x8181), (32, c), (img.length, ofBytesBE img)]
  let sum := (span 0 64).foldl (fun n i => n + (15 - digit16 (h <<< 16) i)) 0
  let x := h <<< 16 + sum <<< 4
  let z (i : Nat) : Nat := otsChain id q i (15 - digit16 x i) (digit16 x i) (y i)
  hashOf ([(16, id), (4, q), (2, 0x8080)] ++ (span 0 67).map (fun i => (32, z i)))

/-- The climb from a leaf, number `n`, to the root along a path. -/
def climb (id : Nat) : List Nat → Nat → Nat → Nat
  | [], _, x => x
  | p :: r, n, x =>
    climb id r (n / 2) (hashOf ([(16, id), (4, n / 2), (2, 0x8383)] ++ if n % 2 = 1 then [(32, p), (32, x)] else [(32, x), (32, p)]))

/-- A signature of message `img` is one of the public key: 56 bytes of key, 2,828 of signature. -/
def lmsVerifies (key img sig : List Byte) : Bool :=
  let id := fieldAt key 8 16
  let q := fieldAt sig 0 4
  let y (i : Nat) : Nat := fieldAt sig (40 + 32 * i) 32
  let path := (span 0 20).map (fun i => fieldAt sig (2188 + 32 * i) 32)
  let leaf := hashOf [(16, id), (4, 2 ^ 20 + q), (2, 0x8282), (32, otsKey id q (fieldAt sig 8 32) y img)]
  key.length == 56 && sig.length == 2828 && fieldAt key 0 4 == lmsType && fieldAt key 4 4 == otsType &&
    fieldAt sig 4 4 == otsType && fieldAt sig 2184 4 == lmsType && decide (q < 2 ^ 20) &&
    climb id path (2 ^ 20 + q) leaf == fieldAt key 24 32

end Sys2Proof.Machine
end

