-- ==== Sys2Proof/Machine/Image.lean ====
section
/-!
DEFINITION. Team images (R18, R369, R370): when a team can be stopped, what is saved, the bytes of an image, and what a
resumption puts back on the new core (R170, R229, R261).
-/
namespace Sys2Proof.Machine

/-! ## Saving -/

end Sys2Proof.Machine

namespace Sys2Proof.Config

/-- What an engine block of an image that no CTXSAVE has written says of its hart, and what an attachment block that none
has written says of its team (R370 gives the contents of the blocks, not their layout). -/
opaque engineState : Nat → Machine.Hart
opaque teamState : Nat → Machine.Image

end Sys2Proof.Config

namespace Sys2Proof.Machine

/-- The harts of the team on a core, by HARTID. -/
def teamHartsOn (s : State) (ck : Nat) : Tab Hart :=
  (s.harts.filter (fun e => coreOf e.1 == ck && !e.2.system)).map (fun e => (hartId e.1, e.2))

/-- The waits, beside LWAIT, that the spec calls points at which the team may be swapped out: BARL (R99), PHASE (R96), QPOP (R112),
BOWAIT (R212), a held vector load (R176), a full-empty wait (R179), MATT (R263), CWAIT (R329) and the exchange's (R286). -/
def swapWaits : List Nat :=
  [wBarl, wPhase, wQueue, wBarrier, wUnit, wFull, wMatt, wGrant, wColl, wRound, wExchange, wOpen, wOpened,
    wRounded]

/-- A stream of the hart stands at a convoy boundary or is held at a swap point: no element or member of its convoy is done
elsewhere, and it has not stored part of a block or of a leaf (R129, R350, R369). -/
def atBoundary (h : Hart) : Bool :=
  h.part.isNone && match h.wait with
  | none => true
  | some w => swapWaits.contains w.kind || w.kind == wToken || w.kind == wCoord || w.kind == wLaunch ||
      (h.csr.vstart == 0 && w.b != 1)

/-- Every copy that the engine has emitted of a token still at work is performed: those done are the first (R229). -/
def copiesSettled (t : Token) : Bool :=
  !t.pending || (match t.work with | none => true | some w => !isCopy w || (span 0 t.done.length).all t.done.contains)

/-- The answer of a request has come and the instruction has not gone on with it: an atomic is performed and has not
retired (R204). -/
def Hart.answered (h : Hart) : Bool := h.wait.any (fun w => w.kind == wRemote) && h.remote.any (fun w => w.2.ready.isSome)

/-- Both streams of the hart have stopped. -/
def Hart.stopped (h : Hart) : Bool := [h, h.vector].all (fun h => atBoundary h && !h.answered)

/-- The team is stopped: its side log is drained, every access of its harts and every emitted copy is performed, no
performed access waits to retire, and each hart stands at a convoy boundary or a swap point (R204, R229, R369). -/
def stopReady (s : State) (ck : Nat) : Bool :=
  (s.core ck).log.isEmpty && !s.remote.any (fun e => coreOf e.2.hart == ck) &&
    (teamHartsOn s ck).all (fun e => e.2.stopped && e.2.tokens.all (fun t => copiesSettled t.2))

/-- The record of a hart that waits at the system hart of its die. -/
def waitingRec (s : State) (hk : Nat) : Option TrapRec :=
  (s.hart (servantOf hk)).recs.find? (fun r => r.hart == hk && !r.log && !r.eng)

/-- The wait of a hart whose team leaves: a MATT that would be granted its rows now is satisfied, and so is a BOWAIT whose
PHASE has flipped (R18). The events of the other waits, once they have come, stay. -/
def keptWait (s : State) (hk : Nat) (h : Hart) : Option Wait :=
  match h.wait with
  | none => none
  | some w =>
    if w.kind ≠ wMatt then savedWait s hk h
    else
      let quad := quadOf (coreOf hk)
      if freeRows s quad < w.a ∨ behind { s with cur := hk } quad (orderKey h.cls w.b hk 0) then some w
      else some { w with kind := wGrant }

/-- The full-empty wait of a hart whose team leaves is satisfied when its granules are full, and, when it is to empty them,
none of their fills is that of another hart, `hs` of its own team among them (R18, R179). -/
def keptAwait (s : State) (hs : Tab Hart) (hk : Nat) (h : Hart) : Option Await :=
  h.await.map (fun w =>
    let t : State := { s with cur := hk }
    let ours := hs.any (fun e => e.2.takesFill w.granules (fun _ => true))
    { w with met := w.met || (allFull t w.granules && !(w.clr && (fillTaken t w.granules || ours))) })

/-- A stream of a hart as its image keeps it: at its restart address, with its wait and what it has read (R18); `hs` the harts
of its team kept before it. -/
def savedSide (s : State) (hs : Tab Hart) (hk : Nat) (h : Hart) : Hart :=
  { h with pc := h.restart, dual := none, wait := keptWait s hk h, await := keptAwait s hs hk h }

/-- A hart as its image keeps it, both streams, with its record (R18, R358). -/
def savedHart (s : State) (hs : Tab Hart) (hk : Nat) (h : Hart) : Hart :=
  let g := savedSide s hs hk h
  { g with
    held := waitingRec s hk
    ahead := h.ahead.map (fun a => { a with side := (savedSide s hs hk (h.withSide a.side)).side }) }

/-- The harts of the team of a core, as their image keeps them. -/
def savedHarts (s : State) (ck : Nat) : Tab Hart :=
  (teamHartsOn s ck).foldl (fun hs e => hs ++ [(e.1, savedHart s hs (hartKey ck e.1) e.2)]) []

/-- The phase counters of a hart's units, at levels 0-15 (R370). -/
def phaseDwords (s : State) (h : Hart) : List Nat :=
  (span 0 16).map (fun i => match s.launches.find h.launch with
    | none => 0
    | some l => if i < l.blk.levels.length then phaseOf l (unitKey l.blk.levels i h.mid) else 0)

/-- Extents of a core's accumulator store that its harts hold. -/
def extentsOf (h : Hart) (ck : Nat) : List (Nat × Nat) :=
  ((h.att :: h.frozen).filterMap id).filterMap (fun a => if a.core = ck then some (a.base, a.len) else none)

def inExtents (hs : Tab Hart) (ck off : Nat) : Bool := hs.any (fun e => inRuns (extentsOf e.2 ck) off)

/-- The image of the team of a core. -/
def saveTeam (s : State) (ck : Nat) (swapped : Bool) : Option Image :=
  match (s.core ck).team with
  | none => none
  | some (lk, t) => match s.launches.find lk with
    | none => none
    | some l =>
      let c := s.core ck
      let hs := savedHarts s ck
      some { launch := lk, team := t, pkg := corePkg ck, core := ck, ctx := l.ctx, cls := l.cls, vlcap := c.vlcap
             bnd0 := c.bnd0, bnd1 := c.bnd1, bnd2 := c.bnd2, harts := hs, orig := hs
             phases := hs.map (fun e => (e.1, phaseDwords s e.2))
             pool := s.mem.slice (poolKey ck 0) (poolKey (ck + 1) 0)
             fe := s.fe.slice (poolKey ck 0 / 16) (poolKey (ck + 1) 0 / 16)
             ext := (s.mem.slice (accKey ck 0) (accKey (ck + 1) 0)).filter (fun p => inExtents hs ck p.1)
             swapped := swapped }

/-- A hart that has left its core leaves the execution to the system hart of its die. -/
def fixCur (s : State) : State :=
  match s.harts.find s.cur with | some _ => s | none => { s with cur := servantOf s.cur }

/-- The team leaves the core, which is free (R369). -/
def removeTeam (s : State) (ck : Nat) : State :=
  let mine (k : Nat) : Bool := coreOf k == ck && !isSystemKey k
  let s1 := s.setCore ck { s.core ck with team := none, rowsDue := false }
  fixCur { s1 with
    harts := (s1.harts.filter (fun e => !mine e.1)).map (fun e =>
      (e.1, { e.2 with recs := e.2.recs.filter (fun r => !(mine r.hart && !r.log && !r.eng)) }))
    mem := s1.mem.clear (poolKey ck 0) (poolKey (ck + 1) 0)
    fe := s1.fe.clear (poolKey ck 0 / 16) (poolKey (ck + 1) 0 / 16) }

/-- The byte keys of the pool held in image `n`, for the structures that are named by such a byte (R275). -/
def imageKey (n off : Nat) : Nat := 2 ^ 62 + n * 2 ^ 23 + off

/-- A key of one pool, in another. -/
def rebase (old new k : Nat) : Nat := if old ≤ k ∧ k < old + 2 ^ 23 then k - old + new else k

/-- An XOPEN that could open its stream as its team leaves has opened it (R18, R276). -/
def keptOpen (pkg : Nat) (s : State) (h : Hart) : State × Hart :=
  match h.vector.wait with
  | some ⟨22, gk, i⟩ => (match s.groups.find gk with
    | none => (s, h)
    | some g =>
      if canOpen s gk i g then
        (joinRound s gk i g (openedBy h pkg),
          h.onVector (fun h => { h with stream := some (gk, i), wait := some ⟨wOpened, gk, i⟩ }))
      else (s, h))
  | _ => (s, h)

/-- The same for every hart of an image. -/
def keptOpens (s : State) (im : Image) : State × Image :=
  let r := im.harts.foldl (fun (p : State × Tab Hart) e =>
    let q := keptOpen im.pkg p.1 e.2; (q.1, p.2 ++ [(e.1, q.2)])) (s, [])
  (r.1, { im with harts := r.2 })

/-- The team of a core is in image `n`; what was named by a byte of its pool is named by the image's. The collectives'
engine has read what it can of the team's registers (R333). -/
def takeAway (s0 : State) (ck n : Nat) (im0 : Image) : State :=
  let kept := keptOpens ((Tab.keys s0.colls).foldl readSources s0) im0
  let s := kept.1
  let im := kept.2
  removeTeam { s with
    images := s.images.put n im
    launches := s.launches.upd im.launch (fun l => { l with moved := im.team :: l.moved.filter (· ≠ im.team) })
    groups := s.groups.map (fun e => (e.1, { e.2 with key := rebase (poolKey ck 0) (imageKey n 0) e.2.key })) } ck

/-! ## Following the team -/

/-- A pointer held for an engine, after a move from core `old` to core `new`: a scratchpad side follows the team (R229). -/
def movePtr (old new p : Nat) : Nat :=
  if p >>> 60 = 2 ∧ bitsOf p 55 48 = coreId old then putBits p 48 8 (coreId new)
  else if p >>> 60 = 3 ∧ bitsOf p 23 22 = coreId old % 4 then 2 <<< 60 + coreId new <<< 48 + bitsOf p 21 0
  else p

def moveW (old new : Nat) (p : W64) : W64 := BitVec.ofNat 64 (movePtr old new p.toNat)

/-- A byte key of the old pool, in the new one. -/
def moveKey (old new k : Nat) : Nat := if poolKey old 0 ≤ k ∧ k < poolKey (old + 1) 0 then k - poolKey old 0 + poolKey new 0 else k

def moveRuns (old new : Nat) (l : List (Nat × Nat)) : List (Nat × Nat) := l.map (fun r => (moveKey old new r.1, r.2))

/-- The work of a token. -/
def moveWork (old new : Nat) (w : Work) : Work :=
  match w with
  | .bytes a b e l => .bytes (moveW old new a) (moveW old new b) e l
  | .regIn v c a => .regIn v c (moveW old new a)
  | .regOut v c a d => .regOut v c (moveW old new a) d
  | .regX v c m d => .regX v c m d
  | .gather fn x =>
    let f (x lo : Nat) : Nat := putBits x lo 64 (movePtr old new (bitsOf x (lo + 63) lo))
    .gather fn (f (f (f x 0) 64) 128)

def moveAttach (old new : Nat) (a : Attach) : Attach :=
  { a with
    core := if a.core = old then new else a.core
    queue := a.queue.map (fun c => { c with src := c.src.map (moveRuns old new) }) }

/-- The engine state of a hart that resumes on another core. -/
def moveHart (old new : Nat) (h : Hart) : Hart :=
  { h.mapGranules (fun g => moveKey old new (16 * g) / 16) with
    tokens := h.tokens.map (fun e => (e.1, { e.2 with
      work := e.2.work.map (moveWork old new), bobj := e.2.bobj.map (moveW old new) }))
    att := h.att.map (moveAttach old new)
    frozen := h.frozen.map (fun f => f.map (moveAttach old new))
    sending := h.sending.map (fun p => (movePtr old new p.1, p.2))
    posted := h.posted.map (fun p => { p with runs := moveRuns old new p.runs, bobj := moveW old new p.bobj }) }

/-! ## Resuming -/

/-- Rows the attachments of an image hold on their core's quad. -/
def imageRows (im : Image) : Nat :=
  im.harts.foldl (fun n e => ((e.2.att :: e.2.frozen).filterMap id).foldl (fun n a => n + a.rows) n) 0 + grantsOf im.harts

/-- The record of a resumed hart is queued at the system hart of the new die (R358). -/
def requeue (s : State) (hk : Nat) : State :=
  let h := s.hart hk
  match h.held with
  | none => s
  | some r => queueRec (s.setHart hk { h with held := none }) (servantOf hk) { r with hart := hk }

/-- The live handles of a module (R247). -/
def liveHandles (s : State) (p : Nat) : List Nat :=
  ((attachments s).filter (fun x => pkgOf x.1 == p)).map (fun x => x.2.2.handle)

/-- An attachment that comes live keeps its handle unless the module has that handle (R247). -/
def renamed (start : Nat) (used : List Nat) (a : Attach) : List Nat × Attach :=
  let h := if used.contains a.handle then freshHandle used start else a.handle
  (h :: used, { a with handle := h })

def renamedIn (start : Nat) (used : List Nat) (a : Option Attach) : List Nat × Option Attach :=
  match a with | none => (used, none) | some a => let r := renamed start used a; (r.1, some r.2)

/-- The same for every attachment of a hart. -/
def Hart.renamed (start : Nat) (used : List Nat) (h : Hart) : List Nat × Hart :=
  let r := renamedIn start used h.att
  let f := h.frozen.foldl (fun (p : List Nat × List (Option Attach)) a =>
    let q := renamedIn start p.1 a; (q.1, p.2 ++ [q.2])) (r.1, [])
  (f.1, { h with att := r.2, frozen := f.2 })

/-- VL under a cap (R369). -/
def Hart.cut (cap : Nat) (h : Hart) : Hart := { h with csr := { h.csr with vl := min h.csr.vl (maxVl h.cf cap) } }

/-- The harts of an image as they continue on a core. -/
def resumedHarts (s : State) (im : Image) (ck : Nat) : Tab Hart :=
  let cap := min im.vlcap (s.core ck).capmax
  (im.harts.foldl (fun (p : List Nat × Tab Hart) e =>
    let r := ({ (moveHart im.core ck e.2).cut cap with cap := cap } : Hart).renamed (Config.handle s.seq).toNat p.1
    (r.1, p.2 ++ [(hartKey ck e.1, r.2)])) (liveHandles s (corePkg ck), [])).2

/-- The team of image `n` resumes on a core (R369), its rows still to be granted when the quad has too few (R261). -/
def placeImage (s : State) (n : Nat) (im : Image) (ck : Nat) : State :=
  let c := s.core ck
  let old := im.core
  let hs := resumedHarts s im ck
  let ours (lk mid : Nat) : Bool := lk == im.launch && mid / 8 == im.team
  let s1 := s.setCore ck { c with
    vlcap := min im.vlcap c.capmax, bnd0 := im.bnd0, bnd1 := im.bnd1, bnd2 := im.bnd2
    team := some (im.launch, im.team), placed := s.seq, pinned := []
    rowsDue := decide (freeRows s (quadOf ck) < imageRows im) }
  let ext := hs.flatMap (fun e => extentsOf e.2 ck)
  let mem1 := (s1.mem.clear (poolKey ck 0) (poolKey (ck + 1) 0)).paste (poolKey ck 0) im.pool
  let mem2 := (ext.foldl (fun m x => m.clear (accKey ck x.1) (accKey ck (x.1 + x.2))) mem1).paste (accKey ck 0) im.ext
  let s2 : State := { s1 with
    mem := mem2
    fe := (s1.fe.clear (poolKey ck 0 / 16) (poolKey (ck + 1) 0 / 16)).paste (poolKey ck 0 / 16) im.fe
    harts := hs.foldl (fun t e => Tab.put t e.1 e.2) s1.harts
    images := if im.swapped then s1.images.del n else s1.images.upd n (fun x => { x with loaded := true })
    launches := s1.launches.upd im.launch (fun l => { l with
      teams := l.teams.put im.team ck, places := (ck, im.team) :: l.places })
    groups := s1.groups.map (fun e => (e.1, { e.2 with
      key := rebase (imageKey n 0) (poolKey ck 0) e.2.key
      dests := e.2.dests.map (fun d => if ours e.2.launch d.1 then (d.1, ck) else d) }))
    colls := s1.colls.map (fun e => (e.1, { e.2 with
      members := e.2.members.map (fun m => if ours m.launch m.mid then { m with bobj := moveW old ck m.bobj } else m) })) }
  (hs.foldl (fun s e => requeue s e.1) s2).bump

/-- The core can take a resuming team of a context (R369): its accumulator store holds no extent that the team's would
overlap (R246). -/
def coreTakes (s : State) (im : Image) (ck : Nat) : Bool :=
  coreFree s im.ctx ck && !im.harts.any (fun e => (extentsOf e.2 im.core).any (fun x => extentTaken s ck x.1 x.2))

/-- The rows a resumed team waits for are granted once the quad has them (R261). -/
def regrant (s : State) (ck : Nat) : State :=
  if (s.core ck).rowsDue ∧ dueRows s ck ≤ freeRows s (quadOf ck) then s.setCore ck { s.core ck with rowsDue := false } else s

/-! ## The bytes of an image (R370) -/

/-- Bytes of a hart section. -/
def sectionBytes (planes : Nat) : Nat := 8192 + 49152 * (1 + planes)

def imagePlanes (im : Image) : Nat := match im.harts with | [] => 0 | e :: _ => e.2.nplanes

/-- Bytes of the accumulator extents of an image. -/
def extentBytes (im : Image) : Nat :=
  im.orig.foldl (fun n e => (extentsOf e.2 im.core).foldl (fun n x => n + x.2) n) 0

def imageLen (im : Image) : Nat :=
  64 + im.orig.length * sectionBytes (imagePlanes im) + (im.bnd1 - im.bnd0) + (im.bnd2 - im.bnd1) +
    (im.bnd2 - im.bnd1) / 128 + 4096 + extentBytes im

/-- The header. -/
def imageHeader (s : State) (im : Image) : Nat :=
  let addr := match s.launches.find im.launch with | none => 0 | some l => l.addr.toNat
  1 + im.ctx <<< 16 + coreId im.core <<< 20 + (im.orig.foldl (fun n e => n + 2 ^ e.1) 0) <<< 28 + im.cls <<< 36 +
    im.vlcap <<< 38 + imagePlanes im <<< 46 + imageLen im <<< 64 + im.bnd0 <<< 128 + im.bnd1 <<< 160 + im.bnd2 <<< 192 +
    addr <<< 256

/-- A user CSR as its dword stands in the image. -/
def csrDword (s : State) (hk : Nat) (h : Hart) (i : Nat) : Nat :=
  let t : State := { s with harts := s.harts.put hk h, cur := hk }
  if csrAssigned i then (readCsr t i).toNat else 0

/-- Bytes of an image that R370 does not lay out: the engine block of hart `h` and its gaps, number `n` of the image. -/
def openBytes (n h off len : Nat) : Nat := ofBytes ((span off len).map (fun i => Config.imageByte (9 * n + h) i))

/-- A block of `len` bytes that ends with its check code. -/
def checkedBlock (n h len : Nat) : Nat :=
  let l := (span 4096 (len - 4)).map (fun i => Config.imageByte (9 * n + h) i)
  ofBytes l + (Config.checkCode l).toNat <<< (8 * (len - 4))

/-- A queue: entry count, then 16 entries. -/
def queueBits (l : List W64) : Nat :=
  l.length + ((List.zip (span 1 16) l).foldl (fun n p => n + p.2.toNat <<< (64 * p.1)) 0)

/-- A loop-nest register as R218 lays it out. -/
def lnBits (r : LnReg) : Nat := r.count.toNat + r.sstr.toNat <<< 32 + r.dstr.toNat <<< 96

/-- A group register in the image. R370 gives g0-g7 their place; these 32 bytes of each are the model's: identity with
bit 63 for usable, BOBJ, P and rank, COLLs issued. -/
def groupBits (g : GroupReg) : Nat :=
  g.ident % 2 ^ 63 + (if g.usable then 2 ^ 63 else 0) + g.bobj.toNat <<< 64 + (g.size % 2 ^ 32) <<< 128 +
    (g.rank % 2 ^ 32) <<< 160 + (g.count % 2 ^ 64) <<< 192

/-- A group register read back: its list is kept while it names the same list. -/
def groupReadBack (g : GroupReg) (x : Nat) : GroupReg where
  usable := x.testBit 63
  ident := bitsOf x 62 0
  size := bitsOf x 159 128
  rank := bitsOf x 191 160
  bobj := BitVec.ofNat 64 (bitsOf x 127 64)
  count := bitsOf x 255 192
  list := if bitsOf x 62 0 = g.ident then g.list else []

/-- Pieces of a hart section: bytes and value. -/
def hartPieces (s : State) (n hk planes : Nat) (ph : List Nat) (h : Hart) : List (Nat × Nat) :=
  let i := hartId hk
  let sum (c w : Nat) (f : Nat → Nat) : Nat := (span 0 c).foldl (fun t j => t + f j <<< (w * j)) 0
  [(256, sum 32 64 (fun r => (h.reg (BitVec.ofNat 5 r)).toNat)), (8, h.pc.toNat), (248, openBytes n i 264 248),
   (672, sum 84 64 (csrDword s hk h)), (48, sum 48 8 (fun r => (h.tags.get r).toNat)), (48, openBytes n i 1232 48),
   (1536, sum 12 1024 (fun m => (h.mask m).toNat)), (544, sum 4 1088 (fun q => queueBits (h.queue q))),
   (256, sum 8 256 (fun g => groupBits (h.group g))), (144, sum 6 192 (fun l => lnBits (h.ln.getD l {}))),
   (128, sum 16 64 (fun l => ph.getD l 0)),
   (208, openBytes n i 3888 208), (4096, checkedBlock n i 4096)] ++
  (span 0 (1 + planes)).flatMap (fun k => (span 0 48).map (fun r => (1024, (h.plane r k).toNat)))

/-- Bytes of a slice of the pool, `len` from offset `lo`. -/
def poolValue (im : Image) (lo len : Nat) : Nat := ofBytes ((span lo len).map im.pool.get)

/-- The full-empty bits of the scratchpad part. -/
def feValue (im : Image) : Nat :=
  (span 0 ((im.bnd2 - im.bnd1) / 16)).foldl (fun n i => n + (im.fe.get (im.bnd1 / 16 + i)).toNat <<< i) 0

def extValue (im : Image) : List (Nat × Nat) :=
  im.orig.flatMap (fun e => (extentsOf e.2 im.core).map (fun x => (x.2, ofBytes ((span x.1 x.2).map im.ext.get))))

/-- The pieces of the whole image, in order. -/
def imagePieces (s : State) (n : Nat) (im : Image) : List (Nat × Nat) :=
  [(64, imageHeader s im)] ++
    im.orig.flatMap (fun e => hartPieces s n (hartKey im.core e.1) (imagePlanes im) (im.phases.getD e.1 []) e.2) ++
    [(im.bnd1 - im.bnd0, poolValue im im.bnd0 (im.bnd1 - im.bnd0)), (im.bnd2 - im.bnd1, poolValue im im.bnd1 (im.bnd2 - im.bnd1)),
     ((im.bnd2 - im.bnd1) / 128, feValue im), (4096, checkedBlock n 8 4096)] ++ extValue im

/-- The first trap of `n` bytes at `a`, block by block (R175). -/
def blocksTrap (s : State) (a n need : Nat) : Option Trap :=
  (span 0 (ceilDiv n 1024)).findSome? (fun i =>
    let m := min 1024 (n - 1024 * i)
    match scalarLoc s s.cur (a + 1024 * i) m (if i = 0 then 4096 else 1) need with
    | .error t => some t
    | .ok l => if need = rR ∧ eccHit s l.key m then some (cUncorrectable, BitVec.ofNat 64 (a + 1024 * i)) else none)

/-- Byte `i` at `a`: its key. -/
def byteKeyAt (s : State) (a : Nat) : Nat := match scalarLoc s s.cur a 1 1 0 with | .error _ => 0 | .ok l => l.key

/-- Pieces written one after another from `a` on. -/
def putPieces : List (Nat × Nat) → Nat → State → State
  | [], _, s => s
  | (n, v) :: r, a, s =>
    let ks := (span a n).map (byteKeyAt s)
    putPieces r (a + n) (putBytes (ks.foldl pin s) ks (bytesOf v n))

/-- `n` bytes at `a`. -/
def getBytes (s : State) (a n : Nat) : Nat := ofBytes ((span a n).map (fun i => s.byteAt (byteKeyAt s i)))

/-! ## Reading an image back -/

/-- A field of the image: the program's value where it differs from the one saved, else what engines have made of it. -/
def pick {α : Type} [DecidableEq α] (cur orig mem : α) : α := if mem = orig then cur else mem

/-- A hart of an image with what the bytes of its section (at `a`) say now. -/
def overlayHart (s : State) (a planes hk : Nat) (orig cur : Hart) : Hart :=
  let word (off : Nat) : W64 := BitVec.ofNat 64 (getBytes s (a + off) 8)
  let csr (i : Nat) : W64 := word (512 + 8 * i)
  let was (i : Nat) : W64 := BitVec.ofNat 64 (csrDword s hk orig i)
  let sel (i : Nat) (v : W64) : W64 := pick v (was i) (csr i)
  let c := cur.csr
  let c1 : Csrs := { c with
    vl := (sel 0 (BitVec.ofNat 64 c.vl)).toNat, cf := BitVec.ofNat 4 (sel 1 (c.cf.setWidth 64)).toNat
    vctl := BitVec.ofNat 3 (sel 2 (c.vctl.setWidth 64)).toNat, vstart := (sel 3 (BitVec.ofNat 64 c.vstart)).toNat % 1024
    rm := BitVec.ofNat 2 (sel 4 (c.rm.setWidth 64)).toNat, fflags := BitVec.ofNat 5 (sel 5 (c.fflags.setWidth 64)).toNat
    toff := (span 1 4).foldl (fun t k => Cells.set t k (sel (7 + k) (c.toff.get k))) c.toff
    dln := sel 0x20 c.dln, lead := sel 0x22 c.lead, uhaddr := wordAddr (sel 0x50 c.uhaddr)
    ucause := BitVec.ofNat 8 (sel 0x51 (c.ucause.setWidth 64)).toNat, upc := wordAddr (sel 0x52 c.upc), uval := sel 0x53 c.uval }
  let pc := wordAddr (pick cur.pc orig.pc (word 256))
  let h1 : Hart := if pc = cur.pc then { cur with csr := c1 }
    else { cur with
      csr := c1, pc := pc, wait := none, await := none, remote := [], sending := none, under := [], part := none, ahead := none }
  let h2 := (range 1 32).foldl (fun h i =>
    let r := BitVec.ofNat 5 i
    h.setReg r (pick (cur.reg r) (orig.reg r) (word (8 * i)))) h1
  let h3 : Hart := { h2 with
    tags := (span 0 48).foldl (fun t r =>
      Cells.set t r (pick (cur.tags.get r) (orig.tags.get r) (BitVec.ofNat 4 (getBytes s (a + 1184 + r) 1)))) h2.tags
    queues := (span 0 4).foldl (fun t q =>
      let n := getBytes s (a + 2816 + 136 * q) 8
      Tab.put t q (pick (cur.queue q) (orig.queue q) ((span 1 (min n 16)).map (fun i => word (2816 + 136 * q + 8 * i))))) h2.queues
    ln := (span 0 6).foldl (fun t l =>
      let x := getBytes s (a + 3616 + 24 * l) 20
      Tab.put t l (pick (cur.ln.getD l {}) (orig.ln.getD l {})
        ⟨BitVec.ofNat 32 x, BitVec.ofNat 64 (x >>> 32), BitVec.ofNat 64 (x >>> 96)⟩)) h2.ln
    groups := (span 0 8).foldl (fun t g =>
      let x := getBytes s (a + 3360 + 32 * g) 32
      if x = groupBits (orig.group g) then t else Tab.put t g (groupReadBack (cur.group g) x)) h2.groups }
  let h4 := (span 0 12).foldl (fun h m =>
    h.setMask m (pick (cur.mask m) (orig.mask m) (BitVec.ofNat 1024 (getBytes s (a + 1280 + 128 * m) 128)))) h3
  (span 0 (1 + planes)).foldl (fun h k => (span 0 48).foldl (fun h r =>
    h.setPlane r k (pick (cur.plane r k) (orig.plane r k)
      (BitVec.ofNat 8192 (getBytes s (a + 8192 + 49152 * k + 1024 * r) 1024)))) h) h4

/-- A block of `len` bytes ends with the check code of the rest. -/
def codeOk (x len : Nat) : Bool :=
  (Config.checkCode (bytesOf x (len - 4))).toNat == bitsOf x (8 * len - 1) (8 * (len - 4))

/-- The harts that a header names. -/
def headHarts (x : Nat) : List Nat := (span 0 8).filter (fun h => x.testBit (28 + h))

/-- The hart that an engine block stands for: as it was saved, as engines have left it since, and its phase counters. R370
does not lay the block out: one that no CTXSAVE has written stands for a hart the model leaves open. -/
def blockHart (s : State) (x : Nat) : Hart × Hart × List Nat :=
  (s.images.findSome? (fun e => if e.2.swapped then none else e.2.orig.findSome? (fun p =>
    if x = checkedBlock e.1 p.1 4096 then some (p.2, e.2.harts.getD p.1 p.2, e.2.phases.getD p.1 []) else none))).getD
    (Config.engineState x, Config.engineState x, [])

/-- The saved team that an attachment block stands for, with its number; one that the model leaves open, under a number of
its own, for a block that no CTXSAVE has written. -/
def blockTeam (s : State) (x : Nat) : Nat × Image :=
  ((s.images.filter (fun e => !e.2.swapped)).find? (fun e => x == checkedBlock e.1 8 4096)).getD
    (s.seq, { Config.teamState x with swapped := false })

/-- The launch of context `slot` whose block is at an address: launch `lk` when it is one, else the latest; none is named 0,
which no launch has. -/
def launchNamed (s : State) (slot lk addr : Nat) : Nat :=
  let l := Tab.keys (s.launches.filter (fun e =>
    e.2.ctx == slot && (s.ctx s.myPkg slot).spans e.2.pkg && e.2.addr.toNat == addr))
  if l.contains lk then lk else l.foldl max 0

/-- An image with what its header `x` names: context, core of origin, class, cap, boundaries and launch (R370). -/
def headed (s : State) (x : Nat) (im : Image) : Image :=
  let cap := bitsOf x 45 38
  { im with
    ctx := bitsOf x 19 16, core := im.pkg * 256 + bitsOf x 27 20, cls := bitsOf x 37 36
    vlcap := if [16, 32, 64, 128].contains cap then cap else im.vlcap
    bnd0 := bitsOf x 159 128, bnd1 := bitsOf x 191 160, bnd2 := bitsOf x 223 192
    launch := launchNamed s (bitsOf x 19 16) im.launch (bitsOf x 319 256) }

/-- A hart of an image in HART slot `i`, its attachments at the image's core of origin, which was `old` when it was saved. -/
def inSlot (im : Image) (old planes i : Nat) (h : Hart) : Hart :=
  { h with
    system := false, launch := im.launch, mid := 8 * im.team + i, nplanes := planes
    att := h.att.map (moveAttach old im.core), frozen := h.frozen.map (fun f => f.map (moveAttach old im.core)) }

/-- Bytes of the parts that a header `x` lays out: all but the accumulator extents. -/
def headLen (x : Nat) : Nat :=
  let b1 := bitsOf x 191 160
  let b2 := bitsOf x 223 192
  64 + (headHarts x).length * sectionBytes (bitsOf x 48 46) + (b1 - bitsOf x 159 128) + (b2 - b1) + (b2 - b1) / 128 + 4096

/-- The image at `a`, its parts where its header puts them; none when a check code does not match (R370, R374). -/
def imageAt (s : State) (a : Nat) : Option (Nat × Image) :=
  let x := getBytes s a 64
  let hs := headHarts x
  let pl := bitsOf x 48 46
  let sec (i : Nat) := a + 64 + i * sectionBytes pl
  let block (i : Nat) := getBytes s (sec i + 4096) 4096
  let tail := getBytes s (a + headLen x - 4096) 4096
  let ix := List.zip hs ((span 0 hs.length).map block)
  if ix.all (fun p => codeOk p.2 4096) && codeOk tail 4096 then
    let e := blockTeam s tail
    let im := headed s x e.2
    let at_ := inSlot im e.2.core pl
    some (e.1, { im with
      harts := ix.map (fun p => (p.1, at_ p.1 (blockHart s p.2).2.1))
      orig := ix.map (fun p => (p.1, at_ p.1 (blockHart s p.2).1))
      phases := ix.map (fun p => (p.1, (blockHart s p.2).2.2)) })
  else none

/-- The phase counters of a hart's units take what the image says where that differs from what was saved (R16, R370). -/
def restorePhases (s : State) (a : Nat) (im : Image) : State :=
  (List.zip (span 0 im.orig.length) im.orig).foldl (fun s p =>
    let was := im.phases.getD p.2.1 []
    (span 0 16).foldl (fun s i =>
      let x := getBytes s (a + 64 + p.1 * sectionBytes (imagePlanes im) + 3760 + 8 * i) 8
      if x = was.getD i 0 then s
      else { s with launches := s.launches.upd im.launch (fun l =>
        if i < l.blk.levels.length then
          { l with phases := l.phases.set (unitKey l.blk.levels i p.2.2.mid) (BitVec.ofNat 64 x) } else l) }) s) s

/-- An image with what its bytes say now. -/
def overlayImage (s : State) (a : Nat) (im : Image) : Image :=
  let pl := imagePlanes im
  let sec (i : Nat) := a + 64 + i * sectionBytes pl
  let priv := sec im.orig.length
  let fe0 := priv + (im.bnd2 - im.bnd0)
  let ext0 := fe0 + (im.bnd2 - im.bnd1) / 128 + 4096
  let parts := im.orig.flatMap (fun e => extentsOf e.2 im.core)
  { im with
    harts := (List.zip (span 0 im.orig.length) im.orig).map (fun p =>
      (p.2.1, { overlayHart s (sec p.1) pl (hartKey im.core p.2.1) p.2.2 (im.harts.getD p.2.1 p.2.2) with
        ctx := im.ctx, cls := im.cls }))
    pool := (span 0 (im.bnd2 - im.bnd0)).foldl (fun c i => Cells.set c (im.bnd0 + i) (s.byteAt (byteKeyAt s (priv + i)))) im.pool
    fe := (span 0 ((im.bnd2 - im.bnd1) / 16)).foldl (fun c i => Cells.set c (im.bnd1 / 16 + i)
      (BitVec.ofNat 1 ((s.byteAt (byteKeyAt s (fe0 + i / 8))).toNat / 2 ^ (i % 8)))) im.fe
    ext := (parts.foldl (fun (p : Cells 8 × Nat) x =>
      ((span 0 x.2).foldl (fun c i => Cells.set c (x.1 + i) (s.byteAt (byteKeyAt s (p.2 + i)))) p.1, p.2 + x.2)) (im.ext, ext0)).1 }

end Sys2Proof.Machine
end

