-- ==== Sys2Proof/Machine/System.lean ====
section
/-!
DEFINITION. The system and privileged instructions (R356-R374).
-/
namespace Sys2Proof.Machine

/-- SYSCALL (R373): the instruction counts as complete. -/
def execSyscall (o : OpN) (s : State) : Out :=
  scalar o.x s (fun s => raiseAt (s.me.pc + BitVec.ofNat 64 (lenOf o.x)) 0x13 0 s)

/-- BRK (R373). -/
def execBrk (o : OpN) (s : State) : Out :=
  scalar o.x s (fun s => raiseAt (s.me.pc + BitVec.ofNat 64 (lenOf o.x)) 0x14 s.me.pc s)

/-- URET (R362). -/
def execUret (o : OpN) (s : State) : Out := scalar o.x s returnUser

/-- ERET (R362). -/
def execEret (o : OpN) (s : State) : Out := privileged o.x s (returnSystem (lenOf o.x))

/-- HALT (R372, R374): the context CTXID ends on every module. -/
def execHalt (o : OpN) (s : State) : Out :=
  privileged o.x s (fun s => (endContext s s.myPkg s.me.sys.ctxid.toNat).retire (lenOf o.x))

/-! ## WFI (R358, R374) -/

/-- The record a system hart takes first: lowest class, then earliest queued. -/
def firstRec (l : List TrapRec) : Option TrapRec :=
  l.foldl (fun acc r => match acc with | none => some r | some b => if r.cls < b.cls then some r else some b) none

/-- TSTATUS for a record (R359). -/
def statusOf (r : TrapRec) : W64 :=
  BitVec.ofNat 64 (coreId (coreOf r.hart) + hartId r.hart * 256 + 2048 + (if r.uh then 16384 else 0) +
    (if r.log then 65536 else 0) + (if r.eng then 131072 else 0) + (r.cls % 4) * 262144)

/-- The system hart takes a record (R358). -/
def takeRec (r : TrapRec) (s : State) : State :=
  let h := s.me
  let h1 := match s.harts.find r.hart with
    | none => h
    | some g => (range 1 16).foldl (fun h i => h.setReg (BitVec.ofNat 5 i) (g.reg (BitVec.ofNat 5 i))) h
  s.setMe { h1 with
    recs := h1.recs.erase r, serving := some r
    sys := { h1.sys with
      tcause := BitVec.ofNat 8 r.cause, tpc := r.pc, tval := r.val, tstatus := statusOf r, ctxid := BitVec.ofNat 4 r.ctx }
    pc := h1.sys.tvec, wait := none, dual := none, remote := [], under := [], part := none }

/-- Pending tokens as a mask. -/
def pendingMask (h : Hart) : Nat := (span 0 8).foldl (fun n k => if (h.token k).pending then n + 2 ^ k else n) 0

/-- WFI (R374): the wait remembers which tokens were pending when it began. -/
def execWfi (o : OpN) (s : State) : Out :=
  privileged o.x s (fun s =>
    let h := s.me
    if h.sys.tstatus.getLsbD tsSrv then s.retire (lenOf o.x)
    else match firstRec h.recs with
      | some r => takeRec r s
      | none =>
        let now := pendingMask h
        match h.wait with
        | none => s.holdAt wSystem now 0
        | some w =>
          if w.kind ≠ wSystem then s.holdAt wSystem now 0
          else if w.a &&& now ≠ w.a then s.retire (lenOf o.x) else s)

/-! ## Invalidation (R367, R368) -/

/-- The 64 KiB pages that hold an address of [a, a + n), or every page when n = 0. -/
def pageNamed (a n page : Nat) : Bool := n == 0 || decide (a < (page + 1) * 65536 ∧ page * 65536 < a + n)

/-- A request that module `p` has translated for a context, in addresses that `named` says, is on its way. -/
def RemoteOp.under (o : RemoteOp) (s : State) (p slot : Nat) (named : Nat → Bool) : Bool :=
  o.state == 0 && corePkg o.core == p && o.slot == slot && o.carried s && o.vas.any named

/-- The requests on their way that harts wait for are called back: their instructions translate anew (R367). -/
def callBack (s : State) (p slot : Nat) (named : Nat → Bool) : State :=
  let gone (n : Nat) : Bool := (s.remote.find n).any (fun o => o.kind != 1 && o.under s p slot named)
  { s with
    remote := s.remote.filter (fun e => !gone e.1)
    harts := s.harts.map (fun e => (e.1, e.2.mapRemote (fun t => t.filter (fun w => !gone w.2.op)))) }

/-- An invalidation completes once no posted store on its way has been translated for its addresses before it (R367). -/
def invalidated (s : State) (slot : Nat) (named : Nat → Bool) (k : State → State) : State :=
  let t := callBack s s.myPkg slot named
  if t.remote.any (fun e => e.2.under t s.myPkg slot named) then t.hold wOrder else k t

/-- TLBINV (R364, R367, R374): what the TLBs keep for the named addresses of context CTXID is given up. -/
def execTlbinv (o : OpAB) (s : State) : Out :=
  privileged o.x s (fun s =>
    let slot := s.me.sys.ctxid.toNat
    let named := pageNamed (bitsOf (s.me.reg o.a).toNat 41 0) (s.me.reg o.b).toNat
    invalidated s slot (fun va => named (va / 65536)) (fun s => (dropPages s.myPkg slot named s).retire (lenOf o.x)))

/-- The record of a side-log entry (R368). -/
def logRec (e : LogEntry) (cause : Nat) : TrapRec where
  hart := e.hart
  cause := cause
  pc := 0
  val := e.ptr
  uh := false
  log := true
  eng := false
  cls := e.cls
  ctx := e.ctx

/-- The oldest entry of a core's log with a byte in unit `u` of a context that may not be stored queues its record, unless
the unit was that way for it in `s0` already. -/
def reportLog (slot u : Nat) (s0 s : State) (ck : Nat) : State :=
  let here (va : Nat) : Bool := bitsOf va 41 25 == u
  match (s.core ck).log.find? (fun e => e.ctx == slot && e.stop s ck here != 0) with
  | none => s
  | some e =>
    let c := e.stop s ck here
    if c = e.stop s0 ck here then s
    else queueRec s (systemKey (corePkg ck) (dieOfCore ck)) (logRec e (if c = 1 then cVectorPage else cProtection))

/-- Entry `i` of a context's resident table becomes `v`. -/
def reloadEntry (slot : Nat) (s : State) (i v : Nat) : State :=
  let p := s.myPkg
  let c := s.ctx p slot
  let s1 := s.setCtx p slot { c with vht := c.vht.set i (BitVec.ofNat 64 v) }
  ((Tab.keys s1.cores).filter (fun ck => corePkg ck == p)).foldl (reportLog slot i s) s1

/-- VHTINV (R367, R368, R374). -/
def execVhtinv (o : OpAB) (s : State) : Out :=
  privileged o.x s (fun s =>
    let slot := s.me.sys.ctxid.toNat
    let first := bitsOf (s.me.reg o.a).toNat 41 25
    let n := min (max (s.me.reg o.b).toNat 1) (131072 - first)
    let base := (bitsOf (s.ctx s.myPkg slot).vhtb.toNat 41 20) <<< 20
    let ix := span first n
    match ix.find? (fun i => !physOk (base + 8 * i) || eccHit s (physKey s.myPkg (base + 8 * i)) 8) with
    | some i => raise (if physOk (base + 8 * i) then cUncorrectable else cProtection) (BitVec.ofNat 64 (base + 8 * i)) s
    | none =>
      invalidated s slot (fun va => ix.contains (va / 2 ^ 25)) (fun s =>
        (ix.foldl (fun t i => reloadEntry slot t i (physDword t t.myPkg (base + 8 * i))) s).retire (lenOf o.x)))

/-! ## Team images (R370, R374) -/

/-- The core of the served team: where the hart of the record in service is now, else the served core. -/
def servedTeam (s : State) : Option Nat :=
  let at_ := match s.me.serving with
    | none => none
    | some r => if r.log || r.eng then none else (memberKey s r.launch r.mid).map coreOf
  match at_, servedCore s with
  | some ck, some _ => some ck
  | none, some ck => if (s.core ck).team.isSome then some ck else none
  | _, none => none

/-- CTXSAVE (R374): sd := LEN. A record of the served hart stays in service. -/
def execCtxsave (o : OpDA) (s : State) : Out :=
  privileged o.x s (fun s =>
    let a := (s.me.reg o.a).toNat
    if a % 4096 ≠ 0 then raise cAlign (BitVec.ofNat 64 a) s
    else match servedTeam s with
      | none => s.wr (lenOf o.x) o.d 0
      | some ck =>
        match saveTeam s ck false with
        | none => s.wr (lenOf o.x) o.d 0
        | some im =>
          let len := imageLen im
          match blocksTrap s a len rW with
          | some t => raise t.1 t.2 s
          | none =>
            if !stopReady s ck then s.hold wSystem
            else
              let n := s.seq
              ((takeAway (putPieces (imagePieces s n im) a s) ck n im).bump).wr (lenOf o.x) o.d (BitVec.ofNat 64 len))

/-- CTXLOAD (R374): sd := 0 done, 1 refused, 2 core not free, 3 context not resident. -/
def execCtxload (o : OpR) (s : State) : Out :=
  privileged o.x s (fun s =>
    let a := (s.me.reg o.a).toNat
    let b := (s.me.reg o.b).toNat
    let len := lenOf o.x
    if a % 4096 ≠ 0 then raise cAlign (BitVec.ofNat 64 a) s
    else match blocksTrap s a 64 rR with
      | some t => raise t.1 t.2 s
      | none =>
        let x := getBytes s a 64
        match blocksTrap s a (max (headLen x) (bitsOf x 127 64)) rR with
        | some t => raise t.1 t.2 s
        | none => match imageAt s a with
        | none => s.wr len o.d 1
        | some (n, im) => match blocksTrap s a (imageLen im) rR with
          | some t => raise t.1 t.2 s
          | none =>
            if !(s.ctx s.myPkg im.ctx).live then s.wr len o.d 3
            else
              let free := ((span 0 192).map (fun c => s.myPkg * 256 + c)).filter (coreTakes s im)
              let ck : Option Nat :=
                if b = 2 ^ 64 - 1 then free[Config.anyCore s.seq % max free.length 1]?
                else free.find? (fun k => coreId k == b)
              match ck with
              | none => s.wr len o.d 2
              | some ck => (placeImage (restorePhases s a im) n (overlayImage s a im) ck).wr len o.d 0)

/-- SLDRAIN (R374): sd := ENT of the served core's log. -/
def execSldrain (o : OpD) (s : State) : Out :=
  privileged o.x s (fun s => match servedCore s with
    | none => s.wr (lenOf o.x) o.d 0
    | some ck =>
      let log := (s.core ck).log
      if log.any (fun e => e.ctx == s.me.sys.ctxid.toNat) ∧ !logStuck s ck then s.hold wSystem
      else s.wr (lenOf o.x) o.d (BitVec.ofNat 64 (log.length % 65536)))

end Sys2Proof.Machine
end

