-- ==== Sys2Proof/Machine/Swap.lean ====
section
/-!
DEFINITION. Pre-emption, swap-out and resumption by the launch unit, and the retirement of lane clusters (R18, R369).
-/
namespace Sys2Proof.Machine

/-- A launch has teams to place and no room for its next wave. -/
def launchWaits (s : State) (l : Launch) : Bool :=
  !isFinal l.status && !(pendingTeams l).isEmpty && !roomFor s l

/-- A waiting launch may pre-empt: at once with a DEADLINE, else after 1 ms (R369). -/
def mayPreempt (s : State) (l : Launch) : Bool :=
  launchWaits s l && (l.blk.deadline != 0 || decide (l.since + 1000000 ≤ (s.mod l.pkg).gtime))

/-- The class, deadline and placement number of the team of a core. -/
def teamRank (s : State) (ck : Nat) : Option (Nat × Nat × Nat) :=
  match (s.core ck).team with
  | none => none
  | some (lk, _) => match s.launches.find lk with
    | none => none
    | some l => some (l.cls, (if l.blk.deadline = 0 then 2 ^ 64 else l.blk.deadline), (s.core ck).placed)

/-- The order of victims: highest class, then latest deadline, then placed last. -/
def victimBefore (a b : Nat × Nat × Nat) : Bool :=
  if a.1 ≠ b.1 then decide (b.1 < a.1) else if a.2.1 ≠ b.2.1 then decide (b.2.1 < a.2.1) else decide (b.2.2 < a.2.2)

/-- The first victim of a launch: a team of a higher class number on a core the launch could use. -/
def victimFor (s : State) (l : Launch) : Option Nat :=
  let ps := launchCores s l
  let cores := (Tab.keys s.cores).filter (fun ck => ps.contains ck && (s.ctx l.pkg l.ctx).owns (coreId ck) &&
    (match teamRank s ck with | none => false | some r => decide (l.cls < r.1)))
  cores.foldl (fun acc ck => match acc with
    | none => some ck
    | some b => match teamRank s ck, teamRank s b with
      | some x, some y => if victimBefore x y then some ck else some b
      | _, _ => some b) none

/-- The team of a core leaves, its image written to the launch unit's swap area (R369, R370). -/
def swapOut (s : State) (ck : Nat) : State :=
  if !stopReady s ck then s
  else match saveTeam s ck true with
    | none => s
    | some im => (takeAway s ck s.seq { im with area := imagePieces s s.seq im }).bump

/-- PREEMPTION_TIMEOUT (R369): the launch's first victim is swapped out, once its engines have stopped. -/
def execPreemptionTimeout (lk : Nat) (s : State) : Out :=
  .next (match s.launches.find lk with
    | none => s
    | some l => if mayPreempt s l then (match victimFor s l with | none => s | some ck => swapOut s ck) else s)

/-- The hart stands at a point at which its team may be swapped out; a YIELD is one (R102). -/
def atSwapPoint (h : Hart) : Bool :=
  h.yielded || (match h.wait with | none => false | some w => swapWaits.contains w.kind)

/-- The hart waits in LWAIT (R104). -/
def inLwait (h : Hart) : Bool := match h.wait with | none => false | some w => w.kind == wLaunch

/-- A child launch of the context of the team of a core needs cores (R104). -/
def childWaits (s : State) (ck : Nat) : Bool :=
  match (s.core ck).team with
  | none => false
  | some (lk, _) => match s.launches.find lk with
    | none => false
    | some l => s.launches.any (fun e =>
        e.2.ctx == l.ctx && (s.ctx l.pkg l.ctx).spans e.2.pkg && e.2.queue.isNone && launchWaits s e.2)

/-- The launch unit may swap the team out: it is the victim of a waiting launch (R369), a hart of it stands at a swap point,
it waits for rows (R261), or every hart waits in LWAIT while a child of its context needs cores. -/
def swapReason (s : State) (ck : Nat) : Bool :=
  s.launches.any (fun e => mayPreempt s e.2 && victimFor s e.2 == some ck) ||
    (teamHartsOn s ck).any (fun e => atSwapPoint e.2) || (s.core ck).rowsDue ||
    ((teamHartsOn s ck).all (fun e => inLwait e.2) && childWaits s ck)

/-- TEAM_SWAP_OUT (R369). -/
def execTeamSwapOut (ck : Nat) (s : State) : Out := .next (if swapReason s ck then swapOut s ck else s)

/-- TEAM_RESUME (R369): the team whose image `n` stands in the swap area, on a free core of a module of its context. -/
def execTeamResume (n ck : Nat) (s : State) : Out :=
  .next (match s.images.find n with
    | none => s
    | some im =>
      if im.swapped ∧ !im.area.isEmpty ∧ coreTakes s im ck ∧ (s.ctx im.pkg im.ctx).spans (corePkg ck) then placeImage s n im ck
      else s)

/-- The largest cap that `c` of 8 lane clusters give. -/
def capOfClusters (c : Nat) : Nat := if 8 ≤ c then 128 else if 4 ≤ c then 64 else if 2 ≤ c then 32 else if 1 ≤ c then 16 else 0

/-- LANE_CLUSTER_RETIREMENT (R369): `c` clusters of a core are retired, and CAPMAX falls. -/
def execLaneClusterRetirement (ck c : Nat) (s : State) : Out :=
  .next (if c = 0 then s else
    let k := s.core ck
    s.setCore ck { k with capmax := min k.capmax (capOfClusters (8 - c)) })

end Sys2Proof.Machine
end

