-- ==== Sys2Proof/Machine/RemoteEvents.lean ====
section
/-!
DEFINITION. Requests between modules: REMOTE_ACCESS, REMOTE_ACK, REMOTE_LOAD_RETURN (R173, R201).
-/
namespace Sys2Proof.Machine

/-- Two requests share a byte. -/
def RemoteOp.meets (a b : RemoteOp) : Bool := a.keys.any b.keys.contains

/-- The bytes at a request's keys. -/
def remoteRead (s : State) (o : RemoteOp) : Nat := ofBytes (o.keys.map s.byteAt)

/-- The bytes a load returns, as they are when it is performed: what its core's side log still holds goes ahead of memory
(R177, R193). -/
def remoteLoad (s : State) (o : RemoteOp) : Nat :=
  ofBytes ((List.zip o.keys o.vas).map (fun p => (forwarded s o.core o.slot o.pkg p.2).getD (s.byteAt p.1)))

def remoteWrite (s : State) (o : RemoteOp) (v : Nat) : State := putBytes s o.keys (bytesOf v o.keys.length)

/-- What a request does at its bytes: the state, the value to return, the flags (R173, R205, R206, R209). -/
def remoteDo (s : State) (o : RemoteOp) : State × Nat × Flags :=
  let n := o.keys.length
  let old := remoteRead s o
  match o.kind with
  | 0 => (s, remoteLoad s o, 0)
  | 1 => (remoteWrite s o o.val, 0, 0)
  | 2 =>
    let r := atomOp o.fn n old o.val
    (remoteWrite s o r.1, old, r.2)
  | 3 => (if old = o.cmp then remoteWrite s o o.val else s, old, 0)
  | _ => match boAdd old o.val with
    | none => (s, 1, 0)
    | some y => (remoteWrite s o y, 0, 0)

/-- An SC access that draws its ticket as it is performed may be performed: no access with an earlier ticket is owed, of
those that the level it names reaches (R183, R202). -/
def scMay (s : State) (o : RemoteOp) : Bool :=
  match o.tick with
  | none => true
  | some p => match o.scope with | none => !scOwed s p | some i => !scHeld s o.hart i p

/-- A request meets an uncorrectable error where it would be performed (R371). -/
def RemoteOp.meetsError (o : RemoteOp) (s : State) : Bool :=
  match o.kind with
  | 0 => keysBad s o.keys []
  | 1 => keysBad s [] o.keys
  | _ => keysBad s o.keys o.keys

/-- Request `n` is given back: its instruction makes its checks, and raises what they find, anew. -/
def giveBack (s : State) (n : Nat) (o : RemoteOp) : State :=
  { s with
    remote := s.remote.del n
    harts := s.harts.upd o.hart (Hart.mapRemote (fun t => t.filter (fun w => w.2.op != n))) }

/-- REMOTE_ACCESS (R173): the request arrives and is performed, after earlier ones of its hart, and earlier replays of its
core, to the same bytes; an SC access that is no replay draws its ticket as it is performed, after earlier tickets. One
that meets an error is given back to the hart that waits for it; a posted store stays on its way (R371). -/
def execRemoteAccess (n : Nat) (s : State) : Out :=
  .next (match s.remote.find n with
    | none => s
    | some o =>
      if o.state ≠ 0 ∨ !o.carried s ∨ (!o.logged ∧ !scMay s o) ∨ s.remote.any (fun e =>
          decide (e.1 < n) && (e.2.hart == o.hart || (e.2.logged && e.2.core == o.core)) && e.2.state == 0 && e.2.meets o) then s
      else if o.meetsError s then (if o.kind = 1 then s else giveBack s n o)
      else
        let r := remoteDo s o
        drawIf { r.1 with remote := r.1.remote.put n { o with state := 1, result := r.2.1, flags := r.2.2 } }
          (if o.logged then none else o.tick))

/-- REMOTE_ACK (R201): a store's acknowledgement arrives. -/
def execRemoteAck (n : Nat) (s : State) : Out :=
  .next (match s.remote.find n with
    | none => s
    | some o => if o.kind = 1 ∧ o.state = 1 ∧ o.carried s then { s with remote := s.remote.del n } else s)

/-- REMOTE_LOAD_RETURN (R173): the value returns to the waiting hart. -/
def execRemoteLoadReturn (n : Nat) (s : State) : Out :=
  .next (match s.remote.find n with
    | none => s
    | some o =>
      if o.kind = 1 ∨ o.state ≠ 1 ∨ !o.carried s then s
      else
        let s1 : State := { s with remote := s.remote.del n }
        { s1 with harts := s1.harts.upd o.hart (Hart.mapRemote (fun t => t.map (fun e =>
            (e.1, if e.2.op = n then { e.2 with ready := some (o.result, o.flags) } else e.2)))) })

end Sys2Proof.Machine
end

