-- ==== Sys2Proof/Machine/HostEvents.lean ====
section
/-!
DEFINITION. The host, links, time, boot and power (R371, R376-R385).
-/
namespace Sys2Proof.Machine

/-- A context is resident on the module. -/
def anyResident (s : State) (p : Nat) : Bool := (span 0 16).any (fun i => (s.ctx p i).live)

/-! ## Contexts (R378) -/

/-- The fields of a slot as the host last wrote them. -/
def slotFields (c : Ctx) : Ctx :=
  let w (i : Nat) : Nat := (c.fields.get i).toNat
  { c with
    tdeleg := BitVec.ofNat 64 (w 1) &&& tdelegMask, sptb := BitVec.ofNat 64 (w 2), vhtb := BitVec.ofNat 64 (w 3)
    firstpkg := bitsOf (w 4) 11 0, groupmods := bitsOf (w 4) 16 12, ngroups := bitsOf (w 4) 25 17
    cores := BitVec.ofNat 192 (w 5 + w 6 <<< 64 + w 7 <<< 128) }

/-- The resident table of a context that becomes resident: every entry absent, or as the image at VHTB has it, where
entries of which memory lists no byte are absent. R365 says the one and R378 the other; the model leaves it open. -/
def loadVht (s : State) (p : Nat) (c : Ctx) : Cells 64 :=
  if !Config.vhtAtCreation then [] else
  let base := (bitsOf c.vhtb.toNat 41 20) <<< 20
  let k := physKey p base
  let ix := ((s.mem.filter (fun e => decide (k ≤ e.1) && decide (e.1 < k + 1048576))).map (fun e => (e.1 - k) / 8)).eraseDups
  ix.foldl (fun t i => if physOk (base + 8 * i) then Cells.set t i (BitVec.ofNat 64 (physDword s p (base + 8 * i))) else t) []

/-- EN of a slot as the host writes it. -/
def setEn (s : State) (p slot : Nat) (en : Bool) : State := s.setCtx p slot { s.ctx p slot with en := en }

/-- CONTEXT_CREATE (R378): EN = 1 written; a free slot of a module whose firmware is verified (R384) becomes a context. -/
def execContextCreate (p slot : Nat) (s : State) : Out :=
  let c := s.ctx p slot
  .next (if slot < 16 ∧ modOn s p then
      (if (s.mod p).booted ∧ !c.live then
        let c1 := slotFields c
        s.setCtx p slot { c1 with live := true, en := true, vht := loadVht s p c1 }
      else setEn s p slot true)
    else s)

/-- CONTEXT_END_BY_HOST (R372, R378): EN = 0 written; a live context ends. -/
def execContextEndByHost (p slot : Nat) (s : State) : Out :=
  .next (if slot < 16 ∧ modOn s p then fixCur (setEn (endContext s p slot) p slot false) else s)

/-! ## Time (R382) -/

/-- The time source: the lowest PKGID of a module that runs. -/
def timeSource (s : State) : Nat := ((Tab.keys s.mods).filter (modOn s)).headD 0

/-- EPOCH_WRITE (R377, R382). -/
def execEpochWrite (p v : Nat) (s : State) : Out :=
  .next (if modOn s p ∧ p = timeSource s ∧ !anyResident s p then updMod s p (fun m => { m with gtime := v % 2 ^ 64 }) else s)

/-- GTIME_SYNC (R382), 10 µs after the last: a step to the source's time, or a slew of at most 1 ns in 10 µs, never back. -/
def execGtimeSync (p : Nat) (s : State) : Out :=
  let t := (s.mod (timeSource s)).gtime
  .next (if !modOn s p ∨ p = timeSource s ∨ (s.mod p).synced < 10000 then s
    else updMod s p (fun m =>
      if !anyResident s p then { m with gtime := t, slow := 0, synced := 0 }
      else if m.gtime < t then { m with gtime := m.gtime + 1, slow := 0, synced := 0 }
      else { m with slow := if t < m.gtime then 1 else 0, synced := 0 }))

/-! ## BAR2 (R376, R377) -/

/-- The physical address of a byte of the window. -/
def windowPa (s : State) (p a : Nat) : Option Nat :=
  if 2 ^ (s.mod p).b2bits ≤ a ∨ !modOn s p then none
  else if physOk ((s.mod p).b2base + a) then some ((s.mod p).b2base + a) else none

/-- BAR2_WRITE (R377): one store of the bytes that the window shows. -/
def execBar2Write (p a : Nat) (bytes : List Byte) (s : State) : Out :=
  let l := (List.zip (span a bytes.length) bytes).filterMap (fun b => (windowPa s p b.1).map (fun pa => (physKey p pa, b.2)))
  .next (putBytes s (l.map Prod.fst) (l.map Prod.snd))

/-- The host resizes the window: a power of two from 1 GiB to 256 GiB (R376). -/
def resizeBar2 (p bits : Nat) (s : State) : State :=
  if modOn s p ∧ 30 ≤ bits ∧ bits ≤ 38 then updMod s p (fun m => { m with b2bits := bits }) else s

/-- BAR2_READ (R377): the bytes the host receives. -/
def execBar2Read (p a len : Nat) (s : State) : Out :=
  .next { s with hostRead := (span a len).filterMap (fun i => (windowPa s p i).map (fun pa => s.byteAt (physKey p pa))) }

/-! ## BAR0 (R376-R379) -/

/-- A byte key of module `p`, as a key of module `q`. -/
def renumKey (p q k : Nat) : Nat :=
  let at_ (base size : Nat) : Option Nat :=
    if base + p * size ≤ k ∧ k < base + (p + 1) * size then some (k - p * size + q * size) else none
  if k < 2 ^ 60 then (at_ 0 (2 ^ 42)).getD k
  else if k < 2 ^ 61 then (at_ (2 ^ 60) (2 ^ 31)).getD k
  else if k < 2 ^ 80 then (at_ (2 ^ 61) (2 ^ 30)).getD k
  else (at_ (2 ^ 80) (2 ^ 64)).getD k

/-- A table with its keys changed. -/
def rekey {α : Type} (f : Nat → Nat) (t : Tab α) : Tab α := t.foldl (fun u e => Tab.put u (f e.1) e.2) []

/-- Module `p` becomes module `q`, no context being resident on it. -/
def renumber (s : State) (p q : Nat) : State :=
  let f (per : Nat) (k : Nat) : Nat := if k / per = p then q * per + k % per else k
  let run (r : Nat × Nat) : Nat × Nat := (renumKey p q r.1, r.2)
  let g (k : Nat) : Nat := renumKey p q k
  { s with
    mem := rekey g s.mem
    fe := rekey (fun k => g (16 * k) / 16) s.fe
    ecc := rekey (fun k => g (8 * k) / 8) s.ecc
    regions := rekey g (s.regions.map (fun e => (e.1, { e.2 with runs := e.2.runs.map run, raw := e.2.raw.map run })))
    harts := rekey (f 2048) (s.harts.map (fun e => (e.1, { e.2.mapGranules (fun k => g (16 * k) / 16) with
      fetched := rekey g e.2.fetched
      recs := e.2.recs.map (fun r => { r with hart := f 2048 r.hart })
      serving := e.2.serving.map (fun r => { r with hart := f 2048 r.hart }) })))
    cores := rekey (f 256) s.cores
    mods := rekey (fun k => if k = p then q else k) s.mods
    ctxs := rekey (f 16) s.ctxs
    remote := s.remote.map (fun e => (e.1, { e.2 with
      hart := f 2048 e.2.hart, core := f 256 e.2.core, pkg := if e.2.pkg = p then q else e.2.pkg, keys := e.2.keys.map g
      tick := e.2.tick.map (fun t => if t = p then q else t) }))
    cur := f 2048 s.cur }

/-- A register of the identity block: PKGID and B2BASE accept writes only while no context is resident (R377). -/
def writeIdentity (s : State) (p off v : Nat) : State :=
  if anyResident s p then s
  else if off = Config.pkgidOffset then
    (let q := v % 4096
     if q = p ∨ (s.mods.find q).isSome then s else renumber s p q)
  else if off = Config.b2baseOffset then updMod s p (fun m => { m with b2base := v % 2 ^ 42 })
  else s

/-- A dword of a context slot: EN and LIVE are not among them, and reserved bits stay zero. -/
def writeSlot (s : State) (p slot i v : Nat) : State :=
  let c := s.ctx p slot
  if i = 0 ∨ 7 < i then s
  else s.setCtx p slot { c with fields := c.fields.set i (BitVec.ofNat 64 (if i = 4 then v % 2 ^ 26 else v)) }

/-- A dword of a queue's registers: HEAD is read-only and TAIL is the doorbell. -/
def writeQueue (s : State) (p q i v : Nat) : State :=
  updMod s p (fun m =>
    let r := m.queues.getD q {}
    let r1 : Queue := match i with
      | 0 => { r with base := BitVec.ofNat 64 v }
      | 1 => { r with size := v % 65536, ctx := bitsOf v 19 16, vec := bitsOf v 31 20 }
      | _ => r
    { m with queues := m.queues.put q r1 })

/-- BAR0_REGISTER_WRITE (R376-R379): eight bytes at an offset. -/
def execBar0RegisterWrite (p off v : Nat) (s : State) : Out :=
  let x := v % 2 ^ 64
  .next (
    if !modOn s p ∨ off % 8 ≠ 0 then s
    else if off < 0x10000 then writeIdentity s p off x
    else if off < 0x11000 then writeSlot s p ((off - 0x10000) / 256) ((off - 0x10000) % 256 / 8) x
    else if 0x100000 ≤ off ∧ off < 0x101000 then writeQueue s p ((off - 0x100000) / 64) ((off - 0x100000) % 64 / 8) x
    else if 0x200000 ≤ off ∧ off < 0x208000 then
      updMod s p (fun m => { m with msix := m.msix.store (off - 0x200000) 8 x })
    else s)

/-- Dword `i` of a context slot. -/
def slotDword (c : Ctx) (i : Nat) : Nat :=
  if i = 0 then (if c.en then 1 else 0) + (if c.live then 2 else 0) else if i ≤ 7 then (c.fields.get i).toNat else 0

/-- Dword `i` of a queue's registers. -/
def queueDword (r : Queue) (i : Nat) : Nat :=
  match i with
  | 0 => r.base.toNat
  | 1 => r.size + r.ctx <<< 16 + r.vec <<< 20
  | 2 => r.head
  | 3 => r.tail
  | _ => 0

/-- The eight bytes at an offset of BAR0. The blocks whose fields R376 does not place read as the implementation places
them. -/
def bar0Dword (s : State) (p off : Nat) : Nat :=
  let m := s.mod p
  if off < 0x10000 then
    (if off = Config.pkgidOffset then p else if off = Config.b2baseOffset then m.b2base
    else (Config.identityDword off m.booted m.on m.idle m.plim).toNat)
  else if off < 0x11000 then slotDword (s.ctx p ((off - 0x10000) / 256)) ((off - 0x10000) % 256 / 8)
  else if 0x20000 ≤ off ∧ off < 0x30000 then (Config.timeDword off m.gtime).toNat
  else if 0x30000 ≤ off ∧ off < 0x40000 then (Config.mailboxDword off m.mailbox m.answer m.exhausted).toNat
  else if 0x40000 ≤ off ∧ off < 0x100000 then (m.counters.get ((off - 0x40000) / 8)).toNat
  else if 0x100000 ≤ off ∧ off < 0x101000 then queueDword (m.queues.getD ((off - 0x100000) / 64) {}) ((off - 0x100000) % 64 / 8)
  else if 0x200000 ≤ off ∧ off < 0x208000 then m.msix.load (off - 0x200000) 8
  else if 0x208000 ≤ off ∧ off < 0x208100 then
    (span 0 64).foldl (fun n i => n + (m.pba.get (8 * (off - 0x208000) + i)).toNat <<< i) 0
  else 0

/-- The host reads a dword of BAR0 of a module that runs; bytes not named are zero (R376). -/
def bar0Read (p off : Nat) (s : State) : State :=
  if modOn s p ∧ off % 8 = 0 ∧ off < 2 ^ 26 then { s with hostRead := bytesOf (bar0Dword s p off) 8 } else s

/-! ## Links (R381) -/

/-- LINK_CRC_REPLAY: the link sends the flit again; a counter of the port counts it. -/
def execLinkCrcReplay (p port : Nat) (s : State) : Out :=
  .next (if modOn s p ∧ port < 16 then updMod s p (fun m => { m with replays := m.replays.set port (m.replays.get port + 1) }) else s)

/-- PORT_REMOVAL. -/
def execPortRemoval (p port : Nat) (s : State) : Out :=
  .next (if port < 16 then updMod s p (fun m => if m.ports.contains port then m else { m with ports := m.ports ++ [port] })
    else s)

/-! ## Power (R385) -/

/-- The die holds a team, engine work of its system hart, or a trap record. -/
def dieBusy (s : State) (p die : Nat) : Bool :=
  let h := s.hart (systemKey p die)
  s.cores.any (fun e => corePkg e.1 == p && dieOfCore e.1 == die && (e.2.team.isSome || !e.2.log.isEmpty)) ||
    !h.recs.isEmpty || h.serving.isSome || h.tokens.any (fun t => t.2.pending) || h.busy || h.frozenBusy

/-- DIE_IDLE_ENTRY: no work for 10 µs. -/
def execDieIdleEntry (p die : Nat) (s : State) : Out :=
  let m := s.mod p
  .next (if modOn s p ∧ die < 6 ∧ !dieBusy s p die ∧ (m.busy.get die).toNat + 10000 ≤ m.age ∧ !m.idle.contains die then
      s.setMod p { m with idle := m.idle ++ [die] }
    else s)

/-- What a doorbell, record, copy or link traffic on a module does: its idle dies start to leave idle, and are back after
2 µs. -/
def Mod.stirred (m : Mod) : Mod :=
  { m with waking := m.idle.foldl (fun w d => if w.get d = 0 then w.set d (BitVec.ofNat 64 (m.age + 2001)) else w) m.waking }

/-- A die that has been leaving idle for 2 µs is back. -/
def Mod.awake (m : Mod) (die : Nat) : Mod :=
  if m.waking.get die ≠ 0 ∧ (m.waking.get die).toNat ≤ m.age + 1 then
    { m with idle := m.idle.erase die, waking := m.waking.set die 0, busy := m.busy.set die (BitVec.ofNat 64 m.age) }
  else m

/-- DIE_IDLE_EXIT: a doorbell, record, copy or link traffic has come 2 µs ago. -/
def execDieIdleExit (p die : Nat) (s : State) : Out := .next (if modOn s p then updMod s p (fun m => m.awake die) else s)

/-- POWER_OFF: a host write to the power register. -/
def execPowerOff (p : Nat) (s : State) : Out := .next (updMod s p (fun m => { m with on := false }))

/-- POWER_TRIP: every context ends, vector 0 is sent, and the module is off. -/
def execPowerTrip (p : Nat) (s : State) : Out :=
  .next (if modOn s p then
      let s1 := (span 0 16).foldl (fun t i => endContext t p i) s
      fixCur (updMod (sendMsix s1 p 0) p (fun m => { m with on := false }))
    else s)

/-- PLIM_WRITE. -/
def execPlimWrite (p v : Nat) (s : State) : Out :=
  .next (if modOn s p then updMod s p (fun m => { m with plim := if 600 ≤ v ∧ v ≤ 2400 then v else Config.plim v }) else s)

/-! ## Errors (R371) -/

/-- An error is corrected: it is counted, and no value changes. -/
def countError (p n : Nat) (s : State) : State :=
  if modOn s p ∧ n < 98304 then updMod s p (fun m => { m with counters := m.counters.set n (m.counters.get n + 1) }) else s

/-- ENGINE_UNCORRECTABLE_ERROR: an engine of die `engine`, or its scrub, finds an error in the unit that holds byte key
`a`; the owning context ends, and a record with ENG = 1 is queued. -/
def execEngineUncorrectableError (p slot engine a : Nat) (s : State) : Out :=
  .next (if !modOn s p ∨ 5 < engine then s
    else
      let s1 := fixCur (endContext { s with ecc := s.ecc.set (a / 8) 1 } p slot)
      sendMsix (queueRec s1 (systemKey p engine)
        { hart := hartKey (p * 256 + 32 * engine) 0, cause := cUncorrectable, pc := 0, val := BitVec.ofNat 64 (a % 2 ^ 42)
          uh := false, log := false, eng := true, cls := 0, ctx := slot % 16 }) p 0)

/-! ## Boot and attestation (R384) -/

/-- The firmware stages (measurement register, bytes, public key, signature), in order, up to one that fails: the
registers and whether all were verified. The fuses hold the hash of the key. -/
def bootStages : List (Nat × List Byte × List Byte × List Byte) → List (BitVec 256) → List (BitVec 256) × Bool
  | [], m => (m, true)
  | (i, img, key, sig) :: r, m =>
    if digestOf key = Config.fuseKeyHash ∧ lmsVerifies key img sig then
      bootStages r (updAt (fun old => extendMeasure old (digestOf img)) (i % 8) m)
    else (m, false)

/-- A module as reset leaves it, its number and its spent signatures kept. -/
def freshMod (s : State) (m : Mod) : Mod :=
  let b := bootStages (Config.bootStages s.seq) [0, 0, 0, 0, 0, 0, 0, 0]
  { sigs := m.sigs, booted := b.2, measure := b.1, msgs := if b.2 then [] else [0] }

/-- MODULE_RESET (R384): the module's state is cleared and its firmware verified again. -/
def execModuleReset (p : Nat) (s : State) : Out :=
  .next (match s.mods.find p with
    | none => s
    | some m =>
      let mine (l : Launch) : Bool := l.pkg == p
      let lks := Tab.keys (s.launches.filter (fun e => mine e.2))
      fixCur { s with
        harts := (span 0 6).foldl (fun t d => Tab.put t (systemKey p d) resetSystemHart)
          (s.harts.filter (fun e => pkgOf e.1 != p))
        mem := (s.mem.clear (poolKey (p * 256) 0) (poolKey (p * 256 + 256) 0)).clear (accKey (p * 256) 0) (accKey (p * 256 + 256) 0)
        fe := s.fe.clear (poolKey (p * 256) 0 / 16) (poolKey (p * 256 + 256) 0 / 16)
        ecc := s.ecc.clear (poolKey (p * 256) 0 / 8) (poolKey (p * 256 + 256) 0 / 8)
        cores := s.cores.filter (fun e => corePkg e.1 != p)
        mods := s.mods.put p (freshMod s m)
        ctxs := s.ctxs.filter (fun e => e.1 / 16 != p)
        launches := s.launches.filter (fun e => !mine e.2)
        groups := s.groups.filter (fun e => !lks.contains e.2.launch)
        colls := s.colls.filter (fun e => !lks.contains e.2.launch)
        owed := s.owed.filter (fun o => !lks.contains o.launch)
        images := s.images.filter (fun e => e.2.pkg != p)
        remote := s.remote.filter (fun e => e.2.pkg != p && pkgOf e.2.hart != p)
        seq := s.seq + 1 })

/-- ATTESTATION_REQUEST (R384): the measurements and the nonce, signed; EXHAUSTED after 2^20 signatures. -/
def execAttestationRequest (p nonce : Nat) (s : State) : Out :=
  .next (if !modOn s p then s
    else updMod s p (fun m =>
      let n := nonce % 2 ^ 256
      if 2 ^ 20 ≤ m.sigs then { m with mailbox := some n, answer := [], exhausted := true }
      else { m with
        mailbox := some n, sigs := m.sigs + 1, exhausted := false
        answer := m.measure.flatMap digestBytes ++ bytesOf n 32 ++ Config.signature p m.sigs m.measure (bytesOf n 32) }))

/-! ## Words that are no instruction, and fetches that fail -/

/-- ILLEGAL_INSTRUCTION (R46): the convoy does not issue. -/
def execIllegalInstruction (a : Nat) (s : State) : Out := .next (raise 0x01 (BitVec.ofNat 64 a) s)

/-- INSTRUCTION_FETCH_FAULT (R21): Page, Protection, Space or Uncorrectable-data at the word that could not be fetched. -/
def execInstructionFetchFault (cause a : Nat) (s : State) : Out := .next (raise cause (BitVec.ofNat 64 a) s)

end Sys2Proof.Machine
end

