-- ==== Sys2Proof/Machine/Routing.lean ====
section
/-!
DEFINITION. Expert routing (R301-R317): XTOPK, XRTAB, XLOAD, XPFT and the steps MONARCH_COPY and PREFETCH_COPY.
-/
namespace Sys2Proof.Machine

/-! ## XTOPK (R301-R303) -/

/-- Formats XTOPK takes. -/
def scoreFmt (f : Fmt) : Bool := f == .i32 || f == .u32 || f == .f32 || f == .bf16 || f == .f16

/-- U(x) of R301. -/
def scoreKey (f : Fmt) (x : Nat) : Nat :=
  let ordered (b : Nat) : Nat := if b.testBit 31 then 2 ^ 32 - 1 - b else b + 2 ^ 31
  match f with
  | .u32 => x
  | .i32 => x ^^^ 2 ^ 31
  | .f32 => ordered x
  | _ => ordered (x <<< 16)

/-- One step of the search: bit b of the columns still open. -/
def topStep (u : Nat → Nat) (k : Nat) (p : List Nat × List Nat) (b : Nat) : List Nat × List Nat :=
  let o := p.2.filter (fun c => (u c).testBit b)
  if k ≤ p.1.length + o.length then (p.1, o) else (p.1 ++ o, p.2.filter (fun c => !(u c).testBit b))

/-- Columns by descending U, then ascending column. -/
def insertCol (u : Nat → Nat) (c : Nat) : List Nat → List Nat
  | [] => [c]
  | x :: r => if u x < u c ∨ (u x = u c ∧ c < x) then c :: x :: r else x :: insertCol u c r

/-- out[0 .. k-1] of R302. -/
def topK (u : Nat → Nat) (k n : Nat) : List Nat :=
  let p := (span 0 32).reverse.foldl (topStep u k) ([], span 0 n)
  (p.1 ++ p.2.take (k - p.1.length)).foldl (fun l c => insertCol u c l) []

/-- XTOPK (R303). -/
def execXtopk (o : OpMX) (s : State) : Out :=
  aloneOf o.x.wtk.toNat [o.d.toNat, o.d.toNat + 1] s (fun s =>
    let h := s.me
    let f := h.cf
    let k := bitsOf o.x.imm32.toNat 4 0
    let n := bitsOf o.x.imm32.toNat 15 5
    let d := o.d.toNat
    if !scoreFmt f then raise 0x03 (BitVec.ofNat 64 d) s
    else
      let w := fmtBits f
      let a := (h.reg o.a).toNat
      let r := min (h.reg o.b).toNat (256 / k)
      match (if a >>> 60 = 2 then windowOf s s.cur a (r * n * (w / 8)) else none) with
      | none => raise cSpace (h.reg o.a) s
      | some (.glob _ _) => raise cSpace (h.reg o.a) s
      | some (.pool key) =>
        if a % (w / 8) ≠ 0 then raise cAlign (h.reg o.a) s
        else match ((span 0 r).filter (selects s o.m)).findSome? (fun i =>
            (span 0 (n * (w / 8))).find? (fun j => eccHit s (key + i * n * (w / 8) + j) 1) |>.map (fun j => i * n * (w / 8) + j)) with
        | some j => raise cUncorrectable (BitVec.ofNat 64 (a + j)) s
        | none =>
          let s1 := (span 0 (r * n * (w / 8) / 1024 + 1)).foldl (fun t i => pin t (key + 1024 * i)) s
          let row (i : Nat) : Nat := s1.mem.load (key + i * n * (w / 8)) (n * (w / 8))
          let outs := ((span 0 r).filter (selects s o.m)).flatMap (fun i =>
            let x := row i
            let score (c : Nat) : Nat := (x >>> (w * c)) % 2 ^ w
            (List.zip (span 0 k) (topK (fun c => scoreKey f (score c)) k n)).map (fun p => (i * k + p.1, p.2, score p.2)))
          let cols := outs.map (fun p => (p.1, p.2.1))
          let vals := outs.map (fun p => (p.1, p.2.2))
          let zero := outs.map (fun p => (p.1, 0))
          let g := s1.me
          let g1 := (g.vset d (putElems (g.vget d) 32 cols))
          let g2 := (g1.vset (d + 1) (putElems (g1.vget (d + 1)) w vals))
          let g3 := mapPlanes g.planesInForce g2 (fun j g =>
            (g.setPlane d j (putElems (g.plane d j) 32 zero)).setPlane (d + 1) j (putElems (g.plane (d + 1) j) w zero))
          (s1.setMe ((g3.setTag d .u32).setTag (d + 1) f)).vretire 12)

/-! ## XRTAB (R307, R315) -/

/-- The Monarch copy of a staged entry is still under way (R307 step 2). -/
def stagedCopying (g : Group) : Bool :=
  g.mst == 1 && (match g.staged.find g.mx with | none => false | some r => r.dests.contains g.md)

/-- The new version in place (R307 steps 4 and 5), older ones dropped when no round needs them (R308); MST returns to 0
when it adds the proposal's copy (R309). -/
def commit (g : Group) (l : Nat) : Group :=
  let b := max l g.maxTag
  let vs := g.versions
  let old := vs.getLast?.getD { entries := [], boundary := none }
  let new : Version := { entries := g.staged.foldl (fun t e => Tab.put t e.1 e.2) old.entries, boundary := none }
  let added := match g.staged.find g.mx with | none => false | some r => r.dests.contains g.md
  dropVersions { g with
    versions := vs.dropLast ++ [{ old with boundary := some b }, new]
    staged := []
    mst := if g.mst == 2 && added then 0 else g.mst }

/-- XRTAB (R315). -/
def execXrtab (o : OpAB) (s : State) : Out :=
  scalar o.x s (fun s => withGroup o.a s (fun gk _ s =>
    match readOnce s 0 (s.me.reg o.b).toNat 32 8 8 with
    | .error t => t
    | .ok (s, x) => withGroup o.a s (fun _ g s =>
      if x.testBit 15 then
        withTurn gk (!g.open_ && !stagedCopying g && decide (g.versions.length < 4)) s (fun s =>
          (updGroup s gk (fun g => commit g (bitsOf x 31 16))).vretire (lenOf o.x))
      else
        let c := bitsOf x 10 8 + 1
        let ds := (span 0 c).map (fun j => bitsOf x (79 + 16 * j) (64 + 16 * j))
        if ds.any (fun d => decide (g.dests.length ≤ d)) then raise cSpace (s.me.reg o.b) s
        else
          (updGroup s gk (fun g => { g with staged := g.staged.put (bitsOf x 7 0) ⟨ds, bitsOf x 63 32⟩ })).vretire
            (lenOf o.x))))

/-! ## XLOAD (R316) -/

/-- XLOAD (R316). -/
def execXload (o : OpDA) (s : State) : Out :=
  scalar o.x s (fun s => postOnce s (lenOf o.x) (s.me.reg o.d).toNat (fun post =>
    withGroup o.a s (fun _ g _ => post 2064 g.shown)))

/-! ## XPFT (R317) -/

/-- The control block; a WBASE of the own module names it by its number. -/
def readPft (pkg x : Nat) : Pft :=
  let w := bitsOf x 127 64
  { pfth := bitsOf x 2 0, enrep := x.testBit 3, hi := bitsOf x 31 8, lo := bitsOf x 63 32
    wbase := BitVec.ofNat 64 (if bitsOf w 59 48 = 0xFFF then putBits w 48 12 pkg else w)
    lstride := bitsOf x 191 128, estride := bitsOf x 255 192, wlen := bitsOf x 287 256, woff := bitsOf x 319 288 }

/-- Bytes of the scratchpad part of the core of a team of a launch: of the image it is away in, of the core it is on, or,
once it has ended, as the launch gave them. -/
def scratchOf (s : State) (lk t ck : Nat) : Nat :=
  match s.images.find? (fun e => e.2.launch == lk && e.2.team == t && !e.2.loaded), s.launches.find lk with
  | some e, _ => e.2.bnd2 - e.2.bnd1
  | none, some l =>
    if (s.core ck).team = some (lk, t) then (s.core ck).bnd2 - (s.core ck).bnd1 else l.blk.bnd2 - l.blk.bnd1
  | none, none => 0

/-- The scratchpad of some destination hart's core does not reach `n` bytes. -/
def passesScratch (s : State) (g : Group) (n : Nat) : Bool :=
  g.dests.any (fun d => decide (scratchOf s g.launch (d.1 / 8) d.2 < n))

/-- The address lies in the global window, on a module that the hart reaches through it (R167, R168). -/
def inGlobal (s : State) (a : Nat) : Bool :=
  match windowOf s s.cur a 1 with | some (.glob _ _) => true | some (.pool _) => false | none => false

/-- The group claims the transition tables of its modules, cleared (R310). -/
def claimTables (s : State) (gk : Nat) (ms : List Nat) : State :=
  { s with mods := s.mods.map (fun e => (e.1,
      if ms.contains e.1 ∧ e.2.claim.isNone then { e.2 with claim := some gk, trans := [], rows := [] } else e.2)) }

/-- XPFT (R317). -/
def execXpft (o : OpAB) (s : State) : Out :=
  scalar o.x s (fun s => withGroup o.a s (fun gk g s =>
    withTurn gk (!g.open_) s (fun s =>
      let b := s.me.reg o.b
      match readBlock s 0 b.toNat 64 8 8 with
      | .error t => t
      | .ok (s, x) =>
        let c := readPft s.myPkg x
        let ms := launchModules s g.launch
        let taken := ms.any (fun p => match (s.mod p).claim with | none => false | some k => k != gk)
        if c.wlen % 16 ≠ 0 ∨ c.wlen < 16 ∨ 2097152 < c.wlen ∨ c.woff % 1024 ≠ 0 ∨ passesScratch s g (c.woff + 2 * c.wlen) ∨
            !inGlobal s (bitsOf x 127 64) then raise cSpace b s
        else if c.pfth ≠ 0 ∧ taken then raise cSpace b s
        else
          let s1 := if c.pfth = 0 then s else claimTables s gk ms
          let fresh := c.pfth ≠ 0 && ms.any (fun p => (s.mod p).claim.isNone)
          (updGroup s1 gk (fun g => { g with pft := some c, fetched := if fresh then [] else g.fetched })).vretire
            (lenOf o.x))))

/-! ## Weight copies (R309, R311, R313) -/

/-- One granule of a weight copy to the scratchpad of the hart of its destination, which becomes full; none when the
copy cannot move now. -/
def copyGranule (s : State) (g : Group) (c : WCopy) : Option (State × WCopy) :=
  match memberKey s g.launch (g.dests.getD c.dest (0, 0)).1 with
  | none => none
  | some hk =>
    let ck := coreOf hk
    let k := poolKey ck ((s.core ck).bnd1 + c.off + c.at_)
    let pkg := match s.launches.find g.launch with | none => pkgOf hk | some l => l.pkg
    let src := (span 0 16).map (fun i => deviceKey s pkg g.ctx ((c.src + c.at_ + i) % 2 ^ 64) 1 rR)
    if src.any Option.isNone ∨ keysBad s (src.filterMap id) [] ∨ !reachesAll s (corePkg ck) (src.filterMap id) then none
    else
      let v := ofBytes ((src.filterMap id).map s.byteAt)
      some (setFull (putMem s k 16 v) k 16, { c with at_ := c.at_ + 16 })

/-- MONARCH_COPY (R309): one granule; MST is 2 once every byte has been written. -/
def execMonarchCopy (pkg gk : Nat) (s : State) : Out :=
  .next (match s.groups.find gk with
    | none => s
    | some g => match g.monarch with
      | none => s
      | some c =>
        if corePkg (g.dests.getD c.dest (0, 0)).2 ≠ pkg then s
        else match copyGranule s g c with
          | none => s
          | some (t, c1) => updGroup t gk (fun g =>
              if c1.len ≤ c1.at_ then { g with mst := 2, monarch := none } else { g with monarch := some c1 }))

/-- The first prefetch copy to a core, changed or removed when it is done. -/
def advanceFirst (p : WCopy → Bool) (c1 : WCopy) : List WCopy → List WCopy
  | [] => []
  | c :: r => if p c then (if c1.len ≤ c1.at_ then r else c1 :: r) else c :: advanceFirst p c1 r

/-- PREFETCH_COPY (R311): one granule of the first prefetch copy whose destination is on a core. -/
def execPrefetchCopy (pkg gk core : Nat) (s : State) : Out :=
  .next (match s.groups.find gk with
    | none => s
    | some g =>
      let here (c : WCopy) : Bool := (g.dests.getD c.dest (0, 0)).2 == pkg * 256 + core
      match g.prefetch.find? here with
      | none => s
      | some c => match copyGranule s g c with
        | none => s
        | some (t, c1) => updGroup t gk (fun g => { g with prefetch := advanceFirst here c1 g.prefetch }))

end Sys2Proof.Machine
end

