-- ==== Sys2Proof/Machine/ScalarMem.lean ====
section
/-!
DEFINITION. The scalar loads and stores (R118, R119).
-/
namespace Sys2Proof.Machine

/-- A load of `n` bytes, extended to 64 bits. -/
def loadInto (o : OpMS) (n : Nat) (ext : Nat → W64) (s : State) : Out :=
  scalarE o.x s (fun s =>
    match scalarLoad s (dispAddr (s.me.reg o.a) o.p n) n n with
    | .error t => .error t
    | .ok (t, v) => .ok (t.wr (lenOf o.x) o.d (ext v)))

/-- A store of the low `n` bytes of a register. -/
def storeFrom (o : OpMS) (n : Nat) (s : State) : Out :=
  scalarE o.x s (fun s =>
    match scalarStore s (dispAddr (s.me.reg o.a) o.p n) n n (s.me.reg o.d).toNat with
    | .error t => .error t
    | .ok t => .ok (t.retire (lenOf o.x)))

/-- LD (R119). -/
def execLd (o : OpMS) (s : State) : Out := loadInto o 1 (sext64 8) s

/-- LDH (R119). -/
def execLdh (o : OpMS) (s : State) : Out := loadInto o 2 (sext64 16) s

/-- LDW (R119). -/
def execLdw (o : OpMS) (s : State) : Out := loadInto o 4 (sext64 32) s

/-- LDD (R119). -/
def execLdd (o : OpMS) (s : State) : Out := loadInto o 8 (zext64 64) s

/-- LDBU (R119). -/
def execLdbu (o : OpMS) (s : State) : Out := loadInto o 1 (zext64 8) s

/-- LDHU (R119). -/
def execLdhu (o : OpMS) (s : State) : Out := loadInto o 2 (zext64 16) s

/-- LDWU (R119). -/
def execLdwu (o : OpMS) (s : State) : Out := loadInto o 4 (zext64 32) s

/-- ST (R119). -/
def execSt (o : OpMS) (s : State) : Out := storeFrom o 1 s

/-- STH (R119). -/
def execSth (o : OpMS) (s : State) : Out := storeFrom o 2 s

/-- STW (R119). -/
def execStw (o : OpMS) (s : State) : Out := storeFrom o 4 s

/-- STD (R119). -/
def execStd (o : OpMS) (s : State) : Out := storeFrom o 8 s

end Sys2Proof.Machine
end

