-- ==== Sys2Proof/Machine/Dispatch.lean ====
section
/-! DEFINITION. The meaning of every instruction: one arm per constructor, each one call. -/

namespace Sys2Proof.Machine

def exec (i : Instr) (s : State) : Host.Outcome State Fault Refusal :=
  match i with
  | .add o => Sys2Proof.Machine.execAdd o s
  | .sub o => Sys2Proof.Machine.execSub o s
  | .and o => Sys2Proof.Machine.execAnd o s
  | .or o => Sys2Proof.Machine.execOr o s
  | .xor o => Sys2Proof.Machine.execXor o s
  | .andn o => Sys2Proof.Machine.execAndn o s
  | .shl o => Sys2Proof.Machine.execShl o s
  | .shr o => Sys2Proof.Machine.execShr o s
  | .sar o => Sys2Proof.Machine.execSar o s
  | .rotr o => Sys2Proof.Machine.execRotr o s
  | .min o => Sys2Proof.Machine.execMin o s
  | .max o => Sys2Proof.Machine.execMax o s
  | .minu o => Sys2Proof.Machine.execMinu o s
  | .maxu o => Sys2Proof.Machine.execMaxu o s
  | .mul o => Sys2Proof.Machine.execMul o s
  | .mulh o => Sys2Proof.Machine.execMulh o s
  | .mulhu o => Sys2Proof.Machine.execMulhu o s
  | .div o => Sys2Proof.Machine.execDiv o s
  | .divu o => Sys2Proof.Machine.execDivu o s
  | .rem o => Sys2Proof.Machine.execRem o s
  | .remu o => Sys2Proof.Machine.execRemu o s
  | .clz o => Sys2Proof.Machine.execClz o s
  | .ctz o => Sys2Proof.Machine.execCtz o s
  | .popc o => Sys2Proof.Machine.execPopc o s
  | .cmpeq o => Sys2Proof.Machine.execCmpeq o s
  | .cmpne o => Sys2Proof.Machine.execCmpne o s
  | .cmplt o => Sys2Proof.Machine.execCmplt o s
  | .cmpge o => Sys2Proof.Machine.execCmpge o s
  | .cmpltu o => Sys2Proof.Machine.execCmpltu o s
  | .cmpgeu o => Sys2Proof.Machine.execCmpgeu o s
  | .sel o => Sys2Proof.Machine.execSel o s
  | .addi o => Sys2Proof.Machine.execAddi o s
  | .andi o => Sys2Proof.Machine.execAndi o s
  | .ori o => Sys2Proof.Machine.execOri o s
  | .xori o => Sys2Proof.Machine.execXori o s
  | .shli o => Sys2Proof.Machine.execShli o s
  | .shri o => Sys2Proof.Machine.execShri o s
  | .sari o => Sys2Proof.Machine.execSari o s
  | .lit o => Sys2Proof.Machine.execLit o s
  | .fadd o => Sys2Proof.Machine.execFadd o s
  | .fsub o => Sys2Proof.Machine.execFsub o s
  | .fmul o => Sys2Proof.Machine.execFmul o s
  | .fdiv o => Sys2Proof.Machine.execFdiv o s
  | .fsqrt o => Sys2Proof.Machine.execFsqrt o s
  | .fmin o => Sys2Proof.Machine.execFmin o s
  | .fmax o => Sys2Proof.Machine.execFmax o s
  | .fcmpeq o => Sys2Proof.Machine.execFcmpeq o s
  | .fcmplt o => Sys2Proof.Machine.execFcmplt o s
  | .fcmple o => Sys2Proof.Machine.execFcmple o s
  | .fma o => Sys2Proof.Machine.execFma o s
  | .fcvti o => Sys2Proof.Machine.execFcvti o s
  | .fcvtf o => Sys2Proof.Machine.execFcvtf o s
  | .fcvtds o => Sys2Proof.Machine.execFcvtds o s
  | .fcvtsd o => Sys2Proof.Machine.execFcvtsd o s
  | .fabs o => Sys2Proof.Machine.execFabs o s
  | .fneg o => Sys2Proof.Machine.execFneg o s
  | .fclass o => Sys2Proof.Machine.execFclass o s
  | .ld o => Sys2Proof.Machine.execLd o s
  | .ldh o => Sys2Proof.Machine.execLdh o s
  | .ldw o => Sys2Proof.Machine.execLdw o s
  | .ldd o => Sys2Proof.Machine.execLdd o s
  | .ldbu o => Sys2Proof.Machine.execLdbu o s
  | .ldhu o => Sys2Proof.Machine.execLdhu o s
  | .ldwu o => Sys2Proof.Machine.execLdwu o s
  | .st o => Sys2Proof.Machine.execSt o s
  | .sth o => Sys2Proof.Machine.execSth o s
  | .stw o => Sys2Proof.Machine.execStw o s
  | .std o => Sys2Proof.Machine.execStd o s
  | .beq o => Sys2Proof.Machine.execBeq o s
  | .bne o => Sys2Proof.Machine.execBne o s
  | .blt o => Sys2Proof.Machine.execBlt o s
  | .bge o => Sys2Proof.Machine.execBge o s
  | .bltu o => Sys2Proof.Machine.execBltu o s
  | .bgeu o => Sys2Proof.Machine.execBgeu o s
  | .jmp o => Sys2Proof.Machine.execJmp o s
  | .call o => Sys2Proof.Machine.execCall o s
  | .jr o => Sys2Proof.Machine.execJr o s
  | .qpop o => Sys2Proof.Machine.execQpop o s
  | .qpeek o => Sys2Proof.Machine.execQpeek o s
  | .qcnt o => Sys2Proof.Machine.execQcnt o s
  | .csrr o => Sys2Proof.Machine.execCsrr o s
  | .csrw o => Sys2Proof.Machine.execCsrw o s
  | .csrwCf o => Sys2Proof.Machine.execCsrwCf o s
  | .csrwVlcap o => Sys2Proof.Machine.execCsrwVlcap o s
  | .csrwBnd o => Sys2Proof.Machine.execCsrwBnd o s
  | .csrwVstart o => Sys2Proof.Machine.execCsrwVstart o s
  | .csrwCtxid o => Sys2Proof.Machine.execCsrwCtxid o s
  | .tid o => Sys2Proof.Machine.execTid o s
  | .tsz o => Sys2Proof.Machine.execTsz o s
  | .tdepth o => Sys2Proof.Machine.execTdepth o s
  | .barl o => Sys2Proof.Machine.execBarl o s
  | .farmnext o => Sys2Proof.Machine.execFarmnext o s
  | .phase o => Sys2Proof.Machine.execPhase o s
  | .yield o => Sys2Proof.Machine.execYield o s
  | .exit o => Sys2Proof.Machine.execExit o s
  | .launch o => Sys2Proof.Machine.execLaunch o s
  | .lwait o => Sys2Proof.Machine.execLwait o s
  | .setvl o => Sys2Proof.Machine.execSetvl o s
  | .vadd o => Sys2Proof.Machine.execVadd o s
  | .vsub o => Sys2Proof.Machine.execVsub o s
  | .vmul o => Sys2Proof.Machine.execVmul o s
  | .vmulh o => Sys2Proof.Machine.execVmulh o s
  | .vmin o => Sys2Proof.Machine.execVmin o s
  | .vmax o => Sys2Proof.Machine.execVmax o s
  | .vand o => Sys2Proof.Machine.execVand o s
  | .vor o => Sys2Proof.Machine.execVor o s
  | .vxor o => Sys2Proof.Machine.execVxor o s
  | .vshl o => Sys2Proof.Machine.execVshl o s
  | .vshr o => Sys2Proof.Machine.execVshr o s
  | .vsar o => Sys2Proof.Machine.execVsar o s
  | .vfma o => Sys2Proof.Machine.execVfma o s
  | .vfms o => Sys2Proof.Machine.execVfms o s
  | .vfnma o => Sys2Proof.Machine.execVfnma o s
  | .vfnms o => Sys2Proof.Machine.execVfnms o s
  | .vdiv o => Sys2Proof.Machine.execVdiv o s
  | .vsqrt o => Sys2Proof.Machine.execVsqrt o s
  | .vabs o => Sys2Proof.Machine.execVabs o s
  | .vneg o => Sys2Proof.Machine.execVneg o s
  | .vclz o => Sys2Proof.Machine.execVclz o s
  | .vpopc o => Sys2Proof.Machine.execVpopc o s
  | .vrcpe o => Sys2Proof.Machine.execVrcpe o s
  | .vrsqe o => Sys2Proof.Machine.execVrsqe o s
  | .vexp2 o => Sys2Proof.Machine.execVexp2 o s
  | .vlog2 o => Sys2Proof.Machine.execVlog2 o s
  | .vfloor o => Sys2Proof.Machine.execVfloor o s
  | .vceil o => Sys2Proof.Machine.execVceil o s
  | .vrint o => Sys2Proof.Machine.execVrint o s
  | .vclass o => Sys2Proof.Machine.execVclass o s
  | .vcmpeq o => Sys2Proof.Machine.execVcmpeq o s
  | .vcmpne o => Sys2Proof.Machine.execVcmpne o s
  | .vcmplt o => Sys2Proof.Machine.execVcmplt o s
  | .vcmple o => Sys2Proof.Machine.execVcmple o s
  | .vcmpgt o => Sys2Proof.Machine.execVcmpgt o s
  | .vcmpge o => Sys2Proof.Machine.execVcmpge o s
  | .vsel o => Sys2Proof.Machine.execVsel o s
  | .mand o => Sys2Proof.Machine.execMand o s
  | .mor o => Sys2Proof.Machine.execMor o s
  | .mxor o => Sys2Proof.Machine.execMxor o s
  | .mandn o => Sys2Proof.Machine.execMandn o s
  | .mnot o => Sys2Proof.Machine.execMnot o s
  | .mset o => Sys2Proof.Machine.execMset o s
  | .mclr o => Sys2Proof.Machine.execMclr o s
  | .mmov o => Sys2Proof.Machine.execMmov o s
  | .mpop o => Sys2Proof.Machine.execMpop o s
  | .mfirst o => Sys2Proof.Machine.execMfirst o s
  | .vbcast o => Sys2Proof.Machine.execVbcast o s
  | .viota o => Sys2Proof.Machine.execViota o s
  | .vtoq o => Sys2Proof.Machine.execVtoq o s
  | .vtid o => Sys2Proof.Machine.execVtid o s
  | .vperm o => Sys2Proof.Machine.execVperm o s
  | .vslideDn o => Sys2Proof.Machine.execVslideDn o s
  | .vslideUp o => Sys2Proof.Machine.execVslideUp o s
  | .vcompr o => Sys2Proof.Machine.execVcompr o s
  | .vexpnd o => Sys2Proof.Machine.execVexpnd o s
  | .vzipLo o => Sys2Proof.Machine.execVzipLo o s
  | .vzipHi o => Sys2Proof.Machine.execVzipHi o s
  | .vunzipEv o => Sys2Proof.Machine.execVunzipEv o s
  | .vunzipOd o => Sys2Proof.Machine.execVunzipOd o s
  | .vredSum o => Sys2Proof.Machine.execVredSum o s
  | .vredMin o => Sys2Proof.Machine.execVredMin o s
  | .vredMax o => Sys2Proof.Machine.execVredMax o s
  | .vredAnd o => Sys2Proof.Machine.execVredAnd o s
  | .vredOr o => Sys2Proof.Machine.execVredOr o s
  | .vredXor o => Sys2Proof.Machine.execVredXor o s
  | .vscanSum o => Sys2Proof.Machine.execVscanSum o s
  | .vscanMin o => Sys2Proof.Machine.execVscanMin o s
  | .vscanMax o => Sys2Proof.Machine.execVscanMax o s
  | .vscanAnd o => Sys2Proof.Machine.execVscanAnd o s
  | .vscanOr o => Sys2Proof.Machine.execVscanOr o s
  | .vscanXor o => Sys2Proof.Machine.execVscanXor o s
  | .vgredSum o => Sys2Proof.Machine.execVgredSum o s
  | .vgredMin o => Sys2Proof.Machine.execVgredMin o s
  | .vgredMax o => Sys2Proof.Machine.execVgredMax o s
  | .vgredOr o => Sys2Proof.Machine.execVgredOr o s
  | .vcvt o => Sys2Proof.Machine.execVcvt o s
  | .vretag o => Sys2Proof.Machine.execVretag o s
  | .vfunr o => Sys2Proof.Machine.execVfunr o s
  | .vfunl o => Sys2Proof.Machine.execVfunl o s
  | .vext o => Sys2Proof.Machine.execVext o s
  | .vextUniform o => Sys2Proof.Machine.execVextUniform o s
  | .vextS o => Sys2Proof.Machine.execVextS o s
  | .vextSUniform o => Sys2Proof.Machine.execVextSUniform o s
  | .dual o => Sys2Proof.Machine.execDual o s
  | .tseed o => Sys2Proof.Machine.execTseed o s
  | .tget o => Sys2Proof.Machine.execTget o s
  | .tclr o => Sys2Proof.Machine.execTclr o s
  | .vld o => Sys2Proof.Machine.execVld o s
  | .vldStr o => Sys2Proof.Machine.execVldStr o s
  | .vld2d o => Sys2Proof.Machine.execVld2d o s
  | .vst o => Sys2Proof.Machine.execVst o s
  | .vstStr o => Sys2Proof.Machine.execVstStr o s
  | .vst2d o => Sys2Proof.Machine.execVst2d o s
  | .vldo o => Sys2Proof.Machine.execVldo o s
  | .vldoStr o => Sys2Proof.Machine.execVldoStr o s
  | .vldo2d o => Sys2Proof.Machine.execVldo2d o s
  | .vsto o => Sys2Proof.Machine.execVsto o s
  | .vstoStr o => Sys2Proof.Machine.execVstoStr o s
  | .vsto2d o => Sys2Proof.Machine.execVsto2d o s
  | .vldsc o => Sys2Proof.Machine.execVldsc o s
  | .vldscStr o => Sys2Proof.Machine.execVldscStr o s
  | .vldsc2d o => Sys2Proof.Machine.execVldsc2d o s
  | .vstsc o => Sys2Proof.Machine.execVstsc o s
  | .vstscStr o => Sys2Proof.Machine.execVstscStr o s
  | .vstsc2d o => Sys2Proof.Machine.execVstsc2d o s
  | .vstb o => Sys2Proof.Machine.execVstb o s
  | .sideLogReplay core => Sys2Proof.Machine.execSideLogReplay core s
  | .ldfe o => Sys2Proof.Machine.execLdfe o s
  | .ldfeClr o => Sys2Proof.Machine.execLdfeClr o s
  | .stfe o => Sys2Proof.Machine.execStfe o s
  | .vldfe o => Sys2Proof.Machine.execVldfe o s
  | .vldfeClr o => Sys2Proof.Machine.execVldfeClr o s
  | .spctest o => Sys2Proof.Machine.execSpctest o s
  | .spccastTo o => Sys2Proof.Machine.execSpccastTo o s
  | .spccastFrom o => Sys2Proof.Machine.execSpccastFrom o s
  | .prefL1 o => Sys2Proof.Machine.execPrefL1 o s
  | .prefL2 o => Sys2Proof.Machine.execPrefL2 o s
  | .clwb o => Sys2Proof.Machine.execClwb o s
  | .clinv o => Sys2Proof.Machine.execClinv o s
  | .atomAdd o => Sys2Proof.Machine.execAtomAdd o s
  | .atomAnd o => Sys2Proof.Machine.execAtomAnd o s
  | .atomOr o => Sys2Proof.Machine.execAtomOr o s
  | .atomXor o => Sys2Proof.Machine.execAtomXor o s
  | .atomMin o => Sys2Proof.Machine.execAtomMin o s
  | .atomMax o => Sys2Proof.Machine.execAtomMax o s
  | .atomMinu o => Sys2Proof.Machine.execAtomMinu o s
  | .atomMaxu o => Sys2Proof.Machine.execAtomMaxu o s
  | .atomSwap o => Sys2Proof.Machine.execAtomSwap o s
  | .atomFaddd o => Sys2Proof.Machine.execAtomFaddd o s
  | .atomFadds o => Sys2Proof.Machine.execAtomFadds o s
  | .cas o => Sys2Proof.Machine.execCas o s
  | .fenceAcq o => Sys2Proof.Machine.execFenceAcq o s
  | .fenceRel o => Sys2Proof.Machine.execFenceRel o s
  | .fenceAcqrel o => Sys2Proof.Machine.execFenceAcqrel o s
  | .fenceSc o => Sys2Proof.Machine.execFenceSc o s
  | .boinit o => Sys2Proof.Machine.execBoinit o s
  | .boarrive o => Sys2Proof.Machine.execBoarrive o s
  | .bowait o => Sys2Proof.Machine.execBowait o s
  | .botest o => Sys2Proof.Machine.execBotest o s
  | .tkwait o => Sys2Proof.Machine.execTkwait o s
  | .lnset o => Sys2Proof.Machine.execLnset o s
  | .cpy o => Sys2Proof.Machine.execCpy o s
  | .cpyrLoad o => Sys2Proof.Machine.execCpyrLoad o s
  | .cpyrStore o => Sys2Proof.Machine.execCpyrStore o s
  | .cpyx o => Sys2Proof.Machine.execCpyx o s
  | .copyComplete hart token => Sys2Proof.Machine.execCopyComplete hart token s
  | .copyFail hart token j => Sys2Proof.Machine.execCopyFail hart token j s
  | .matt o => Sys2Proof.Machine.execMatt o s
  | .mdet o => Sys2Proof.Machine.execMdet o s
  | .mcfg o => Sys2Proof.Machine.execMcfg o s
  | .mlds o => Sys2Proof.Machine.execMlds o s
  | .mswap o => Sys2Proof.Machine.execMswap o s
  | .mstrm o => Sys2Proof.Machine.execMstrm o s
  | .matrixStep quad => Sys2Proof.Machine.execMatrixStep quad s
  | .matrixClassAging quad hart => Sys2Proof.Machine.execMatrixClassAging quad hart s
  | .macz o => Sys2Proof.Machine.execMacz o s
  | .macst o => Sys2Proof.Machine.execMacst o s
  | .macld o => Sys2Proof.Machine.execMacld o s
  | .xrun o => Sys2Proof.Machine.execXrun o s
  | .xmrg o => Sys2Proof.Machine.execXmrg o s
  | .xsend o => Sys2Proof.Machine.execXsend o s
  | .xrecv o => Sys2Proof.Machine.execXrecv o s
  | .switchEmit pkg group dest => Sys2Proof.Machine.execSwitchEmit pkg group dest s
  | .recordDelivery pkg group dest => Sys2Proof.Machine.execRecordDelivery pkg group dest s
  | .xopen o => Sys2Proof.Machine.execXopen o s
  | .xclose o => Sys2Proof.Machine.execXclose o s
  | .monarchCopy pkg group => Sys2Proof.Machine.execMonarchCopy pkg group s
  | .prefetchCopy pkg group core => Sys2Proof.Machine.execPrefetchCopy pkg group core s
  | .xsplt o => Sys2Proof.Machine.execXsplt o s
  | .xcomb o => Sys2Proof.Machine.execXcomb o s
  | .xsamp o => Sys2Proof.Machine.execXsamp o s
  | .xround o => Sys2Proof.Machine.execXround o s
  | .xcapset o => Sys2Proof.Machine.execXcapset o s
  | .xtopk o => Sys2Proof.Machine.execXtopk o s
  | .xrtab o => Sys2Proof.Machine.execXrtab o s
  | .xload o => Sys2Proof.Machine.execXload o s
  | .xpft o => Sys2Proof.Machine.execXpft o s
  | .collReduce o => Sys2Proof.Machine.execCollReduce o s
  | .collAllred o => Sys2Proof.Machine.execCollAllred o s
  | .collGather o => Sys2Proof.Machine.execCollGather o s
  | .collScatter o => Sys2Proof.Machine.execCollScatter o s
  | .collBcast o => Sys2Proof.Machine.execCollBcast o s
  | .stagingReservation inst => Sys2Proof.Machine.execStagingReservation inst s
  | .collectiveComplete inst rank => Sys2Proof.Machine.execCollectiveComplete inst rank s
  | .grpset o => Sys2Proof.Machine.execGrpset o s
  | .cwait o => Sys2Proof.Machine.execCwait o s
  | .cld o => Sys2Proof.Machine.execCld o s
  | .cst o => Sys2Proof.Machine.execCst o s
  | .cscan o => Sys2Proof.Machine.execCscan o s
  | .cdense o => Sys2Proof.Machine.execCdense o s
  | .crinit o => Sys2Proof.Machine.execCrinit o s
  | .gth o => Sys2Proof.Machine.execGth o s
  | .sct o => Sys2Proof.Machine.execSct o s
  | .sctadd o => Sys2Proof.Machine.execSctadd o s
  | .hazelComplete hart token => Sys2Proof.Machine.execHazelComplete hart token s
  | .vstc o => Sys2Proof.Machine.execVstc o s
  | .syscall o => Sys2Proof.Machine.execSyscall o s
  | .brk o => Sys2Proof.Machine.execBrk o s
  | .uret o => Sys2Proof.Machine.execUret o s
  | .eret o => Sys2Proof.Machine.execEret o s
  | .halt o => Sys2Proof.Machine.execHalt o s
  | .wfi o => Sys2Proof.Machine.execWfi o s
  | .tlbinv o => Sys2Proof.Machine.execTlbinv o s
  | .vhtinv o => Sys2Proof.Machine.execVhtinv o s
  | .ctxsave o => Sys2Proof.Machine.execCtxsave o s
  | .ctxload o => Sys2Proof.Machine.execCtxload o s
  | .sldrain o => Sys2Proof.Machine.execSldrain o s
  | .launchQueueDoorbell pkg queue tail => Sys2Proof.Machine.execLaunchQueueDoorbell pkg queue tail s
  | .teamPlacement launch cores => Sys2Proof.Machine.execTeamPlacement launch cores s
  | .deadlineExpiry launch => Sys2Proof.Machine.execDeadlineExpiry launch s
  | .preemptionTimeout launch => Sys2Proof.Machine.execPreemptionTimeout launch s
  | .teamSwapOut core => Sys2Proof.Machine.execTeamSwapOut core s
  | .teamResume image core => Sys2Proof.Machine.execTeamResume image core s
  | .remoteAccess op => Sys2Proof.Machine.execRemoteAccess op s
  | .remoteAck op => Sys2Proof.Machine.execRemoteAck op s
  | .engineUncorrectableError pkg ctx engine addr => Sys2Proof.Machine.execEngineUncorrectableError pkg ctx engine addr s
  | .moduleReset pkg => Sys2Proof.Machine.execModuleReset pkg s
  | .attestationRequest pkg nonce => Sys2Proof.Machine.execAttestationRequest pkg nonce s
  | .contextCreate pkg slot => Sys2Proof.Machine.execContextCreate pkg slot s
  | .contextEndByHost pkg slot => Sys2Proof.Machine.execContextEndByHost pkg slot s
  | .epochWrite pkg value => Sys2Proof.Machine.execEpochWrite pkg value s
  | .bar0RegisterWrite pkg offset value => Sys2Proof.Machine.execBar0RegisterWrite pkg offset value s
  | .bar2Write pkg addr bytes => Sys2Proof.Machine.execBar2Write pkg addr bytes s
  | .bar2Read pkg addr len => Sys2Proof.Machine.execBar2Read pkg addr len s
  | .gtimeSync pkg => Sys2Proof.Machine.execGtimeSync pkg s
  | .linkCrcReplay pkg port => Sys2Proof.Machine.execLinkCrcReplay pkg port s
  | .portRemoval pkg port => Sys2Proof.Machine.execPortRemoval pkg port s
  | .dieIdleEntry pkg die => Sys2Proof.Machine.execDieIdleEntry pkg die s
  | .dieIdleExit pkg die => Sys2Proof.Machine.execDieIdleExit pkg die s
  | .powerOff pkg => Sys2Proof.Machine.execPowerOff pkg s
  | .powerTrip pkg => Sys2Proof.Machine.execPowerTrip pkg s
  | .plimWrite pkg value => Sys2Proof.Machine.execPlimWrite pkg value s
  | .illegalInstruction addr => Sys2Proof.Machine.execIllegalInstruction addr s
  | .instructionFetchFault cause addr => Sys2Proof.Machine.execInstructionFetchFault cause addr s
  | .remoteLoadReturn op => Sys2Proof.Machine.execRemoteLoadReturn op s
  | .copyPerformed hart token j => Sys2Proof.Machine.execCopyPerformed hart token j s
  | .laneClusterRetirement core clusters => Sys2Proof.Machine.execLaneClusterRetirement core clusters s

end Sys2Proof.Machine
end

