-- ==== Sys2Proof/Machine/Staged.lean ====
section
/-!
DEFINITION. Convoys of several members whose memory members take turns (R109, R128, R183): where one of them waits, the
members before it are through with all of their elements, and those after it have begun none. The element at which the
convoy is to stop, for a trap or for a unit that is pending, is found by a look ahead over all of its members (R129).
-/
namespace Sys2Proof.Machine

/-! ## Memory members -/

/-- Whether a vector memory instruction with an addressing mode stores, and its operands. -/
def vmemOf (i : Instr) : Option (Bool × VMemOp) :=
  match i with
  | .vld o | .vldo o | .vldsc o => some (false, opM o .unit)
  | .vldStr o | .vldoStr o | .vldscStr o => some (false, opM o .strided)
  | .vld2d o | .vldo2d o | .vldsc2d o => some (false, opMX o)
  | .vst o | .vsto o | .vstsc o => some (true, opM o .unit)
  | .vstStr o | .vstoStr o | .vstscStr o => some (true, opM o .strided)
  | .vst2d o | .vsto2d o | .vstsc2d o => some (true, opMX o)
  | _ => none

/-- VLDFE in both forms. -/
def isFeMember (i : Instr) : Bool := match i with | .vldfe _ | .vldfeClr _ => true | _ => false

def isStoreMember (i : Instr) : Bool := match i with | .vstb _ => true | i => (vmemOf i).any Prod.fst
def isLoadMember (i : Instr) : Bool := isFeMember i || (vmemOf i).any (fun p => !p.1)
def isMemMember (i : Instr) : Bool := isStoreMember i || isLoadMember i

/-- Members whose accesses have an order among them: an SC member, or a store and another memory member (R109, R183). -/
def takesTurns (is : List Instr) : Bool :=
  decide (1 < is.length) && (is.any isScMember || (is.any isStoreMember && decide (1 < (is.filter isMemMember).length)))

/-! ## The look ahead -/

/-- The checks of element `e` of a load, and its value as far as it can be known. -/
def lookLoad (a : VAccess) (e : Nat) (s : State) : State :=
  match placesOf s false a.w a.al (planeAddrs s a.addr) with
  | .error t => stopWith (.atElem e t.1 t.2) s
  | .ok ps =>
    if ps.any (fun p => p.2.isPending) then stopWith (.waitAt e wUnit none) s
    else
      let t := s.setMe (ps.foldl (fun h p =>
        h.setPlane a.reg p.1 (putUnits a.f (h.plane a.reg p.1) [(e, loadedValue s e p.1 p.2)])) s.me)
      if ps.any (fun p => p.2.foreign s) then { t with cv := t.cv.map (fun c => { c with blind := true }) } else t

/-- The checks of element `e` of a store. -/
def lookStore (a : VAccess) (_data : Nat → Nat) (e : Nat) (s : State) : State :=
  match placesOf s true a.w a.al (planeAddrs s a.addr) with
  | .error t => stopWith (.atElem e t.1 t.2) s
  | .ok _ => s

/-- VLDFE's checks and its full-empty wait. -/
def lookFe (o : VMemOp) (clr : Bool) : Member := wholeMember (fun g s =>
  let f := fdOf o.x s.me
  let all := (range s.me.csr.vstart s.me.csr.vl).filter (pickedBy g f o.m)
  match feTrap s o f all with
  | some t => stopWith (.atElem s.me.csr.vstart t.1 t.2) s
  | none =>
    let ks := all.flatMap (elemKeys s o f)
    let gs := all.flatMap (elemGranules s o f)
    if !feReady (ks.foldl pin s) gs clr then stopWith (.wait ks { granules := gs, clr := clr }) s
    else
      let t := overElems (fun e s => lookLoad (vaccess o f s.me false false e) e s) (memElems g o f s) s
      match stopOf t with
      | some _ => t
      | none => t.setMe (t.me.setTag o.d.toNat f))

/-- A member of the look ahead: its checks without its accesses; `run` for one that makes none. -/
def looked (run : Member) (i : Instr) : Member :=
  match vmemOf i with
  | some (store, o) => if store then storeBy lookStore o false false else loadBy lookLoad o false false
  | none => match i with
    | .vstb o => bytesBy lookStore o
    | .vldfe o => lookFe (opM o .unit) false
    | .vldfeClr o => lookFe ⟨.unit, o.d, o.a, o.b, o.m, some o.x⟩ true
    | _ => run

/-- The registers a member writes, as `Convoy.made` lists them. -/
def madeBy (i : Instr) : List Nat := (uses i).w ++ (uses i).pw.map (· % 64) ++ (uses i).mw.map (64 + ·)

/-- The look ahead at a member after members `before`. What comes from another module, from a group that is still to come, or
from bytes that a member before may store, it does not know; a memory member whose mask may rest on that is taken to
have no active element. -/
def lookMember (run : Instr → Member) (before : List Instr) (i : Instr) : Member := fun s =>
  let c := s.cv.getD {}
  let lost := c.blind || (regsOf i).any (fun r => !c.made.contains r && s.me.lacks r 0 1024)
  let t :=
    if lost && isMemMember i && (uses i).mr.any (fun m => c.made.contains (64 + m)) then
      (match vmemOf i with
        | some (false, o) => s.setMe (s.me.setTag o.d.toNat (fdOf o.x s.me))
        | _ => s)
    else looked (run i) i s
  { t with cv := t.cv.map (fun d => { d with
      made := c.made ++ madeBy i, blind := lost || d.blind || (isLoadMember i && before.any isStoreMember) }) }

/-- The look ahead at every member. -/
def lookMembers (run : Instr → Member) : List Instr → List Instr → List Member
  | _, [] => []
  | before, i :: r => lookMember run before i :: lookMembers run (before ++ [i]) r

/-! ## Member by member -/

/-- The convoy waits at element `e` of the member at work, `c` the progress of the convoy before that member's last move. -/
def parkAt (p : Part) (c : Convoy) (e kind : Nat) (req : Option (Nat × RemoteOp)) (t : State) : State :=
  let d := t.cv.getD {}
  let t0 := stopAt e t
  let t1 := t0.setMe { t0.me with
    wait := none, part := some { p with idx := c.idx, made := c.made, cmasks := d.cmasks, pushes := d.pushes } }
  match req with
  | none => t1.hold kind
  | some (k, op) => ask t1 k op

/-- The members that are left, one after another; VSTART counts within the member at work. -/
def stagedFrom (len : Nat) (p : Part) : List (Member × Instr) → State → State
  | [], s =>
    let c := s.cv.getD {}
    match p.lim with
    | none => if hasRoom s.me c.pushes then completeConvoy len s else parkAt p c s.me.csr.vstart wQueue none s
    | some l => let t := stopAt l s; (t.setMe { t.me with wait := none, part := none }).hold wStore
  | (f, i) :: r, s =>
    let c := s.cv.getD {}
    let v := s.me.csr.vstart
    let u := unitsHere s i
    let short := decide (u < p.lim.getD s.me.csr.vl ∧ u < s.me.csr.vl)
    if waitsWhole s [i] || (short && decide (u ≤ v)) then parkAt p c v wStore none s
    else
      let t := f { s with cv := some { c with lim := if short then some u else p.lim, stop := none, seen := [], why := none } }
      match stopOf t with
      | none =>
        let d := t.cv.getD {}
        if short then parkAt p c u wStore none t
        else
          stagedFrom len p r (({ t with cv := some { d with idx := c.idx + 1 } } : State).setMe
            { t.me with csr := { t.me.csr with vstart := p.base } })
      | some (.whole x v) => raise x v (stopAt p.base t)
      | some (.atElem e x v) => raise x v (stopAt e t)
      | some (.wait ks w) => parkAt p c v wFull none (let t := ks.foldl pin t; t.setMe { t.me with await := some w })
      | some (.waitAt e k req) => parkAt p c e k req t

/-- A convoy begins member by member: `look` finds whether, and where, it is to stop. -/
def stagedBegin (len : Nat) (ms : List (Member × Instr)) (look : List Member) (whole : List Bool) (s : State) : State :=
  let v := s.me.csr.vstart
  let go (lim : Option Nat) : State :=
    stagedFrom len ⟨0, v, lim, [], [], []⟩ ms { s with cv := some {} }
  let stop (l : Nat) (st : Stop) : State := if l ≤ v then finishConvoy len s (s, some st) else go (some l)
  match (settle look whole s (2 * ms.length) none [] none).2 with
  | none => go none
  | some (.atElem l c x) => stop l (.atElem l c x)
  | some (.waitAt l k r) => stop l (.waitAt l k r)
  | some st => finishConvoy len s (s, some st)

/-- The convoy goes on where it waits. -/
def stagedOn (len : Nat) (ms : List (Member × Instr)) (p : Part) (s : State) : State :=
  stagedFrom len p (ms.drop p.idx)
    { s with cv := some { idx := p.idx, made := p.made, cmasks := p.cmasks, pushes := p.pushes } }

/-- A stop at which a memory member waits its turn or for another module. -/
def Stop.parks (st : Option Stop) : Bool :=
  match st with
  | some (.waitAt _ k _) => [wRemote, wOrder, wStore, wLog].contains k
  | _ => false

/-- The convoy has to go member by member: a memory member would wait while others are not through, or a member that begins
late has groups still to come (R183, R226). -/
def stagedDue (fs : List Member) (whole : List Bool) (is : List Instr) (s : State) : Bool :=
  if regsHere s is then takesTurns is && Stop.parks (settle fs whole s (2 * fs.length) none [] none).2
  else takesTurns is || whole.any id

/-- A convoy of several members: tokens, then its members as one unit, or one after another. Which convoys go member by
member is log 169. -/
def runMembers (fs look : List Member) (whole : List Bool) (is : List Instr) (len wtk : Nat) (s : State) : State :=
  match gate wtk s with
  | .error t => t
  | .ok u => match u.me.part with
    | some p => stagedOn len (List.zip fs is) p u
    | none =>
      if stagedDue fs whole is u then stagedBegin len (List.zip fs is) look whole u
      else runConvoy fs whole is len wtk s

end Sys2Proof.Machine
end

