-- ==== Sys2Proof/Machine/Run.lean ====
section
/-!
DEFINITION. How the system moves: fetching and decoding a convoy (R20-R25, R46, R47), what a hart does at a convoy
boundary (R94, R132), and the order of harts, events and time that `State.agenda` gives.
-/
namespace Sys2Proof.Machine

/-! ## Fetch (R21, R22) -/

/-- The byte key of the instruction word at a generic pointer (R22, R364, R361), or the trap of the fetch. -/
def fetchKey (s : State) (a : Nat) : Except Trap Nat :=
  let m := bitsOf a 59 48
  let p := s.myPkg
  let va := bitsOf a 41 0
  if a >>> 60 ≠ 0 ∨ (m ≠ 0xFFF ∧ m ≠ p) ∨ bitsOf a 47 42 ≠ 0 then .error (cSpace, BitVec.ofNat 64 a)
  else if s.me.system then
    (if physOk va then .ok (physKey p va) else .error (cProtection, BitVec.ofNat 64 a))
  else match scalarPa s p s.me.ctx va rX with
    | .error c => .error (c, BitVec.ofNat 64 a)
    | .ok pa => .ok (physKey p pa)

/-- The word at `a` of the convoy under way, or of a control-stream instruction that the hart's vector stream has passed. -/
def Hart.heldWord (h : Hart) (a : Nat) : Option W32 :=
  match h.under.find a with
  | some w => some w
  | none => match h.ahead with | none => none | some x => x.words.find a

/-- One instruction word: that of the convoy under way, which is fetched once; else the one the hart's fetch keeps, else the
one that stands in memory (R21, R48). -/
def fetchWord (s : State) (a : Nat) : Except Trap W32 :=
  match s.me.heldWord a with
  | some w => .ok w
  | none => match fetchKey s a with
  | .error t => .error t
  | .ok k =>
    match s.me.fetched.find k with
    | some e => .ok e.1
    | none => if eccHit s k 4 then .error (cUncorrectable, BitVec.ofNat 64 a) else .ok (BitVec.ofNat 32 (loadMem s k 4))

/-- The fetch of a hart keeps the word at key `key` as it is now. -/
def keepWord (k key : Nat) (s : State) : State :=
  match s.harts.find k with
  | none => s
  | some h =>
    if key % 4 ≠ 0 ∨ 2 ^ 60 ≤ key ∨ eccHit s key 4 then s
    else s.setHart k { h with fetched := h.fetched.put key (BitVec.ofNat 32 (loadMem s key 4), false) }

/-- The fetch of a hart gives up the word it keeps at key `key`. -/
def dropWord (k key : Nat) (s : State) : State :=
  match s.harts.find k with
  | none => s
  | some h => s.setHart k { h with fetched := h.fetched.del key }

/-- `n` words at ascending addresses. -/
def fetchWords (s : State) (a : Nat) : Nat → Except Trap (List W32)
  | 0 => .ok []
  | n + 1 =>
    match fetchWord s a with
    | .error t => .error t
    | .ok w => match fetchWords s ((a + 4) % 2 ^ 64) n with
      | .error t => .error t
      | .ok ws => .ok (w :: ws)

/-- The words of the instruction whose word 0 stands at `a` (R20). -/
def fetchInstr (s : State) (a : Nat) : Except Trap (List W32) :=
  match fetchWord s a with
  | .error t => .error t
  | .ok w => fetchWords s a (wordsOf (w.toNat / 2 ^ 30))

/-! ## Decode of a convoy (R23, R25, R46, R47) -/

/-- A member of a convoy as decode found it. -/
structure Found where
  instr : Instr
  addr  : Nat
  words : Nat
  deriving DecidableEq, Repr

/-- The largest plane number word 0 names (R235). -/
def namedPlane (i : Instr) : Nat :=
  match i with
  | .dual o => o.n.toNat
  | .tseed o => o.k.toNat
  | .tget o => o.k.toNat
  | .tclr o => o.k.toNat
  | _ => 0

/-- A CSR number the map does not assign (R49). -/
def badCsr (i : Instr) : Bool :=
  match i with
  | .csrr o => !csrAssigned o.i.toNat
  | .csrw o => !csrAssigned o.i.toNat
  | _ => false

/-- DUAL at `a` before another DUAL or a control-stream instruction (R25). -/
def badPrefix (s : State) (i : Instr) (a : Nat) : Bool :=
  i.isDual && (match fetchWord s ((a + 4) % 2 ^ 64) with
    | .error _ => false
    | .ok w => barsDual w.toNat)

/-- Illegal-instruction or Privilege of a decoded member at `a`, in the order of R47. -/
def memberTrap (s : State) (i : Instr) (a : Nat) : Option Nat :=
  if illegalPlane s (namedPlane i) ∨ badCsr i ∨ badPrefix s i a then some 0x01
  else if isPriv i && !s.me.system then some 0x15
  else none

/-- The members of the convoy at `a`, `n` more at most; `first` for its first member, `seen` what earlier members read.
A trap is its cause and value. -/
noncomputable def findConvoy (s : State) : Nat → Nat → Bool → List Nat → Except Trap (List Found)
  | 0, a, _, _ => .error (0x02, BitVec.ofNat 64 a)
  | n + 1, a, first, seen =>
    match fetchInstr s a with
    | .error t => .error t
    | .ok ws =>
      match decode ws with
      | .bad _ => .error (0x01, BitVec.ofNat 64 a)
      | .ok d =>
        match memberTrap s d.instr a with
        | some c => .error (c, BitVec.ofNat 64 a)
        | none =>
          let u := uses d.instr
          let k := s.me.planesInForce
          if (!chainable d.instr && (d.chain || !first)) ∨ (d.chain ∧ n = 0) ∨ (writeSet k u).any (fun r => seen.contains r) then
            .error (0x02, BitVec.ofNat 64 a)
          else if d.chain then
            match findConvoy s n ((a + 4 * d.len) % 2 ^ 64) false (seen ++ readSet k u) with
            | .error t => .error t
            | .ok fs => .ok (⟨d.instr, a, d.len⟩ :: fs)
          else .ok [⟨d.instr, a, d.len⟩]

/-- A member's meaning inside its convoy; what it writes is noted for the members after it. -/
def memberOf (i : Instr) : Member := fun s =>
  match exec i s with
  | .next t => { t with cv := t.cv.map (fun c => { c with made := c.made ++ madeBy i }) }
  | .fault _ => s
  | .refused _ => s

/-- A member that begins only when every earlier one is through, and has an element left to do: the whole-vector members
but a VRED with nothing to write (R152, R159), and the SC members (R183). -/
def beginsLate (s : State) (i : Instr) : Bool :=
  (isWhole i && !(isRed i && (s.me.csr.vstart != 0 || s.me.csr.vl == 0))) || isScMember i

/-- As `beginsLate` for the members of a convoy, with one more when VLDFE is among them: its granules are one set, so that
it has an effect only when no member stops (R186). -/
def lateMembers (s : State) (is : List Instr) : List Bool :=
  is.map (beginsLate s) ++ (if is.any isFeMember then [true] else [])

/-- The convoy executes: one instruction by its own meaning, several as one unit (R128). -/
def runFound (fs : List Found) (s : State) : Out :=
  match fs with
  | [] => .next s
  | [f] => exec f.instr s
  | fs =>
    let is := fs.map Found.instr
    .next (runMembers (is.map memberOf) (lookMembers memberOf [] is) (lateMembers s is) is
      (4 * (fs.map Found.words).foldl (· + ·) 0) ((is.map instrWtk).foldl (· ||| ·) 0) s)

/-- The causes of a fetch (R21). -/
def isFetchCause (c : Nat) : Bool := [0x05, 0x07, 0x08, 0x12].contains c

/-- A trap found before the convoy issues; nothing of it has any effect (R21, R23, R46). -/
def decodeTrap (t : Trap) (s : State) : Out :=
  if t.1 = 0x01 then execIllegalInstruction t.2.toNat s
  else if isFetchCause t.1 then execInstructionFetchFault t.1 t.2.toNat s
  else .next (raise t.1 t.2 s)

/-- Where the words of a member stand; after a DUAL the word that follows it too, which its decode has looked at (R25). -/
def Found.spots (f : Found) : List Nat :=
  (span 0 (if f.instr.isDual then 2 else f.words)).map (fun j => (f.addr + 4 * j) % 2 ^ 64)

/-- The words of the convoy are fetched: until it is through, it is what they say (R21, R48). -/
def underway (fs : List Found) (s : State) : State :=
  s.setMe { s.me with under := (fs.flatMap Found.spots).foldl (fun t a =>
    match fetchWord s a with | .ok w => Tab.put t a w | .error _ => t) s.me.under }

/-- The convoy at the hart's pc. -/
noncomputable def runPc (s : State) : Out :=
  match findConvoy s 4 s.me.pc.toNat true [] with
  | .error t => decodeTrap t s
  | .ok fs => runFound fs (underway fs s)

/-! ## A hart at a convoy boundary -/

/-- Between two convoys: no wait is under way, no DUAL has been passed, and no later convoy has gone ahead. -/
def Hart.between (h : Hart) : Bool := h.wait.isNone && h.dual.isNone && h.ahead.isNone

/-- The hart's convoy has not dispatched: it waits for nothing, or for its tokens (R24). -/
def Hart.undispatched (h : Hart) : Bool := match h.wait with | none => true | some w => w.kind == wToken

/-- The deadline the hart still has to raise (R94). -/
def dueDeadline (s : State) : Option W64 :=
  let h := s.me
  if h.system || h.dlRaised || !h.between then none
  else match s.launchOf h with
    | none => none
    | some l =>
      if l.blk.dlfault && l.blk.deadline != 0 && decide (l.blk.deadline < (s.mod s.myPkg).gtime)
      then some (BitVec.ofNat 64 l.blk.deadline) else none

/-- VL cut to what the core's VLCAP, and each value it has had since the hart last stood here, allows (R132). -/
def Hart.vlCut (h : Hart) (vlcap : Nat) : Hart :=
  { h.cut (min vlcap h.vcap) with vcap := 128 }

/-- What a hart is at its turn: past a YIELD it has made (R102), and, before its next convoy dispatches, with VL cut (R132)
and VLCAP captured (R50). -/
def atTurn (s : State) : State :=
  let h := s.me
  let cap := (s.core s.myCore).vlcap
  let g := if h.undispatched && h.ahead.isNone then { h.vlCut cap with cap := cap } else h
  s.setMe { g with yielded := false }

/-- The hart can execute: its module is on and booted, its die is not idle, no record of it waits or is in service, and its
team does not wait for rows (R261, R356, R384, R385). -/
def canIssue (s : State) : Bool :=
  modOn s s.myPkg && (s.mod s.myPkg).booted && !(s.mod s.myPkg).idle.contains (dieOf s.cur) && s.me.stat == .running &&
    !(s.core s.myCore).rowsDue

/-! ## The vector stream past an empty queue (R14, R106, R107) -/

/-- The registers that a control-stream instruction writes, when it resolves no branch, makes no check that can raise a trap,
and orders nothing: the vector stream may go past it while it has not executed (R106). -/
def passedOver (i : Instr) : Option (List (BitVec 5)) :=
  if instrWtk i ≠ 0 then none
  else match i with
  | .add o | .sub o | .and o | .or o | .xor o | .andn o | .shl o | .shr o | .sar o | .rotr o | .min o | .max o | .minu o
  | .maxu o | .mul o | .mulh o | .mulhu o | .div o | .divu o | .rem o | .remu o | .cmpeq o | .cmpne o | .cmplt o | .cmpge o
  | .cmpltu o | .cmpgeu o => some [o.d]
  | .clz o | .ctz o | .popc o | .fcvtds o | .fcvtsd o | .spctest o => some [o.d]
  | .sel o => some [o.d]
  | .addi o | .andi o | .ori o | .xori o => some [o.d]
  | .shli o | .shri o | .sari o => some [o.d]
  | .lit o => some [o.d]
  | .fadd o | .fsub o | .fmul o | .fdiv o | .fmin o | .fmax o | .fcmpeq o | .fcmplt o | .fcmple o => some [o.d]
  | .fsqrt o | .fcvti o | .fcvtf o | .fabs o | .fneg o | .fclass o => some [o.d]
  | .fma o => some [o.d]
  | .qpop o | .qpeek o | .qcnt o => some [o.d]
  | .tdepth o => some [o.d]
  | .prefL1 _ | .prefL2 _ => some []
  | .csrr o => if [0x003, 0x005, 0x010, 0x011, 0x030].contains o.i.toNat then none else some [o.d]
  | .csrw o => if [0x020, 0x022, 0x050, 0x051, 0x052, 0x053].contains o.i.toNat then some [] else none
  | _ => none

/-- A member of the vector stream whose effect may come before its retirement: one that empties granules as it reads is
performed as it retires (R107). -/
def goesAhead (w : Nat) (i : Instr) : Bool :=
  (isVectorWord w || i.isDual) && (match i with | .vldfeClr _ => false | _ => true)

/-- The scalar registers that a vector-stream instruction captures when it dispatches (R14). -/
def captures (i : Instr) : List (BitVec 5) :=
  let m (o : OpM) : List (BitVec 5) := [o.a, o.b]
  let mx (o : OpMX) : List (BitVec 5) := [o.a, o.b]
  let r (o : OpR) : List (BitVec 5) := [o.d, o.a, o.b]
  match i with
  | .vbcast o => if o.form.literal.isSome then [] else [o.b]
  | .viota o => [o.b]
  | .vtoq o => [o.b]
  | .vslideDn o => [o.b]
  | .vslideUp o => [o.b]
  | .vld o | .vldStr o | .vst o | .vstStr o | .vldo o | .vldoStr o | .vsto o | .vstoStr o | .vldsc o | .vldscStr o
  | .vstsc o | .vstscStr o | .vstb o | .vldfe o | .vstc o => m o
  | .vld2d o | .vst2d o | .vldo2d o | .vsto2d o | .vldsc2d o | .vstsc2d o | .vldfeClr o | .xtopk o => mx o
  | .lnset o => o.a :: o.b :: (match o.x with | none => [] | some x => [scOf x])
  | .cpy o => [o.a, o.b, scOf o.x]
  | .cpyrLoad o | .cpyrStore o => [o.a, o.b]
  | .cpyx o => [o.b]
  | .matt o | .mlds o | .xopen o | .xsplt o | .xcomb o | .xcapset o | .xrtab o | .xpft o | .cdense o => [o.a, o.b]
  | .macz o => [o.d, o.b]
  | .mstrm o | .macst o | .macld o | .xrecv o => r o
  | .xrun o | .xmrg o | .xsamp o | .xload o => [o.d, o.a]
  | .xsend o => [o.a]
  | .grpset o => [o.a]
  | .cld o | .cst o | .cscan o | .gth o | .sct o | .sctadd o => [o.a, o.b]
  | _ => []

/-- The QPOP or QPEEK at the hart's pc: its bytes and sd. -/
noncomputable def queueRead (s : State) : Option (Nat × BitVec 5) :=
  match findConvoy s 4 s.me.pc.toNat true [] with
  | .ok [⟨.qpop o, _, _⟩] => some (lenOf o.x, o.d)
  | .ok [⟨.qpeek o, _, _⟩] => some (lenOf o.x, o.d)
  | _ => none

/-- Where the vector stream of the executing hart stands while its control stream waits at an empty queue: where its last
move left it, else past the queue read. -/
noncomputable def aheadOf (s : State) : Option Ahead :=
  let h := s.me
  match h.wait, queueRead s with
  | some w, some (n, sd) =>
    if w.kind ≠ wQueue then none
    else match h.ahead with
      | some a => some a
      | none => some ⟨(h.done n).side, [], h.under, [(h.pc, sd)]⟩
  | _, _ => none

/-- The hart as its vector stream sees it: where that stands, with the pushes that it has made and not retired. -/
def Hart.streamed (a : Ahead) (h : Hart) : Hart :=
  { (h.withSide a.side).pushed (a.past.flatMap Past.pushes) with ahead := none }

/-- Entries that queues of `t` hold beyond those of `g`. -/
def pushesSince (g t : Hart) : List (Nat × W64) :=
  (span 0 4).flatMap (fun q => ((t.queue q).drop (g.queue q).length).map (fun v => (q, v)))

/-- The hart `h` after a move of its vector stream from `g` to `t`, which writes no scalar register. A convoy that is through has
still to retire, and to make its pushes (R107). -/
def Hart.joined (h : Hart) (a : Ahead) (g t : Hart) : Hart :=
  { t.withSide h.side with
    regs := h.regs, queues := h.queues
    ahead := some { a with
      side := t.side
      past := if t.restart = g.restart then a.past else a.past ++ [⟨g.restart, t.pc, pushesSince g t⟩] } }

/-- The move of a hart raised nothing, and its vector stream stands at the convoy of `n` bytes or past it. -/
def wentOn (n : Nat) (g t : Hart) : Bool :=
  t.stat == .running && t.inUser == g.inUser && t.sys == g.sys && (t.pc == g.pc || t.pc == g.pc + BitVec.ofNat 64 n)

/-- Bytes of a convoy. -/
def foundLen (fs : List Found) : Nat := 4 * (fs.map Found.words).foldl (· + ·) 0

/-- The vector stream of hart `k` goes on by one convoy, or past one control-stream instruction: its effect on memory is
performed, and nothing of it retires. It dispatches no convoy that captures a register which an instruction it has passed
has still to write, and takes no trap (R14, R106). -/
noncomputable def runAhead (k : Nat) (s : State) : State :=
  let u : State := { s with cur := k }
  match s.harts.find k, aheadOf u with
  | some h, some a =>
    let v := atTurn (u.setMe (h.streamed a))
    match findConvoy v 4 v.me.pc.toNat true [] with
    | .error _ => s
    | .ok fs =>
      let w := underway fs v
      if !canIssue u then s
      else match fs.map (fun f => passedOver f.instr) with
      | [some ds] =>
        s.setHart k { h with ahead := some { a with
          side := { a.side with pc := a.side.pc + BitVec.ofNat 64 (foundLen fs) }
          words := w.me.under.foldl (fun t e => Tab.put t e.1 e.2) a.words
          stale := a.stale ++ ds.map (fun d => (a.side.pc, d)) } }
      | _ =>
        if fs.all (fun f => goesAhead ((w.me.under.getD f.addr 0).toNat) f.instr &&
            !(captures f.instr).any (fun r => r != 0 && a.stale.any (fun p => p.2 == r))) then
          match runFound fs w with
          | .next t => if wentOn (foundLen fs) w.me t.me then { t with harts := t.harts.put k (h.joined a w.me t.me), cur := s.cur } else s
          | _ => s
        else s
  | _, _ => s

/-! ## The turn of a hart -/

/-- A control-stream instruction at `pc` that the vector stream had passed has retired: what it writes is written. -/
def Hart.caught (pc : W64) (h : Hart) : Hart :=
  if h.pc = pc then h
  else { h with ahead := h.ahead.map (fun a => { a with stale := a.stale.filter (fun p => p.1 != pc) }) }

/-- The hart moves on while its vector stream is ahead of it. -/
noncomputable def passing (s : State) : Out :=
  match runPc s with
  | .next t => .next { t with harts := t.harts.upd s.cur (Hart.caught s.me.pc) }
  | r => r

/-- Where its vector stream stands, with nothing of it still to retire, the two streams of a hart are one again. -/
def Hart.rejoined (h : Hart) : Hart :=
  match h.ahead with
  | some ⟨d, [], _, _⟩ =>
    let g : Hart := { h.withSide d with ahead := none }
    if g.restart = h.pc then g else h
  | _ => h

def rejoin (s : State) : State := match s.me.ahead with | none => s | some _ => s.setMe s.me.rejoined

/-- The convoy at the hart's pc; one that has gone ahead and is through retires, with its pushes, in its place in program
order (R107). -/
noncomputable def runNext (s : State) : Out :=
  let h := s.me
  match h.ahead with
  | none => runPc s
  | some a => match a.past.head? with
    | some p =>
      if p.pc = h.pc then
        .next (s.setMe { h.pushed p.pushes with
          pc := p.next, wait := none, under := [], ahead := some { a with past := a.past.tail } })
      else passing s
    | none => passing s

/-- The executing hart moves on by one convoy, or waits. -/
noncomputable def runHart (s : State) : Out :=
  let s := regrant s s.myCore
  if canIssue s then
    let s := rejoin s
    match dueDeadline s with
    | some d => .next (raise 0x11 d (s.setMe { s.me with dlRaised := true }))
    | none => runNext (atTurn s)
  else .next s

/-- The hart in `cur`. When it has ended, the system hart of its die is next. -/
noncomputable def runCur (s : State) : Out :=
  match s.harts.find s.cur with
  | some _ => runHart s
  | none => if isSystemKey s.cur then .fault .noHart else .next { s with cur := servantOf s.cur }

/-! ## The agenda -/

/-- Device and host steps of the opcode table that happen on their own. Words that decode to nothing and failed fetches
happen where a hart fetches. -/
def isEvent (i : Instr) : Bool :=
  match i with
  | .illegalInstruction _ => false
  | .instructionFetchFault _ _ => false
  | _ => !i.isWord

/-- GTIME of a module moves on, less what it still has to lose (R382), and dies that leave idle are back (R385). -/
def Mod.tick (m : Mod) (ns : Nat) : Mod :=
  if m.on then (span 0 6).foldl Mod.awake
    { m with gtime := (m.gtime + (ns - m.slow)) % 2 ^ 64, slow := m.slow - ns, synced := m.synced + ns, age := m.age + ns }
  else m

/-- Dies with work have work now (R385). -/
def markBusy (s : State) (p : Nat) : State :=
  updMod s p (fun m => { m with busy := (span 0 6).foldl (fun b d =>
    if dieBusy s p d then Cells.set b d (BitVec.ofNat 64 m.age) else b) m.busy })

/-- The queues of a module take what they have room for (R379). -/
def drainQueues (s : State) (p : Nat) : State :=
  if modOn s p then (Tab.keys (s.mod p).queues).foldl (fun s q => drainQueue p q ((s.mod p).queues.getD q {}).size s) s else s

/-- `ns` nanoseconds pass. -/
def passTime (ns : Nat) (s : State) : State :=
  let s1 : State := { s with mods := s.mods.map (fun e => (e.1, e.2.tick ns)) }
  let ps := Tab.keys s1.mods
  ps.foldl drainQueues (ps.foldl markBusy s1)

/-- The modules whose memory holds bytes at these keys. -/
def pkgsOf (ks : List Nat) : List Nat := ((ks.filter (fun k => decide (k < 2 ^ 60))).map (· / 2 ^ 42)).eraseDups

/-- The modules that copy `j` of a token of a hart reads or writes. -/
def copyPkgs (s : State) (hk k j : Nat) : List Nat :=
  match (s.hart hk).token k with
  | { work := some w, .. } => (match copyCheck s hk w j with | .error _ => [] | .ok p => pkgsOf (p.1 ++ p.2))
  | _ => []

/-- The modules that the next tile of a gather or scatter reads or writes. -/
def gatherPkgs (s : State) (hk k : Nat) : List Nat :=
  let t := (s.hart hk).token k
  match t.work with
  | some (.gather fn x) => (match gatherOf s hk fn x t with
    | .error _ => []
    | .ok g =>
      let ps := range (256 * t.done.length) (min g.idx.length (256 * (t.done.length + 1)))
      pkgsOf (g.keys ++ ps.flatMap (g.reads fn) ++ ps.flatMap (g.writes fn)))
  | _ => []

/-- The modules that chunks of a member's result leave or reach. -/
def chunkPkgs (s : State) (ck rank : Nat) : List Nat :=
  match s.colls.find ck with
  | none => []
  | some c => match c.members.find? (fun m => m.rank == rank && !m.written) with
    | none => []
    | some m => (collRoutes s c m).flatMap (fun r => if r.1 = r.2 then [] else [r.1, r.2])

/-- The modules that senders of a group's rounds opened their streams on. -/
def senderPkgs (s : State) (gk : Nat) : List Nat :=
  match s.groups.find gk with
  | none => []
  | some g => (g.rounds.flatMap (fun r => r.streams.map (fun t => t.2.pkg))).eraseDups

/-- The modules on which an event is a doorbell, record, copy or link traffic, or brings a die a team (R385). -/
def trafficAt (s : State) (i : Instr) : List Nat :=
  let link (n : Nat) : List Nat := match s.remote.find n with | none => [] | some o => [corePkg o.core, o.pkg]
  let weights (c : WCopy) : List Nat := let m := bitsOf c.src 59 48; if m = 0xFFF then [] else [m]
  match i with
  | .launchQueueDoorbell p _ _ => [p]
  | .teamPlacement _ cores => cores.map corePkg
  | .teamResume _ core => [corePkg core]
  | .switchEmit p gk _ => p :: senderPkgs s gk
  | .recordDelivery p _ _ => [p]
  | .monarchCopy p gk => p :: (match s.groups.find gk with
    | none => [] | some g => (match g.monarch with | none => [] | some c => weights c))
  | .prefetchCopy p gk _ => p :: (match s.groups.find gk with | none => [] | some g => g.prefetch.flatMap weights)
  | .engineUncorrectableError p _ _ _ => [p]
  | .copyPerformed hk k j => pkgOf hk :: copyPkgs s hk k j
  | .hazelComplete hk k => gatherPkgs s hk k
  | .collectiveComplete ck rank => chunkPkgs s ck rank
  | .remoteAccess n => link n
  | .remoteAck n => link n
  | .remoteLoadReturn n => link n
  | _ => []

/-- The modules of the members of a collective: where they are, and from the reservation of its staging where that is. -/
def collPkgs (s : State) (ck : Nat) : List Nat :=
  match s.colls.find ck with
  | none => []
  | some c => c.members.map (fun m => if c.state = 2 then m.pkg else memberPkg s m.launch m.mid)

/-- The modules whose units bring an event about; those that test it themselves are not listed (R385). -/
def unitsAt (s : State) (i : Instr) : List Nat :=
  match i with
  | .sideLogReplay c => [corePkg c]
  | .copyPerformed hk _ _ => [pkgOf hk]
  | .copyFail hk _ _ => [pkgOf hk]
  | .copyComplete hk _ => [pkgOf hk]
  | .hazelComplete hk _ => [pkgOf hk]
  | .matrixStep quad => [quad / 64]
  | .matrixClassAging quad _ => [quad / 64]
  | .switchEmit p _ _ => [p]
  | .recordDelivery p _ _ => [p]
  | .monarchCopy p _ => [p]
  | .prefetchCopy p _ _ => [p]
  | .stagingReservation ck => collPkgs s ck
  | .collectiveComplete ck _ => collPkgs s ck
  | .teamPlacement lk cores => (match s.launches.find lk with | none => [] | some l => [l.pkg]) ++ cores.map corePkg
  | .deadlineExpiry lk => (match s.launches.find lk with | none => [] | some l => [l.pkg])
  | .preemptionTimeout lk => (match s.launches.find lk with | none => [] | some l => [l.pkg])
  | .teamSwapOut c => [corePkg c]
  | .teamResume _ c => [corePkg c]
  | .laneClusterRetirement c _ => [corePkg c]
  | _ => []

/-- An event happens, unless a unit that brings it about is on a module that is off, where nothing runs (R385); idle dies
that its traffic reaches start to leave idle. -/
def happen (i : Instr) (s : State) : Out :=
  if !(unitsAt s i).all (modOn s) then .next s
  else match exec i s with
  | .next t => .next ((trafficAt s i).foldl (fun t p => updMod t p Mod.stirred) t)
  | r => r

/-- One move of the system: the first of the agenda, or the hart that executes. -/
noncomputable def move (s : State) : Out :=
  match s.agenda with
  | [] => runCur s
  | .hart k :: r => match s.harts.find k with
    | none => .next { s with agenda := r }
    | some _ => runHart { s with agenda := r, cur := k }
  | .event i :: r => if isEvent i then happen i { s with agenda := r } else .next { s with agenda := r }
  | .time ns :: r => .next (passTime ns { s with agenda := r })
  | .bar0Read p off :: r => .next (bar0Read p off { s with agenda := r })
  | .resizeBar2 p bits :: r => .next (resizeBar2 p bits { s with agenda := r })
  | .corrected p n :: r => .next (countError p n { s with agenda := r })
  | .keepWord k key :: r => .next (keepWord k key { s with agenda := r })
  | .dropWord k key :: r => .next (dropWord k key { s with agenda := r })
  | .keepPage p slot page :: r => .next (keepPage p slot page { s with agenda := r })
  | .ahead k :: r => .next (runAhead k { s with agenda := r })
  | .dropPage p slot page :: r => .next (dropPages p slot (· == page) { s with agenda := r })

/-- The instruction `w` of `nbits` bits placed where `move` fetches next: 16 bytes at the pc. -/
def placeWord (s : State) (nbits w : Nat) : State :=
  let t : State := { s with agenda := [] }
  match fetchKey t t.me.pc.toNat with
  | .error _ => t
  | .ok k =>
    { t with
      mem := t.mem.store k 16 (w % 2 ^ nbits)
      harts := t.harts.upd t.cur (fun h => { h with
        fetched := [k, k + 4, k + 8, k + 12].foldl Tab.del h.fetched, under := [], ahead := none }) }

end Sys2Proof.Machine
end

