-- ==== Sys2Proof/Machine/Step.lean ====
section
/-! DEFINITION. One step of the system, and an instruction placed where the next step fetches. -/

namespace Sys2Proof.Machine

/-- One step: a hart executes one convoy (or its DUAL prefix) or waits, an event happens, or time passes. -/
noncomputable def step (s : State) : Host.Outcome State Fault Refusal := move s

/-- The instruction of `nbits` bits `w`, zeros above it, in the 16 bytes where the executing hart fetches next. -/
def State.withFetchWord (s : State) (nbits w : Nat) : State := placeWord s nbits w

end Sys2Proof.Machine
end

