-- ==== Sys2Proof/Safety.lean ====
section
/-!
DEFINITION. What a safe run keeps, and the words in which claims about instructions are stated: memory in its canonical
form, tokens that let an instruction go on, a scalar result, a vector result, and what else may change.
-/
namespace Sys2Proof.Machine

/-! ## Memory -/

/-- Memory is canonical: addresses strictly rise and no listed byte is zero, which is what an unlisted one reads as. -/
def Memory.wf (m : Cells 8) : Bool := Cells.wf m

/-- The tables of bytes, full-empty bits and errors are canonical. -/
def State.memOk (s : State) : Bool := Memory.wf s.mem && Cells.wf s.fe && Cells.wf s.ecc

/-- Nothing that a read of memory can show differs: bytes, regions, full-empty bits, errors. -/
def State.sameMemory (s t : State) : Prop :=
  t.mem = s.mem ∧ t.fe = s.fe ∧ t.ecc = s.ecc ∧ t.regions = s.regions

/-- Only the executing hart changes. -/
def State.onlyMine (s t : State) : Prop :=
  t = { s with harts := t.harts } ∧ ∀ k, k ≠ s.cur → t.harts.find k = s.harts.find k

/-! ## Tokens (R24, R215) -/

/-- No token of the mask is pending, failed, or owes a trap. -/
def State.ready (s : State) (wtk : Nat) : Prop :=
  ∀ k, k < 8 → wtk.testBit k = true →
    (s.me.token k).pending = false ∧ (s.me.token k).failed = false ∧ (s.me.token k).owed = none

/-- The state after a wait on the tokens of a mask that none of them stops: the flags they bring are raised, once. -/
def State.waited (s : State) (wtk : Nat) : State :=
  match gate wtk s with | .error t => t | .ok t => t

/-! ## Scalar results -/

/-- The instruction answers the state in which register `d` holds `v` and the next instruction follows it. -/
def Writes (i : Instr) (d : BitVec 5) (v : State → W64) : Prop :=
  ∀ s : State, s.ready (instrWtk i) → exec i s = .next ((s.waited (instrWtk i)).wr (instrLen i) d (v s))

/-- As `Writes`, with flags that the instruction raises. -/
def WritesF (i : Instr) (d : BitVec 5) (v : State → Nat × Flags) : Prop :=
  ∀ s : State, s.ready (instrWtk i) → exec i s = .next ((s.waited (instrWtk i)).wrF (instrLen i) d (v s))

/-- The instruction answers `k` of the state its tokens leave. -/
def Answers (i : Instr) (s : State) (k : State → State) : Prop :=
  s.ready (instrWtk i) → exec i s = .next (k (s.waited (instrWtk i)))

/-- Every token of the hart is complete, owes nothing and brings no flags. -/
def State.quiet (s : State) : Prop := s.ready 255 ∧ ∀ k, k < 8 → (s.me.token k).flags = 0

/-! ## Scalar accesses (R119) -/

/-- The address of a scalar access of `n` bytes: sa + disp9 × n, modulo 2^64. -/
def scalarAddr (s : State) (o : OpMS) (n : Nat) : Nat :=
  (s.me.reg o.a + o.p.signExtend 64 * BitVec.ofNat 64 n).toNat

/-- The hart asks another module for the `n` bytes at a place and leaves `h` behind: one uncached request, load (0) or
store (1) of `v`, under the number `s.seq` (R173); nothing else changes. -/
def Requests (s u : State) (kind : Nat) (l : Loc) (n v : Nat) (h : Hart) : Prop :=
  ∃ o : RemoteOp, u = { s with harts := u.harts, remote := s.remote.put s.seq o, seq := s.seq + 1 } ∧
    (∀ k, k ≠ s.cur → u.harts.find k = s.harts.find k) ∧ u.me = h ∧
    o.hart = s.cur ∧ o.core = s.myCore ∧ o.slot = s.me.ctx ∧ o.kind = kind ∧ o.state = 0 ∧ o.born = s.seq ∧
    o.keys = span l.key n ∧ o.val = v % 2 ^ (8 * n) ∧ (∃ va, l.glob = some (o.pkg, va) ∧ o.vas = span va n)

/-- A load of `n` bytes that passes its checks: on its own module sd is the little-endian value, extended; on another the
hart asks for it and waits, and goes on with the value that comes back (R173). -/
def LoadsFrom (i : Instr) (o : OpMS) (n : Nat) (ext : BitVec (8 * n) → W64) : Prop :=
  ∀ s : State, s.ready (instrWtk i) →
    let w := s.waited (instrWtk i)
    (∀ l : Loc, s.me.remote.find 0 = none → scalarLoc w s.cur (scalarAddr s o n) n n rR = .ok l → eccHit s l.key n = false →
      (l.foreign s.myPkg = false →
        let t := pin w l.key
        ∃ x : BitVec (8 * n), (∀ j, j < n → x.extractLsb' (8 * j) 8 = readByte t s.myCore s.me.ctx l j) ∧
          exec i s = .next (t.wr (instrLen i) o.d (ext x))) ∧
      (l.foreign s.myPkg = true → ∃ u, exec i s = .next u ∧ Requests w u 0 l n 0
        { w.me with remote := w.me.remote.put 0 ⟨s.seq, none⟩, wait := some { s.me.wait.getD ⟨0, 0, 0⟩ with kind := wRemote } })) ∧
    (∀ q : RemoteWait, s.me.remote.find 0 = some q →
      (q.ready = none → exec i s = .next (w.hold wRemote)) ∧
      (∀ v f, q.ready = some (v, f) → exec i s = .next (w.wr (instrLen i) o.d (ext (BitVec.ofNat (8 * n) v)))))

/-- A store of the low `n` bytes of a register that passes its checks: on its own module those bytes, and every byte after
it; on another it goes out and the instruction retires (R173, R201). -/
def StoresTo (i : Instr) (o : OpMS) (n : Nat) : Prop :=
  ∀ (s : State) (l : Loc), s.ready (instrWtk i) →
    scalarLoc (s.waited (instrWtk i)) s.cur (scalarAddr s o n) n n rW = .ok l →
    eccStoreHit s l.key n = false → ownLogCovers s s.cur l n = false → matrixReads s.me l.key n = false →
    let w := s.waited (instrWtk i)
    let t := pin w l.key
    ∃ u : State, exec i s = .next u ∧
      (l.foreign s.myPkg = false →
        (∀ j, j < n → u.byteAt (l.key + j) = (s.me.reg o.d).extractLsb' (8 * j) 8) ∧
        (∀ q, (q < l.key ∨ l.key + n ≤ q) → u.byteAt q = t.byteAt q) ∧
        u.me = t.me.done (instrLen i) ∧ u.fe = t.fe ∧ (∀ k, k ≠ s.cur → u.harts.find k = s.harts.find k) ∧
        u = { t with harts := u.harts, mem := u.mem, regions := u.regions, ecc := u.ecc }) ∧
      (l.foreign s.myPkg = true → Requests w u 1 l n (s.me.reg o.d).toNat (w.me.done (instrLen i)))

/-- Where a scalar access fails: the cause and the value of the trap it raises, with nothing changed but the trap. `bad`
is the last check, of the data at a place the others passed. -/
def FailsAt (i : Instr) (o : OpMS) (n need : Nat) (bad : State → Nat → Nat → Bool) : Prop :=
  ∀ s : State, s.ready (instrWtk i) → s.me.remote.find 0 = none →
    let w := s.waited (instrWtk i)
    (∀ (c : Nat) (v : W64), scalarLoc w s.cur (scalarAddr s o n) n n need = .error (c, v) →
      exec i s = .next (raise c v w)) ∧
    (∀ l : Loc, scalarLoc w s.cur (scalarAddr s o n) n n need = .ok l → bad s l.key n = true →
      exec i s = .next (raise 0x12 (BitVec.ofNat 64 (scalarAddr s o n)) w))

/-! ## Vector results (R27, R67, R69, R72, R131, R136, R237) -/

/-- No token and no interlock holds the instruction, which is a convoy of its own (R226, R328). -/
def State.goes (s : State) (i : Instr) : Prop :=
  s.cv = none ∧ s.ready (instrWtk i) ∧ regsHere (s.waited (instrWtk i)) [i] = true

/-- The state in which the member of such a convoy begins. -/
def State.opened (s : State) (i : Instr) : State := { s.waited (instrWtk i) with cv := some {} }

/-- Unit `e` (an element, or a block group of GX) is active: at or above VSTART, below VL, selected by the mask. -/
def State.activeUnit (s : State) (f : Fmt) (m : BitVec 4) (e : Nat) : Bool :=
  decide (s.me.csr.vstart ≤ e ∧ e < s.me.csr.vl) &&
    (m == 15 || maskBit (s.me.mask m.toNat) (if isGx f then gxLanes f * e else e))

/-- The unit is within what the format holds in the lanes that the convoy's VLCAP gives (R65, R132, R136). -/
def State.within (s : State) (f : Fmt) (e : Nat) : Bool := decide (e < maxVl f s.me.cap)

/-- The bits a unit of a register keeps of a result; a group carries its format's header (R64). -/
def unitStored (f : Fmt) (x : Nat) : Nat :=
  if isGx f then putBits x 16 48 (fmtCode f) % 2 ^ gxBits f else x % 2 ^ fmtBits f

/-- What unit of a register worked on in format `f` keeps where the write leaves tag `t`: a group only where `t` is its
format, else the plain bits (R64, R138). -/
def unitLeft (f t : Fmt) (x : Nat) : Nat :=
  if t = f then unitStored f x else x % 2 ^ (if isGx f then gxBits f else fmtBits f)

/-- From hart h to hart h', a vector instruction of `len` bytes has written the units `on` of register `d`, in format
`f`, and those of its planes in force; the register's tag is `t`, flags are raised, VSTART is 0, and all else stays. -/
def VecResult (len : Nat) (h h' : Hart) (d : Nat) (f t : Fmt) (on : Nat → Bool) (res : Nat → Nat × Flags)
    (tan : Nat → Nat → Nat) : Prop :=
  (∀ e, held f e = true → rawUnit f (h'.vget d) e = if on e then unitLeft f t (res e).1 else rawUnit f (h.vget d) e) ∧
  (∀ k e, 1 ≤ k → k ≤ h.planesInForce → held f e = true →
    rawUnit f (h'.plane d k) e = if on e then unitLeft f t (tan k e) else rawUnit f (h.plane d k) e) ∧
  (∀ k, h.planesInForce < k → h'.plane d k = h.plane d k) ∧
  (∀ b, h'.csr.fflags.getLsbD b =
    (h.csr.fflags.getLsbD b || (List.range h.csr.vl).any (fun e => on e && (res e).2.getLsbD b))) ∧
  h'.tag d = t ∧
  (∀ r k, r < 64 → r ≠ d → h'.tag r = h.tag r ∧ h'.plane r k = h.plane r k) ∧
  h' = { h.unchained with
    v := h'.v, tags := h'.tags, planes := h'.planes, csr := { h.csr with fflags := h'.csr.fflags, vstart := 0 }
    pc := h.pc + BitVec.ofNat 64 len, wait := none, await := none, dual := none, remote := []
    under := [], part := none }

/-- The instruction answers a state in which only the executing hart differs, by a vector result. -/
def VecSets (i : Instr) (s : State) (d : BitVec 6) (f t : Fmt) (on : Nat → Bool) (res : Nat → Nat × Flags)
    (tan : Nat → Nat → Nat) : Prop :=
  ∃ u, exec i s = .next u ∧ s.onlyMine u ∧
    VecResult (instrLen i) (s.waited (instrWtk i)).me u.me d.toNat f t on res tan

/-- An element instruction over sources `rs` (R70-R72, R131, R136, R237): Format-mismatch where its formats do not fit,
else each active element of `d` holds `res`, plane k's `tan`, with the flags of the result and of the sources' conversion. -/
def VecWritesAt (s : State) (i : Instr) (env : State → VEnv) (kd : Kind) (rs : List Nat) (d : BitVec 6) (m : BitVec 4)
    (t : VEnv → Fmt) (res : VEnv → Nat → Nat × Flags) (tan : VEnv → Nat → Nat → Nat → Nat) : Prop :=
  s.goes i →
    let v := env (s.waited (instrWtk i))
    match formatTrap kd v.fa v.fd v.h (rs.headD d.toNat) rs with
    | some r => exec i s = .next (raise 0x03 (BitVec.ofNat 64 r) (s.waited (instrWtk i)))
    | none => VecSets i s d v.fd (t v) (fun e => s.activeUnit v.fd m e && s.within v.fd e)
        (fun e => ((res v e).1, (res v e).2 ||| sourceFlags v.h v.fa rs e)) (fun k e => tan v k e (res v e).1)

/-- The same in every state. -/
def VecWrites (i : Instr) (env : State → VEnv) (kd : Kind) (rs : List Nat) (d : BitVec 6) (m : BitVec 4) (t : VEnv → Fmt)
    (res : VEnv → Nat → Nat × Flags) (tan : VEnv → Nat → Nat → Nat → Nat) : Prop :=
  ∀ s : State, VecWritesAt s i env kd rs d m t res tan

/-- Unit `j` of plane `k` of register `r` as an instruction of CF reads it, or the zero unit (R152-R158). -/
def State.taken (s : State) (h : Hart) (k : Nat) (p : Option (Nat × Nat)) : Nat × Flags :=
  match p with
  | none => (0, 0)
  | some (r, j) => if s.within s.me.cf j then unitAt h s.me.cf r k j else (0, 0)

/-- An element mover over sources `rs`: unit e of vd is the unit of a source that `origin e` names, its planes that unit's,
but +0 for integers (R237, R239). -/
def Moves (i : Instr) (s : State) (d : BitVec 6) (rs : List Nat) (on : Nat → Bool) (origin : Nat → Option (Nat × Nat)) : Prop :=
  s.goes i →
    let h := (s.waited (instrWtk i)).me
    badSource .any s.me.cf h rs = none →
    VecSets i s d s.me.cf s.me.cf on (fun e => s.taken h 0 (origin e))
      (fun k e => if isInt s.me.cf then 0 else (s.taken h k (origin e)).1)

/-- The positions below VL that the mask selects (R157). -/
def State.chosen (s : State) (f : Fmt) (m : BitVec 4) : List Nat :=
  (List.range s.me.csr.vl).filter (fun e => m == 15 || maskBit (s.me.mask m.toNat) (if isGx f then gxLanes f * e else e))

/-- The hart after a vector-stream instruction of its own convoy that changes it by `f`: VSTART is 0 (R72, R107). -/
def State.vdone (s : State) (i : Instr) (f : Hart → Hart) : State :=
  let t := s.waited (instrWtk i)
  let h := f t.me
  t.setMe ({ h.unchained with csr := { h.csr with vstart := 0 } }.done (instrLen i))

/-- The instruction answers the state in which only the executing hart differs, by `f`. -/
def VecAnswers (i : Instr) (s : State) (f : Hart → Hart) : Prop := s.goes i → exec i s = .next (s.vdone i f)

/-! ## Instructions that do not chain (R128), and tokens (R222) -/

/-- A vector-stream instruction that is a convoy of its own answers `k` of the state its tokens leave, when no transfer
into the registers `rs` holds it (R226, R328). -/
def AloneAnswers (i : Instr) (rs : List Nat) (s : State) (k : State → State) : Prop :=
  s.ready (instrWtk i) → interlocked (s.waited (instrWtk i)) 1024 rs = false → exec i s = .next (k (s.waited (instrWtk i)))

/-- Token `k`, complete, takes the work `w` when nothing of its registers holds it (`held`): it is pending, its deadline
captured, and the instruction retires (R231). -/
def Issues (i : Instr) (s : State) (held : Bool) (k : Nat) (f : Hart → Hart) (w : Work) (bobj : Option W64) : Prop :=
  s.ready (instrWtk i) → held = false → (s.waited (instrWtk i)).ready (2 ^ k) →
    let t := (s.waited (instrWtk i)).waited (2 ^ k)
    let deadline := if s.me.csr.dln = 0 then (s.mod s.myPkg).gtime + 1000000 else s.me.csr.dln.toNat
    let new : Token := { pending := true, work := some w, bobj := bobj, seq := s.seq, deadline := deadline }
    exec i s = .next (((t.setMe ((f t.me).setToken k new)).bump).vretire (instrLen i))

/-! ## Vector loads and stores (R175-R184, R240) -/

/-- Every access of an element at `a` of format `f`, the primal's and the planes', passes its checks at bytes of the
hart's own module (or of a pool whose line is pinned or whose boundaries are set); `place k` holds plane k's pieces. -/
def VPlaces (t : State) (store : Bool) (f : Fmt) (a : Nat) (place : Nat → List (Loc × Nat)) : Prop :=
  placesOf t store (elemSize f) (elemAlign f) (planeAddrs t a) =
    .ok ((planeAddrs t a).map (fun p => (p.1, VPlace.here (place p.1)))) ∧
  ∀ k, k ≤ t.me.planesInForce → ∀ q ∈ place k, q.1.foreign t.myPkg = false ∧ pin t q.1.key = t

/-- Byte key `q` is outside every piece. -/
def Outside (ps : List (Loc × Nat)) (q : Nat) : Prop := ∀ p ∈ ps, q < p.1.key ∨ p.1.key + p.2 ≤ q

/-- A vector load: each active element that takes part holds the bytes at its address, its planes those at theirs. An SC
load goes on when no SC store element with a ticket of its counter is still to be performed (R183, R202). -/
def VecLoads (i : Instr) (o : VMemOp) (sc : Bool) : Prop :=
  ∀ (s : State) (place : Nat → Nat → List (Loc × Nat)), s.goes i →
    let t := s.waited (instrWtk i)
    let f := fdOf o.x t.me
    let addr := fun e => addrOf o t.me (elemSize f) e
    let on := fun e => s.activeUnit f o.m e && (addr e).isSome
    (sc = true → scOwed t (ticketPkg t) = false) →
    (∀ e, on e = true → VPlaces t false f ((addr e).getD 0) (place e)) →
    ∃ u, exec i s = .next u ∧
      VecResult (instrLen i) t.me u.me o.d.toNat f f on (fun e => (readPieces t (place e 0), 0))
        (fun k e => readPieces t (place e k)) ∧
      u = { s with harts := u.harts, mods := u.mods } ∧ (∀ k, k ≠ s.cur → u.harts.find k = s.harts.find k) ∧
      (sc = false → u.mods = s.mods)

/-- What a vector store of accesses `place e k` of the elements `on`, in ascending order, with data `data e k`, leaves. -/
def StoredBytes (t u : State) (n : Nat) (on : Nat → Bool) (place : Nat → Nat → List (Loc × Nat)) (data : Nat → Nat → Nat) : Prop :=
  (∀ q, (∀ e k, on e = true → k ≤ n → Outside (place e k) q) → u.byteAt q = t.byteAt q) ∧
  (∀ e k before l m after j, on e = true → k ≤ n → place e k = before ++ (l, m) :: after → j < m →
    Outside after (l.key + j) → (∀ k', k < k' → k' ≤ n → Outside (place e k') (l.key + j)) →
    (∀ e' k', e < e' → on e' = true → k' ≤ n → Outside (place e' k') (l.key + j)) →
    u.byteAt (l.key + j) = BitVec.ofNat 8 (data e k / 2 ^ (8 * ((before.map Prod.snd).sum + j))))

/-- A vector store: every byte after it, and the flags of the conversions of R71. An ordered store goes on when no ordered
element of the hart is still in the side log or under way (R182), an SC one when its ticket is the lowest still owed
(R183). -/
def VecStores (i : Instr) (o : VMemOp) (ord sc : Bool) : Prop :=
  ∀ (s : State) (place : Nat → Nat → List (Loc × Nat)), s.goes i →
    let t := s.waited (instrWtk i)
    let h := t.me
    let f := faOf o.x h
    let addr := fun e => addrOf o h (elemSize f) e
    let on := fun e => s.activeUnit f o.m e && (addr e).isSome
    badSource .any f h [o.d.toNat] = none → (ord = true → orderedPending t t.cur = false) →
    (sc = true → scOwed t (ticketPkg t) = false) →
    (∀ e, on e = true → VPlaces t true f ((addr e).getD 0) (place e) ∧ ∀ k, k ≤ h.planesInForce → ∀ q ∈ place e k,
      ownLogCovers t t.cur q.1 q.2 = false ∧ matrixReads h q.1.key q.2 = false) →
    ∃ u, exec i s = .next u ∧
      StoredBytes t u h.planesInForce on place (fun e k =>
        let x := (unitAt h f o.d.toNat k e).1
        if isGx f then putBits x 16 48 (fmtCode f) else x) ∧
      (∀ b, u.me.csr.fflags.getLsbD b =
        (h.csr.fflags.getLsbD b || (List.range h.csr.vl).any (fun e => on e && (unitAt h f o.d.toNat 0 e).2.getLsbD b))) ∧
      u.me = { h.unchained with
        csr := { h.csr with fflags := u.me.csr.fflags, vstart := 0 }
        pc := h.pc + BitVec.ofNat 64 (instrLen i), wait := none, await := none, dual := none, remote := []
        under := [], part := none } ∧
      u = { s with harts := u.harts, mem := u.mem, regions := u.regions, ecc := u.ecc, mods := u.mods } ∧
      (∀ k, k ≠ s.cur → u.harts.find k = s.harts.find k) ∧ (sc = false → u.mods = s.mods)

/-- A vector load one of whose accesses, the first of its convoy to do so, is to a pending unit: it holds there, every
element below done and none from it on (R129, R176). -/
def VecHolds (i : Instr) (o : VMemOp) (sc : Bool) : Prop :=
  ∀ (s : State) (place : Nat → Nat → List (Loc × Nat)) (e : Nat) (ps : List (Nat × VPlace)), s.goes i →
    let t := s.waited (instrWtk i)
    let f := fdOf o.x t.me
    let addr := fun e => addrOf o t.me (elemSize f) e
    let on := fun e => s.activeUnit f o.m e && (addr e).isSome
    (sc = true → scOwed t (ticketPkg t) = false) →
    (∀ j, j < e → on j = true → VPlaces t false f ((addr j).getD 0) (place j)) → on e = true →
    placesOf t false (elemSize f) (elemAlign f) (planeAddrs t ((addr e).getD 0)) = .ok ps → (∃ p ∈ ps, p.2.isPending = true) →
    ∃ u, exec i s = .next u ∧ u.me.pc = s.me.pc ∧ u.me.csr.vstart = e ∧ (∃ w, u.me.wait = some w ∧ w.kind = wUnit) ∧
      (∀ j, held f j = true → rawUnit f (u.me.vget o.d.toNat) j =
        if j < e ∧ on j = true then unitLeft f f (readPieces t (place j 0)) else rawUnit f (s.me.vget o.d.toNat) j) ∧
      u = { s with harts := u.harts, mods := u.mods } ∧ (∀ k, k ≠ s.cur → u.harts.find k = s.harts.find k)

/-- A vector store whose accesses are all to pending units, with room in the side log for them: its elements and their
planes enter the log in order, the planes outside the order of the elements (R240), and the instruction retires; an SC one, when no access outside the core's log has an
earlier ticket (R176, R177, R183). -/
def VecLogs (i : Instr) (o : VMemOp) (ord sc : Bool) : Prop :=
  ∀ (s : State) (unit : Nat → Nat → Nat × Nat), s.goes i →
    let t := s.waited (instrWtk i)
    let h := t.me
    let f := faOf o.x h
    let addr := fun e => addrOf o h (elemSize f) e
    let es := (List.range s.me.csr.vl).filter (fun e => s.activeUnit f o.m e && (addr e).isSome)
    let log := (s.core s.myCore).log
    badSource .any f h [o.d.toNat] = none → (sc = true → scOwedAt t (ticketPkg t) (fun k _ => k != s.myCore) = false) →
    (∀ e ∈ es, placesOf t true (elemSize f) (elemAlign f) (planeAddrs t ((addr e).getD 0)) =
      .ok ((planeAddrs t ((addr e).getD 0)).map (fun p => (p.1, VPlace.pending (unit e p.1).1 (unit e p.1).2)))) →
    logUsed log + es.length * ((h.planesInForce + 1) * (16 + roundUp (elemSize f) 16)) ≤ 65536 →
    ∃ u new, exec i s = .next u ∧ u.core s.myCore = { s.core s.myCore with log := log ++ new } ∧
      new.map (fun x => (x.hart, x.ctx, x.pkg, x.va, x.data, x.ord)) = es.flatMap (fun e =>
        (List.range (h.planesInForce + 1)).map (fun k =>
          let x := (unitAt h f o.d.toNat k e).1
          (s.cur, h.ctx, (unit e k).1, (unit e k).2 % 2 ^ 42,
            bytesOf (if isGx f then putBits x 16 48 (fmtCode f) else x) (elemSize f), ord && k == 0))) ∧
      u.me.pc = h.pc + BitVec.ofNat 64 (instrLen i) ∧ u.me.csr.vstart = 0 ∧ u.me.wait = none ∧
      u = { s with harts := u.harts, cores := u.cores, mods := u.mods } ∧
      (∀ k, k ≠ s.myCore → u.core k = s.core k) ∧ (sc = false → u.mods = s.mods)

/-- The fill of granule `g` is hart `h`'s: it satisfied its emptying wait before its team left. -/
def Takes (h : Hart) (g : Nat) : Prop := ∃ w, h.await = some w ∧ w.met = true ∧ w.clr = true ∧ g ∈ w.granules

/-- The fill of granule `g` is another hart's: one that is back, or one still away, whose own pool is away with it (R18, R179). -/
def Taken (t : State) (g : Nat) : Prop :=
  (∃ e ∈ t.harts, e.1 ≠ t.cur ∧ Takes e.2 g) ∨
    ∃ e ∈ t.images, e.2.loaded = false ∧ ofPool e.2.core g = false ∧ ∃ h ∈ e.2.harts, Takes h.2 g

/-! ## Invalidation (R367) -/

/-- A request on its way that the executing hart's module has translated for a context, at an address `named` admits. -/
def Late (s : State) (slot : Nat) (named : Nat → Prop) (o : RemoteOp) : Prop :=
  o.state = 0 ∧ corePkg o.core = s.myPkg ∧ o.slot = slot ∧ reaches s s.myPkg o.pkg = true ∧ ∃ va ∈ o.vas, named va

/-- An invalidation calls back every late request that a hart waits for, so that the hart asks anew, and waits itself
while a late posted store is on its way. -/
def Recalls (i : Instr) (s : State) (late : RemoteOp → Prop) : Prop :=
  ∃ u, exec i s = .next u ∧ u.mem = s.mem ∧ ∀ n o, s.remote.find n = some o → late o →
    (o.kind ≠ 1 → u.remote.find n = none ∧ ∀ k h j w, u.harts.find k = some h → (j, w) ∈ h.remote → w.op ≠ n) ∧
    (o.kind = 1 → u.me.pc = s.me.pc ∧ u.me.wait.isSome = true ∧ u.remote.find n = some o)

/-! ## Images (R18, R276, R369) -/

/-- A stream of the hart waits in XOPEN. -/
def Opening (h : Hart) : Prop := ∃ w, h.vector.wait = some w ∧ w.kind = wOpen

/-- Image `n` is `im`, its harts as they were, but that an XOPEN which could open its stream as the team left has opened it. -/
def LeavesAs (s u : State) (n : Nat) (im : Image) : Prop :=
  ∃ hs, u.images.find n = some { im with harts := hs } ∧ hs.length = im.harts.length ∧
    (∀ (i : Nat) e, im.harts[i]? = some e → ¬Opening e.2 → hs[i]? = some e) ∧
    ∀ before j h rest gk i g, im.harts = before ++ (j, h) :: rest → (∀ e ∈ before, ¬Opening e.2) →
      h.vector.wait = some ⟨wOpen, gk, i⟩ → s.groups.find gk = some g →
      (canOpen s gk i g = false → (∀ e ∈ rest, ¬Opening e.2) → hs = im.harts) ∧
      (canOpen s gk i g = true → ∃ h', hs[before.length]? = some (j, h') ∧
        h' = { h with stream := some (gk, i), wait := h'.wait, ahead := h'.ahead } ∧
        h'.vector = { h.vector with stream := some (gk, i), wait := some ⟨wOpened, gk, i⟩, ahead := h'.ahead })

/-! ## Steps -/

/-- The next step is the executing hart's, and it issues in the state `t`: nothing, or that hart, stands first in the
agenda; its team's rows are granted again if they were due and now fit (R261); its module is on and booted, its die not
idle, no record of it waits, no deadline is due; no convoy of it is ahead of it (R14); a YIELD is past, and before a dispatch VL is
cut to the lowest cap the core has had since the one before (R132). -/
def Turn (s t : State) : Prop :=
  ∃ u : State, (s.agenda = [] ∧ u = s ∨ ∃ k r, s.agenda = .hart k :: r ∧ u = { s with agenda := r, cur := k }) ∧
    let v := regrant u u.myCore
    let w := rejoin v
    (u.harts.find u.cur).isSome = true ∧ canIssue v = true ∧ w.me.ahead = none ∧ dueDeadline w = none ∧ t = atTurn w

/-- The words at `a` decode to `d`. -/
def DecodesAt (t : State) (a : Nat) (d : Decoded) : Prop := ∃ ws, fetchInstr t a = .ok ws ∧ decode ws = .ok d

end Sys2Proof.Machine
end

