-- ==== Sys2Proof/Certificates/Slice0/Obligations.lean ====
section
/-!
DEFINITION. The statements about the model, each from rules of the specification. `s.ready m`: no token of mask m stops
the instruction; `s.waited m` is s after that wait (TokenWait says what it is); `instrWtk i` and `instrLen i` are an
instruction's token mask and its bytes (RoundTrip ties the latter to the decoder).
-/

open Sys2Proof Sys2Proof.Machine

/-- R24, R215, R222: a wait on a mask of tokens, by any instruction of the control stream and by TKWAIT: it waits while
one is pending; the lowest that failed raises Copy and becomes complete, one that owes a trap raises it; else the
instruction goes on, with the flags of SCTADD raised once. That the lowest-numbered of several raises its own cause is the
model's reading (log 152). -/
def Obligations.TokenWait : Prop :=
  ∀ (s : State) (m : Nat) (f : State → State),
    ((∃ k, k < 8 ∧ m.testBit k = true ∧ (s.me.token k).pending = true) → gated m s f = .next (s.hold 1)) ∧
    (∀ k, k < 8 → m.testBit k = true → (∀ j, j < 8 → m.testBit j = true → (s.me.token j).pending = false) →
      (∀ j, j < k → m.testBit j = true → (s.me.token j).failed = false ∧ (s.me.token j).owed = none) →
      ((s.me.token k).failed = true →
        gated m s f = .next (raise 0x16 (BitVec.ofNat 64 k)
          (s.setMe (s.me.setToken k { s.me.token k with failed := false })))) ∧
      (∀ c v, (s.me.token k).failed = false → (s.me.token k).owed = some (c, v) →
        gated m s f = .next (raise c v (s.setMe (s.me.setToken k { s.me.token k with owed := none }))))) ∧
    (s.ready m →
      gated m s f = .next (f (s.waited m)) ∧
      (∀ b, b < 5 → (s.waited m).me.csr.fflags.getLsbD b = (s.me.csr.fflags.getLsbD b ||
        (List.range 8).any (fun k => m.testBit k && (s.me.token k).flags.getLsbD b))) ∧
      (∀ k, (s.waited m).me.token k =
        if k < 8 ∧ m.testBit k = true then { s.me.token k with flags := 0 } else s.me.token k) ∧
      s.onlyMine (s.waited m) ∧
      (s.waited m).me = { s.me with tokens := (s.waited m).me.tokens, csr := { s.me.csr with fflags := (s.waited m).me.csr.fflags } }) ∧
    (∀ o : OpTk, o.k.toNat = m → o.x = none → s.ready m → exec (.tkwait o) s = .next ((s.waited m).retire 4)) ∧
    (∀ (o : OpTk) (k : Nat), o.k.toNat = m → o.x = none → k < 8 → m.testBit k = true → (s.me.token k).pending = true →
      exec (.tkwait o) s = .next (s.hold 1))

/-- R113, R114: the result of every ALU instruction of two registers, for all values of its sources, in both forms.
R113, R115, R116: the one-source ALU instructions, SEL, the immediate forms with imm12 or a literal, and LIT. -/
def Obligations.ScalarArithmetic : Prop :=
  (∀ o : OpR,
    let a := fun s : State => s.me.reg o.a
    let b := fun s : State => s.me.reg o.b
    let n := fun s : State => (s.me.reg o.b).toNat % 64
    Writes (.add o) o.d (fun s => a s + b s) ∧
    Writes (.sub o) o.d (fun s => a s - b s) ∧
    Writes (.and o) o.d (fun s => a s &&& b s) ∧
    Writes (.or o) o.d (fun s => a s ||| b s) ∧
    Writes (.xor o) o.d (fun s => a s ^^^ b s) ∧
    Writes (.andn o) o.d (fun s => a s &&& ~~~(b s)) ∧
    Writes (.shl o) o.d (fun s => a s <<< n s) ∧
    Writes (.shr o) o.d (fun s => a s >>> n s) ∧
    Writes (.sar o) o.d (fun s => (a s).sshiftRight (n s)) ∧
    Writes (.rotr o) o.d (fun s => (a s).rotateRight (n s)) ∧
    Writes (.min o) o.d (fun s => if (a s).toInt ≤ (b s).toInt then a s else b s) ∧
    Writes (.max o) o.d (fun s => if (b s).toInt ≤ (a s).toInt then a s else b s) ∧
    Writes (.minu o) o.d (fun s => if (a s).toNat ≤ (b s).toNat then a s else b s) ∧
    Writes (.maxu o) o.d (fun s => if (b s).toNat ≤ (a s).toNat then a s else b s) ∧
    Writes (.mul o) o.d (fun s => a s * b s) ∧
    Writes (.mulh o) o.d (fun s => BitVec.ofInt 64 ((a s).toInt * (b s).toInt / 2 ^ 64)) ∧
    Writes (.mulhu o) o.d (fun s => BitVec.ofNat 64 ((a s).toNat * (b s).toNat / 2 ^ 64)) ∧
    Writes (.div o) o.d (fun s => if b s = 0 then -1 else BitVec.ofInt 64 ((a s).toInt.tdiv (b s).toInt)) ∧
    Writes (.divu o) o.d (fun s => if b s = 0 then -1 else BitVec.ofNat 64 ((a s).toNat / (b s).toNat)) ∧
    Writes (.rem o) o.d (fun s => if b s = 0 then a s else BitVec.ofInt 64 ((a s).toInt.tmod (b s).toInt)) ∧
    Writes (.remu o) o.d (fun s => if b s = 0 then a s else BitVec.ofNat 64 ((a s).toNat % (b s).toNat)) ∧
    Writes (.cmpeq o) o.d (fun s => if a s = b s then 1 else 0) ∧
    Writes (.cmpne o) o.d (fun s => if a s = b s then 0 else 1) ∧
    Writes (.cmplt o) o.d (fun s => if (a s).toInt < (b s).toInt then 1 else 0) ∧
    Writes (.cmpge o) o.d (fun s => if (a s).toInt < (b s).toInt then 0 else 1) ∧
    Writes (.cmpltu o) o.d (fun s => if (a s).toNat < (b s).toNat then 1 else 0) ∧
    Writes (.cmpgeu o) o.d (fun s => if (a s).toNat < (b s).toNat then 0 else 1)) ∧
  ((∀ o : OpDA,
    let a := fun s : State => s.me.reg o.a
    Writes (.clz o) o.d (fun s => if a s = 0 then 64 else BitVec.ofNat 64 (63 - Nat.log2 (a s).toNat)) ∧
    Writes (.ctz o) o.d (fun s =>
      BitVec.ofNat 64 (((List.range 64).find? (fun i => (a s).getLsbD i)).getD 64)) ∧
    Writes (.popc o) o.d (fun s => BitVec.ofNat 64 ((List.range 64).countP (fun i => (a s).getLsbD i)))) ∧
  (∀ o : OpRX, Writes (.sel o) o.d (fun s => if s.me.reg (scOf o.x) = 0 then s.me.reg o.b else s.me.reg o.a)) ∧
  (∀ o : OpI,
    let a := fun s : State => s.me.reg o.a
    let v := match o.form.literal with | none => o.i.signExtend 64 | some v => v
    Writes (.addi o) o.d (fun s => a s + v) ∧
    Writes (.andi o) o.d (fun s => a s &&& v) ∧
    Writes (.ori o) o.d (fun s => a s ||| v) ∧
    Writes (.xori o) o.d (fun s => a s ^^^ v)) ∧
  (∀ o : OpSh,
    let a := fun s : State => s.me.reg o.a
    let n := match o.form.literal with | none => o.n.toNat | some v => v.toNat % 64
    Writes (.shli o) o.d (fun s => a s <<< n) ∧
    Writes (.shri o) o.d (fun s => a s >>> n) ∧
    Writes (.sari o) o.d (fun s => (a s).sshiftRight n)) ∧
  (∀ o : OpLit, ∀ v : W64, o.form.literal = some v → Writes (.lit o) o.d (fun _ => v)))

/-- R117, R58-R62: the scalar floating-point instructions, each rounded once in the format of its width bit. -/
def Obligations.FpuResults : Prop :=
  (∀ o : OpF,
    let f := if o.w = 0 then Fmt.f64 else Fmt.f32
    let x := fun s : State => decodeNum f ((s.me.reg o.a).toNat % 2 ^ fmtBits f)
    let y := fun s : State => decodeNum f ((s.me.reg o.b).toNat % 2 ^ fmtBits f)
    let rm := fun s : State => rmOf o.x s.me
    WritesF (.fadd o) o.d (fun s => packVal f (rm s) false (numAdd (rm s) (x s) (y s))) ∧
    WritesF (.fsub o) o.d (fun s => packVal f (rm s) false (numSub (rm s) (x s) (y s))) ∧
    WritesF (.fmul o) o.d (fun s => packVal f (rm s) false (numMul (x s) (y s))) ∧
    WritesF (.fdiv o) o.d (fun s => packVal f (rm s) false (numDiv (x s) (y s))) ∧
    WritesF (.fmin o) o.d (fun s => packVal f (rm s) false (numMinMax false (x s) (y s))) ∧
    WritesF (.fmax o) o.d (fun s => packVal f (rm s) false (numMinMax true (x s) (y s))) ∧
    WritesF (.fcmpeq o) o.d (fun s =>
      if (x s).isNan || (y s).isNan then (0, if (x s).isSig || (y s).isSig then fNV else 0)
      else (if numCmp (x s) (y s) = .eq then 1 else 0, 0)) ∧
    WritesF (.fcmplt o) o.d (fun s =>
      if (x s).isNan || (y s).isNan then (0, fNV) else (if numCmp (x s) (y s) = .lt then 1 else 0, 0)) ∧
    WritesF (.fcmple o) o.d (fun s =>
      if (x s).isNan || (y s).isNan then (0, fNV) else (if numCmp (x s) (y s) = .gt then 0 else 1, 0))) ∧
  (∀ o : OpFX,
    let f := if o.w = 0 then Fmt.f64 else Fmt.f32
    let num := fun (s : State) (r : BitVec 5) => decodeNum f ((s.me.reg r).toNat % 2 ^ fmtBits f)
    WritesF (.fma o) o.d (fun s => packVal f (rmOf (some o.x) s.me) false
      (numFma (rmOf (some o.x) s.me) false false (num s o.a) (num s o.b) (num s (scOf o.x))))) ∧
  (∀ o : OpF2,
    let f := if o.w = 0 then Fmt.f64 else Fmt.f32
    let w := fmtBits f
    let b := fun s : State => (s.me.reg o.a).toNat % 2 ^ w
    let rm := fun s : State => rmOf o.x s.me
    WritesF (.fsqrt o) o.d (fun s => packVal f (rm s) false (numSqrt (decodeNum f (b s)))) ∧
    WritesF (.fcvti o) o.d (fun s => roundToInt .i64 (rm s) (decodeNum f (b s))) ∧
    WritesF (.fcvtf o) o.d (fun s => roundTo f (rm s) false (Machine.Num.ofInt (s.me.reg o.a).toInt)) ∧
    WritesF (.fabs o) o.d (fun s => (b s % 2 ^ (w - 1), 0)) ∧
    WritesF (.fneg o) o.d (fun s => (if b s < 2 ^ (w - 1) then b s + 2 ^ (w - 1) else b s - 2 ^ (w - 1), 0)) ∧
    WritesF (.fclass o) o.d (fun s => (numClass f (b s), 0))) ∧
  (∀ o : OpDA,
    WritesF (.fcvtds o) o.d (fun s => roundTo .f32 (rmOf o.x s.me) false (decodeNum .f64 (s.me.reg o.a).toNat)) ∧
    WritesF (.fcvtsd o) o.d (fun s => roundTo .f64 0 false (decodeNum .f32 ((s.me.reg o.a).toNat % 2 ^ 32))))

/-- R118, R119, R173, R177: each scalar load that passes its checks writes the bytes at sa + disp9 × bytes, extended; a load
from another module asks for them, waits, and writes what comes back.
R118, R119, R173: each scalar store that passes its checks stores the low bytes of its register at sa + disp9 × bytes,
and every other byte of memory reads as before (as the line pinned by the access leaves it, R171); a store to another
module sends them there and retires. -/
def Obligations.ScalarLoadsAndStores : Prop :=
  (∀ o : OpMS,
    LoadsFrom (.ld o) o 1 (fun x => x.signExtend 64) ∧ LoadsFrom (.ldh o) o 2 (fun x => x.signExtend 64) ∧
    LoadsFrom (.ldw o) o 4 (fun x => x.signExtend 64) ∧ LoadsFrom (.ldd o) o 8 (fun x => x.setWidth 64) ∧
    LoadsFrom (.ldbu o) o 1 (fun x => x.setWidth 64) ∧ LoadsFrom (.ldhu o) o 2 (fun x => x.setWidth 64) ∧
    LoadsFrom (.ldwu o) o 4 (fun x => x.setWidth 64)) ∧
  (∀ o : OpMS, StoresTo (.st o) o 1 ∧ StoresTo (.sth o) o 2 ∧ StoresTo (.stw o) o 4 ∧ StoresTo (.std o) o 8)

/-- R119, R167, R371: a scalar access that a check stops raises that check's trap and does nothing else: the window before
the alignment, then translation and rights, and last an uncorrectable error that a load reads or a store of part of its
unit meets.
R171: pinning changes no byte outside the 1 KiB block of the pool that it pins; in a core whose boundaries are set,
and outside the pools, it changes nothing. -/
def Obligations.ScalarTrapsAndPinnedLines : Prop :=
  ((∀ o : OpMS,
    FailsAt (.ld o) o 1 rR eccHit ∧ FailsAt (.ldh o) o 2 rR eccHit ∧ FailsAt (.ldw o) o 4 rR eccHit ∧ FailsAt (.ldd o) o 8 rR eccHit ∧
    FailsAt (.ldbu o) o 1 rR eccHit ∧ FailsAt (.ldhu o) o 2 rR eccHit ∧ FailsAt (.ldwu o) o 4 rR eccHit ∧
    FailsAt (.st o) o 1 rW eccStoreHit ∧ FailsAt (.sth o) o 2 rW eccStoreHit ∧
    FailsAt (.stw o) o 4 rW eccStoreHit ∧ FailsAt (.std o) o 8 rW eccStoreHit) ∧
  (∀ (s : State) (k a n need : Nat), windowOf s k a n = none →
    scalarLoc s k a n n need = .error (0x08, BitVec.ofNat 64 a)) ∧
  (∀ (s : State) (k a n need : Nat), windowOf s k a n ≠ none → a % n ≠ 0 →
    scalarLoc s k a n n need = .error (0x04, BitVec.ofNat 64 a)) ∧
  (∀ (s : State) (k a n : Nat), (4 ≤ a >>> 60 ∨ (a >>> 60 = 2 ∧ (s.hart k).system = false ∧
      bitsOf a 55 48 ≠ coreId (coreOf k))) → windowOf s k a n = none)) ∧
  (∀ (s : State) (k q : Nat),
    (pin s k).harts = s.harts ∧
    (k < 2 ^ 60 ∨ 2 ^ 61 ≤ k → pin s k = s) ∧
    ((s.core ((k - 2 ^ 60) / 2 ^ 23)).bnd0 ≠ 0 → pin s k = s) ∧
    (2 ^ 60 ≤ k → k / 1024 ≠ q / 1024 → (pin s k).mem.get q = s.mem.get q) ∧
    (2 ^ 60 ≤ k → k < 2 ^ 61 → (s.core ((k - 2 ^ 60) / 2 ^ 23)).bnd0 = 0 → (s.core ((k - 2 ^ 60) / 2 ^ 23)).bnd1 = 0 →
      (s.core ((k - 2 ^ 60) / 2 ^ 23)).bnd2 = 0 →
      ¬(k - 2 ^ 60) % 2 ^ 23 / 1024 ∈ (s.core ((k - 2 ^ 60) / 2 ^ 23)).pinned → k / 1024 = q / 1024 →
      (pin s k).mem.get q = 0 ∧ (pin s k).fe.get (q / 16) = 0))

/-- R120: each branch compares sa with sb and goes to word 0 + 4 × disp12 when its relation holds, else to the next
instruction; nothing else changes.
R121, R122: the targets and links of JMP, CALL and JR, and JR's Align trap, before which sd is not written. -/
def Obligations.BranchesAndJumps : Prop :=
  (∀ (o : OpB) (s : State),
    let a := s.me.reg o.a
    let b := s.me.reg o.b
    let go := fun (i : Instr) (t : State) (p : Bool) =>
      if p then t.jump (s.me.pc + o.p.signExtend 64 * 4) else t.retire (instrLen i)
    Answers (.beq o) s (fun t => go (.beq o) t (decide (a = b))) ∧
    Answers (.bne o) s (fun t => go (.bne o) t (decide (a ≠ b))) ∧
    Answers (.blt o) s (fun t => go (.blt o) t (decide (a.toInt < b.toInt))) ∧
    Answers (.bge o) s (fun t => go (.bge o) t (decide (b.toInt ≤ a.toInt))) ∧
    Answers (.bltu o) s (fun t => go (.bltu o) t (decide (a.toNat < b.toNat))) ∧
    Answers (.bgeu o) s (fun t => go (.bgeu o) t (decide (b.toNat ≤ a.toNat)))) ∧
  ((∀ (o : OpJ) (s : State),
    let target := s.me.pc + o.p.signExtend 64 * 4
    Answers (.jmp o) s (fun t => t.jump target) ∧
    Answers (.call o) s (fun t =>
      (t.setMe (t.me.setReg 31 (s.me.pc + BitVec.ofNat 64 (instrLen (.call o))))).jump target)) ∧
  (∀ (o : OpJR) (s : State),
    let target := s.me.reg o.a + o.i.signExtend 64
    (target.toNat % 4 = 0 → Answers (.jr o) s (fun t =>
      (t.setMe (t.me.setReg o.d (s.me.pc + BitVec.ofNat 64 (instrLen (.jr o))))).jump target)) ∧
    (target.toNat % 4 ≠ 0 → Answers (.jr o) s (raise 0x04 target))) ∧
  (∀ (s : State) (a : W64),
    (s.jump a).me.pc = a ∧ (s.retire 4).me.pc = s.me.pc + 4 ∧ (s.retire 12).me.pc = s.me.pc + 12 ∧
    (∀ r, (s.jump a).me.reg r = s.me.reg r ∧ (s.retire 4).me.reg r = s.me.reg r) ∧
    s.onlyMine (s.jump a) ∧ s.onlyMine (s.retire 4) ∧ s.onlyMine (s.retire 12)))

/-- R112, R124: QPOP, QPEEK and QCNT, and the wait of the first two while the queue is empty. -/
def Obligations.QueueReads : Prop :=
  ∀ (o : OpQ) (s : State),
    let q := o.q.toNat
    (∀ v r, s.me.queue q = v :: r →
      Answers (.qpop o) s (fun t => (t.setMe (t.me.setQueue q r)).wr (instrLen (.qpop o)) o.d v) ∧
      Answers (.qpeek o) s (fun t => t.wr (instrLen (.qpeek o)) o.d v)) ∧
    (s.me.queue q = [] → Answers (.qpop o) s (fun t => t.hold 2) ∧ Answers (.qpeek o) s (fun t => t.hold 2)) ∧
    Writes (.qcnt o) o.d (fun s => BitVec.ofNat 64 (s.me.queue q).length)

/-- R51, R125, R222: CSRR of each user CSR (GTIME never less than the hart has read; HARTID and COREID of a system hart are
the implementation's, log 23), and R360, R368 for the privileged ones in a system hart. That STUCK is set for an entry whose
unit maps outside the physical map is log 42. -/
def Obligations.CsrReads : Prop :=
  ∀ (o : OpCsrR) (s : State),
    let n := o.i.toNat
    let c := s.me.csr
    let y := s.me.sys
    let gives := fun (v : W64) => Answers (.csrr o) s (fun t => t.wr (instrLen (.csrr o)) o.d v)
    (n = 0x000 → gives (BitVec.ofNat 64 c.vl)) ∧ (n = 0x001 → gives (c.cf.setWidth 64)) ∧
    (n = 0x002 → gives (c.vctl.setWidth 64)) ∧ (n = 0x003 → gives (BitVec.ofNat 64 c.vstart)) ∧
    (n = 0x004 → gives (c.rm.setWidth 64)) ∧
    (n = 0x005 → Answers (.csrr o) s (fun t => t.wr (instrLen (.csrr o)) o.d (t.me.csr.fflags.setWidth 64))) ∧
    (∀ k, 1 ≤ k → k ≤ 4 → n = 0x007 + k → gives (c.toff.get k)) ∧
    (n = 0x00C → gives (BitVec.ofNat 64 c.dualn)) ∧
    (n = 0x010 → gives (BitVec.ofNat 64 ((s.me.att.map Attach.rows).getD 0))) ∧
    (n = 0x011 → gives (BitVec.ofNat 64 ((s.me.att.map Attach.handle).getD 0))) ∧
    (n = 0x020 → gives c.dln) ∧
    (n = 0x021 → let g := max (s.mod s.myPkg).gtime s.me.seen
      Answers (.csrr o) s (fun t => (t.setMe { t.me with seen := g }).wr (instrLen (.csrr o)) o.d (BitVec.ofNat 64 g))) ∧
    (n = 0x022 → gives c.lead) ∧ (n = 0x023 → gives (phasec s s.me)) ∧
    (n = 0x030 → ∃ v : W64, gives v ∧ (∀ k, k < 8 → v.getLsbD k = (s.me.token k).pending ∧
      v.getLsbD (8 + k) = (s.me.token k).failed) ∧ v.toNat < 2 ^ 16) ∧
    (n = 0x040 → s.me.system = false → gives (BitVec.ofNat 64 (hartId s.cur))) ∧
    (n = 0x041 → s.me.system = false → gives (BitVec.ofNat 64 (coreId s.myCore))) ∧
    (n = 0x042 → gives (BitVec.ofNat 64 s.myPkg)) ∧
    (n = 0x050 → gives c.uhaddr) ∧ (n = 0x051 → gives (c.ucause.setWidth 64)) ∧ (n = 0x052 → gives c.upc) ∧
    (n = 0x053 → gives c.uval) ∧
    (s.me.system = true →
      (n = 0x040 → gives ((Config.systemHartId s.cur).setWidth 64)) ∧
      (n = 0x041 → gives ((Config.systemCoreId s.cur).setWidth 64)) ∧
      (n = 0x830 →
        (y.tstatus.getLsbD 11 = false → gives 0) ∧
        (y.tstatus.getLsbD 11 = true →
          let ck := s.myPkg * 256 + y.tstatus.toNat % 256
          let log := (s.core ck).log
          let used := (log.map (fun e => 16 + roundUp e.data.length 16)).sum
          log.length < 2 ^ 16 → used ≤ 2 ^ 16 → ∃ v : W64, gives v ∧ v.toNat % 2 ^ 16 = log.length ∧
            v.toNat / 2 ^ 16 % 2 ^ 13 = used / 16 ∧
            (v.getLsbD 29 = true ↔ ∃ p ∈ s.harts, coreOf p.1 = ck ∧ ∃ w, p.2.vector.wait = some w ∧ w.kind = 19) ∧
            (v.getLsbD 30 = true ↔ ∃ e r i, log = e :: r ∧ i < e.data.length ∧
              let x := vhtEntry s (corePkg ck) e.ctx (e.va + i)
              x % 4 = 0 ∨ x % 4 = 2 ∨ (x % 4 = 1 ∧ (x.testBit 3 = false ∨
                physOk (bitsOf x 41 25 * 2 ^ 25 + (e.va + i) % 2 ^ 25) = false))) ∧ v.toNat < 2 ^ 31)) ∧
      (n = 0x804 → gives (s.ctx s.myPkg y.ctxid.toNat).tdeleg) ∧
      (n = 0x810 → gives y.tstatus) ∧ (n = 0x811 → gives (y.tcause.setWidth 64)) ∧ (n = 0x812 → gives y.tpc) ∧
      (n = 0x813 → gives y.tval) ∧ (n = 0x814 → gives y.tvec) ∧ (n = 0x815 → gives y.tscratch) ∧
      (n = 0x820 → gives (y.ctxid.setWidth 64)) ∧ (n = 0x821 → gives (s.ctx s.myPkg y.ctxid.toNat).sptb) ∧
      (n = 0x822 → gives (s.ctx s.myPkg y.ctxid.toNat).vhtb) ∧
      (∀ k, k < 4 → n = 0x800 + k → ∀ f : CoreS → Nat,
        [CoreS.vlcap, CoreS.bnd0, CoreS.bnd1, CoreS.bnd2][k]? = some f →
        gives (if y.tstatus.getLsbD 11 then
          BitVec.ofNat 64 (f (s.core (s.myPkg * 256 + y.tstatus.toNat % 256))) else 0)))

/-- R4, R49-R52, R125, R360: CSRW writes the writable bits of each CSR, and retires; read-only CSRs ignore it.
R49, R130, R132, R169, R360: the CSRW forms with rules of their own: CF cuts VL, VSTART keeps ten bits, CTXID four, VLCAP
takes 16, 32, 64 or 128 only (every hart of the core has its VL cut by it before its next dispatch), and a boundary only a
value that keeps the rules of R86, all of the served core; without a served core VLCAP and the boundaries ignore the write.
What a boundary takes on a core without a team is log 150. -/
def Obligations.CsrWrites : Prop :=
  (∀ (o : OpCsrW) (s : State),
    let n := o.i.toNat
    let v := s.me.reg o.a
    let user := fun (f : Csrs → Csrs) => Answers (.csrw o) s (fun t =>
      (t.setMe { t.me with csr := f t.me.csr }).retire (instrLen (.csrw o)))
    let sys := fun (f : SysRegs → SysRegs) => s.me.system = true → Answers (.csrw o) s (fun t =>
      (t.setMe { t.me with sys := f t.me.sys }).retire (instrLen (.csrw o)))
    let ctx := fun (f : Ctx → Ctx) => s.me.system = true → Answers (.csrw o) s (fun t =>
      (t.setCtx s.myPkg s.me.sys.ctxid.toNat (f (s.ctx s.myPkg s.me.sys.ctxid.toNat))).retire (instrLen (.csrw o)))
    (n = 0x002 → user (fun c => { c with vctl := v.setWidth 3 })) ∧
    (n = 0x004 → user (fun c => { c with rm := v.setWidth 2 })) ∧
    (n = 0x005 → user (fun c => { c with fflags := v.setWidth 5 })) ∧
    (∀ k, 1 ≤ k → k ≤ 4 → n = 0x007 + k → user (fun c => { c with toff := c.toff.set k v })) ∧
    (n = 0x020 → user (fun c => { c with dln := v })) ∧ (n = 0x022 → user (fun c => { c with lead := v })) ∧
    (n = 0x050 → user (fun c => { c with uhaddr := v &&& ~~~3#64 })) ∧
    (n = 0x051 → user (fun c => { c with ucause := v.setWidth 8 })) ∧
    (n = 0x052 → user (fun c => { c with upc := v &&& ~~~3#64 })) ∧
    (n = 0x053 → user (fun c => { c with uval := v })) ∧
    (n ∈ [0x000, 0x00C, 0x010, 0x011, 0x021, 0x023, 0x030, 0x040, 0x041, 0x042] →
      Answers (.csrw o) s (fun t => t.retire (instrLen (.csrw o)))) ∧
    (n = 0x830 → s.me.system = true → Answers (.csrw o) s (fun t => t.retire (instrLen (.csrw o)))) ∧
    (n = 0x804 → ctx (fun c => { c with tdeleg := v &&& 0x817918#64 })) ∧
    (n = 0x821 → ctx (fun c => { c with sptb := v })) ∧ (n = 0x822 → ctx (fun c => { c with vhtb := v })) ∧
    (n = 0x810 → sys (fun y => { y with tstatus := v &&& 0x1FFFFF#64 })) ∧
    (n = 0x811 → sys (fun y => { y with tcause := v.setWidth 8 })) ∧
    (n = 0x812 → sys (fun y => { y with tpc := v &&& ~~~3#64 })) ∧
    (n = 0x813 → sys (fun y => { y with tval := v })) ∧ (n = 0x814 → sys (fun y => { y with tvec := v &&& ~~~3#64 })) ∧
    (n = 0x815 → sys (fun y => { y with tscratch := v }))) ∧
  ((∀ (o : OpA) (s : State),
    let v := s.me.reg o.a
    let f : BitVec 4 := v.setWidth 4
    Answers (.csrwCf o) s (fun t => (t.setMe { t.me with csr := { t.me.csr with
      cf := f, vl := min s.me.csr.vl (maxVl (fmtOf f.toNat) (s.core s.myCore).vlcap) } }).retire (instrLen (.csrwCf o))) ∧
    Answers (.csrwVstart o) s (fun t => (t.setMe { t.me with csr := { t.me.csr with
      vstart := v.toNat % 1024 } }).retire (instrLen (.csrwVstart o))) ∧
    (s.me.system = true → Answers (.csrwCtxid o) s (fun t => (t.setMe { t.me with sys := { t.me.sys with
      ctxid := v.setWidth 4 } }).retire (instrLen (.csrwCtxid o)))) ∧
    (s.me.system = true → s.me.sys.tstatus.getLsbD 11 = false →
      Answers (.csrwVlcap o) s (fun t => t.retire (instrLen (.csrwVlcap o)))) ∧
    (s.me.system = true → s.me.sys.tstatus.getLsbD 11 = true →
      let k := s.myPkg * 256 + s.me.sys.tstatus.toNat % 256
      (v.toNat ∈ [16, 32, 64, 128] → Answers (.csrwVlcap o) s (fun t =>
        ({ t.setCore k { s.core k with vlcap := v.toNat } with harts := t.harts.map (fun e =>
            if coreOf e.1 = k ∧ e.2.system = false then (e.1, { e.2 with vcap := min v.toNat e.2.vcap }) else e) } : State).retire
          (instrLen (.csrwVlcap o)))) ∧
      (v.toNat ∉ [16, 32, 64, 128] → Answers (.csrwVlcap o) s (fun t => t.retire (instrLen (.csrwVlcap o)))))) ∧
  (∀ (o : OpBnd) (s : State), o.k ≠ 0 → s.me.system = true → s.me.sys.tstatus.getLsbD 11 = false →
    Answers (.csrwBnd o) s (fun t => t.retire (instrLen (.csrwBnd o)))) ∧
  (∀ (o : OpBnd) (s : State), o.k ≠ 0 → s.me.system = true → s.me.sys.tstatus.getLsbD 11 = true →
    let k := s.myPkg * 256 + s.me.sys.tstatus.toNat % 256
    let c := s.core k
    let n := (s.me.reg o.a).toNat
    let c1 : CoreS := if o.k = 1 then { c with bnd0 := n } else if o.k = 2 then { c with bnd1 := n } else { c with bnd2 := n }
    ∀ (lk t : Nat) (l : Launch), c.team = some (lk, t) → s.launches.find lk = some l →
      (boundsOk (hartsPerCore l.blk.levels) l.blk.planes c1.bnd0 c1.bnd1 c1.bnd2 = true →
        Answers (.csrwBnd o) s (fun t => (t.setCore k c1).retire (instrLen (.csrwBnd o)))) ∧
      (boundsOk (hartsPerCore l.blk.levels) l.blk.planes c1.bnd0 c1.bnd1 c1.bnd2 = false →
        Answers (.csrwBnd o) s (fun t => t.retire (instrLen (.csrwBnd o))))))

/-- R47, R49, R374: Privilege for CSR numbers from 0x800 and for the privileged instructions outside privileged mode, and
Illegal-instruction for an unassigned CSR number, before any effect and any wait. -/
def Obligations.PrivilegeChecks : Prop :=
  ∀ s : State,
    (∀ (o : OpCsrR) (p : OpCsrW), csrAssigned o.i.toNat = false → p.i = o.i →
      exec (.csrr o) s = .next (raise 0x01 s.me.pc s) ∧ exec (.csrw p) s = .next (raise 0x01 s.me.pc s)) ∧
    (s.me.system = false →
      (∀ (o : OpCsrR) (p : OpCsrW), csrAssigned o.i.toNat = true → 0x800 ≤ o.i.toNat → p.i = o.i →
        exec (.csrr o) s = .next (raise 0x15 s.me.pc s) ∧ exec (.csrw p) s = .next (raise 0x15 s.me.pc s)) ∧
      (∀ o : OpN, exec (.eret o) s = .next (raise 0x15 s.me.pc s) ∧ exec (.halt o) s = .next (raise 0x15 s.me.pc s) ∧
        exec (.wfi o) s = .next (raise 0x15 s.me.pc s)) ∧
      (∀ o : OpAB, exec (.tlbinv o) s = .next (raise 0x15 s.me.pc s) ∧
        exec (.vhtinv o) s = .next (raise 0x15 s.me.pc s)) ∧
      (∀ o : OpDA, exec (.ctxsave o) s = .next (raise 0x15 s.me.pc s)) ∧
      (∀ o : OpR, exec (.ctxload o) s = .next (raise 0x15 s.me.pc s)) ∧
      (∀ o : OpD, exec (.sldrain o) s = .next (raise 0x15 s.me.pc s)) ∧
      (∀ o : OpA, exec (.csrwVlcap o) s = .next (raise 0x15 s.me.pc s) ∧
        exec (.csrwCtxid o) s = .next (raise 0x15 s.me.pc s)) ∧
      (∀ o : OpBnd, o.k ≠ 0 → exec (.csrwBnd o) s = .next (raise 0x15 s.me.pc s)))

/-- R132: SETVL. -/
def Obligations.SetvlResult : Prop :=
  ∀ (o : OpSetvl) (s : State),
    let most := maxVl (fmtOf o.f.toNat) (s.core s.myCore).vlcap
    let vl := if (s.me.reg o.a).toNat ≤ most then (s.me.reg o.a).toNat else most
    Answers (.setvl o) s (fun t =>
      (t.setMe { t.me with csr := { t.me.csr with vl := vl, cf := o.f } }).wr (instrLen (.setvl o)) o.d (BitVec.ofNat 64 vl))

/-- R52, R53, R72, R129, R260, R356: taking a trap in a hart of a team. A delegable cause that TDELEG delegates enters
UHADDR; any other, and any inside a user handler, stops the hart and queues a record at the system hart of its die.
R361: a trap of a system hart's own instruction fills the saved bank and enters TVEC; a second one ends the context
of the outer record and clears SRV and NEST (that this record is the one in service, and TPC, TVAL and a clear bank after
it, are the model's choice, log 66). -/
def Obligations.TrapEntry : Prop :=
  (∀ (s : State) (c : Nat) (v : W64), s.me.system = false →
    let h := s.me
    let r := match h.dual with | some (_, a) => a | none => h.pc
    let d := (s.ctx s.myPkg h.ctx).tdeleg.getLsbD c && [0x03, 0x04, 0x08, 0x0B, 0x0C, 0x0D, 0x0E, 0x10, 0x17].contains c
    (d = true → h.inUser = false →
      s.onlyMine (raise c v s) ∧
      (raise c v s).me = { h with
        csr := { h.csr with ucause := BitVec.ofNat 8 c, upc := r, uval := v }
        inUser := true, pc := h.csr.uhaddr, att := none, frozen := h.att :: h.frozen, dual := none, wait := none
        await := none, remote := [], under := [], part := none }) ∧
    ((d = false ∨ h.inUser = true) → s.cur ≠ servantOf s.cur →
      let t := raise c v s
      t = { s with harts := t.harts } ∧
      t.me = { h with
        stat := .stopped, pc := r, att := none, frozen := h.att :: h.frozen, dual := none, wait := none, await := none
        remote := [], under := [], part := none } ∧
      t.hart (servantOf s.cur) = { s.hart (servantOf s.cur) with
        recs := (s.hart (servantOf s.cur)).recs ++ [{
          hart := s.cur, cause := c, pc := r, val := v, uh := h.inUser, log := false, eng := false, cls := h.cls
          ctx := h.ctx, launch := h.launch, mid := h.mid }] } ∧
      (∀ k, k ≠ s.cur → k ≠ servantOf s.cur → t.harts.find k = s.harts.find k))) ∧
  (∀ (s : State) (c : Nat) (v : W64), s.me.system = true →
    let h := s.me
    let y := h.sys
    let r := match h.dual with | some (_, a) => a | none => h.pc
    (y.tstatus.getLsbD 12 = false →
      s.onlyMine (raise c v s) ∧
      (∃ ts : W64, (raise c v s).me = { h with
          sys := { y with
            tcause := BitVec.ofNat 8 c, tpc := r, tval := v, tstatus := ts
            bank := ⟨y.tcause, y.tpc, y.tval, y.tstatus, y.ctxid⟩ }
          pc := y.tvec, att := none, frozen := h.att :: h.frozen, dual := none, wait := none, await := none
          remote := [], under := [], part := none } ∧
        ∀ b, b < 64 → ts.getLsbD b =
          (decide (b = 12 ∨ b = 13) || (decide (b < 12 ∨ b = 18 ∨ b = 19) && y.tstatus.getLsbD b)))) ∧
    (y.tstatus.getLsbD 12 = true →
      let t := raise c v s
      t.me.pc = y.tvec ∧ t.me.sys.tcause = BitVec.ofNat 8 c ∧ t.me.sys.tpc = r ∧ t.me.sys.tval = v ∧
      t.me.sys.bank = {} ∧ t.me.serving = none ∧
      (∀ b, b < 64 → t.me.sys.tstatus.getLsbD b =
        (decide (b = 13) || (decide (b ≠ 11 ∧ b ≠ 12) && y.tstatus.getLsbD b))) ∧
      (∀ rec, h.serving = some rec → (s.ctx s.myPkg rec.ctx).live = true → (s.ctx s.myPkg rec.ctx).spans s.myPkg = true →
        (t.ctx s.myPkg rec.ctx).live = false)))

/-- R258, R260, R358, R362: URET and ERET; the served hart is found by its place in its launch, on a core or in the image
of its team. -/
def Obligations.TrapReturns : Prop :=
  ∀ (o : OpN) (s : State),
    let h := s.me
    let y := h.sys
    (Answers (.uret o) s (fun t =>
      if h.inUser = false then t.jump h.csr.upc
      else if (h.att.map (fun a => !a.queue.isEmpty)).getD false then t.hold wMatrix
      else (t.setMe { t.me.thaw with inUser := false }).jump h.csr.upc)) ∧
    (y.tstatus.getLsbD 12 = false → y.tstatus.getLsbD 11 = false → h.system = true →
      Answers (.eret o) s (fun t => (t.setMe t.me.refetched).retire (instrLen (.eret o)))) ∧
    (h.system = true → (h.att.map (fun a => !a.queue.isEmpty)).getD false = true →
      (y.tstatus.getLsbD 12 = true ∨ y.tstatus.getLsbD 11 = true) → Answers (.eret o) s (fun t => t.hold wMatrix)) ∧
    (h.system = true → (h.att.map (fun a => !a.queue.isEmpty)).getD false = false → y.tstatus.getLsbD 12 = true →
      Answers (.eret o) s (fun t => (t.setMe { t.me.thaw with
        sys := { y with
          tcause := y.bank.cause, tpc := y.bank.pc, tval := y.bank.val, tstatus := y.bank.status
          ctxid := y.bank.ctx, bank := {} } }).jump y.bank.pc)) ∧
    (h.system = true → (h.att.map (fun a => !a.queue.isEmpty)).getD false = false → y.tstatus.getLsbD 12 = false →
      y.tstatus.getLsbD 11 = true → s.ready (instrWtk (.eret o)) → (∀ rec, h.serving = some rec → memberKey s rec.launch rec.mid ≠ some s.cur) →
      ∃ u, exec (.eret o) s = .next u ∧ u.me.sys.tstatus = y.tstatus &&& ~~~(0x800#64) ∧ u.me.serving = none ∧
        u.me.pc = h.pc + BitVec.ofNat 64 (instrLen (.eret o)) ∧ u.mem = s.mem ∧
        ((y.tstatus.getLsbD 16 = true ∨ y.tstatus.getLsbD 17 = true ∨ h.serving = none) →
          ∀ k, k ≠ s.cur → u.harts.find k = s.harts.find k) ∧
        (y.tstatus.getLsbD 16 = false → y.tstatus.getLsbD 17 = false → ∀ rec k g, h.serving = some rec →
          memberKey s rec.launch rec.mid = some k → s.harts.find k = some g → ∃ g', u.harts.find k = some g' ∧ g'.stat = .running ∧ g'.pc = y.tpc ∧
            (∀ r : BitVec 5, g'.reg r =
              if y.tstatus.getLsbD 15 = true ∧ 1 ≤ r.toNat ∧ r.toNat ≤ 15 then h.reg r else g.reg r) ∧
            (y.tstatus.getLsbD 20 = true → (g.token (y.tval.toNat % 8)).work.isSome = true →
              (g'.token (y.tval.toNat % 8)).pending = true ∧ (g'.token (y.tval.toNat % 8)).failed = false) ∧
            (y.tstatus.getLsbD 20 = false → g'.tokens = g.tokens) ∧
            (∀ q, q ≠ s.cur → q ≠ k → u.harts.find q = s.harts.find q)) ∧
        (y.tstatus.getLsbD 16 = false → y.tstatus.getLsbD 17 = false → ∀ rec n k im g, h.serving = some rec →
          memberKey s rec.launch rec.mid = none → memberImage s rec.launch rec.mid = some (n, k) →
          s.images.find n = some im → im.harts.find k = some g →
          ∃ im', u.images.find n = some im' ∧ im'.harts.find k = some (Hart.served h g) ∧ im'.orig = im.orig)) ∧
    (∀ (g : Hart) (f : Option Attach) (rest : List (Option Attach)), g.frozen = f :: rest → g.att = none →
      g.thaw = { g with att := f, frozen := rest }) ∧
    (∀ (g : Hart) (a : Attach) (f : Option Attach) (rest : List (Option Attach)), g.frozen = f :: rest → g.att = some a →
      g.thaw = { g with att := f, frozen := rest, csr := { g.csr with fflags := g.csr.fflags ||| a.flags } })

/-- R373, R356: SYSCALL and BRK complete by raising their cause with the address after their last word, 0 or the
instruction's own address in the value; neither is delegable.
R358, R359, R374: WFI takes the record of the lowest class that was queued first; without one it waits, and goes on at
the next instruction once a token that was pending when the wait began is complete (log 68); s1-s15 of the record's
hart are copied for records with LOG or ENG too (log 69). -/
def Obligations.CallsBreaksAndWfi : Prop :=
  (∀ (o : OpN) (s : State), s.me.system = false → s.cur ≠ servantOf s.cur →
    ∀ (i : Instr) (c : Nat) (v : W64), ((i = .syscall o ∧ c = 0x13 ∧ v = 0) ∨ (i = .brk o ∧ c = 0x14 ∧ v = s.me.pc)) →
      s.ready (instrWtk i) →
      ∃ u, exec i s = .next u ∧ u.me.stat = .stopped ∧ u.me.pc = s.me.pc + BitVec.ofNat 64 (instrLen i) ∧
        u.me.regs = s.me.regs ∧ u.mem = s.mem ∧
        (u.hart (servantOf s.cur)).recs = (s.hart (servantOf s.cur)).recs ++
          [{ hart := s.cur, cause := c, pc := s.me.pc + BitVec.ofNat 64 (instrLen i), val := v, uh := s.me.inUser
             log := false, eng := false, cls := s.me.cls, ctx := s.me.ctx, launch := s.me.launch, mid := s.me.mid }]) ∧
  (∀ (o : OpN) (s : State), s.me.system = true → s.ready (instrWtk (.wfi o)) →
    let h := s.me
    (h.sys.tstatus.getLsbD 11 = true →
      exec (.wfi o) s = .next ((s.waited (instrWtk (.wfi o))).retire (instrLen (.wfi o)))) ∧
    (h.sys.tstatus.getLsbD 11 = false → ∀ before r after, h.recs = before ++ r :: after →
      (∀ q ∈ before, r.cls < q.cls) → (∀ q ∈ after, r.cls ≤ q.cls) →
      ∃ u, exec (.wfi o) s = .next u ∧ u.me.pc = h.sys.tvec ∧ u.me.serving = some r ∧ u.me.recs = h.recs.erase r ∧
        u.me.sys.tcause = BitVec.ofNat 8 r.cause ∧ u.me.sys.tpc = r.pc ∧ u.me.sys.tval = r.val ∧
        u.me.sys.ctxid = BitVec.ofNat 4 r.ctx ∧
        u.me.sys.tstatus = BitVec.ofNat 64 (coreOf r.hart % 256 + r.hart % 2048 % 8 * 256 + 2048 +
          (if r.uh then 16384 else 0) + (if r.log then 65536 else 0) + (if r.eng then 131072 else 0) + r.cls % 4 * 262144) ∧
        (∀ g, s.harts.find r.hart = some g → ∀ q : BitVec 5, 1 ≤ q.toNat → q.toNat ≤ 15 → u.me.reg q = g.reg q) ∧
        (∀ q : BitVec 5, 16 ≤ q.toNat → u.me.reg q = h.reg q) ∧
        u = { s with harts := u.harts } ∧ (∀ k, k ≠ s.cur → u.harts.find k = s.harts.find k)) ∧
    (h.sys.tstatus.getLsbD 11 = false → h.recs = [] →
      let t := s.waited (instrWtk (.wfi o))
      ((∀ w, h.wait = some w → w.kind ≠ wSystem) → ∃ m : Nat, m < 256 ∧ (∀ k, k < 8 → m.testBit k = (h.token k).pending) ∧
        exec (.wfi o) s = .next (t.setMe { t.me with wait := some ⟨wSystem, m, 0⟩ })) ∧
      (∀ w, h.wait = some w → w.kind = wSystem →
        ((∃ k, k < 8 ∧ w.a.testBit k = true ∧ (h.token k).pending = false) →
          exec (.wfi o) s = .next (t.retire (instrLen (.wfi o)))) ∧
        ((∀ k, w.a.testBit k = true → k < 8 ∧ (h.token k).pending = true) → exec (.wfi o) s = .next t))))

/-- R18, R276, R367, R368, R370, R372, R374: HALT, TLBINV, VHTINV, CTXSAVE, CTXLOAD and SLDRAIN in a system hart; an
invalidation calls back the requests to other modules that harts wait for, and waits for the posted stores translated before
it (log 156). That VHTB counts with its low bits masked is log 70, that CTXLOAD answers 1 before 3 before 2 and never waits
for rows is log 106, and what it takes for the state of engines that no CTXSAVE has written is log 105. What a satisfied wait
keeps is log 153. -/
def Obligations.SystemInstructions : Prop :=
  ∀ s : State, s.me.system = true →
    let slot := s.me.sys.ctxid.toNat
    (∀ o : OpAB,
      let page := pageNamed (bitsOf (s.me.reg o.a).toNat 41 0) (s.me.reg o.b).toNat
      let late := Late s slot (fun va => page (va / 65536) = true)
      ((∀ p ∈ s.remote, ¬late p.2) → Answers (.tlbinv o) s (fun t =>
        (dropPages s.myPkg slot page t).retire (instrLen (.tlbinv o)))) ∧
      (s.ready (instrWtk (.tlbinv o)) → Recalls (.tlbinv o) s late)) ∧
    (∀ o : OpN, s.ready (instrWtk (.halt o)) → isSystemKey s.cur = true →
      ∃ u, exec (.halt o) s = .next u ∧ u.me.pc = s.me.pc + BitVec.ofNat 64 (instrLen (.halt o)) ∧
        ((s.ctx s.myPkg slot).spans s.myPkg = true → (u.ctx s.myPkg slot).live = false) ∧
        (∀ k h, s.harts.find k = some h → isSystemKey k = false → pkgOf k = s.myPkg → h.ctx = slot →
          (s.ctx s.myPkg slot).live = true → (s.ctx s.myPkg slot).spans s.myPkg = true → u.harts.find k = none)) ∧
    (∀ o : OpAB, s.ready (instrWtk (.vhtinv o)) →
      let first := (s.me.reg o.a).toNat / 2 ^ 25 % 2 ^ 17
      let n := min (max (s.me.reg o.b).toNat 1) (131072 - first)
      let base := (s.ctx s.myPkg slot).vhtb.toNat / 2 ^ 20 % 2 ^ 22 * 2 ^ 20
      (∀ j, j < n → physOk (base + 8 * (first + j)) = true ∧ eccHit s (physKey s.myPkg (base + 8 * (first + j))) 8 = false) →
      let late := Late s slot (fun va => first ≤ va / 2 ^ 25 ∧ va / 2 ^ 25 < first + n)
      Recalls (.vhtinv o) s late ∧
      ((∀ p ∈ s.remote, ¬late p.2) →
        ∃ u, exec (.vhtinv o) s = .next u ∧ u.me.pc = s.me.pc + BitVec.ofNat 64 (instrLen (.vhtinv o)) ∧ u.mem = s.mem ∧
          (∀ j, (u.ctx s.myPkg slot).vht.get j = if first ≤ j ∧ j < first + n
            then BitVec.ofNat 64 (physDword s s.myPkg (base + 8 * j)) else (s.ctx s.myPkg slot).vht.get j))) ∧
    (∀ o : OpDA, s.ready (instrWtk (.ctxsave o)) →
      let t := s.waited (instrWtk (.ctxsave o))
      let a := (s.me.reg o.a).toNat
      (a % 4096 ≠ 0 → exec (.ctxsave o) s = .next (raise 0x04 (BitVec.ofNat 64 a) t)) ∧
      (a % 4096 = 0 → servedTeam t = none → exec (.ctxsave o) s = .next (t.wr (instrLen (.ctxsave o)) o.d 0)) ∧
      (∀ ck im, a % 4096 = 0 → servedTeam t = some ck → saveTeam t ck false = some im →
        blocksTrap t a (imageLen im) rW = none → coreOf s.cur ≠ ck →
        (stopReady t ck = false → exec (.ctxsave o) s = .next (t.hold wSystem)) ∧
        (stopReady t ck = true → o.d ≠ 0 → ∃ u, exec (.ctxsave o) s = .next u ∧
          u.me.reg o.d = BitVec.ofNat 64 (imageLen im) ∧ (u.core ck).team = none ∧ LeavesAs t u s.seq im ∧
          u.me.serving = s.me.serving))) ∧
    (∀ o : OpR, s.ready (instrWtk (.ctxload o)) →
      let t := s.waited (instrWtk (.ctxload o))
      let a := (s.me.reg o.a).toNat
      let answer := fun (v : W64) => exec (.ctxload o) s = .next (t.wr (instrLen (.ctxload o)) o.d v)
      (a % 4096 ≠ 0 → exec (.ctxload o) s = .next (raise 0x04 (BitVec.ofNat 64 a) t)) ∧
      (a % 4096 = 0 → blocksTrap t a 64 rR = none →
        let x := getBytes t a 64
        let all := blocksTrap t a (max (headLen x) (bitsOf x 127 64)) rR
        (∀ c v, all = some (c, v) → exec (.ctxload o) s = .next (raise c v t)) ∧
        (all = none → imageAt t a = none → answer 1) ∧
        (∀ n im, all = none → imageAt t a = some (n, im) → blocksTrap t a (imageLen im) rR = none →
          im.ctx = x / 2 ^ 16 % 16 ∧ coreId im.core = x / 2 ^ 20 % 256 ∧ im.bnd0 = bitsOf x 159 128 ∧
          ((s.ctx s.myPkg im.ctx).live = false → answer 3) ∧
          ((s.ctx s.myPkg im.ctx).live = true → s.me.reg o.b = -1 →
            (∀ c, c < 192 → coreTakes t im (s.myPkg * 256 + c) = false) → answer 2) ∧
          ((s.ctx s.myPkg im.ctx).live = true → (s.me.reg o.b).toNat < 192 →
            let ck := s.myPkg * 256 + (s.me.reg o.b).toNat
            (coreTakes t im ck = false → answer 2) ∧
            (coreTakes t im ck = true → exec (.ctxload o) s =
              .next ((placeImage (restorePhases t a im) n (overlayImage t a im) ck).wr (instrLen (.ctxload o)) o.d 0)))))) ∧
    (∀ o : OpD,
      let log := ((servedCore s).map (fun ck => (s.core ck).log)).getD []
      (servedCore s = none → Answers (.sldrain o) s (fun t => t.wr (instrLen (.sldrain o)) o.d 0)) ∧
      (∀ ck, servedCore s = some ck → ((∀ e ∈ log, e.ctx ≠ slot) ∨ logStuck s ck = true) →
        Answers (.sldrain o) s (fun t => t.wr (instrLen (.sldrain o)) o.d (BitVec.ofNat 64 (log.length % 65536)))) ∧
      (∀ ck, servedCore s = some ck → (∃ e ∈ log, e.ctx = slot) → logStuck s ck = false →
        Answers (.sldrain o) s (fun t => t.hold wSystem)))

/-- R89, R98, R102: TID, TSZ, TDEPTH and YIELD (which only notes that the hart stands at a swap point), and
Level-mismatch for a level at or beyond DEPTH, by every TREE
instruction that names one.
R95, R100: FARMNEXT hands out the worker's own strips in order, then steals the upper half of the largest block; on a
level that is not FARM it answers the hart's index once, then all ones. That it answers all ones while a worker that is
swapped out still has strips is the model's reading (log 61). -/
def Obligations.TreeReadsAndFarmStrips : Prop :=
  ((∀ o : OpD, Writes (.tdepth o) o.d (fun s => BitVec.ofNat 64 s.levels.length)) ∧
  (∀ (o : OpN) (s : State), Answers (.yield o) s (fun t =>
    (t.setMe { t.me with yielded := true }).retire (instrLen (.yield o)))) ∧
  (∀ (o : OpDL) (s : State) (l : Level), s.levels[o.l.toNat]? = some l →
    let reads := fun (v : W64) => Answers (.tid o) s (fun t => t.wr (instrLen (.tid o)) o.d v)
    Answers (.tsz o) s (fun t => t.wr (instrLen (.tsz o)) o.d (BitVec.ofNat 64 l.count)) ∧
    (l.phys < 2 → reads 0) ∧
    (2 ≤ l.phys → l.dist ≠ 2 → reads (BitVec.ofNat 64 (idxAt s.levels s.me.mid o.l.toNat))) ∧
    (2 ≤ l.phys → l.dist = 2 → reads (s.me.strips.get o.l.toNat - 1))) ∧
  (∀ (s : State) (n : Nat) (i : Instr), s.levels[n]? = none →
    ((∃ o : OpDL, o.l.toNat = n ∧ (i = .tid o ∨ i = .tsz o ∨ i = .farmnext o)) ∨
      (∃ o : OpL, o.l.toNat = n ∧ (i = .barl o ∨ i = .phase o))) →
    Answers i s (raise 0x0B (BitVec.ofNat 64 n)))) ∧
  (∀ (o : OpDL) (s : State) (l : Level) (lr : Launch), s.levels[o.l.toNat]? = some l → s.launchOf s.me = some lr →
    let i := o.l.toNat
    let answers := fun (v : W64) => Answers (.farmnext o) s (fun t => t.wr (instrLen (.farmnext o)) o.d v)
    let gives := fun (n : Nat) (lr' : Launch) => Answers (.farmnext o) s (fun t =>
      ({ t with launches := t.launches.put s.me.launch lr' }.setMe
        { t.me with strips := t.me.strips.set i (BitVec.ofNat 64 (n + 1)) }).wr (instrLen (.farmnext o)) o.d (BitVec.ofNat 64 n))
    let w := idxAt lr.blk.levels s.me.mid i
    let b := farmBlock lr i s.me.mid w
    let put := fun (x : Launch) (k : Nat) (c : Strips) => { x with farms := x.farms.put (farmKey lr.blk.levels i s.me.mid k) c }
    (l.dist ≠ 2 → s.me.farmed.get i = 0 → Answers (.farmnext o) s (fun t =>
      (t.setMe { t.me with farmed := t.me.farmed.set i 1 }).wr (instrLen (.farmnext o)) o.d (tidValue s s.me i))) ∧
    (l.dist ≠ 2 → s.me.farmed.get i ≠ 0 → answers (-1)) ∧
    (l.dist = 2 → b.lo < b.hi → gives b.lo (put lr w ⟨b.lo + 1, b.hi⟩)) ∧
    (l.dist = 2 → b.hi ≤ b.lo →
      (∀ v, victim s s.me.launch lr i s.me.mid l.w = some v →
        let c := farmBlock lr i s.me.mid v
        let k := (c.hi - c.lo + 1) / 2
        gives (c.hi - k) (put (put lr v ⟨c.lo, c.hi - k⟩) w ⟨c.hi - k + 1, c.hi⟩)) ∧
      (victim s s.me.launch lr i s.me.mid l.w = none → answers (-1))))

/-- R96, R99, R101: BARL and PHASE. Each makes its arrival once, then waits, its arrival kept, until the others have. -/
def Obligations.LevelBarriers : Prop :=
  ∀ (o : OpL) (s : State) (l : Level) (lr : Launch), s.levels[o.l.toNat]? = some l → s.launchOf s.me = some lr →
    let i := o.l.toNat
    let met := fun (t : State) => ∀ m ∈ peers lr.blk.levels i s.me.mid, exited lr m = true ∨
      ∃ g, memberHart t s.me.launch m = some g ∧ (t.me.barls.get i).toNat ≤ (g.barls.get i).toNat
    (s.ready (instrWtk (.barl o)) →
      let t := s.waited (instrWtk (.barl o))
      let t1 := t.setMe { t.me with barls := t.me.barls.set i (t.me.barls.get i + 1) }
      ((l.phys < 2 ∨ coresident s.levels i = false) → exec (.barl o) s = .next (raise 0x0B (BitVec.ofNat 64 i) t)) ∧
      (2 ≤ l.phys → coresident s.levels i = true →
        (s.me.wait = some ⟨wBarl, i, 1⟩ → (met t → exec (.barl o) s = .next (t.retire (instrLen (.barl o)))) ∧
          (¬met t → exec (.barl o) s = .next t)) ∧
        (s.me.wait ≠ some ⟨wBarl, i, 1⟩ → hasLog t s.cur = false → performedAt t l.phys = true →
          (met t1 → exec (.barl o) s = .next (t1.retire (instrLen (.barl o)))) ∧
          (¬met t1 → exec (.barl o) s = .next (t1.holdAt wBarl i 1))) ∧
        (s.me.wait ≠ some ⟨wBarl, i, 1⟩ → (hasLog t s.cur = true ∨ performedAt t l.phys = false) →
          exec (.barl o) s = .next (t.hold wOrder)))) ∧
    (s.ready (instrWtk (.phase o)) →
      let t := s.waited (instrWtk (.phase o))
      let u := unitKey lr.blk.levels i s.me.mid
      let t1 := advancePhase (t.setMe { t.me with phases := t.me.phases.set i (t.me.phases.get i + 1) }) s.me.launch i s.me.mid
      let behind := fun (x : State) => ∃ y, x.launchOf x.me = some y ∧ phaseOf y u < (x.me.phases.get i).toNat
      (l.phased = false → exec (.phase o) s = .next (t.retire (instrLen (.phase o)))) ∧
      (l.phased = true →
        (s.me.wait = some ⟨wPhase, i, 1⟩ → (¬behind t → exec (.phase o) s = .next (t.retire (instrLen (.phase o)))) ∧
          (behind t → exec (.phase o) s = .next t)) ∧
        (s.me.wait ≠ some ⟨wPhase, i, 1⟩ → leadOk t lr i = true → performedAt t (phaseScope lr.blk.levels i) = true →
          (¬behind t1 → exec (.phase o) s = .next (t1.retire (instrLen (.phase o)))) ∧
          (behind t1 → exec (.phase o) s = .next (t1.holdAt wPhase i 1))) ∧
        (s.me.wait ≠ some ⟨wPhase, i, 1⟩ → leadOk t lr i = true → performedAt t (phaseScope lr.blk.levels i) = false →
          exec (.phase o) s = .next (t.hold wOrder)) ∧
        (s.me.wait ≠ some ⟨wPhase, i, 1⟩ → leadOk t lr i = false → exec (.phase o) s = .next (t.hold wPhase))))

/-- R56, R60, R61, R137, R140, R141 and the tangents of R238: vector arithmetic of two and three sources, on integers
modulo 2^w (clamped under .SAT) and on floating-point values rounded once. The sign of a NaN tangent of VFNMA and VFNMS
is the model's reading (log entry 128), and so are, where fd is not fa, the rounding of VMIN and VMAX (log 27), the wrapping
of an integer result (log 28) and the format of its tangents (log 26). -/
def Obligations.VectorArithmetic : Prop :=
  (∀ o : OpV,
    let a := o.a.toNat
    let b := o.b.toNat
    let sat := decide (subOf o.x = 1)
    let kd := if sat then Kind.strict else Kind.any
    let elt := fun (i : Instr) (k : Kind) (onInt : VEnv → Int → Int → Int) (onNum : VEnv → Machine.Num → Machine.Num → Val)
        (tan : VEnv → Nat → Nat → Nat → Machine.Num) =>
      VecWrites i (venv o.x) k [a, b] o.d o.m VEnv.fd
        (fun v e => if isInt v.fa then v.packInt sat (onInt v (v.int a e) (v.int b e))
          else v.pack (onNum v (v.num a 0 e) (v.num b 0 e)))
        (fun v k e r => v.tan (tan v k e r))
    elt (.vadd o) kd (fun _ x y => x + y) (fun v x y => numAdd v.rm x y)
      (fun v k e _ => v.rt (numAdd v.rm (v.num a k e) (v.num b k e)).x) ∧
    elt (.vsub o) kd (fun _ x y => x - y) (fun v x y => numSub v.rm x y)
      (fun v k e _ => v.rt (numSub v.rm (v.num a k e) (v.num b k e)).x) ∧
    elt (.vmul o) kd (fun _ x y => x * y) (fun _ x y => numMul x y)
      (fun v k e _ => v.rt (numFma v.rm false false (v.num a k e) (v.num b 0 e)
        (v.rt (numMul (v.num a 0 e) (v.num b k e)).x)).x) ∧
    elt (.vmin o) .any (fun _ x y => if x ≤ y then x else y) (fun _ x y => numMinMax false x y)
      (fun v k e _ => if keepsFirst false (v.num a 0 e) (v.num b 0 e) then v.num a k e else v.num b k e) ∧
    elt (.vmax o) .any (fun _ x y => if x ≤ y then y else x) (fun _ x y => numMinMax true x y)
      (fun v k e _ => if keepsFirst true (v.num a 0 e) (v.num b 0 e) then v.num a k e else v.num b k e) ∧
    elt (.vmulh o) .int (fun v x y => x * y / 2 ^ fmtBits v.fa) (fun _ _ _ => invalid) (fun _ _ _ _ => Machine.Num.zero) ∧
    elt (.vdiv o) .any
      (fun v x y => if y = 0 then (if isSignedInt v.fa then -1 else intMax v.fa)
        else if intMax v.fa < x.tdiv y then intMin v.fa else x.tdiv y)
      (fun _ x y => numDiv x y)
      (fun v k e r => v.rt (numDiv (v.rt (numFma v.rm true false (decodeNum v.fd r) (v.num b k e) (v.num a k e)).x)
        (v.num b 0 e)).x)) ∧
  (∀ (i : Instr) (d a b : BitVec 6) (m : BitVec 4) (x : Option Ext) (negP negC : Bool),
    ((∃ o : OpV, i = .vfma o ∧ d = o.d ∧ a = o.a ∧ b = o.b ∧ m = o.m ∧ x = o.x ∧ negP = false ∧ negC = false) ∨
      (∃ o : OpVX, d = o.d ∧ a = o.a ∧ b = o.b ∧ m = o.m ∧ x = some o.x ∧
        ((i = .vfms o ∧ negP = false ∧ negC = true) ∨ (i = .vfnma o ∧ negP = true ∧ negC = false) ∨
          (i = .vfnms o ∧ negP = true ∧ negC = true)))) →
    let c := (x.map (fun e => if e.vs3 = 63 then d.toNat else e.vs3.toNat)).getD d.toNat
    VecWrites i (venv x) .any [a.toNat, b.toNat, c] d m VEnv.fd
      (fun v e =>
        if isInt v.fa then
          let p := v.int a.toNat e * v.int b.toNat e
          v.packInt false ((if negP then -p else p) + (if negC then -v.int c e else v.int c e))
        else v.pack (numFma v.rm negP negC (v.num a.toNat 0 e) (v.num b.toNat 0 e) (v.num c 0 e)))
      (fun v k e _ =>
        let t := v.rt (numFma v.rm false false (v.num a.toNat k e) (v.num b.toNat 0 e)
          (v.rt (numMul (v.num a.toNat 0 e) (v.num b.toNat k e)).x)).x
        let t1 := if negP && !t.isNan then t.neg else t
        v.tan (v.rt (if negC then numSub v.rm t1 (v.num c k e) else numAdd v.rm t1 (v.num c k e)).x)))

/-- R60, R141-R143 and the tangents of R237, R238: the element instructions of one source and the shifts of R139. The
model's readings, where fd is not fa: the flags of the final rounding of VFLOOR, VCEIL, VABS and VNEG (log 29), an integer
result that wraps (log 28), and an estimate in an integer fd (log 30). -/
def Obligations.VectorElementwise : Prop :=
  (∀ o : OpV2,
    let a := o.a.toNat
    let flt := fun (i : Instr) (res : VEnv → Machine.Num → Nat × Flags) (tan : VEnv → Machine.Num → Machine.Num → Machine.Num → Nat) =>
      VecWrites i (venv o.x) .float [a] o.d o.m VEnv.fd (fun v e => res v (v.num a 0 e))
        (fun v k e r => tan v (v.num a 0 e) (v.num a k e) (decodeNum v.fd r))
    let estT := fun (v : VEnv) (y : Machine.Num) => if isInt v.fd then 0 else (roundTo v.fd 1 v.sat4 (rt (tanFmt v.fd) 1 y)).1
    let whole := fun (v : VEnv) (rm : Nat) (nx : Bool) (x : Machine.Num) =>
      v.pack ⟨(integral rm x).1.quiet, (if x.isSig then fNV else 0) ||| (if nx && (integral rm x).2 then fNX else 0)⟩
    flt (.vsqrt o) (fun v x => v.pack (numSqrt x))
      (fun v _ x' r => v.tan (v.rt (numDiv x' (numMul (.fin false 2 0) r).x).x)) ∧
    flt (.vrcpe o) rcpe (fun v _ x' r => estT v (numMul (numMul x'.neg r).x r).x) ∧
    flt (.vrsqe o) rsqe
      (fun v _ x' r => estT v (numMul (numMul (numMul (numMul x'.neg r).x r).x r).x (.fin false 1 (-1))).x) ∧
    flt (.vexp2 o) (fun v x => exp2To v.fd v.rm v.sat4 x) (fun v _ x' r => v.tan (timesLn2 (tanFmt v.fd) v.rm (numMul r x').x)) ∧
    flt (.vlog2 o) (fun v x => log2To v.fd v.rm v.sat4 x) (fun v x x' _ => v.tan (overLn2 (tanFmt v.fd) v.rm x' x)) ∧
    flt (.vfloor o) (fun v => whole v 3 false) (fun _ _ _ _ => 0) ∧
    flt (.vceil o) (fun v => whole v 2 false) (fun _ _ _ _ => 0) ∧
    flt (.vrint o) (fun v => whole v v.rm true) (fun _ _ _ _ => 0) ∧
    VecWrites (.vclass o) (venv o.x) .float [a] o.d o.m (fun v => unsignedOf (fmtBits v.fa))
      (fun v e => (numClass v.fa (sourceBits v.h v.fa a 0 e), 0)) (fun _ _ _ _ => 0) ∧
    VecWrites (.vclz o) (venv o.x) .int [a] o.d o.m VEnv.fd
      (fun v e => (clz (fmtBits v.fa) (sourceBits v.h v.fa a 0 e), 0)) (fun _ _ _ _ => 0) ∧
    VecWrites (.vpopc o) (venv o.x) .int [a] o.d o.m VEnv.fd
      (fun v e => (popCount (sourceBits v.h v.fa a 0 e) (fmtBits v.fa), 0)) (fun _ _ _ _ => 0) ∧
    (∀ neg : Bool, VecWrites (if neg then .vneg o else .vabs o) (venv o.x) .any [a] o.d o.m VEnv.fd
      (fun v e =>
        let x := v.num a 0 e
        let w := fmtBits v.fa
        let sign := neg && !x.sign
        if isInt v.fa then v.packInt false (if neg then -v.int a e else (v.int a e).natAbs)
        else if v.fd = v.fa then (putBits (sourceBits v.h v.fa a 0 e) (w - 1) 1 (if sign then 1 else 0), 0)
        else roundTo v.fd v.rm v.sat4 (x.setSign sign))
      (fun v k e _ => v.tan (if neg then (v.num a k e).neg
        else if (v.num a 0 e).isZero then Machine.Num.zero else if (v.num a 0 e).sign then (v.num a k e).neg else v.num a k e)))) ∧
  (∀ o : OpV,
    let sh := fun (i : Instr) (f : Nat → Nat → Nat → Nat) => VecWrites i (venv o.x) .strict [o.a.toNat, o.b.toNat] o.d o.m
      VEnv.fd (fun v e => v.packInt false (v.ofBits (f (fmtBits v.fa) (sourceBits v.h v.fa o.a.toNat 0 e)
        (sourceBits v.h v.fa o.b.toNat 0 e % fmtBits v.fa)))) (fun _ _ _ _ => 0)
    sh (.vshl o) (fun w x n => (x <<< n) % 2 ^ w) ∧ sh (.vshr o) (fun _ x n => x >>> n) ∧
    sh (.vsar o) (fun w x n => wrap w (toSigned w x / (2 ^ n : Nat)))) ∧
  (∀ v : VEnv,
    let put := fun (y : Val) => packVal v.fd 1 v.sat4 y
    let est := fun (y : Machine.Num) =>
      let r := roundTo v.fd 1 v.sat4 (cut8 y)
      ((r.1, r.2 &&& ~~~(fNX ||| fUF)) : Nat × Flags)
    (∀ n g p, rcpe v (.nan n g p) = put ⟨(Machine.Num.nan n g p).quiet, if g then fNV else 0⟩ ∧
      rsqe v (.nan n g p) = put ⟨(Machine.Num.nan n g p).quiet, if g then fNV else 0⟩) ∧
    (∀ n, rcpe v (.inf n) = put ⟨.fin n 0 0, 0⟩) ∧ rsqe v (.inf false) = put ⟨.fin false 0 0, 0⟩ ∧
    rsqe v (.inf true) = put invalid ∧
    (∀ n e, rcpe v (.fin n 0 e) = ((put ⟨.inf n, 0⟩).1, fDZ) ∧ rsqe v (.fin n 0 e) = ((put ⟨.inf n, 0⟩).1, fDZ)) ∧
    (∀ n m e, m ≠ 0 → rcpe v (.fin n m e) = est (numDiv (.fin false 1 0) (.fin n m e)).x ∧
      rsqe v (.fin true m e) = put invalid ∧
      rsqe v (.fin false m e) = est (numDiv (.fin false 1 0) (numSqrt (.fin false m e)).x).x))

/-- R138, R145, R147, R148, R150, R149 and R237: VAND, VOR, VXOR, VSEL, VBCAST, VIOTA, VTID and VTOQ. Which
header bytes a bitwise instruction writes on GX, and that VSEL of an integer format writes +0 to the planes, are the
model's readings (log entries 31 and 32), and so is the order of VTID's two causes (log 147). -/
def Obligations.VectorMoves : Prop :=
  (∀ (o : OpV) (s : State),
    let fd := fdOf o.x s.me
    let bit := fun (i : Instr) (f : Nat → Nat → Nat) => s.goes i →
      VecSets i s o.d fd (if xfOf o.x then fd else s.me.tag o.a.toNat) (fun e => s.activeUnit fd o.m e && s.within fd e)
        (fun e => (f (rawUnit fd (s.me.vget o.a.toNat) e) (rawUnit fd (s.me.vget o.b.toNat) e), 0)) (fun _ _ => 0)
    bit (.vand o) (fun x y => x &&& y) ∧ bit (.vor o) (fun x y => x ||| y) ∧ bit (.vxor o) (fun x y => x ^^^ y) ∧
    (s.goes (.vsel o) →
      let v := venv o.x (s.waited (instrWtk (.vsel o)))
      let r := fun e => if maskBit (s.me.mask o.m.toNat) e then o.a.toNat else o.b.toNat
      formatTrap .any v.fa v.fa v.h o.a.toNat [o.a.toNat, o.b.toNat] = none →
      VecSets (.vsel o) s o.d v.fa v.fa (fun e => s.activeUnit v.fa 15 e && s.within v.fa e)
        (fun e => (sourceBits v.h v.fa (r e) 0 e, sourceFlags v.h v.fa [o.a.toNat, o.b.toNat] e))
        (fun k e => if isInt v.fa then 0 else sourceBits v.h v.fa (r e) k e))) ∧
  (∀ (o : OpBc) (s : State), s.goes (.vbcast o) →
    let fd := fdOf (formX o.form) s.me
    let b := (o.form.literal).getD (s.me.reg o.b)
    isGx fd = false → VecSets (.vbcast o) s o.d fd fd (fun e => s.activeUnit fd 15 e && s.within fd e)
      (fun _ => (b.toNat % 2 ^ fmtBits fd, 0)) (fun _ _ => 0)) ∧
  (∀ (o : OpIota) (s : State), s.goes (.viota o) →
    let fd := fdOf o.x s.me
    let before := fun e => ((List.range e).filter (fun i => o.m == 15 || maskBit (s.me.mask o.m.toNat) i)).length
    isInt fd = true → VecSets (.viota o) s o.d fd fd (fun e => s.activeUnit fd o.m e && s.within fd e)
      (fun e => (((s.me.reg o.b).toNat + before e) % 2 ^ fmtBits fd, 0)) (fun _ _ => 0)) ∧
  (∀ (o : OpTid) (s : State), s.goes (.vtid o) →
    let fd := fdOf o.x s.me
    isInt fd = true →
    (∀ l, s.levels[o.l.toNat]? = some l → VecSets (.vtid o) s o.d fd fd (fun e => s.activeUnit fd o.m e && s.within fd e)
      (fun e => ((if l.phys < 2 then elementIdx s.levels o.l.toNat e else (tidValue s s.me o.l.toNat).toNat) % 2 ^ fmtBits fd, 0))
      (fun _ _ => 0)) ∧
    (s.levels[o.l.toNat]? = none → exec (.vtid o) s = .next (raise 0x0B (BitVec.ofNat 64 o.l.toNat) (s.waited (instrWtk (.vtid o)))))) ∧
  (∀ (o : OpToq) (s : State),
    let t := s.me.tag o.a.toNat
    let w := if isGx t then 64 else fmtBits t
    let i := (s.me.reg o.b).toNat
    let x := elemOf (s.me.vget o.a.toNat) w i
    (16 ≤ (s.me.queue o.q.toNat).length → s.goes (.vtoq o) →
      exec (.vtoq o) s = .next ((s.waited (instrWtk (.vtoq o))).hold wQueue)) ∧
    ((s.me.queue o.q.toNat).length < 16 →
    VecAnswers (.vtoq o) s (fun h => h.setQueue o.q.toNat (s.me.queue o.q.toNat ++
      [if 8192 / w ≤ i then 0 else if isSignedInt t then sext64 w x else zext64 w x]))))

/-- R144: each compare writes the active bits of its mask and raises NV as its relation says; nothing else changes.
R112, R146: the MASK instructions on all 1,024 bits, the counted bits of MSET, MPOP and MFIRST, and the wait of a push
on a full queue. -/
def Obligations.VectorComparesAndMasks : Prop :=
  (∀ (o : OpCmp) (s : State),
    let cmp := fun (i : Instr) (rel : Ordering → Bool) (unord quiet : Bool) => s.goes i →
      let v := venv o.x (s.waited (instrWtk i))
      let num := fun (r : BitVec 6) e => v.num r.toNat 0 e
      formatTrap .any v.fa v.fa v.h o.a.toNat [o.a.toNat, o.b.toNat] = none →
      ∃ (x : MReg) (fl : Flags), exec i s = .next (s.vdone i (fun h => (h.setMask o.n.toNat x).orFlags fl)) ∧
        (∀ e, e < 1024 → maskBit x e =
          if decide (s.me.csr.vstart ≤ e ∧ e < s.me.csr.vl) && (o.m == 15 || maskBit (s.me.mask o.m.toNat) e) then
            (if (num o.a e).isNan || (num o.b e).isNan then unord else rel (numCmp (num o.a e) (num o.b e)))
          else maskBit (s.me.mask o.n.toNat) e) ∧
        (∀ b, fl.getLsbD b = (List.range s.me.csr.vl).any (fun e =>
          (decide (s.me.csr.vstart ≤ e) && (o.m == 15 || maskBit (s.me.mask o.m.toNat) e)) &&
          ((sourceFlags v.h v.fa [o.a.toNat, o.b.toNat] e).getLsbD b || (fNV.getLsbD b &&
            (((num o.a e).isNan || (num o.b e).isNan) && ((num o.a e).isSig || (num o.b e).isSig || !quiet))))))
    cmp (.vcmpeq o) (fun c => c == .eq) false true ∧ cmp (.vcmpne o) (fun c => c != .eq) true true ∧
    cmp (.vcmplt o) (fun c => c == .lt) false false ∧ cmp (.vcmple o) (fun c => c != .gt) false false ∧
    cmp (.vcmpgt o) (fun c => c == .gt) false false ∧ cmp (.vcmpge o) (fun c => c != .lt) false false) ∧
  (∀ s : State,
    let m := fun (r : BitVec 4) => s.me.mask r.toNat
    let sets := fun (i : Instr) (n : BitVec 4) (x : MReg) => VecAnswers i s (fun h => h.setMask n.toNat x)
    let g := if isGx s.me.cf then gxLanes s.me.cf else 1
    (∀ o : OpM3,
      sets (.mand o) o.n (m o.a &&& m o.b) ∧ sets (.mor o) o.n (m o.a ||| m o.b) ∧ sets (.mxor o) o.n (m o.a ^^^ m o.b) ∧
      sets (.mandn o) o.n (m o.a &&& ~~~(m o.b)) ∧
      (∃ x : MReg, sets (.mset o) o.n x ∧ ∀ e, e < 1024 → maskBit x e =
        (maskBit (m o.a) e || maskBit (m o.b) e || (decide (e % g = 0 ∧ e / g < s.me.csr.vl))))) ∧
    (∀ o : OpM2, sets (.mnot o) o.n (~~~(m o.a)) ∧ sets (.mmov o) o.n (m o.a)) ∧
    (∀ o : OpM1, sets (.mclr o) o.n 0) ∧
    (∀ o : OpMQ,
      let q := s.me.queue o.q.toNat
      let on := (List.range s.me.csr.vl).filter (fun b => maskBit (m o.a) (g * b))
      (q.length < 16 →
        VecAnswers (.mpop o) s (fun h => h.setQueue o.q.toNat (q ++ [BitVec.ofNat 64 on.length])) ∧
        VecAnswers (.mfirst o) s (fun h => h.setQueue o.q.toNat (q ++ [(on.head?.map (BitVec.ofNat 64)).getD (-1)]))) ∧
      (16 ≤ q.length → ∀ i : Instr, (i = .mpop o ∨ i = .mfirst o) → s.goes i →
        exec i s = .next ((s.waited (instrWtk i)).hold wQueue))))

/-- R152-R158: the element movers: which unit of which source each active unit of vd takes, or the zero unit. That the
planes of an integer format become +0, and which header bytes a GX group gets, are the model's readings (log entries 32
and 31). -/
def Obligations.ElementMovers : Prop :=
  ∀ s : State,
    let f := s.me.cf
    let vl := s.me.csr.vl
    (∀ o : OpV,
      let w := fmtBits (s.me.tag o.b.toNat)
      isInt (s.me.tag o.b.toNat) = true →
      Moves (.vperm o) s o.d [o.a.toNat] (s.activeUnit f o.m)
        (fun e => if e < 8192 / w then some (o.a.toNat, elemOf (s.me.vget o.b.toNat) w e) else none)) ∧
    (∀ o : OpVS, Moves (.vslideDn o) s o.d [o.a.toNat] (s.activeUnit f o.m)
      (fun e => some (o.a.toNat, e + (s.me.reg o.b).toNat))) ∧
    (∀ o : OpVSX, Moves (.vslideUp o) s o.d [o.a.toNat]
      (fun e => s.activeUnit f o.m e && decide ((s.me.reg o.b).toNat ≤ e))
      (fun e => some (o.a.toNat, e - (s.me.reg o.b).toNat))) ∧
    (∀ o : OpV2,
      Moves (.vcompr o) s o.d [o.a.toNat] (fun c => decide (s.me.csr.vstart ≤ c ∧ c < (s.chosen f o.m).length))
        (fun c => (s.chosen f o.m)[c]?.map (fun j => (o.a.toNat, j))) ∧
      Moves (.vexpnd o) s o.d [o.a.toNat] (s.activeUnit f o.m)
        (fun e => some (o.a.toNat, ((s.chosen f o.m).filter (fun j => decide (j < e))).length))) ∧
    (∀ o : OpV, Moves (.vzipLo o) s o.d [o.a.toNat, o.b.toNat] (s.activeUnit f o.m)
      (fun e => some (if e % 2 = 1 then o.b.toNat else o.a.toNat, e / 2))) ∧
    (∀ o : OpVX,
      Moves (.vzipHi o) s o.d [o.a.toNat, o.b.toNat] (s.activeUnit f o.m)
        (fun e => some (if e % 2 = 1 then o.b.toNat else o.a.toNat, e / 2 + vl / 2)) ∧
      Moves (.vunzipEv o) s o.d [o.a.toNat, o.b.toNat] (s.activeUnit f o.m)
        (fun e => some (if 2 * e < vl then (o.a.toNat, 2 * e) else (o.b.toNat, 2 * e - vl))) ∧
      Moves (.vunzipOd o) s o.d [o.a.toNat, o.b.toNat] (s.activeUnit f o.m)
        (fun e => some (if 2 * e + 1 < vl then (o.a.toNat, 2 * e + 1) else (o.b.toNat, 2 * e + 1 - vl))))

/-- R73, R74, R80, R159-R161, R239: reductions combine the active elements in the pairwise tree of R73 into element 0 (an
integer result clamped into another integer fd), scans in order into every active element, group reductions per aligned
group; a level of the tree combines neighbours, and carries up the last of an odd number. The model's readings: planes inside
a reduction follow fa (log 26), the clamped total (log 28), elements beyond a register as +0 (log 33), and the partial
tangents that a stopped VSCAN goes on from (log 133). VRED.MIN and VRED.MAX of no active element give +0 planes (log 164). -/
def Obligations.ReductionsAndScans : Prop :=
  (∀ (o : OpV2) (op : RedOp) (i : Instr) (s : State),
    (op, i) ∈ [(RedOp.sum, Instr.vredSum o), (.min, .vredMin o), (.max, .vredMax o), (.and, .vredAnd o), (.or, .vredOr o),
      (.xor, .vredXor o)] → s.goes i →
    let v := venv o.x (s.waited (instrWtk i))
    formatTrap (redKind op) v.fa v.fd v.h o.a.toNat [o.a.toNat] = none →
    let es := (List.range s.me.csr.vl).filter (fun e => o.m == 15 || maskBit (s.me.mask o.m.toNat) e)
    let t := (redTree v op (es.length + 1) (es.map (itemAt v o.a.toNat))).getD ⟨identity v.fa op, [], 0⟩
    let r := if v.fd = v.fa then (t.x, 0) else if isInt v.fa then v.packInt true (v.ofBits t.x)
      else v.pack ⟨decodeNum v.fa t.x, 0⟩
    VecSets i s o.d v.fd v.fd (fun e => decide (e = 0 ∧ s.me.csr.vstart = 0 ∧ s.me.csr.vl ≠ 0))
      (fun _ => (r.1, r.2 ||| t.fl)) (fun k _ => v.planeOf t k)) ∧
  (∀ (o : OpV2) (op : RedOp) (i : Instr) (s : State),
    (op, i) ∈ [(RedOp.sum, Instr.vscanSum o), (.min, .vscanMin o), (.max, .vscanMax o), (.and, .vscanAnd o), (.or, .vscanOr o),
      (.xor, .vscanXor o)] → s.goes i →
    let v := { venv o.x (s.waited (instrWtk i)) with fd := faOf o.x s.me }
    formatTrap (redKind op) v.fa v.fd v.h o.a.toNat [o.a.toNat] = none →
    let on := fun e => decide (e < s.me.csr.vl) && (o.m == 15 || maskBit (s.me.mask o.m.toNat) e)
    ∃ y : Nat → RItem,
      (∀ e, e < s.me.csr.vstart → y e =
        let bits := (span 1 v.h.planesInForce).map (fun k => elemOf (v.h.plane o.d.toNat k) (fmtBits v.fa) e)
        let kept := v.h.chains.find? (fun c => c.pc == v.h.pc && c.idx == 0 && c.vstart == s.me.csr.vstart)
        ⟨elemOf (v.h.vget o.d.toNat) (fmtBits v.fa) e, if isInt v.fa then [] else match kept with
          | some c => if c.acc.map v.tan = bits then c.acc else bits.map (decodeNum v.fa)
          | none => bits.map (decodeNum v.fa), 0⟩) ∧
      (∀ e, s.me.csr.vstart ≤ e → on e = true → s.within v.fd e = true →
        ((∀ q, q < e → on q = false) → y e = itemAt v o.a.toNat e) ∧
        (∀ p, p < e → on p = true → (∀ q, p < q → q < e → on q = false) →
          y e = combine v op { y p with fl := 0 } (itemAt v o.a.toNat e))) ∧
      VecSets i s o.d v.fd v.fd (fun e => s.activeUnit v.fd o.m e && s.within v.fd e)
        (fun e => ((y e).x, (y e).fl)) (fun k e => v.planeOf (y e) k)) ∧
  (∀ (o : OpVG) (op : RedOp) (i : Instr) (s : State),
    (op, i) ∈ [(RedOp.sum, Instr.vgredSum o), (.min, .vgredMin o), (.max, .vgredMax o), (.or, .vgredOr o)] → s.goes i →
    let v := { venv o.x (s.waited (instrWtk i)) with fd := faOf o.x s.me }
    formatTrap (redKind op) v.fa v.fd v.h o.a.toNat [o.a.toNat] = none →
    let n := 2 ^ o.g.toNat
    let es := fun e => (List.range s.me.csr.vl).filter (fun j =>
      (o.m == 15 || maskBit (s.me.mask o.m.toNat) j) && j / n == e / n)
    let t := fun e => (redTree v op ((es e).length + 1) ((es e).map (itemAt v o.a.toNat))).getD ⟨0, [], 0⟩
    VecSets i s o.d v.fd v.fd (fun e => s.activeUnit v.fd o.m e && s.within v.fd e)
      (fun e => ((t e).x, (t e).fl)) (fun k e => v.planeOf (t e) k)) ∧
  (∀ (v : VEnv) (a b : RItem),
    let x := v.ofBits a.x
    let y := v.ofBits b.x
    (isInt v.fa = true →
      (combine v .sum a b).x = wrap (fmtBits v.fa) (x + y) ∧ (combine v .min a b).x = (if x ≤ y then a.x else b.x) ∧
      (combine v .max a b).x = (if y ≤ x then a.x else b.x) ∧ (combine v .and a b).x = a.x &&& b.x ∧
      (combine v .or a b).x = a.x ||| b.x ∧ (combine v .xor a b).x = a.x ^^^ b.x) ∧
    (isInt v.fa = false →
      (combine v .sum a b).x = (packVal v.fa v.rm v.sat4 (numAdd v.rm (decodeNum v.fa a.x) (decodeNum v.fa b.x))).1 ∧
      (combine v .min a b).x = (packVal v.fa v.rm v.sat4 (numMinMax false (decodeNum v.fa a.x) (decodeNum v.fa b.x))).1 ∧
      (combine v .max a b).x = (packVal v.fa v.rm v.sat4 (numMinMax true (decodeNum v.fa a.x) (decodeNum v.fa b.x))).1)) ∧
  (∀ (v : VEnv) (op : RedOp) (a b c d e : RItem),
    redTree v op 2 [a] = some a ∧ redTree v op 3 [a, b] = some (combine v op a b) ∧
    redTree v op 4 [a, b, c] = some (combine v op (combine v op a b) c) ∧
    redTree v op 6 [a, b, c, d, e] = some (combine v op (combine v op (combine v op a b) (combine v op c d)) e)) ∧
  (∀ (v : VEnv) (op : RedOp) (l : List RItem), 2 ≤ l.length →
    let up := (List.range ((l.length + 1) / 2)).filterMap (fun j =>
      match l[2 * j]?, l[2 * j + 1]? with
      | some a, some b => some (combine v op a b)
      | some a, none => some a
      | none, _ => none)
    redTree v op (l.length + 1) l = redTree v op (up.length + 1) up)

/-- R62, R66, R162-R165: conversion, retagging, funnel shifts and bit fields. That VEXT works in fa and
leaves its tag, and refuses GX in fd, is the model's reading (log entry 34), as are the header of VCVT (log entry 31), a float-tagged source of a funnel shift
(log 148) and the width of VEXT at 8 bits (log 149).
R235, R236, R242, R243: DUAL, TSEED, TGET and TCLR. -/
def Obligations.ConversionsAndTangents : Prop :=
  ((∀ (o : OpV2) (s : State),
    (s.goes (.vcvt o) →
      let h := (s.waited (instrWtk (.vcvt o))).me
      let sf := if xfOf o.x then faOf o.x h else s.me.tag o.a.toNat
      let df := fdOf o.x h
      let rm := rmOf o.x h
      let unit := fun (k e : Nat) =>
        let r := h.plane o.a.toNat k
        if k ≠ 0 ∧ (isInt sf ∨ isInt df) then ((0, 0) : Nat × Flags)
        else if sf = df then (rawUnit df r e, 0)
        else if isGx df then
          let q := gxQuant df ((span (32 * e) 32).map (numAt sf r))
          (gxPack df q, q.fl)
        else if k = 0 then convert sf df rm h.sate4 (numAt sf r e)
        else roundTo df rm h.sate4 (rt (tanFmt df) rm (numAt sf r e))
      VecSets (.vcvt o) s o.d df df (fun e => s.activeUnit df o.m e && s.within df e) (unit 0) (fun k e => (unit k e).1)) ∧
    (s.goes (.vretag o) →
      let h := (s.waited (instrWtk (.vretag o))).me
      let f := fdOf o.x h
      VecSets (.vretag o) s o.d f f (fun e => s.activeUnit f o.m e && s.within f e)
        (fun e => (rawUnit f (h.vget o.a.toNat) e, 0)) (fun k e => rawUnit f (h.plane o.a.toNat k) e))) ∧
  (∀ o : OpVX,
    let fun3 := fun (i : Instr) (f : Nat → Nat → Nat → Nat) =>
      VecWrites i (venvFa (some o.x)) .int [o.a.toNat, o.b.toNat, o.x.vs3.toNat] o.d o.m VEnv.fd
        (fun v e =>
          let w := fmtBits v.fa
          let c := sourceBits v.h v.fa o.a.toNat 0 e * 2 ^ w + sourceBits v.h v.fa o.b.toNat 0 e
          (f w c (sourceBits v.h v.fa o.x.vs3.toNat 0 e % w) % 2 ^ w, 0)) (fun _ _ _ _ => 0)
    fun3 (.vfunr o) (fun _ c n => c >>> n) ∧ fun3 (.vfunl o) (fun w c n => (c <<< n) >>> w)) ∧
  (∀ (i : Instr) (x : Option Ext) (d a : BitVec 6) (b : Option (BitVec 6)) (m : BitVec 4) (sgn : Bool) (imm : Nat),
    ((∃ o : OpV, i = .vext o ∧ x = o.x ∧ d = o.d ∧ a = o.a ∧ b = some o.b ∧ m = o.m ∧ sgn = false) ∨
      (∃ o : OpVX, i = .vextS o ∧ x = some o.x ∧ d = o.d ∧ a = o.a ∧ b = some o.b ∧ m = o.m ∧ sgn = true) ∨
      (∃ o : OpV2X, x = some o.x ∧ d = o.d ∧ a = o.a ∧ b = none ∧ m = o.m ∧ imm = o.x.imm32.toNat ∧
        ((i = .vextUniform o ∧ sgn = false) ∨ (i = .vextSUniform o ∧ sgn = true)))) →
    ∀ s : State,
      let fd := fdOf x (s.waited (instrWtk i)).me
      (isGx fd = true → s.goes i → exec i s = .next (raise 0x03 (BitVec.ofNat 64 a.toNat) (s.waited (instrWtk i)))) ∧
      (isGx fd = false → VecWritesAt s i (venvFa x) .int (a.toNat :: (b.map BitVec.toNat).toList) d m VEnv.fd
      (fun v e =>
        let w := fmtBits v.fa
        let q := (b.map (fun r => sourceBits v.h v.fa r.toNat 0 e)).getD imm
        let k := min (q / 256 % 64) w
        let y := (sourceBits v.h v.fa a.toNat 0 e / 2 ^ (q % 64)) % 2 ^ k
        (if sgn ∧ 0 < k ∧ 2 ^ (k - 1) ≤ y then y + 2 ^ w - 2 ^ k else y, 0)) (fun _ _ _ _ => 0)))) ∧
  ((∀ (o : OpDual) (s : State),
    (o.n.toNat ≤ s.me.nplanes →
      exec (.dual o) s = .next (s.setMe { s.me with dual := some (o.n.toNat, s.me.pc), pc := s.me.pc + 4 })) ∧
    (s.me.nplanes < o.n.toNat → exec (.dual o) s = .next (raise 0x01 s.me.pc s))) ∧
  (∀ (o : OpTan) (s : State), s.me.nplanes < o.k.toNat →
    exec (.tseed o) s = .next (raise 0x01 s.me.pc s) ∧ exec (.tget o) s = .next (raise 0x01 s.me.pc s)) ∧
  (∀ (o : OpTan) (s : State), o.k.toNat ≤ s.me.nplanes →
    let on := fun e => s.activeUnit s.me.cf o.m e
    (s.goes (.tseed o) →
      let h := (s.waited (instrWtk (.tseed o))).me
      let f := h.tag o.d.toNat
      (tagFits (h.tag o.a.toNat) f = true ∨ h.fconv = true) →
      ∃ (x : VReg) (fl : Flags),
        exec (.tseed o) s = .next (s.vdone (.tseed o) (fun h => (h.setPlane o.d.toNat o.k.toNat x).orFlags fl)) ∧
        (∀ e, held f e = true → rawUnit f x e =
          if on e then unitStored f (unitAt h f o.a.toNat 0 e).1 else rawUnit f (h.plane o.d.toNat o.k.toNat) e) ∧
        (∀ b, fl.getLsbD b = (List.range s.me.csr.vl).any (fun e => on e && held f e && (unitAt h f o.a.toNat 0 e).2.getLsbD b))) ∧
    (s.goes (.tget o) →
      let h := (s.waited (instrWtk (.tget o))).me
      let f := h.tag o.a.toNat
      VecSets (.tget o) s o.d f f (fun e => on e && held f e) (fun e => (rawUnit f (h.plane o.a.toNat o.k.toNat) e, 0))
        (fun _ _ => 0))) ∧
  (∀ (o : OpTclr) (s : State), o.k.toNat ≤ s.me.nplanes → s.goes (.tclr o) →
    let h := (s.waited (instrWtk (.tclr o))).me
    let f := h.tag o.d.toNat
    let named := fun k => if o.k = 0 then decide (1 ≤ k ∧ k ≤ s.me.nplanes) else k == o.k.toNat
    ∃ h' : Hart, exec (.tclr o) s = .next (s.vdone (.tclr o) (fun _ => h')) ∧ h' = { h with planes := h'.planes } ∧
      (∀ k e, k ≠ 0 → held f e = true → rawUnit f (h'.plane o.d.toNat k) e =
        if named k && s.activeUnit s.me.cf o.m e then 0 else rawUnit f (h.plane o.d.toNat k) e) ∧
      (∀ r k, r < 64 → (r ≠ o.d.toNat ∨ named k = false) → h'.plane r k = h.plane r k)))

/-- R175-R183, R240: every vector load, in each addressing mode and ordering, and the addresses of its elements; at an
element of a pending unit it holds. That the planes of an integer format move too is log 32, and what the tickets of SC
elements wait for logs 45 and 158. -/
def Obligations.VectorLoads : Prop :=
  (∀ o : OpM,
    VecLoads (.vld o) (opM o .unit) false ∧ VecLoads (.vldStr o) (opM o .strided) false ∧
    VecLoads (.vldo o) (opM o .unit) false ∧ VecLoads (.vldoStr o) (opM o .strided) false ∧
    VecLoads (.vldsc o) (opM o .unit) true ∧ VecLoads (.vldscStr o) (opM o .strided) true) ∧
  (∀ o : OpMX,
    VecLoads (.vld2d o) (opMX o) false ∧ VecLoads (.vldo2d o) (opMX o) false ∧ VecLoads (.vldsc2d o) (opMX o) true) ∧
  (∀ o : OpM,
    VecHolds (.vld o) (opM o .unit) false ∧ VecHolds (.vldStr o) (opM o .strided) false ∧
    VecHolds (.vldo o) (opM o .unit) false ∧ VecHolds (.vldoStr o) (opM o .strided) false ∧
    VecHolds (.vldsc o) (opM o .unit) true ∧ VecHolds (.vldscStr o) (opM o .strided) true) ∧
  (∀ o : OpMX,
    VecHolds (.vld2d o) (opMX o) false ∧ VecHolds (.vldo2d o) (opMX o) false ∧ VecHolds (.vldsc2d o) (opMX o) true) ∧
  (∀ (o : VMemOp) (h : Hart) (w e : Nat),
    let a := h.reg o.a
    let b := h.reg o.b
    let imm := (o.x.map (fun x => x.imm32.toNat)).getD 0
    (o.mode = .unit → addrOf o h w e = some (a + b + BitVec.ofNat 64 (e * w)).toNat) ∧
    (o.mode = .strided → addrOf o h w e = some (a + BitVec.ofNat 64 e * b).toNat) ∧
    (o.mode = .twoD → b ≠ 0 → e / b.toNat < imm / 65536 → addrOf o h w e =
      some (a + BitVec.ofNat 64 (e / b.toNat * (imm % 65536) + e % b.toNat * w)).toNat) ∧
    (o.mode = .twoD → (b = 0 ∨ imm / 65536 ≤ e / b.toNat) → addrOf o h w e = none))

/-- R175-R184, R240: every vector store, in each addressing mode and ordering, and VSTB; elements of pending units enter the
side log, one entry each whatever older entries cover (log 41), those of VSTSC with their ticket (log 45). SC elements wait
for no plain store of their hart (log 158), and of the primal and planes of one element that overlap the higher plane wins
(log 165). -/
def Obligations.VectorStores : Prop :=
  (∀ o : OpM,
    VecStores (.vst o) (opM o .unit) false false ∧ VecStores (.vstStr o) (opM o .strided) false false ∧
    VecStores (.vsto o) (opM o .unit) true false ∧ VecStores (.vstoStr o) (opM o .strided) true false ∧
    VecStores (.vstsc o) (opM o .unit) true true ∧ VecStores (.vstscStr o) (opM o .strided) true true) ∧
  (∀ o : OpMX,
    VecStores (.vst2d o) (opMX o) false false ∧ VecStores (.vsto2d o) (opMX o) true false ∧ VecStores (.vstsc2d o) (opMX o) true true) ∧
  (∀ o : OpM,
    VecLogs (.vst o) (opM o .unit) false false ∧ VecLogs (.vstStr o) (opM o .strided) false false ∧
    VecLogs (.vsto o) (opM o .unit) true false ∧ VecLogs (.vstoStr o) (opM o .strided) true false ∧
    VecLogs (.vstsc o) (opM o .unit) true true ∧ VecLogs (.vstscStr o) (opM o .strided) true true) ∧
  (∀ o : OpMX,
    VecLogs (.vst2d o) (opMX o) false false ∧ VecLogs (.vsto2d o) (opMX o) true false ∧ VecLogs (.vstsc2d o) (opMX o) true true) ∧
  (∀ (o : OpM) (s : State) (place : Nat → Nat → List (Loc × Nat)), s.goes (.vstb o) →
    let t := s.waited (instrWtk (.vstb o))
    let h := t.me
    let on := fun b => decide (h.csr.vstart ≤ b ∧ b < h.csr.vl * elemSize h.cf) &&
      (o.m == 15 || maskBit (h.mask o.m.toNat) b)
    let addr := fun b => ((h.reg o.a).toNat + (h.reg o.b).toNat + b) % 2 ^ 64
    (∀ b, on b = true → VPlaces t true .u8 (addr b) (place b) ∧ ∀ k, k ≤ h.planesInForce → ∀ q ∈ place b k,
      ownLogCovers t t.cur q.1 q.2 = false ∧ matrixReads h q.1.key q.2 = false) →
    ∃ u, exec (.vstb o) s = .next u ∧
      StoredBytes t u h.planesInForce on place (fun b k => elemOf (h.plane o.d.toNat k) 8 b) ∧
      u.me = { h.unchained with
        csr := { h.csr with vstart := 0 }
        pc := h.pc + BitVec.ofNat 64 (instrLen (.vstb o)), wait := none, await := none, dual := none
        remote := [], under := [], part := none } ∧
      u = { s with harts := u.harts, mem := u.mem, regions := u.regions, ecc := u.ecc } ∧
      (∀ k, k ≠ s.cur → u.harts.find k = s.harts.find k))

/-- R178, R179, R186: VLDFE reads when every granule of its active elements is full, and waits otherwise; under .CLR exactly
those granules become empty. A wait whose event had come when its team was swapped out is satisfied, and the fill that
satisfied it is no other hart's (R18). The model's readings: the granules of the primal (log 47), those touched become empty
(log 48), who takes a fill (log 153). -/
def Obligations.VectorFullEmpty : Prop :=
  ∀ (i : Instr) (o : VMemOp) (clr : Bool),
    ((∃ q : OpM, i = .vldfe q ∧ o = opM q .unit ∧ clr = false) ∨
      (∃ q : OpMX, i = .vldfeClr q ∧ o = ⟨.unit, q.d, q.a, q.b, q.m, some q.x⟩ ∧ clr = true)) →
    ∀ (s : State) (place : Nat → Nat → List (Loc × Nat)), s.goes i →
      let t := s.waited (instrWtk i)
      let f := fdOf o.x t.me
      let addr := fun e => (addrOf o t.me (elemSize f) e).getD 0
      let on := fun e => s.activeUnit f o.m e
      let touches := fun e g => ∃ p ∈ place e 0, g ∈ granules p.1.key p.2
      (∀ e, on e = true → inScratch (addr e) = true ∧ VPlaces t false f (addr e) (place e)) →
      let came := (∃ w, t.me.await = some w ∧ w.met = true) ∨
        ∀ e g, on e = true → touches e g → t.fe.get g ≠ 0 ∧ ¬(clr = true ∧ Taken t g)
      (came →
        ∃ u, exec i s = .next u ∧
          VecResult (instrLen i) t.me u.me o.d.toNat f f on (fun e => (readPieces t (place e 0), 0))
            (fun k e => readPieces t (place e k)) ∧
          u = { s with harts := u.harts, fe := u.fe } ∧ (∀ k, k ≠ s.cur → u.harts.find k = s.harts.find k) ∧
          (clr = false → u.fe = s.fe) ∧
          (clr = true → ∀ g, ((∃ e, on e = true ∧ touches e g) → u.fe.get g = 0) ∧
            ((∀ e, on e = true → ¬ touches e g) → u.fe.get g = s.fe.get g))) ∧
      (¬came → ∃ gs, exec i s = .next ((t.setMe { t.me with remote := [], await := some ⟨gs, clr, false⟩ }).hold wFull) ∧
        ∀ g, g ∈ gs ↔ ∃ e, on e = true ∧ touches e g)

/-- R41, R198, R202, R205, R206: every ATOM and CAS that passes its checks on its own module: the new bytes, the old
value in sd, the flags of the floating-point additions, and the ticket of .SC; and what stops one. -/
def Obligations.Atomics : Prop :=
  (∀ (i : Instr) (x : Option Ext) (s : State) (l : Loc) (d a : BitVec 5) (n : Nat) (new : Nat → Nat × Flags) (ext : Nat → W64),
    (∃ o : OpR, x = o.x ∧ d = o.d ∧ a = o.a ∧
      let b := (s.me.reg o.b).toNat % 2 ^ (8 * n)
      let m := 2 ^ (8 * n)
      ((i = .atomFadds o ∧ n = 4 ∧ new = (fun old => packVal .f32 0 false (numAdd 0 (decodeNum .f32 old) (decodeNum .f32 b))) ∧
          ext = zext64 (8 * n)) ∨
        (n = (if (x.map (fun e => e.imm32.toNat % 2)) = some 1 then 4 else 8) ∧
          ((i = .atomAdd o ∧ new = (fun old => ((old + b) % m, 0)) ∧ ext = sext64 (8 * n)) ∨
            (i = .atomAnd o ∧ new = (fun old => (old &&& b, 0)) ∧ ext = sext64 (8 * n)) ∨
            (i = .atomOr o ∧ new = (fun old => (old ||| b, 0)) ∧ ext = sext64 (8 * n)) ∨
            (i = .atomXor o ∧ new = (fun old => (old ^^^ b, 0)) ∧ ext = sext64 (8 * n)) ∨
            (i = .atomMin o ∧ ext = sext64 (8 * n) ∧
              new = (fun old => (if toSigned (8 * n) b < toSigned (8 * n) old then b else old, 0))) ∨
            (i = .atomMax o ∧ ext = sext64 (8 * n) ∧
              new = (fun old => (if toSigned (8 * n) old < toSigned (8 * n) b then b else old, 0))) ∨
            (i = .atomMinu o ∧ new = (fun old => (min old b, 0)) ∧ ext = zext64 (8 * n)) ∨
            (i = .atomMaxu o ∧ new = (fun old => (max old b, 0)) ∧ ext = zext64 (8 * n)) ∨
            (i = .atomSwap o ∧ new = (fun _ => (b, 0)) ∧ ext = sext64 (8 * n)) ∨
            (i = .atomFaddd o ∧ ext = sext64 (8 * n) ∧
              new = (fun old => packVal .f64 0 false (numAdd 0 (decodeNum .f64 old) (decodeNum .f64 b)))))))) ∨
    (∃ o : OpRX, i = .cas o ∧ x = some o.x ∧ d = o.d ∧ a = o.a ∧ ext = sext64 (8 * n) ∧
      n = (if o.x.imm32.toNat % 2 = 1 then 4 else 8) ∧
      new = (fun old => (if old = (s.me.reg o.b).toNat % 2 ^ (8 * n) then (s.me.reg (scOf o.x)).toNat % 2 ^ (8 * n) else old, 0))) →
    s.ready (instrWtk i) → s.me.remote.find 0 = none →
    let t0 := s.waited (instrWtk i)
    badLevel t0 x = none → (2 ≤ atomOrder x → performedAt t0 (scopePhys t0 x) = true) →
    (atomOrder x = 4 → scWaits t0 (scopeLevel t0 x) = false) →
    scalarLoc t0 s.cur (s.me.reg a).toNat n n (rR + rW) = .ok l →
    eccHit t0 l.key n = false → ownLogCovers t0 s.cur l n = false → matrixReads s.me l.key n = false →
    l.foreign s.myPkg = false →
    let t := pin t0 l.key
    let old := loadMem t l.key n
    ∃ u : State, exec i s = .next u ∧
      (∀ j, j < n → u.byteAt (l.key + j) = BitVec.ofNat 8 ((new old).1 / 2 ^ (8 * j))) ∧
      (∀ q, (q < l.key ∨ l.key + n ≤ q) → u.byteAt q = t.byteAt q) ∧
      u.me = ((t.me.orFlags (new old).2).setReg d (ext old)).done (instrLen i) ∧
      (atomOrder x ≠ 4 → u.mods = s.mods) ∧
      (atomOrder x = 4 → (u.mod (ticketPkg t)).ticket = (s.mod (ticketPkg t)).ticket + 1) ∧
      u.fe = t.fe ∧ (∀ k, k ≠ s.cur → u.harts.find k = s.harts.find k) ∧
      u = { t with harts := u.harts, mem := u.mem, regions := u.regions, ecc := u.ecc, mods := u.mods }) ∧
  (∀ (i : Instr) (x : Option Ext) (a : BitVec 5) (n : Nat) (s : State),
    ((∃ o : OpR, x = o.x ∧ a = o.a ∧ ((i = .atomFadds o ∧ n = 4) ∨
        (i ∈ [.atomAdd o, .atomAnd o, .atomOr o, .atomXor o, .atomMin o, .atomMax o, .atomMinu o, .atomMaxu o, .atomSwap o,
          .atomFaddd o] ∧ n = (if (x.map (fun e => e.imm32.toNat % 2)) = some 1 then 4 else 8)))) ∨
      (∃ o : OpRX, i = .cas o ∧ x = some o.x ∧ a = o.a ∧ n = (if o.x.imm32.toNat % 2 = 1 then 4 else 8))) →
    s.ready (instrWtk i) →
    let t := s.waited (instrWtk i)
    let addr := (s.me.reg a).toNat
    (∀ v, badLevel t x = some v → exec i s = .next (raise 0x0B (BitVec.ofNat 64 v) t)) ∧
    (badLevel t x = none → ((2 ≤ atomOrder x ∧ performedAt t (scopePhys t x) = false) ∨
      (atomOrder x = 4 ∧ scWaits t (scopeLevel t x) = true)) → exec i s = .next (t.hold wOrder)) ∧
    (badLevel t x = none → (2 ≤ atomOrder x → performedAt t (scopePhys t x) = true) →
      (atomOrder x = 4 → scWaits t (scopeLevel t x) = false) → s.me.remote.find 0 = none →
      (∀ c v, scalarLoc t s.cur addr n n (rR + rW) = .error (c, v) → exec i s = .next (raise c v t)) ∧
      (∀ l, scalarLoc t s.cur addr n n (rR + rW) = .ok l →
        (eccHit t l.key n = true → exec i s = .next (raise 0x12 (BitVec.ofNat 64 addr) t)) ∧
        (eccHit t l.key n = false → (ownLogCovers t s.cur l n = true ∨ matrixReads s.me l.key n = true) →
          exec i s = .next (t.hold wStore)))) ∧
    ((n = 4 ∨ n = 8) → windowOf t s.cur addr n ≠ none → addr % n ≠ 0 →
      scalarLoc t s.cur addr n n (rR + rW) = .error (0x04, BitVec.ofNat 64 addr)))

/-- R195, R201-R203, R207: a FENCE at a level goes on when the hart's earlier accesses are performed at its domain;
FENCE.SC then waits, at a level beyond HART, for SC stores with earlier tickets of the harts of its unit of that level,
and draws the next (when a logged one draws its ticket, and which module's counter a level that spans modules has, is log 45).
R208-R212, R214: BOINIT, BOARRIVE, BOWAIT and BOTEST on an object of the hart's own module; a BOWAIT whose event was
recorded when its team was swapped out goes on with the PHASE seen then (R18). -/
def Obligations.FencesAndBarrierObjects : Prop :=
  (∀ (o : OpFence) (s : State) (i : Instr), i ∈ [.fenceAcq o, .fenceRel o, .fenceAcqrel o, .fenceSc o] →
    s.ready (instrWtk i) →
    let t := s.waited (instrWtk i)
    (∀ v, s.levels[o.l.toNat]? = some v →
      (performedAt t v.phys = true →
        (i = .fenceRel o → exec i s = .next (t.retire (instrLen i))) ∧
        (i = .fenceAcq o ∨ i = .fenceAcqrel o → exec i s = .next ((t.setMe t.me.acquired).retire (instrLen i))) ∧
        (i = .fenceSc o → scWaits t o.l.toNat = true → exec i s = .next (t.hold wOrder)) ∧
        (i = .fenceSc o → scWaits t o.l.toNat = false → ∃ u, exec i s = .next u ∧ u.me = t.me.acquired.done (instrLen i) ∧
          u = { t with harts := u.harts, mods := u.mods } ∧ (∀ k, k ≠ s.cur → u.harts.find k = s.harts.find k) ∧
          (∀ p, (u.mod p).ticket = if p = ticketPkg t then (s.mod p).ticket + 1 else (s.mod p).ticket))) ∧
      (performedAt t v.phys = false → exec i s = .next (t.hold wOrder))) ∧
    (s.levels[o.l.toNat]? = none → exec i s = .next (raise 0x0B (BitVec.ofNat 64 o.l.toNat) t)) ∧
    (∀ phys, performedAt t phys = true ↔ (phys ≤ 2 ∨ ((∀ e ∈ (s.core s.myCore).log, e.hart ≠ s.cur) ∧
      ∀ p ∈ s.remote, p.2.hart = s.cur → p.2.kind = 1 → phys ≠ 7 ∧ p.2.state ≠ 0))) ∧
    (∀ v i, s.levels[i]? = some v → (scWaits t i = true ↔ (2 < v.phys ∧
      ((∃ c ∈ s.cores, ∃ e ∈ c.2.log, e.tick = some (ticketPkg t) ∧ inUnit t s.cur i e.hart = true) ∨
      ∃ p ∈ s.remote, p.2.logged = true ∧ p.2.tick = some (ticketPkg t) ∧ p.2.state = 0 ∧ inUnit t s.cur i p.2.hart = true))))) ∧
  (∀ (o : OpR) (s : State) (l : Loc) (a : Nat), l.foreign s.myPkg = false →
    let reads := fun (i : Instr) (need : Nat) => s.ready (instrWtk i) ∧
      scalarLoc (s.waited (instrWtk i)) s.cur a 32 32 need = .ok l
    (reads (.boinit o) rW → a = (s.me.reg o.a).toNat → o.d.toNat < s.levels.length →
      eccStoreHit s l.key 32 = false → ownLogCovers s s.cur l 32 = false → matrixReads s.me l.key 32 = false →
      let t := pin (s.waited (instrWtk (.boinit o))) l.key
      exec (.boinit o) s = .next ((putMem t l.key 32 ((s.me.reg o.b).toNat + 2 ^ 128 * (o.d.toNat % 16))).retire (instrLen (.boinit o)))) ∧
    (eccHit s l.key 32 = false →
      (reads (.boarrive o) (rR + rW) → a = (s.me.reg o.d).toNat →
        let t := pin (s.waited (instrWtk (.boarrive o))) l.key
        let x := readLoc t t.myCore t.me.ctx l 32
        let y := loadMem t l.key 32
        let n := (s.me.reg o.b).toNat
        x / 2 ^ 128 % 16 < s.levels.length →
        rangeUnperformed t (physOf s (x / 2 ^ 128 % 16)) (s.me.reg o.a).toNat n = false →
        (n = 0 → exec (.boarrive o) s = .next (t.retire (instrLen (.boarrive o)))) ∧
        (n ≠ 0 → ownLogCovers s s.cur l 32 = false →
          let expect := y % 2 ^ 64
          let arrived := y / 2 ^ 64 % 2 ^ 64
          (arrived + n < expect → exec (.boarrive o) s =
            .next ((putMem t l.key 32 (putBits y 64 64 (arrived + n))).retire (instrLen (.boarrive o)))) ∧
          (arrived + n = expect → exec (.boarrive o) s = .next ((putMem t l.key 32
            (putBits (putBits y 64 64 0) 136 1 (1 - y / 2 ^ 136 % 2))).retire (instrLen (.boarrive o)))) ∧
          (expect < arrived + n → exec (.boarrive o) s = .next (raise 0x0C (BitVec.ofNat 64 a) t)))) ∧
      (reads (.bowait o) rR → a = (s.me.reg o.a).toNat →
        let t := pin (s.waited (instrWtk (.bowait o))) l.key
        let phase := readLoc t t.myCore t.me.ctx l 32 / 2 ^ 136 % 2
        (∀ p, s.me.wait ≠ some ⟨wBarrier, p, 2⟩) →
        (phase ≠ (s.me.reg o.b).toNat % 2 →
          exec (.bowait o) s = .next (t.wr (instrLen (.bowait o)) o.d (BitVec.ofNat 64 phase))) ∧
        (phase = (s.me.reg o.b).toNat % 2 → exec (.bowait o) s = .next
          ((t.setMe { t.me with remote := t.me.remote.del 0 }).holdAt wBarrier a ((s.me.reg o.b).toNat % 2)))) ∧
      (∀ p, s.me.wait = some ⟨wBarrier, p, 2⟩ →
        Answers (.bowait o) s (fun t => t.wr (instrLen (.bowait o)) o.d (BitVec.ofNat 64 p))) ∧
      (reads (.botest o) rR → a = (s.me.reg o.a).toNat →
        let t := pin (s.waited (instrWtk (.botest o))) l.key
        let phase := readLoc t t.myCore t.me.ctx l 32 / 2 ^ 136 % 2
        exec (.botest o) s = .next (t.wr (instrLen (.botest o)) o.d
          (if phase = (s.me.reg o.b).toNat % 2 then 0 else 1)))))

/-- R187: SPCTEST names the window of a pointer; SPCCAST.TO takes the offset of a pointer of window w, SPCCAST.FROM
makes one of it, and SPCCAST.TO of another window's pointer raises Space; a window number above 4 is no instruction. -/
def Obligations.WindowInstructions : Prop :=
  (∀ o : OpR, 4 < o.b.toNat → (Instr.spccastTo o).check ≠ none ∧ (Instr.spccastFrom o).check ≠ none) ∧
  (∀ o : OpDA, Writes (.spctest o) o.d (fun s => BitVec.ofNat 64 ((s.me.reg o.a).toNat / 2 ^ 60))) ∧
  (∀ (o : OpR) (s : State) (b : Nat), o.b.toNat < 5 → [60, 32, 24, 24, 48][o.b.toNat]? = some b →
    let a := s.me.reg o.a
    ((a.toNat / 2 ^ 60 = o.b.toNat ∧ (o.b = 2 → a.toNat / 2 ^ 48 % 256 = (readCsr s 0x041).toNat)) →
      Answers (.spccastTo o) s (fun t => t.wr (instrLen (.spccastTo o)) o.d (BitVec.ofNat 64 (a.toNat % 2 ^ b)))) ∧
    (¬(a.toNat / 2 ^ 60 = o.b.toNat ∧ (o.b = 2 → a.toNat / 2 ^ 48 % 256 = (readCsr s 0x041).toNat)) →
      Answers (.spccastTo o) s (raise 0x08 a)) ∧
    Answers (.spccastFrom o) s (fun t => t.wr (instrLen (.spccastFrom o)) o.d (BitVec.ofNat 64 (
      if o.b = 0 then 0x0FFF * 2 ^ 48 + a.toNat % 2 ^ 42 else if o.b = 1 then 2 ^ 60 + a.toNat % 2 ^ 32
      else if o.b = 2 then 2 * 2 ^ 60 + (readCsr s 0x041).toNat * 2 ^ 48 + a.toNat % 2 ^ 24
      else if o.b = 3 then 3 * 2 ^ 60 + a.toNat % 2 ^ 24 else 4 * 2 ^ 60 + a.toNat % 2 ^ 48))))

/-- R178, R179, R185: LDFE, LDFE.CLR and STFE (which stores whatever its granule holds) on the scratchpad; R171, R188,
R189: PREF, CLWB, and CLINV, which unpins a block of an unset pool, whose bytes and granules it drops. The
Space of a block whose set is wholly pinned is the model's reading (log 151). -/
def Obligations.FullEmptyAndCache : Prop :=
  (∀ (i : Instr) (d a : BitVec 5) (z : BitVec 2) (p : BitVec 9) (clr : Bool) (s : State) (l : Loc),
    ((∃ o : OpFE, i = .ldfe o ∧ d = o.d ∧ a = o.a ∧ z = o.s ∧ p = o.p ∧ clr = false) ∨
      (∃ o : OpFEX, i = .ldfeClr o ∧ d = o.d ∧ a = o.a ∧ z = o.s ∧ p = o.p ∧ clr = true)) → s.ready (instrWtk i) →
    let n := 2 ^ z.toNat
    let q := (s.me.reg a + p.signExtend 64 * BitVec.ofNat 64 n).toNat
    (inScratch q = false → exec i s = .next (raise 0x08 (BitVec.ofNat 64 q) (s.waited (instrWtk i)))) ∧
    (inScratch q = true → scalarLoc (s.waited (instrWtk i)) s.cur q n n rR = .ok l → eccHit s l.key n = false →
      let t := pin (s.waited (instrWtk i)) l.key
      let came := (∃ w, t.me.await = some w ∧ w.met = true) ∨
        (t.fe.get (l.key / 16) ≠ 0 ∧ ¬(clr = true ∧ Taken t (l.key / 16)))
      (came → l.key % n = 0 →
        exec i s = .next ((if clr then { t with fe := Cells.set t.fe (l.key / 16) 0 } else t).wr (instrLen i) d
          (BitVec.ofNat 64 (t.mem.load l.key n)))) ∧
      (¬came → l.key % n = 0 →
        exec i s = .next ((t.setMe { t.me with await := some ⟨[l.key / 16], clr, false⟩ }).hold wFull)))) ∧
  (∀ (o : OpFE) (s : State) (l : Loc), s.ready (instrWtk (.stfe o)) →
    let n := 2 ^ o.s.toNat
    let q := (s.me.reg o.a + o.p.signExtend 64 * BitVec.ofNat 64 n).toNat
    inScratch q = true → scalarLoc (s.waited (instrWtk (.stfe o))) s.cur q n n rW = .ok l → l.glob = none → eccStoreHit s l.key n = false →
    ownLogCovers s s.cur l n = false → matrixReads s.me l.key n = false → inPool l.key = true → l.key % n = 0 →
    let t := pin (s.waited (instrWtk (.stfe o))) l.key
    let u : State := { putMem t l.key n (s.me.reg o.d).toNat with fe := Cells.set t.fe (l.key / 16) 1 }
    exec (.stfe o) s = .next (u.retire (instrLen (.stfe o)))) ∧
  (∀ (o : OpAP) (s : State),
    Answers (.prefL1 o) s (fun t => t.retire (instrLen (.prefL1 o))) ∧
    Answers (.prefL2 o) s (fun t => t.retire (instrLen (.prefL2 o))) ∧
    (let a := (s.me.reg o.a + o.p.signExtend 64).toNat
     (∀ i, (i = .clwb o ∨ i = .clinv o) → ∀ c v, cacheCheck (s.waited (instrWtk i)) a = some (c, v) →
       Answers i s (raise c v)) ∧
     (∀ i, (i = .clwb o ∨ i = .clinv o) → cacheCheck (s.waited (instrWtk i)) a = none → lineHeld (s.waited (instrWtk i)) a = true →
       Answers i s (fun t => t.hold wStore)) ∧
     (cacheCheck (s.waited (instrWtk (.clwb o))) a = none → lineHeld (s.waited (instrWtk (.clwb o))) a = false →
       Answers (.clwb o) s (fun t => t.retire (instrLen (.clwb o)))) ∧
     (cacheCheck (s.waited (instrWtk (.clinv o))) a = none → lineHeld (s.waited (instrWtk (.clinv o))) a = false →
       s.ready (instrWtk (.clinv o)) →
       ∃ u, exec (.clinv o) s = .next u ∧ u.me = (s.waited (instrWtk (.clinv o))).me.done (instrLen (.clinv o)) ∧
         (∀ k, k ≠ s.cur → u.harts.find k = s.harts.find k) ∧
         u = { s.waited (instrWtk (.clinv o)) with harts := u.harts, cores := u.cores, mem := u.mem, fe := u.fe } ∧
         (∀ ck off, windowOf s s.cur a 1 = some (.pool (2 ^ 60 + ck * 2 ^ 23 + off)) → off < 2 ^ 23 → a / 2 ^ 60 = 2 →
           (s.core ck).bnd0 = 0 → (s.core ck).bnd1 = 0 → (s.core ck).bnd2 = 0 →
           let blk := (2 ^ 60 + ck * 2 ^ 23 + off) / 1024
           u.core ck = { s.core ck with pinned := (s.core ck).pinned.filter (fun b => b != off / 1024) } ∧
           (∀ q, u.mem.get q = if q / 1024 = blk then 0 else s.mem.get q) ∧
           (∀ g, u.fe.get g = if g / 64 = blk then 0 else s.fe.get g)) ∧
         ((∀ ck off, windowOf s s.cur a 1 = some (.pool (2 ^ 60 + ck * 2 ^ 23 + off)) → off < 2 ^ 23 →
             ¬(a / 2 ^ 60 = 2 ∧ (s.core ck).bnd0 = 0 ∧ (s.core ck).bnd1 = 0 ∧ (s.core ck).bnd2 = 0)) →
           u.mem = s.mem ∧ u.fe = s.fe ∧ u.cores = s.cores))))

/-- R103-R105: LAUNCH of a block on the caller's module, LWAIT, and EXIT once everything the hart started is finished.
That EXIT stops a system hart (log 63), and that a LAUNCH of an EMPTY block is answered whatever the number of open launches
(log 136), are the model's readings. -/
def Obligations.LaunchInstructions : Prop :=
  (∀ (o : OpDA) (s : State) (loc : Nat → Loc), s.ready (instrWtk (.launch o)) → s.launches.length < 2 ^ 60 →
    let t := s.waited (instrWtk (.launch o))
    let len := instrLen (.launch o)
    let a := (s.me.reg o.a).toNat
    let c := s.ctx s.myPkg s.me.slot
    let answers := fun (u : State) => exec (.launch o) s = .next u
    (performedAt t 6 = false → answers (t.hold wOrder)) ∧
    (performedAt t 6 = true → 2 ^ 60 ≤ a → answers (raise 0x08 (BitVec.ofNat 64 a) t)) ∧
    (performedAt t 6 = true → a < 2 ^ 60 → (∀ j, j < 8 → scalarLoc t s.cur (a + 64 * j) 64 64 rR = .ok (loc j) ∧ eccHit s (loc j).key 64 = false ∧
      (loc j).foreign s.myPkg = false) →
    let x := (span 0 8).foldr (fun j n => readLoc t s.myCore s.me.ctx (loc j) 64 + 2 ^ 512 * n) 0
    let unused := fun (hd : Nat) => hd ≠ 0 ∧ hd < 2 ^ 64 ∧ ∀ e ∈ s.launches, e.2.ctx = s.me.slot → e.2.handle ≠ hd
    (bindBlock c x = .range → answers (raise 0x09 (BitVec.ofNat 64 a) t)) ∧
    (bindBlock c x = .treeBind → answers (raise 0x0A (BitVec.ofNat 64 a) t)) ∧
    let far := (readLpb x).levels.any (fun l => decide (6 ≤ l.phys)) && !performedAt t 7
    (bindBlock c x = .empty → far = true → answers (t.hold wOrder)) ∧
    (bindBlock c x = .empty → far = false → ∃ u hd, answers u ∧ unused hd ∧ u.me = (t.me.setReg o.d (BitVec.ofNat 64 hd)).done len ∧
      (∀ k, k ≠ s.cur → u.harts.find k = s.harts.find k) ∧
      ∃ l, u.launches.find s.seq = some l ∧ l.handle = hd ∧ l.status = 3 ∧ l.addr = s.me.reg o.a ∧ l.ctx = s.me.slot) ∧
    (∀ b, bindBlock c x = .ok b →
      let wide := b.levels.any (fun l => decide (6 ≤ l.phys)) && !performedAt t 7
      (wide = true → answers (t.hold wOrder)) ∧
      (wide = false → 4096 ≤ openLaunches s s.myPkg s.me.slot → answers (t.hold wOrder)) ∧
      (wide = false → openLaunches s s.myPkg s.me.slot < 4096 → ∃ hd, unused hd ∧
        let l : Launch :=
          { pkg := s.myPkg, ctx := s.me.slot, addr := s.me.reg o.a, blk := b, cls := max b.cls s.me.cls, handle := hd
            queue := none, teams := [], members := [], farms := [], phases := [], status := 0, missed := false
            since := (s.mod s.myPkg).gtime }
        answers { t.wr len o.d (BitVec.ofNat 64 hd) with launches := s.launches.put s.seq l, seq := s.seq + 1 })))) ∧
  (∀ (o : OpA) (s : State), s.ready (instrWtk (.lwait o)) →
    let t := s.waited (instrWtk (.lwait o))
    (namedLaunch s (s.me.reg o.a) = none → exec (.lwait o) s = .next (t.retire (instrLen (.lwait o)))) ∧
    (∀ l, namedLaunch s (s.me.reg o.a) = some l →
      (isFinal l.status = true → exec (.lwait o) s = .next (t.retire (instrLen (.lwait o)))) ∧
      (isFinal l.status = false → exec (.lwait o) s = .next (t.hold wLaunch)))) ∧
  (∀ (o : OpN) (s : State), s.ready (instrWtk (.exit o)) → (s.waited (instrWtk (.exit o))).ready 255 →
    let t := (s.waited (instrWtk (.exit o))).waited 255
    let c := closeStream t
    (0 < openColls t → exec (.exit o) s = .next (t.hold wColl)) ∧
    (openColls t = 0 → (c.me.busy || c.me.frozenBusy) = true → exec (.exit o) s = .next (c.hold wMatrix)) ∧
    (openColls t = 0 → c.me.busy = false → c.me.frozenBusy = false →
      (hasLog c s.cur = true ∨ performedAt c (exitPhys c) = false) →
      exec (.exit o) s = .next ((c.setMe { c.me.fold with att := none }).hold wExit)) ∧
    (openColls t = 0 → c.me.busy = false → c.me.frozenBusy = false → hasLog c s.cur = false →
      performedAt c (exitPhys c) = true → ∃ u, exec (.exit o) s = .next u ∧
      (s.me.system = true → u.me.stat = .stopped) ∧
      (s.me.system = false → u.harts.find s.cur = none ∧ u.cur = servantOf s.cur ∧
        ∀ l, s.launches.find s.me.launch = some l → ∃ l', u.launches.find s.me.launch = some l' ∧
          l'.members = l.members.put s.me.mid true ∧
          l'.status = if (allMids l.blk.levels).all (exited l') && !isFinal l.status then 2 else l.status)))

/-- R87, R91-R93: the launch unit places the next teams of a launch, where it may: a created hart starts with the state
of R91. VLCAP cut to the CAPMAX of the core is the model's reading (log 54). -/
def Obligations.TeamPlacement : Prop :=
  ∀ (lk : Nat) (cores : List Nat) (s : State) (l : Launch), s.launches.find lk = some l →
    let b := l.blk
    let ts := (pendingTeams l).take cores.length
    let new := List.zip ts cores
    (isFinal l.status = true ∨ cores = [] ∨ ts.length ≠ cores.length ∨ placementOk s l new = false ∨
      wholeUnits l ts = false ∨ firstInLine s lk l = false ∨ (∃ ck ∈ cores, (s.core ck).team ≠ none) →
      exec (.teamPlacement lk cores) s = .next s) ∧
    (isFinal l.status = false → cores ≠ [] → ts.length = cores.length → placementOk s l new = true → wholeUnits l ts = true →
      firstInLine s lk l = true → teamHarts b.levels ≤ 8 →
    ∃ u l', exec (.teamPlacement lk cores) s = .next u ∧
      u.launches.find lk = some l' ∧
      l' = { l with teams := l'.teams, places := (new.map (fun p => (p.2, p.1))).reverse ++ l.places, members := l'.members, status := 1 } ∧
      (∀ k, (∀ p ∈ new, coreOf k ≠ p.2) → u.harts.find k = s.harts.find k) ∧
      ∀ p ∈ new, l'.teams.find p.1 = some p.2 ∧
        (u.core p.2).team = some (lk, p.1) ∧ (u.core p.2).vlcap = min b.vlcap (s.core p.2).capmax ∧
        (u.core p.2).bnd0 = b.bnd0 ∧ (u.core p.2).bnd1 = b.bnd1 ∧ (u.core p.2).bnd2 = b.bnd2 ∧
        ∀ j, j < teamHarts b.levels → l'.members.find (8 * p.1 + j) = some false ∧
          ∃ g, u.harts.find (hartKey p.2 j) = some g ∧ g.system = false ∧ g.pc = b.entry ∧
            (∀ r, g.reg r = if r = 1 then b.arg else if r = 2 then l.addr else 0) ∧
            (∀ r, g.vget r = 0 ∧ g.mask r = 0 ∧ g.queue r = []) ∧ (∀ r k, g.plane r k = 0) ∧
            (∀ r, r < 48 → g.tag r = fmtOf (b.cf % 16)) ∧ (∀ k, g.token k = {}) ∧ (∀ k, (g.group k).usable = false) ∧
            g.csr.vl = (if b.levels.any (fun v => decide (v.phys < 2)) then
              ((b.levels.filter (fun v => decide (v.phys < 2))).map Level.w).prod else 0) ∧
            g.csr.cf = BitVec.ofNat 4 b.cf ∧ g.csr.vctl = BitVec.ofNat 3 b.vctl ∧ g.csr.dualn = b.dualn ∧
            g.csr.lead = BitVec.ofNat 64 b.lead ∧ g.csr.dln = BitVec.ofNat 64 b.deadline ∧ g.csr.uhaddr = b.uhaddr ∧
            (∀ k, k < 4 → k < b.toff.length → g.csr.toff.get (k + 1) = b.toff.getD k 0) ∧
            g.csr.rm = 0 ∧ g.csr.fflags = 0 ∧ g.csr.vstart = 0 ∧ g.csr.ucause = 0 ∧ g.csr.upc = 0 ∧ g.csr.uval = 0 ∧
            (∀ k, g.phases.get k = 0) ∧ g.ctx = l.ctx ∧ g.launch = lk ∧ g.mid = 8 * p.1 + j ∧ g.cls = l.cls ∧ g.nplanes = b.planes)

/-- R18, R94, R276, R369, R379: a doorbell that makes one entry available, a deadline that passes, a team that is swapped
out, its image written to the swap area (log 154), and one that resumes, and a lane cluster that is retired. The model's own:
which teams TEAM_SWAP_OUT may take (log 109), the entries a doorbell keeps while the context has 4,096 open launches (log
60), what of a hart moves with it to another core (log 110), the caps of a core with retired clusters (log 111), the zero
bytes of the pool of a core that a team has left (log 53), rows granted later than the core (log 106). What a satisfied wait
keeps is log 153. -/
def Obligations.LaunchUnit : Prop :=
  (∀ (pkg q tail : Nat) (s : State) (x : Nat) (b : Lpb), q < 64 →
    let r := (s.mod pkg).queues.getD q {}
    let a := s.mem.load (hostKey pkg (r.base.toNat + 8 * r.head)) 8
    let rung := exec (.launchQueueDoorbell pkg q tail) s
    (modOn s pkg = false → rung = .next s) ∧
    (modOn s pkg = true → queueSizeOk r.size = true → r.head < r.size → tail < 65536 →
      4096 ≤ openLaunches s pkg r.ctx → rung = .next (s.setMod pkg { s.mod pkg with
        queues := (s.mod pkg).queues.put q (r.ring tail) })) ∧
    (modOn s pkg = true → queueSizeOk r.size = true → r.head < r.size →
      (tail = r.head + 1 ∧ tail < 65536 ∨ r.head + 1 = r.size ∧ tail = 0) →
      openLaunches s pkg r.ctx < 4096 → deviceBlock s pkg r.ctx a = some x → bindBlock (s.ctx pkg r.ctx) x = .ok b →
    ∃ u l, rung = .next u ∧
      (u.mod pkg).queues.find q = some { r with tail := tail, head := (r.head + 1) % r.size, left := 0 } ∧
      u.launches.find s.seq = some l ∧ l.pkg = pkg ∧ l.ctx = r.ctx ∧ l.addr = BitVec.ofNat 64 a ∧ l.blk = b ∧
      l.queue = some q ∧ l.status = 0 ∧ u.harts = s.harts ∧ s.sameMemory u)) ∧
  (∀ (lk : Nat) (s : State) (l : Launch), s.launches.find lk = some l → isFinal l.status = false →
    l.blk.deadline ≠ 0 → l.blk.deadline < (s.mod l.pkg).gtime →
    exec (.deadlineExpiry lk) s = .next { s with launches := s.launches.put lk { l with missed := true } }) ∧
  (∀ (ck : Nat) (s : State) (i : Instr) (im : Image),
    ((i = .teamSwapOut ck ∧ swapReason s ck = true) ∨
      (∃ lk l, i = .preemptionTimeout lk ∧ s.launches.find lk = some l ∧ mayPreempt s l = true ∧ victimFor s l = some ck)) →
    stopReady s ck = true → saveTeam s ck true = some im →
    ∃ u, exec i s = .next u ∧ LeavesAs s u s.seq { im with area := imagePieces s s.seq im } ∧
      (u.core ck).team = none ∧
      (∀ k, coreOf k = ck → isSystemKey k = false → u.harts.find k = none) ∧
      (∀ k h, ¬(coreOf k = ck ∧ isSystemKey k = false) → s.harts.find k = some h →
        ∃ g, u.harts.find k = some g ∧ g = { h with recs := g.recs }) ∧
      (∀ q, poolKey ck 0 ≤ q → q < poolKey (ck + 1) 0 → u.mem.get q = 0) ∧
      (∀ q, (q < poolKey ck 0 ∨ poolKey (ck + 1) 0 ≤ q) → u.mem.get q = s.mem.get q) ∧
      (∀ l, s.launches.find im.launch = some l →
        u.launches.find im.launch = some { l with moved := im.team :: l.moved.filter (· ≠ im.team) })) ∧
  (∀ (ck : Nat) (s : State), swapReason s ck = false ∨ stopReady s ck = false → exec (.teamSwapOut ck) s = .next s) ∧
  (∀ (n ck : Nat) (s : State) (im : Image), s.images.find n = some im → im.swapped = true → im.area ≠ [] → coreTakes s im ck = true →
    (s.ctx im.pkg im.ctx).spans (corePkg ck) = true → (im.harts.map Prod.fst).Nodup → (∀ e ∈ im.harts, e.1 < 8) →
    ∃ u, exec (.teamResume n ck) s = .next u ∧ u.images.find n = none ∧ (u.core ck).team = some (im.launch, im.team) ∧
      (u.core ck).vlcap = min im.vlcap (s.core ck).capmax ∧ (u.core ck).bnd0 = im.bnd0 ∧ (u.core ck).bnd1 = im.bnd1 ∧
      (u.core ck).bnd2 = im.bnd2 ∧ (u.core ck).rowsDue = decide (freeRows s (quadOf ck) < imageRows im) ∧
      ∀ e ∈ im.harts, ∃ g, u.harts.find (hartKey ck e.1) = some g ∧
        let cap := min im.vlcap (s.core ck).capmax
        let h := (moveHart im.core ck e.2).cut cap
        let unnamed := fun (a : Option Attach) => a.map (fun x => { x with handle := 0 })
        g = { h with held := none, cap := cap, att := g.att, frozen := g.frozen } ∧ unnamed g.att = unnamed h.att ∧
        g.frozen.map unnamed = h.frozen.map unnamed) ∧
  (∀ (ck c : Nat) (s : State), 1 ≤ c →
    let k := s.core ck
    let cap := if c ≤ 4 then 64 else if c ≤ 6 then 32 else if c = 7 then 16 else 0
    exec (.laneClusterRetirement ck c) s = .next { s with cores := s.cores.put ck { k with capmax := min k.capmax cap } })

/-- R173, R177, R183, R201, R368, R381: a request reaches its module, its acknowledgement or value comes back, where the
links carry it, and the oldest entry of a side log is performed once its unit can be written. The model's readings: what a load takes from the
log (log 40), what an error does to an entry (log 155), and what one does to a request on its way (log 157). -/
def Obligations.RemoteRequests : Prop :=
  (∀ (n : Nat) (s : State) (o : RemoteOp), s.remote.find n = some o → o.state = 0 → o.carried s = true →
    (∀ e ∈ s.remote, e.1 < n → (e.2.hart = o.hart ∨ (e.2.logged = true ∧ e.2.core = o.core)) → e.2.state = 0 →
      e.2.meets o = false) → (o.logged = false → scMay s o = true) →
    o.meetsError s = false → o.keys.Nodup →
    let old := remoteRead s o
    let new := atomOp o.fn o.keys.length old o.val
    let write : Option Nat := match o.kind with
      | 0 => none
      | 1 => some o.val
      | 2 => some new.1
      | 3 => if old = o.cmp then some o.val else none
      | _ => boAdd old o.val
    ∃ u x, exec (.remoteAccess n) s = .next u ∧ u.remote = s.remote.put n x ∧
      x = { o with state := 1, result := x.result, flags := if o.kind = 2 then new.2 else 0 } ∧
      (o.kind = 0 → x.result = ofBytes ((List.zip o.keys o.vas).map (fun p =>
        (forwarded s o.core o.slot o.pkg p.2).getD (s.byteAt p.1)))) ∧ (o.kind = 2 ∨ o.kind = 3 → x.result = old) ∧ (3 < o.kind → x.result = (if write.isSome then 0 else 1)) ∧
      (∀ v i, write = some v → i < o.keys.length → u.byteAt (o.keys.getD i 0) = BitVec.ofNat 8 (v / 2 ^ (8 * i))) ∧
      (∀ q, (write = none ∨ q ∉ o.keys) → u.byteAt q = s.byteAt q) ∧ u.fe = s.fe ∧ u.harts = s.harts ∧
      u.mods = (drawIf s (if o.logged then none else o.tick)).mods) ∧
  (∀ (n : Nat) (s : State) (o : RemoteOp) (p : Nat), s.remote.find n = some o → o.logged = false → o.tick = some p →
    (match o.scope with | none => scOwed s p | some i => scHeld s o.hart i p) = true → exec (.remoteAccess n) s = .next s) ∧
  (∀ (n : Nat) (s : State) (o : RemoteOp), s.remote.find n = some o → o.meetsError s = true → ∃ u, exec (.remoteAccess n) s = .next u ∧
    s.sameMemory u ∧ (o.kind = 1 → u = s) ∧ ∀ k, k ≠ o.hart → u.harts.find k = s.harts.find k) ∧
  (∀ (n : Nat) (s : State) (o : RemoteOp), s.remote.find n = some o → o.carried s = false →
    ∀ i ∈ [Instr.remoteAccess n, .remoteAck n, .remoteLoadReturn n], exec i s = .next s) ∧
  (∀ (n : Nat) (s : State) (o : RemoteOp), s.remote.find n = some o → o.kind = 1 → o.state = 1 → o.carried s = true →
    exec (.remoteAck n) s = .next { s with remote := s.remote.del n }) ∧
  (∀ (n : Nat) (s : State) (o : RemoteOp) (h : Hart), s.remote.find n = some o → o.kind ≠ 1 → o.state = 1 →
    o.carried s = true → s.harts.find o.hart = some h →
    ∃ g, exec (.remoteLoadReturn n) s = .next { s with remote := s.remote.del n, harts := s.harts.put o.hart g } ∧
      let come := fun (x y : Hart) => ∀ j w, x.remote.find j = some w →
        y.remote.find j = some (if w.op = n then { w with ready := some (o.result, o.flags) } else w)
      g = { h with remote := g.remote, ahead := g.ahead } ∧ come h g ∧ come h.vector g.vector ∧
        g.vector = { h.vector with remote := g.vector.remote, ahead := g.ahead } ∧ (h.ahead = none → g.ahead = none)) ∧
  (∀ (ck : Nat) (s : State) (e : LogEntry) (r : List LogEntry) (key : Nat → Nat), (s.core ck).log = e :: r →
    let waits := ∃ p ∈ s.remote, p.2.state = 0 ∧ ((e.ord = true ∧ p.2.ord = true ∧ p.2.hart = e.hart) ∨
      (e.tick.isSome = true ∧ p.2.logged = true ∧ p.2.tick = e.tick))
    ((∃ i, i < e.data.length ∧ replayKey s (corePkg ck) e.ctx e.pkg (e.va + i) = none) ∨ waits →
      exec (.sideLogReplay ck) s = .next s) ∧
    ((∀ i, i < e.data.length → replayKey s (corePkg ck) e.ctx e.pkg (e.va + i) = some (key i)) →
      keysBad s [] ((span 0 e.data.length).map key) = true → exec (.sideLogReplay ck) s = .next s) ∧
    (¬waits → (∀ i, i < e.data.length → replayKey s (corePkg ck) e.ctx e.pkg (e.va + i) = some (key i)) →
    keysBad s [] ((span 0 e.data.length).map key) = false → (∀ i j, i < j → j < e.data.length → key i ≠ key j) →
    ∃ u, exec (.sideLogReplay ck) s = .next u ∧ (u.core ck).log = r ∧ u.harts = s.harts ∧ u.fe = s.fe ∧
      (e.pkg = corePkg ck → u.remote = s.remote ∧ u.mods = s.mods ∧ (∀ i, i < e.data.length → u.byteAt (key i) = e.data.getD i 0) ∧
        ∀ q, (∀ i, i < e.data.length → q ≠ key i) → u.byteAt q = s.byteAt q) ∧
      (e.pkg ≠ corePkg ck → s.sameMemory u ∧ u.mods = s.mods ∧ ∃ x, u.remote = s.remote.put s.seq x ∧ x.kind = 1 ∧ x.state = 0 ∧
        x.hart = e.hart ∧ x.pkg = e.pkg ∧ x.keys = (span 0 e.data.length).map key ∧ x.val = ofBytes e.data ∧ x.born = e.born ∧
        x.slot = e.ctx ∧ x.vas = span e.va e.data.length ∧ x.logged = true ∧ x.ord = e.ord ∧ x.tick = e.tick)))

/-- R52, R93, R365, R371, R372, R378: the host creates a context and ends one, whose posted stores are performed first, and
an engine's uncorrectable error ends its context and queues a record at the system hart of its die. Whether the table is
loaded at creation (R378) or every entry is absent until VHTINV (R365) is left open by the model (log 72). That the end
performs the posted stores at once is log 167. -/
def Obligations.ContextsBegunAndEnded : Prop :=
  (∀ (p slot : Nat) (s : State), slot < 16 → modOn s p = true → (s.mod p).booted = true → (s.ctx p slot).live = false →
    let w := fun (i : Nat) => ((s.ctx p slot).fields.get i).toNat
    ∃ c, exec (.contextCreate p slot) s = .next (s.setCtx p slot c) ∧ c.live = true ∧ c.en = true ∧
      c.tdeleg = BitVec.ofNat 64 (w 1) &&& 0x817918 ∧ c.sptb = BitVec.ofNat 64 (w 2) ∧ c.vhtb = BitVec.ofNat 64 (w 3) ∧
      c.firstpkg = w 4 % 4096 ∧ c.groupmods = w 4 / 2 ^ 12 % 32 ∧ c.ngroups = w 4 / 2 ^ 17 % 512 ∧
      (∀ i, i < 192 → c.cores.getLsbD i = (w (5 + i / 64)).testBit (i % 64)) ∧
      (∀ i, i < 131072 → c.vht.get i =
        (let a := bitsOf c.vhtb.toNat 41 20 * 2 ^ 20 + 8 * i
         if Config.vhtAtCreation = true ∧ physOk a = true then BitVec.ofNat 64 (physDword s p a) else 0))) ∧
  (∀ (p slot : Nat) (s : State), slot < 16 → modOn s p = true → ((s.mod p).booted = false ∨ (s.ctx p slot).live = true) →
    exec (.contextCreate p slot) s = .next (s.setCtx p slot { s.ctx p slot with en := true })) ∧
  (∀ (p slot : Nat) (s : State), slot < 16 → modOn s p = true → (s.ctx p slot).live = true →
    let ms := (s.ctx p slot).modules
    p ∈ ms →
    let ended := fun (u : State) => (∀ q ∈ ms, (u.ctx q slot).live = false) ∧
      (∀ k h, u.harts.find k = some h → isSystemKey k = false → pkgOf k ∈ ms → h.ctx ≠ slot) ∧
      (∀ k h, s.harts.find k = some h → (isSystemKey k = true ∨ pkgOf k ∉ ms ∨ h.ctx ≠ slot) →
        ∃ g, u.harts.find k = some g ∧ g = { h with recs := g.recs }) ∧
      (∀ lk l, s.launches.find lk = some l → ∃ x, u.launches.find lk = some x ∧
        (l.ctx = slot → l.pkg ∈ ms → x = { l with status := if isFinal l.status then l.status else 4 }) ∧
        ((∀ e ∈ s.launches, e.1 = lk → e.2.ctx ≠ slot ∨ e.2.pkg ∉ ms) → x = l)) ∧
      (∀ ck, corePkg ck ∈ ms → ∀ e ∈ (u.core ck).log, e.ctx ≠ slot) ∧
      (∀ q m gk g l, s.mods.find q = some m → m.claim = some gk → s.groups.find gk = some g →
        s.launches.find g.launch = some l → l.ctx = slot → l.pkg ∈ ms → ∃ m', u.mods.find q = some m' ∧ m'.claim = none) ∧
      (∀ e ∈ u.images, e.2.swapped = true → e.2.ctx = slot → e.2.pkg ∉ ms) ∧
      (∀ g ∈ u.groups, ∀ l, s.launches.find g.2.launch = some l → l.ctx = slot → l.pkg ∉ ms) ∧
      (∀ e ∈ u.remote, ∀ h, s.harts.find e.2.hart = some h → isSystemKey e.2.hart = false → pkgOf e.2.hart ∈ ms → h.ctx ≠ slot)
    (∃ u, exec (.contextEndByHost p slot) s = .next u ∧ ended u ∧ (u.ctx p slot).en = false ∧
      (∀ n o h, s.remote = [(n, o)] → o.kind = 1 → o.state = 0 → o.carried s = true → keysBad s [] o.keys = false →
        o.keys.Nodup → s.harts.find o.hart = some h → isSystemKey o.hart = false → pkgOf o.hart ∈ ms → h.ctx = slot →
        (∀ e ∈ s.launches, e.2.ctx = slot → e.2.pkg ∈ ms → isFinal e.2.status = true) →
        ∀ i, i < o.keys.length → u.byteAt (o.keys.getD i 0) = BitVec.ofNat 8 (o.val / 2 ^ (8 * i)))) ∧
    (∀ die a, die < 6 → (s.harts.find (systemKey p die)).isSome = true →
      ∃ u r, exec (.engineUncorrectableError p slot die a) s = .next u ∧ ended u ∧
        (u.hart (systemKey p die)).recs.getLast? = some r ∧ r.eng = true ∧ r.cause = 0x12 ∧ r.ctx = slot ∧
        r.pc = 0 ∧ r.log = false ∧
        r.val = BitVec.ofNat 64 (a % 2 ^ 42) ∧ (u.mod p).msgs.getLast? = some 0))

/-- R377-R379, R382: writes of the host to PKGID, B2BASE, a context slot, a launch queue and the MSI-X table, to EPOCH and
through BAR2, a read through BAR2, and the time a module takes from the source. The model's own: BAR0 written by aligned
dwords, reserved writes ignored (log 112), the size of a slew and the choice of the source (log 118).
R381, R384, R385: a replayed flit and a removed port, a die that goes idle and wakes, the power register, a trip and
PLIM, module reset, and attestation. The model's own: what reset keeps (log 116), dies that issue nothing until they
are back (log 117). -/
def Obligations.HostAndModules : Prop :=
  (∀ (p : Nat) (s : State) (m : Mod), s.mods.find p = some m → m.on = true →
    let wrote := fun (i : Instr) (x : Mod) => exec i s = .next { s with mods := s.mods.put p x }
    (∀ off v, off < 0x10000 → anyResident s p = true → exec (.bar0RegisterWrite p off v) s = .next s) ∧
    (∀ v, anyResident s p = false → v < 2 ^ 64 →
      wrote (.bar0RegisterWrite p Config.b2baseOffset v) { m with b2base := v % 2 ^ 42 } ∧
      (s.mods.find (v % 4096) = none → ∃ u, exec (.bar0RegisterWrite p Config.pkgidOffset v) s = .next u ∧
        (u.mods.find (v % 4096)).isSome = true ∧ u.mods.find p = none ∧
        ∀ q, q ≠ p → q ≠ v % 4096 → (u.mods.find q).isSome = (s.mods.find q).isSome)) ∧
    (∀ slot i v, slot < 16 → i < 32 → v < 2 ^ 64 →
      exec (.bar0RegisterWrite p (0x10000 + 256 * slot + 8 * i) v) s = .next (if i = 0 ∨ 7 < i then s
        else s.setCtx p slot { s.ctx p slot with
          fields := (s.ctx p slot).fields.set i (BitVec.ofNat 64 (if i = 4 then v % 2 ^ 26 else v)) })) ∧
    (∀ q v, q < 64 → v < 2 ^ 64 →
      let r := m.queues.getD q {}
      wrote (.bar0RegisterWrite p (0x100000 + 64 * q) v) { m with queues := m.queues.put q { r with base := BitVec.ofNat 64 v } } ∧
      wrote (.bar0RegisterWrite p (0x100008 + 64 * q) v) { m with
        queues := m.queues.put q { r with size := v % 65536, ctx := v / 2 ^ 16 % 16, vec := v / 2 ^ 20 % 4096 } }) ∧
    (∀ i v, i < 4096 → v < 2 ^ 64 →
      wrote (.bar0RegisterWrite p (0x200000 + 8 * i) v) { m with msix := m.msix.store (8 * i) 8 v }) ∧
    (∀ v, ((p = timeSource s ∧ anyResident s p = false) → wrote (.epochWrite p v) { m with gtime := v % 2 ^ 64 }) ∧
      (¬(p = timeSource s ∧ anyResident s p = false) → exec (.epochWrite p v) s = .next s)) ∧
    ((p = timeSource s ∨ m.synced < 10000) → exec (.gtimeSync p) s = .next s) ∧
    (p ≠ timeSource s → 10000 ≤ m.synced →
      let now := (s.mod (timeSource s)).gtime
      ∃ x, wrote (.gtimeSync p) x ∧ x = { m with gtime := x.gtime, slow := x.slow, synced := 0 } ∧
        (anyResident s p = false → x.gtime = now) ∧
        (anyResident s p = true → m.gtime ≤ x.gtime ∧ x.gtime ≤ m.gtime + 1 ∧ (m.gtime < now → x.gtime = m.gtime + 1))) ∧
    (∀ (a : Nat) (bytes : List Byte), a + bytes.length ≤ 2 ^ m.b2bits → (∀ j, j < bytes.length → physOk (m.b2base + a + j) = true) →
      let k := physKey p (m.b2base + a)
      (∃ u, exec (.bar2Write p a bytes) s = .next u ∧ (∀ j, j < bytes.length → u.byteAt (k + j) = bytes.getD j 0) ∧
        (∀ q, (q < k ∨ k + bytes.length ≤ q) → u.byteAt q = s.byteAt q) ∧ u.harts = s.harts ∧ u.mods = s.mods ∧ u.fe = s.fe) ∧
      exec (.bar2Read p a bytes.length) s =
        .next { s with hostRead := (span 0 bytes.length).map (fun j => s.byteAt (k + j)) })) ∧
  (∀ (p : Nat) (s : State) (m : Mod), s.mods.find p = some m → m.on = true →
    let wrote := fun (i : Instr) (x : Mod) => exec i s = .next { s with mods := s.mods.put p x }
    (∀ port, port < 16 →
      wrote (.linkCrcReplay p port) { m with replays := m.replays.set port (m.replays.get port + 1) } ∧
      (m.ports.contains port = false → wrote (.portRemoval p port) { m with ports := m.ports ++ [port] })) ∧
    (∀ die, die < 6 → dieBusy s p die = false → m.age ≥ (m.busy.get die).toNat + 10000 → m.idle.contains die = false →
      wrote (.dieIdleEntry p die) { m with idle := m.idle ++ [die] }) ∧
    (∀ die, (dieBusy s p die = true ∨ m.age < (m.busy.get die).toNat + 10000) → exec (.dieIdleEntry p die) s = .next s) ∧
    (∀ die, wrote (.dieIdleExit p die)
      (if m.waking.get die ≠ 0 ∧ (m.waking.get die).toNat ≤ m.age + 1 then { m with
        idle := m.idle.erase die, waking := m.waking.set die 0, busy := m.busy.set die (BitVec.ofNat 64 m.age) } else m)) ∧
    wrote (.powerOff p) { m with on := false } ∧
    (∃ u x, exec (.powerTrip p) s = .next u ∧ u.mods.find p = some x ∧ x.on = false ∧ x.msgs.getLast? = some 0 ∧
      (∀ slot, slot < 16 → (u.ctx p slot).live = false) ∧ modOn u p = false) ∧
    (∀ v, 600 ≤ v → v ≤ 2400 → wrote (.plimWrite p v) { m with plim := v }) ∧
    (∃ u x, exec (.moduleReset p) s = .next u ∧ u.mods.find p = some x ∧ x.gtime = 0 ∧ x.on = true ∧ x.ports = [] ∧
      x.queues = [] ∧ x.b2base = 0 ∧ x.sigs = m.sigs ∧ x.msgs = (if x.booted then [] else [0]) ∧
      (x.booted = true ↔ ∀ b ∈ Config.bootStages s.seq,
        digestOf b.2.2.1 = Config.fuseKeyHash ∧ lmsVerifies b.2.2.1 b.2.1 b.2.2.2 = true) ∧
      (∀ ck off, corePkg ck = p → (off < 2 ^ 23 → u.mem.get (poolKey ck off) = 0) ∧
        (off < 2 ^ 22 → u.mem.get (accKey ck off) = 0)) ∧ (∀ k, k < 2 ^ 60 → u.mem.get k = s.mem.get k) ∧
      (∀ slot, slot < 16 → (u.ctx p slot).live = false) ∧
      (∀ die, die < 6 → u.harts.find (systemKey p die) = some resetSystemHart) ∧
      (∀ k h, u.harts.find k = some h → pkgOf k = p → isSystemKey k = true) ∧
      (∀ k, pkgOf k ≠ p → u.harts.find k = s.harts.find k) ∧ (∀ q, q ≠ p → u.mods.find q = s.mods.find q)) ∧
    (∀ nonce, nonce < 2 ^ 256 →
      (m.sigs < 2 ^ 20 → ∃ x sig, wrote (.attestationRequest p nonce) x ∧
        x = { m with mailbox := some nonce, sigs := m.sigs + 1, exhausted := false, answer := x.answer } ∧
        x.answer = m.measure.flatMap (fun d => (digestBytes d)) ++ bytesOf nonce 32 ++ sig) ∧
      (2 ^ 20 ≤ m.sigs → wrote (.attestationRequest p nonce)
        { m with mailbox := some nonce, answer := [], exhausted := true })))

/-- R218, R219, R222, R226, R230-R233: LNSET, and what CPY, CPYR and CPYX capture when they issue; CPYR mode 01 and CPYX issue while
an earlier CPYR still brings their groups in.
R219, R221, R222-R227: the engine performs copy or group j of a token once the checks of all below it pass, its bytes are
reached and no earlier CPYR has still to bring it in (a CPYR mode 01 issued before it came reads it as it comes), fails the
token at the first check that fails, and completes it, the addition to its object made first. The model's own: the source is
checked first (log 159), Align before Window for CPYR (log 160), address 0 for a CPYX that fails with Space (log 161), and
the tag of a CPYX target with each group (log 162). -/
def Obligations.CopyTokens : Prop :=
  ((∀ (o : OpR) (s : State), AloneAnswers (.lnset o) (regsOf (.lnset o)) s (fun t =>
    let c := (o.x.map (fun x => if x.sub.toNat % 4 = 1 then s.me.reg (scOf x) else s.me.reg o.b)).getD (s.me.reg o.b)
    (t.setMe { t.me with ln := t.me.ln.put o.d.toNat ⟨(s.me.reg o.a).setWidth 32, s.me.reg o.b, c⟩ }).vretire
      (instrLen (.lnset o)))) ∧
  (∀ (o : OpABX) (s : State),
    let n := o.x.imm32.toNat
    Issues (.cpy o) s (interlocked (s.waited (instrWtk (.cpy o))) 1024 (regsOf (.cpy o))) (n / 2 ^ 16 % 8) id
      (.bytes (s.me.reg o.a) (s.me.reg o.b) (n % 2 ^ 13) ((span 0 (n / 2 ^ 13 % 8)).map (fun l => s.me.ln.getD l {})))
      (if scOf o.x = 0 then none else some (s.me.reg (scOf o.x)))) ∧
  (∀ (o : OpCpyR) (s : State),
    let v := o.d.toNat
    let c := o.x.imm32.toNat % 16
    let k := o.x.imm32.toNat / 16 % 8
    let a := s.me.reg o.a + s.me.reg o.b
    (∀ f : Hart → Hart, (∀ h, f h = (span v c).foldl (fun g r => g.setTag r s.me.cf) h) →
      Issues (.cpyrLoad o) s (interlocked (s.waited (instrWtk (.cpyrLoad o))) 1024 (regsOf (.cpyrLoad o))) k f (.regIn v c a) none) ∧
    Issues (.cpyrStore o) s (collHolds (s.waited (instrWtk (.cpyrStore o))) (regsOf (.cpyrStore o))) k id (.regOut v c a ((span v c).map s.me.vget)) none) ∧
  (∀ (o : OpCpyX) (s : State),
    let v := o.d.toNat
    let c := o.x.imm32.toNat % 16
    Issues (.cpyx o) s (collHolds (s.waited (instrWtk (.cpyx o))) (regsOf (.cpyx o))) (o.x.imm32.toNat / 16 % 8) id
      (.regX v c (cpyxTarget s (s.me.reg o.b).toNat) ((span v c).map (fun r => (s.me.vget r, s.me.tags.get r)))) none)) ∧
  (∀ (hk k : Nat) (s : State) (h : Hart) (t : Token) (w : Work), copying s hk k = some (h, t, w) →
    (∀ (j : Nat) (ks kd : List Nat), j < copyCount w → t.done.contains j = false → copyHeld s hk w j = false →
      (∀ i, i < j → t.done.contains i = false → ∃ p, copyCheck s hk w i = .ok p) → copyCheck s hk w j = .ok (ks, kd) →
      (keysBad s ks kd = true ∨ copyClear s hk t ks kd = false ∨ reachesAll s (pkgOf hk) (ks ++ kd) = false ∨
          groupDue h t w j = true →
        exec (.copyPerformed hk k j) s = .next s) ∧
      (keysBad s ks kd = false → copyClear s hk t ks kd = true → reachesAll s (pkgOf hk) (ks ++ kd) = true → kd.Nodup →
        groupDue h t w j = false →
      let s0 := (ks ++ kd).foldl pin s
      ∃ u, exec (.copyPerformed hk k j) s = .next u ∧ (u.hart hk).token k = { t with done := t.done ++ [j] } ∧
        (∀ q, q ∉ kd → u.byteAt q = s0.byteAt q) ∧
        (∀ a b e nest, w = .bytes a b e nest → u.harts = s.harts.put hk (u.hart hk) ∧
          u.hart hk = h.setToken k { t with done := t.done ++ [j] } ∧
          ∀ i, i < kd.length → u.byteAt (kd.getD i 0) = s0.byteAt (ks.getD i 0)) ∧
        (∀ v c a, w = .regIn v c a → ∀ r e, e < 16 → elemOf ((u.hart hk).vget r) 512 e =
          if r = v + j / 16 ∧ e = j % 16 then ofBytes (ks.map s0.byteAt) else elemOf (h.vget r) 512 e) ∧
        (∀ v c a p v' c' a' d, w = .regIn v c a → p ≠ k → (h.token p).work = some (.regOut v' c' a' d) →
          (h.token p).pending = true → t.seq < (h.token p).seq → v' ≤ v + j / 16 → v + j / 16 - v' < d.length →
          (h.token p).done.contains (16 * (v + j / 16 - v') + j % 16) = false →
          ∃ d', (u.hart hk).token p = { h.token p with work := some (.regOut v' c' a' d') } ∧ ∀ i e, e < 16 →
            elemOf (d'.getD i 0) 512 e = if i = v + j / 16 - v' ∧ e = j % 16 then ofBytes (ks.map s0.byteAt)
              else elemOf (d.getD i 0) 512 e) ∧
        (∀ v c a d, w = .regOut v c a d → ∀ i, i < 64 → i < kd.length →
          u.byteAt (kd.getD i 0) = BitVec.ofNat 8 (elemOf (d.getD (j / 16) 0) 512 (j % 16) / 2 ^ (8 * i))) ∧
        (∀ v c mid d g, w = .regX v c (some mid) d → memberKey s h.launch mid = some g → ∀ r e, e < 16 →
          elemOf ((u.hart g).vget r) 512 e = if r = v + j / 16 ∧ e = j % 16 then elemOf (d.getD (j / 16) (0, 0)).1 512 (j % 16)
            else elemOf ((s.hart g).vget r) 512 e) ∧
        (∀ v c mid d n i im g, w = .regX v c (some mid) d → memberKey s h.launch mid = none →
          memberImage s h.launch mid = some (n, i) → s.images.find n = some im → im.harts.find i = some g →
          ∃ x y, u.images.find n = some x ∧ x = { im with harts := x.harts } ∧ x.harts.find i = some y ∧ ∀ r e, e < 16 →
            elemOf (y.vget r) 512 e = if r = v + j / 16 ∧ e = j % 16 then elemOf (d.getD (j / 16) (0, 0)).1 512 (j % 16)
              else elemOf (g.vget r) 512 e))) ∧
    (∀ (j c : Nat) (v : W64), j < copyCount w → t.done.contains j = false → copyHeld s hk w j = false →
      (∀ i, i < j → t.done.contains i = true) → copyCheck s hk w j = .error (c, v) →
      exec (.copyFail hk k j) s = .next (s.setHart hk (h.setToken k
        { t with pending := false, failed := true, failJ := j, cause := c, val := v }))) ∧
    (copyCount w ≤ t.done.length →
      (t.bobj = none → exec (.copyComplete hk k) s = .next (s.setHart hk (h.setToken k
        { t with pending := false, work := none, owed := none }))) ∧
      (∀ a, t.bobj = some a → copyBytes w ≠ 0 → objectHeld s hk a.toNat = true → exec (.copyComplete hk k) s = .next s) ∧
      (∀ a, t.bobj = some a → (copyBytes w = 0 ∨ objectHeld s hk a.toNat = false) →
        let r := engineAdd s hk a.toNat (copyBytes w)
        exec (.copyComplete hk k) s = .next (r.1.setHart hk (h.setToken k
          { t with pending := false, work := none, owed := r.2 })))))

/-- R18, R246-R250, R252, R253, R258, R259, R262-R268: attaching and detaching (rows that came free for a MATT before its
team was swapped out are kept for it, log 153), MCFG, and the commands that join the queue. -/
def Obligations.MatrixCommands : Prop :=
  (∀ (o : OpAB) (s : State) (ck : Nat), s.ready (instrWtk (.matt o)) → matCore s = some ck → (attachments s).length < 2 ^ 60 →
    let t := s.waited (instrWtk (.matt o))
    let len := instrLen (.matt o)
    let sa := (s.me.reg o.a).toNat
    let sb := (s.me.reg o.b).toNat
    let want := min 256 ((sa % 512 + 15) / 16 * 16)
    let need := min want ((sa / 2 ^ 16 % 512 + 15) / 16 * 16)
    let base := sb % 2 ^ 22
    let n := sb / 2 ^ 32 % 2 ^ 23
    let free := freeRows t (quadOf ck) + s.me.granted
    let answers := fun (u : State) => exec (.matt o) s = .next u
    let legal := base % 1024 = 0 ∧ n % 1024 = 0 ∧ 1024 ≤ n ∧ base + n ≤ 4194304
    (s.me.att.isSome = true → answers (t.vretire len)) ∧
    (s.me.att = none →
      (¬legal → answers (raise 0x08 (s.me.reg o.b) t)) ∧
      let waiting := ∃ w, s.me.wait = some w ∧ (w.kind = wMatt ∨ w.kind = wGrant)
      (legal → ¬waiting → extentTaken t ck base n = true → answers (raise 0x0F 0 t)) ∧
      (legal → (waiting ∨ extentTaken t ck base n = false) →
        ((want = 0 ∨ (need = 0 ∧ free = 0)) → answers (t.vretire len)) ∧
        (0 < want → (0 < need ∨ 0 < free) → s.me.granted = 0 → free < need → ∃ u, answers u ∧ u.me.pc = s.me.pc ∧ u.me.wait.isSome = true ∧
          u.me.att = none) ∧
        (0 < want → (0 < need ∨ 0 < free) → (s.me.granted ≠ 0 ∨ need ≤ free ∧ ∀ e ∈ s.harts, ∀ w, e.1 ≠ s.cur →
            e.2.vector.wait = some w → w.kind = wMatt → waitQuad e.1 e.2 ≠ some (quadOf ck)) →
          (extentTaken t ck base n = true → answers (raise 0x0F 0 t)) ∧
          (extentTaken t ck base n = false → ∃ hd, hd ≠ 0 ∧ hd < 2 ^ 64 ∧ (∀ x ∈ attachments s, pkgOf x.1 = s.myPkg → x.2.2.handle ≠ hd) ∧
            let a : Attach := ⟨hd, ck, min want free, 10, 9, s.me.sysord, 1, {}, {}, base, n, [], 0⟩
            answers (((t.setMe { t.me with att := some a }).bump).vretire len)))))) ∧
  (∀ (i : Instr) (s : State), s.ready (instrWtk i) → s.me.att = none →
    let t := s.waited (instrWtk i)
    (∀ o, i = .mdet o → exec i s = .next (t.vretire (instrLen i))) ∧
    (((∃ o, i = .mcfg o) ∨ (∃ o, i = .mlds o) ∨ (∃ o, i = .mswap o) ∨ (∃ o, i = .mstrm o) ∨ (∃ o, i = .macz o) ∨
      (∃ o, i = .macst o) ∨ (∃ o, i = .macld o)) → exec i s = .next (raise 0x0F 0 t))) ∧
  (∀ (i : Instr) (s : State) (a : Attach), s.ready (instrWtk i) → s.me.att = some a →
    let t := s.waited (instrWtk i)
    let len := instrLen i
    let folded := t.me.orFlags a.flags
    let n := s.me.planesInForce
    let f := fmtOf a.infmt
    let joins := fun (kind acc shape mask n : Nat) (src : List (List (Nat × Nat))) => ∃ u c, exec i s = .next u ∧
      c = ⟨kind, s.seq, s.me.cls, (s.mod s.myPkg).gtime, (s.mod s.myPkg).gtime, src, acc, shape, mask, n, 0⟩ ∧
      u.me = ({ t.me with
        att := some { a with queue := a.queue ++ [c] }
        csr := { t.me.csr with vstart := 0 } }.done len) ∧
      (∀ k, k ≠ s.cur → u.harts.find k = s.harts.find k) ∧ u.seq = s.seq + 1
    (∀ o, i = .mdet o → (a.queue = [] → exec i s = .next ((t.setMe { folded with att := none }).vretire len)) ∧
      (a.queue ≠ [] → exec i s = .next (t.hold wMatrix))) ∧
    (∀ o, i = .mcfg o → (a.queue ≠ [] → exec i s = .next (t.hold wMatrix)) ∧ (a.queue = [] →
      let x := o.x.imm32.toNat
      exec i s = .next ((t.setMe { folded with att := some { a with
        flags := 0, infmt := x % 16, accfmt := x / 16 % 16
        chain := if x.testBit 11 then s.me.sysord else x.testBit 8
        split := if x.testBit 11 then 1 else 2 ^ (x / 2 ^ 9 % 4)
        active := {}, shadow := {} } }).vretire len))) ∧
    (∀ o, i = .mswap o → joins 1 0 0 0 0 []) ∧
    (∀ o src, i = .mlds o →
      let r := min 256 ((s.me.reg o.b).toNat % 512)
      let w := stepWidth f
      let kt := min 256 (((s.me.reg o.b).toNat / 2 ^ 16 % 512 + (w - 1)) / w * w)
      (a.rows < r → exec i s = .next (raise 0x0F 0 t)) ∧
      (r ≤ a.rows → allRuns t (fun p => [(p, r * rowBytes f kt)]) (planeBases t (s.me.reg o.a).toNat) = .ok src →
        misaligned (planeBases t (s.me.reg o.a).toNat) = none → joins 0 0 (r + kt * 65536) 0 n src)) ∧
    (∀ o src, i = .mstrm o →
      let x := (s.me.reg o.d).toNat
      let b := (s.me.reg o.b).toNat
      let bases := planeBases t (s.me.reg o.a).toNat
      (x % 2 ^ 13 = 0 → exec i s = .next (t.vretire len)) ∧
      (x % 2 ^ 13 ≠ 0 → a.rows < shMR x → exec i s = .next (raise 0x0F 0 t)) ∧
      (x % 2 ^ 13 ≠ 0 → shMR x ≤ a.rows →
        allRuns t (fun p => [(p, shN x * rowBytes f (depthsAfter a).1)]) bases = .ok src →
        (regionBad a x b n = true → exec i s = .next (raise 0x08 (s.me.reg o.b) t)) ∧
        (regionBad a x b n = false → misaligned bases = none →
          joins 2 b x ((o.x.map (fun e => e.imm32.toNat)).getD 0xFFFFFFFF) n src))))

/-- R253, R258, R259, R262, R269: MACZ clears the cells, MACST and MACLD move and round them one by one, the planes after
the primal; each byte takes the element written last, and no other byte changes. That the planes come after the primal is
the model's reading (log 80), as is Matrix-attach for more rows than the grant (log 170). -/
def Obligations.MatrixTransfers : Prop :=
  ∀ (i : Instr) (d b5 : BitVec 5) (s : State) (a : Attach),
    ((∃ o : OpDB, i = .macz o ∧ d = o.d ∧ b5 = o.b) ∨ (∃ o : OpR, (i = .macst o ∨ i = .macld o) ∧ d = o.d ∧ b5 = o.b)) →
    s.ready (instrWtk i) → s.me.att = some a → a.queue = [] →
    let t := s.waited (instrWtk i)
    let x := (s.me.reg d).toNat
    let b := (s.me.reg b5).toNat
    let n := s.me.planesInForce
    let h := ({ (t.me.orFlags a.flags) with att := some { a with flags := 0 } })
    let cell := fun (k r c : Nat) => cellKey a x b k r c
    let inside := fun (k r c : Nat) => k ≤ n ∧ r < shMR x ∧ c < shNC x
    (shN x = 0 → exec i s = .next ((t.setMe h).vretire (instrLen i))) ∧
    (shN x ≠ 0 → a.rows < shMR x → exec i s = .next (raise 0x0F 0 t)) ∧
    (shN x ≠ 0 → shMR x ≤ a.rows →
      (∀ o, i = .macz o → (regionBad a x b n = true → exec i s = .next (raise 0x08 (s.me.reg b5) t)) ∧
        (regionBad a x b n = false → keysBad s [] (cellBytes a x b n) = false → ∃ u, exec i s = .next u ∧
          (∀ k r c j, inside k r c → j < accBytes a → u.byteAt (cell k r c + j) = 0) ∧
          (∀ q, (∀ k r c, inside k r c → q < cell k r c ∨ cell k r c + accBytes a ≤ q) → u.byteAt q = s.byteAt q) ∧
          u.me = { h with csr := { h.csr with vstart := 0 } }.done (instrLen i) ∧ u.fe = s.fe)) ∧
      (∀ (o : OpR) (runs : List (List (Nat × Nat))), (i = .macst o ∨ i = .macld o) →
        let f := s.me.cf
        let g := fmtOf a.accfmt
        let eb := fmtBytes f
        let bases := planeBases t (s.me.reg o.a).toNat
        allRuns t (fun p => (span 0 (shMR x)).map (fun r => (macAddr x eb p r 0, shNC x * eb))) bases = .ok runs →
        (regionBad a x b n = true → exec i s = .next (raise 0x08 (s.me.reg b5) t)) ∧
        (regionBad a x b n = false → misaligned bases = none → isFloat f = false → exec i s = .next (raise 0x03 0 t)) ∧
        (regionBad a x b n = false → misaligned bases = none → isFloat f = true →
          (∀ r ∈ runs.flatMap id, earlierCopy t s.cur s.seq r (i == .macst o) = false ∧
            (i = .macst o → matrixReads s.me r.1 r.2 = false)) →
          (let ks := (runs.flatMap id).flatMap (fun r => span r.1 r.2)
            if i = .macst o then keysBad s (cellBytes a x b n) ks else keysBad s ks (cellBytes a x b n)) = false →
          let t0 := (runs.flatMap id).foldl (fun t r => pin t r.1) t
          let byte := fun (k r c : Nat) => runKeyAt (runs.getD k []) ((r * shNC x + c) * eb)
          let moves := fun (src dst : Nat → Nat → Nat → Nat) (ns nd : Nat) (res : Nat → Nat × Flags) =>
            (∀ k r c k' r' c', inside k r c → inside k' r' c' → src k r c + ns ≤ dst k' r' c' ∨ dst k' r' c' + nd ≤ src k r c) →
            let val := fun (k r c : Nat) => res (t0.mem.load (src k r c) ns)
            let off := fun (k r c q : Nat) => q < dst k r c ∨ dst k r c + nd ≤ q
            ∃ u, exec i s = .next u ∧
              (∀ k r c j, inside k r c → j < nd →
                (∀ k' r' c', inside k' r' c' → (k < k' ∨ k = k' ∧ (r < r' ∨ r = r' ∧ c < c')) → off k' r' c' (dst k r c + j)) →
                u.byteAt (dst k r c + j) = BitVec.ofNat 8 ((val k r c).1 / 2 ^ (8 * j))) ∧
              (∀ q, (∀ k r c, inside k r c → off k r c q) → u.byteAt q = t0.byteAt q) ∧
              (∀ e, u.me.csr.fflags.getLsbD e = (h.csr.fflags.getLsbD e || (cellsOf x).any (fun p =>
                (val 0 p.1 p.2).2.getLsbD e))) ∧
              u.me = { h with csr := { h.csr with fflags := u.me.csr.fflags, vstart := 0 } }.done (instrLen i) ∧ u.fe = t0.fe
          (i = .macst o → moves cell byte (accBytes a) eb (fun v => roundTo f 0 s.me.sate4 (decodeNum g v))) ∧
          (i = .macld o → moves byte cell eb (accBytes a) (fun v => roundTo g 0 false (decodeNum f v))))))

/-- R75, R76, R249, R251, R254, R255, R262, R266, R267: one step of the array of a quad runs the head command that comes
first: MLDS fills the shadow plane, MSWAP exchanges the planes, MSTRM sums one k-step, or with the chain order the whole sum
at its last one, into each enabled cell; and a command, behind the head too, falls by one class for each 4,096 clk (2.4 in a
ns) that it has waited. That the wait is counted from the issue is log 166. -/
def Obligations.MatrixArray : Prop :=
  (∀ (quad : Nat) (s : State) (hk i : Nat) (a : Attach) (c : MCmd), firstOf (ready s quad) = some (hk, i, a, c) →
    let now := (s.mod (pkgOf hk)).gtime
    let f := fmtOf a.infmt
    let rest := a.queue.drop 1
    let left := if c.step + 1 < stepsOf a c then { c with step := c.step + 1, last := now } :: rest else rest
    let becomes := fun (x : Attach) => exec (.matrixStep quad) s = .next (setAttach s hk i x)
    let r := c.shape % 512
    let kt := c.shape / 2 ^ 16 % 512
    (c.kind = 0 → kt ≤ 256 → ∃ p : MPlane, becomes { a with queue := left, shadow := p } ∧ p.kt = kt ∧
      p.tan.length = c.src.length - 1 ∧
      ∀ k row e, k < c.src.length → row < 256 → e < 256 →
        (if k = 0 then p.w else p.tan.getD (k - 1) []).get (row * 256 + e) = if row < r ∧ e < kt then
            embed (inputAt f kt (readRuns s (c.src.getD k []) (row * rowBytes f kt) (rowBytes f kt)) e) else 0) ∧
    (c.kind = 1 → becomes { a with queue := left, active := a.shadow, shadow := a.active }) ∧
    (c.kind = 2 → a.active.kt / stepWidth f ≠ 0 →
      let x := c.shape
      let w := stepWidth f
      let d := a.active.kt
      let ks := d / w
      let grp := c.step / ks % ((shN x + 15) / 16)
      let k0 := c.step % ks
      let pass := passOf (c.step / (ks * ((shN x + 15) / 16)))
      let row := fun (q : Nat) => q < shMR x ∧ c.mask.testBit (q / 16) = true
      let col := fun (q : Nat) => 16 * grp ≤ q ∧ q < 16 * grp + 16 ∧ q < shNC x ∧ c.mask.testBit (24 + q / 16 % 8) = true
      let prod := fun (q n k : Nat) => if k < min (shQ x) d ∧ c.mask.testBit (16 + k / 32) = true then
          numMul (decodeNum .f64 ((if pass.1 = 0 then a.active.w else a.active.tan.getD (pass.1 - 1) []).get (q * 256 + k)).toNat)
            (inputAt f d (readRuns s (c.src.getD pass.2.1 []) (n * rowBytes f d) (rowBytes f d)) k)
        else ⟨Machine.Num.zero, 0⟩
      let cell := fun (q n : Nat) => cellKey a x c.acc pass.2.2 q n
      let sum := fun (q n : Nat) =>
        let old := (s.mem.load (cell q n) (accBytes a), 0)
        if a.chain then (if k0 + 1 = ks then chainSum (fmtOf a.accfmt) a.split d q old (prod q n) else old)
        else nativeStep (fmtOf a.accfmt) old ((span (k0 * w) w).map (prod q n))
      ∃ (v : State) (fl : Flags), exec (.matrixStep quad) s = .next (setAttach v hk i { a with queue := left, flags := a.flags ||| fl }) ∧
        (∀ q n j, row q → col n → j < accBytes a →
          v.byteAt (cell q n + j) = BitVec.ofNat 8 ((sum q n).1 / 2 ^ (8 * j))) ∧
        (∀ p, (∀ q n, row q → col n → p < cell q n ∨ cell q n + accBytes a ≤ p) → v.byteAt p = s.byteAt p) ∧
        (∀ e, fl.getLsbD e = true ↔ pass.2.2 = 0 ∧ ∃ q n, row q ∧ col n ∧ (sum q n).2.getLsbD e = true) ∧
        v.harts = s.harts ∧ v.fe = s.fe)) ∧
  (∀ (quad hk : Nat) (s : State) (a : Attach), (attachments s).filter (fun x => x.1 == hk) = [(hk, 0, a)] →
    quadOf a.core = quad →
    let now := (s.mod (pkgOf hk)).gtime
    ∃ q, exec (.matrixClassAging quad hk) s = .next (s.setHart hk { s.hart hk with att := some { a with queue := q } }) ∧
      q.length = a.queue.length ∧ ∀ (i : Nat) (c : MCmd), a.queue[i]? = some c → ∃ (d : MCmd) (n : Nat), q[i]? = some d ∧
        d = { c with cls := c.cls - n, last := d.last } ∧
        n * 40960 ≤ (now - c.last) * 24 ∧ (now - c.last) * 24 < (n + 1) * 40960 ∧
        n * 40960 ≤ (d.last - c.last) * 24 ∧ (d.last - c.last) * 24 < n * 40960 + 24 ∧ c.last ≤ d.last)

/-- R273, R290, R291: XRUN leaves a run set that holds each record of its input once, in nondecreasing runs, every one but
the last of 4,096 records or more; XMRG leaves one region, by key, then run, then place in the run. Reserved
header bits are kept (log 145). -/
def Obligations.SortingInstructions : Prop :=
  ∀ (o : OpDA) (s : State) (input out : List (Nat × Nat)) (worst : Nat),
    let a := (s.me.reg o.a).toNat
    let d := (s.me.reg o.d).toNat
    let fits := fun (t : State) (n : Nat) => poolBytes t d n = .ok out ∧ d % 16 = 0 ∧ runsMeet out input = false ∧
      (∀ r ∈ out, eccHit s r.1 r.2 = false ∧ matrixReads s.me r.1 r.2 = false) ∧
      (∀ i j, i < j → j < n → runKeyAt out i ≠ runKeyAt out j)
    let leaves := fun (i : Instr) (t : State) (x : Nat × Nat) => ∃ u, exec i s = .next u ∧
      (∀ j, j < x.2 → u.mem.get (runKeyAt out j) = BitVec.ofNat 8 (x.1 / 2 ^ (8 * j))) ∧
      (∀ q, (∀ j, j < x.2 → q ≠ runKeyAt out j) → u.byteAt q = (pinRuns t out).byteAt q) ∧
      u.me = { t.me with csr := { t.me.csr with vstart := 0 } }.done (instrLen i) ∧
      (∀ k, k ≠ s.cur → u.harts.find k = s.harts.find k)
    (∀ (n : Nat) (l : List Raw), s.ready (instrWtk (.xrun o)) →
      let t := s.waited (instrWtk (.xrun o))
      readRegion t a = .ok (input, n, l) → worst = n + 16 * ((l.length + 4095) / 4096) → fits t worst →
      ∃ runs : List (List Raw), leaves (.xrun o) t (runSetRaw runs) ∧ (runSetRaw runs).2 ≤ worst ∧ (runs.flatMap id).Perm l ∧
        (∀ r ∈ runs, r.Pairwise (fun x y => x.key ≤ y.key)) ∧ (∀ r ∈ runs.dropLast, 4096 ≤ r.length) ∧ [] ∉ runs) ∧
    (∀ (h : List (Nat × Nat)) (ls : List (List Raw)), s.ready (instrWtk (.xmrg o)) →
      let t := s.waited (instrWtk (.xmrg o))
      poolBytes t a 16 = .ok h → a % 16 = 0 →
      let n := readRuns t h 0 8
      let bytes := readRuns t h 8 8
      poolBytes t a (16 + bytes) = .ok input → readRunSet t a n 16 = .ok (ls, 16 + bytes) → worst = 16 + bytes - 16 * n →
      eccAddr t input a (16 + bytes) = none → fits t worst →
      ∃ l : List Raw, leaves (.xmrg o) t (regionRaw l) ∧ l.Pairwise (fun x y => x.key ≤ y.key) ∧
        ∀ k, l.filter (fun x => x.key == k) = (ls.flatMap id).filter (fun x => x.key == k))

/-- R272, R274-R276, R278, R286, R288, R292, R293, R295-R297, R299: installing, changing and releasing a group, opening and
closing a stream, sending on it as far as there is room, and posting a receive region. An XOPEN whose stream was opened as
its team was swapped out goes on, and an XROUND whose round has completed outlasts the release of its group (R18). The name
of a group is log 82, the room and the bursts log 85. What a satisfied wait keeps is log 153. -/
def Obligations.ExchangeInstructions : Prop :=
  (∀ (o : OpAB) (s t1 t2 t3 : State) (key x y z : Nat) (ms : List (Nat × Nat)), s.ready (instrWtk (.xsplt o)) →
    let t := s.waited (instrWtk (.xsplt o))
    let a := (s.me.reg o.a).toNat
    let b := (s.me.reg o.b).toNat
    let d := x / 2 ^ 16 % 2 ^ 16
    let n := x / 2 ^ 32 % 2 ^ 32
    let rcap := x / 2 ^ 64 % 2 ^ 32
    groupNamed t a = none → b ≠ 0 → groupByte t a = some key → (a / 2 ^ 60 = 0 ∨ a / 2 ^ 60 = 2) →
    readOnce t 0 a 16 64 4 = .ok (t1, x) → 1 ≤ d → d ≤ 4096 → 1 ≤ n → n ≤ 2 ^ 24 → rcap % 16 = 0 → 4128 ≤ rcap →
    rcap ≤ 4194304 → readOnce t1 1 ((a + 16) % 2 ^ 64) (4 * d) 16 4 = .ok (t2, y) →
    (span 0 d).map (fun i => destMember t2 (y / 2 ^ (32 * i) % 2 ^ 32)) = ms.map some → (ms.map Prod.fst).Nodup →
    groupsFull t2 = false → x / 2 ^ 4 % 16 < s.levels.length → readBlock t2 2 b (8 * (d - 1)) 8 8 = .ok (t3, z) →
    ∃ g u, exec (.xsplt o) s = .next u ∧ u.groups = t3.groups.put t3.seq g ∧ u.seq = t3.seq + 1 ∧
      g.key = key ∧ g.launch = s.me.launch ∧ g.ctx = s.me.ctx ∧ g.s = n ∧ g.rcap = rcap ∧ g.dests = ms ∧ g.rounds = [] ∧
      g.rebal = x.testBit 0 ∧ g.policy = (if x / 2 % 4 = 3 then 1 else x / 2 % 4) ∧ g.layer = x.testBit 3 ∧
      g.level = x / 2 ^ 4 % 16 ∧ g.set = ascending 0 ((span 0 (d - 1)).map (fun i => z / 2 ^ (64 * i) % 2 ^ 64)) ∧
      (∀ e, e < 256 → g.home.getD e 0 = destOf g.set (e * 2 ^ 32))) ∧
  (∀ (j a n al el x : Nat) (s t : State), (∀ w, s.me.remote.find j = some w → w.ready = none) →
    readBlock s j a n al el = .ok (t, x) → ∃ u, readOnce s j a n al el = .ok (u, x) ∧
      u = t.setMe { t.me with remote := u.me.remote } ∧ ∀ a' n' al' el', readOnce u j a' n' al' el' = .ok (u, x)) ∧
  (∀ (o : OpAB) (s : State) (w : Wait), s.ready (instrWtk (.xopen o)) → s.me.wait = some w → w.kind = wOpened →
    exec (.xopen o) s = .next ((s.waited (instrWtk (.xopen o))).vretire (instrLen (.xopen o)))) ∧
  (∀ (i : Instr) (r : BitVec 5) (s : State), s.ready (instrWtk i) →
    (∀ w, s.me.wait = some w → w.kind ≠ wOpened ∧ w.kind ≠ wRounded) →
    groupNamed (s.waited (instrWtk i)) (s.me.reg r).toNat = none →
    ((∃ o, i = .xcomb o ∧ r = o.a) ∨ (∃ o, i = .xcapset o ∧ r = o.a) ∨ (∃ o, i = .xopen o ∧ r = o.a) ∨
      (∃ o, i = .xrecv o ∧ r = o.a) ∨ (∃ o, i = .xsamp o ∧ r = o.a) ∨ (∃ o, i = .xround o ∧ r = o.a) ∨
      (∃ o, i = .xsplt o ∧ r = o.a ∧ s.me.reg o.b = 0)) →
    exec i s = .next (raise 0x08 (s.me.reg r) (s.waited (instrWtk i)))) ∧
  (∀ (i : Instr) (ra rb : BitVec 5) (s : State) (gk : Nat) (g : Group), s.ready (instrWtk i) →
    let t := s.waited (instrWtk i)
    let b := (s.me.reg rb).toNat
    let mine := changeOf gk t.me
    let first := ∀ n ∈ waitingChanges t gk, ∃ m, mine = some m ∧ m ≤ n
    let waits := exec i s = .next (if mine = none then (t.holdAt wExchange gk (4 + t.seq)).bump else t.hold wExchange)
    let changed := fun (t : State) (x : Group) => exec i s = .next (State.vretire { t with groups := t.groups.put gk x } (instrLen i))
    groupNamed t (s.me.reg ra).toNat = some (gk, g) → s.groups.find gk = some g →
    ((∃ o : OpAB, i = .xcomb o ∧ ra = o.a ∧ rb = o.b) → (g.open_ = true ∨ ¬first → waits) ∧
      (g.open_ = false → first → changed t { g with comb := b % 4096 })) ∧
    ((∃ o : OpAB, i = .xcapset o ∧ ra = o.a ∧ rb = o.b) → (g.open_ = true ∨ ¬first → waits) ∧
      (∀ t1 x, g.open_ = false → first → readBlock t 0 b (4 * g.dests.length) 4 4 = .ok (t1, x) → t1.groups = s.groups →
        changed t1 { g with caps := (span 0 g.dests.length).map (fun j => x / 2 ^ (32 * j) % 2 ^ 32) })) ∧
    ((∃ o : OpAB, i = .xsplt o ∧ ra = o.a ∧ rb = o.b) → (b ≠ 0 → (g.open_ = true ∨ ¬first) → waits) ∧
      (b = 0 → (∃ r ∈ g.rounds, r.completed = false) → exec i s = .next (t.hold wExchange)) ∧
      (b = 0 → (∀ r ∈ g.rounds, r.completed = true) →
        ∃ u, exec i s = .next u ∧ u.groups.find gk = none ∧ u.me.pc = s.me.pc + BitVec.ofNat 64 (instrLen i) ∧
          ∀ k h j r, k ≠ s.cur → s.harts.find k = some h → h.wait = some ⟨wRound, gk, j⟩ → g.rounds[j]? = some r →
            let full := if g.policy = 2 ∧ r.told.contains (h.launch, h.mid) = false then firstOver r else none
            ∃ h', u.harts.find k = some h' ∧ h'.wait = some ⟨wRounded, gk, (full.map (· + 1)).getD 0⟩ ∧ h'.owedX = h.owedX ∧
              h'.pc = h.pc) ∧
      (∀ t1 z, g.open_ = false → first → b ≠ 0 → readBlock t 2 b (8 * (g.dests.length - 1)) 8 8 = .ok (t1, z) →
        t1.groups = s.groups → changed t1 { g with
          set := ascending 0 ((span 0 (g.dests.length - 1)).map (fun j => z / 2 ^ (64 * j) % 2 ^ 64)) })) ∧
    ((∃ o : OpAB, i = .xopen o ∧ ra = o.a ∧ rb = o.b) → (∀ w, s.me.wait = some w → w.kind ≠ wOpened) → (g.s ≤ b → exec i s = .next (raise 0x08 (s.me.reg ra) t)) ∧
      (∀ g1 r, b < g.s → (closeStream t).groups.find gk = some g1 → r ≤ g1.rounds.length →
        (∀ q x, q < r → g1.rounds[q]? = some x → (x.streams.find b).isSome = true) →
        (∀ x, g1.rounds[r]? = some x → x.streams.find b = none) →
        (r = g1.rounds.length → (g1.open_ = true ∨ waitingChanges (closeStream t) gk ≠ []) →
          exec i s = .next ((closeStream t).holdAt wOpen gk b)) ∧
        ((r < g1.rounds.length ∨ (g1.open_ = false ∧ waitingChanges (closeStream t) gk = [])) → ∃ u g2 x, exec i s = .next u ∧ u.me.stream = some (gk, b) ∧
          u.groups.find gk = some g2 ∧ g2.rounds[r]? = some x ∧
          x.streams.find b = some ⟨s.me.launch, s.me.mid, s.myPkg, false, none, []⟩ ∧
          (∀ q, q ≠ r → g2.rounds[q]? = g1.rounds[q]?) ∧
          (r = g1.rounds.length → x.set = g1.set ∧ x.comb = g1.comb ∧ x.caps = g1.caps ∧ x.closed = false)))) ∧
    (∀ o : OpR, i = .xrecv o → ra = o.a → rb = o.b → ∀ (d : Nat) (runs : List (Nat × Nat)), d < g.dests.length →
      (g.dests.getD d (0, 0)).1 = s.me.mid → (g.dests.map Prod.fst).Nodup → s.me.launch = g.launch → s.me.system = false →
      poolBytes t (s.me.reg o.d).toNat g.rcap = .ok runs → (s.me.reg o.d).toNat % 16 = 0 →
      (b % 32 ≠ 0 → exec i s = .next (raise 0x04 (s.me.reg rb) t)) ∧
      (b % 32 = 0 → exec i s = .next (((pinRuns t runs).setMe { t.me with
        posted := s.me.posted ++ [⟨gk, d, runs, s.me.reg rb, 16, 0⟩] }).vretire (instrLen i))))) ∧
  (∀ (o : OpN) (s : State), s.ready (instrWtk (.xclose o)) →
    let t := s.waited (instrWtk (.xclose o))
    (s.me.stream = none → exec (.xclose o) s = .next (t.vretire (instrLen (.xclose o)))) ∧
    (∀ gk i g rd st, s.me.stream = some (gk, i) → s.groups.find gk = some g → g.rounds.getLast? = some rd →
      rd.streams.find i = some st → ∃ u g2 x, exec (.xclose o) s = .next u ∧ u.me.stream = none ∧
        u.me.pc = s.me.pc + BitVec.ofNat 64 (instrLen (.xclose o)) ∧ u.groups.find gk = some g2 ∧
        g2.rounds.getLast? = some x ∧ x.streams = rd.streams.put i { st with closed := true } ∧
        let shut := x.streams.length = g.s ∧ ∀ e ∈ x.streams, e.2.closed = true
        (x.closed = true ↔ rd.closed = true ∨ shut) ∧
        (shut → x.result = outcome g { x with result := rd.result } ∧ x.result.length = g.dests.length))) ∧
  (∀ (o : OpA) (s : State) (a off n : Nat), s.ready (instrWtk (.xsend o)) → s.me.sending = some (a, off, n) →
    exec (.xsend o) s = .next (sendOn (instrLen (.xsend o)) a off n (s.waited (instrWtk (.xsend o))))) ∧
  (∀ (o : OpA) (s : State) (rs : List (Nat × Nat)) (n : Nat) (l : List Raw), s.ready (instrWtk (.xsend o)) →
    let t := s.waited (instrWtk (.xsend o))
    s.me.sending = none → readRegion t (s.me.reg o.a).toNat = .ok (rs, n, l) →
    (l = [] → exec (.xsend o) s = .next (t.vretire (instrLen (.xsend o)))) ∧
    (∀ w r, l = w :: r → s.me.stream = none → exec (.xsend o) s = .next (raise 0x0D (BitVec.ofNat 64 w.key) t)) ∧
    (∀ gk i g rd st, l ≠ [] → s.me.stream = some (gk, i) → s.groups.find gk = some g → g.rounds.getLast? = some rd →
      rd.streams.find i = some st →
      (∀ k, disorder st.last l = some k → exec (.xsend o) s = .next (raise 0x0D (BitVec.ofNat 64 k) t)) ∧
      (l.Pairwise (fun x y => x.key ≤ y.key) → (∀ k w, st.last = some k → w ∈ l → k ≤ w.key) →
        exec (.xsend o) s = .next (sendOn (instrLen (.xsend o)) (s.me.reg o.a).toNat 16 l.length (pinRuns t rs)) ∧
        ((∀ r ∈ rs, pin t r.1 = t) → ∀ k, k ≤ l.length → recordsFrom t (s.me.reg o.a).toNat k 16 = l.take k)))) ∧
  (∀ (len a off n gk i : Nat) (s : State) (g : Group) (rd : Round) (st : Stream), s.me.stream = some (gk, i) →
    s.groups.find gk = some g → g.rounds.getLast? = some rd → rd.streams.find i = some st →
    let k := min n (1 + Config.sendBurst s.seq)
    let ws := recordsFrom s a k off
    let xs := ws.map (fun w => (⟨w.key, w.x / 2 ^ 80 % 256, false, false, false, s.myPkg,
      if g.layer then w.x / 2 ^ 112 % 2 ^ 16 else (g.rounds.length - 1) % 65536, bytesOf (w.x / 2 ^ 128) (w.len - 16)⟩ : Rec))
    let u := sendOn len a off n s
    ∃ m g2 x y, m ≤ ws.length ∧ sendFits s gk i xs m = true ∧ (∀ q, m < q → q ≤ ws.length → sendFits s gk i xs q = false) ∧
      u.groups.find gk = some g2 ∧ g2.rounds.getLast? = some x ∧ x.streams.find i = some y ∧
      y = { st with recs := st.recs ++ xs.take m, last := (((ws.take m).getLast?).map Raw.key <|> st.last) } ∧
      ((m = n ∨ (m = ws.length ∧ m < k)) → u.me.sending = none ∧ u.me.wait = none ∧ u.me.pc = s.me.pc + BitVec.ofNat 64 len) ∧
      (¬(m = n ∨ (m = ws.length ∧ m < k)) → u.me.pc = s.me.pc ∧ u.me.wait.isSome = true ∧
        u.me.sending = some (a, off + ((ws.take m).map Raw.len).sum, n - m)))

/-- R276, R286, R293, R298, R299: the next record leaves the final switch for its destination's staging, goes into the posted
region; the last one, and a region that is full, end it with its header, the addition to its object and, when every
destination has its last, the completion of the round; what XSAMP reports, formed once (log 83); and XROUND, also one whose
round had completed when its group was released (R18). What a satisfied wait keeps is log 153. -/
def Obligations.ExchangeDelivery : Prop :=
  (∀ (pkg gk d i : Nat) (s : State) (g : Group) (r : Round) (x : Rec), s.groups.find gk = some g → d < g.dests.length →
    corePkg (g.dests.getD d (0, 0)).2 = pkg → emittingRound g d = some i → g.rounds[i]? = some r →
    (emittable g r d)[(r.dests.getD d {}).emitted]? = some x →
    (∀ e ∈ r.streams, routeCut s e.2.pkg pkg = false ∧ ∀ y ∈ e.2.recs, routeCut s y.src pkg = false) →
    (65536 < stagingUsed g d + 16 + x.pay.length → exec (.switchEmit pkg gk d) s = .next s) ∧
    (stagingUsed g d + 16 + x.pay.length ≤ 65536 → ∃ g2 r2, exec (.switchEmit pkg gk d) s =
        .next { s with groups := s.groups.put gk g2 } ∧ g2 = { g with rounds := g2.rounds } ∧ g2.rounds[i]? = some r2 ∧
      (∀ q, q ≠ i → g2.rounds[q]? = g.rounds[q]?) ∧
      let ds := r.dests.getD d {}
      r2 = { r with dests := r.dests.put d { ds with emitted := ds.emitted + 1, staging := ds.staging ++ [x] } })) ∧
  (∀ (gk d i hk : Nat) (s : State) (g : Group) (r : Round) (p : Posted) (ps : List Posted), s.groups.find gk = some g →
    memberKey s g.launch (g.dests.getD d (0, 0)).1 = some hk → d < g.dests.length → (s.hart hk).posted = p :: ps →
    p.group = gk → pendingRound g d = some i → g.rounds[i]? = some r →
    let ds := r.dests.getD d {}
    let answers := fun (u : State) => exec (.recordDelivery (pkgOf hk) gk d) s = .next u
    let others := ∀ e, e < g.dests.length → e = d ∨ (r.dests.getD e {}).ended = true
    let finished := fun (v u : State) (q : Posted) (last : Bool) => (u.hart hk).posted = ps ∧
      (∃ w, w = { v with mem := w.mem, fe := w.fe, regions := w.regions, ecc := w.ecc } ∧
        (∀ j, j < 16 → w.byteAt (runKeyAt q.runs j) = BitVec.ofNat 8
          ((q.count + (q.at_ - 16) * 2 ^ 64 + (if last then 2 ^ 120 else 0)) / 2 ^ (8 * j))) ∧
        (∀ k, (∀ j, j < 16 → k ≠ runKeyAt q.runs j) → w.byteAt k = v.byteAt k) ∧
        let a := if q.bobj = 0 then (w, none) else engineAdd w hk q.bobj.toNat (16 + (q.at_ - 16))
        (∀ k, u.byteAt k = a.1.byteAt k) ∧
        (u.hart hk).owedX = (v.hart hk).owedX ++ (a.2.map (fun t => (gk, t.1, q.bobj))).toList) ∧
      (last = true → ∃ g2 r2, u.groups.find gk = some g2 ∧ g2.rounds[i]? = some r2 ∧ (r2.dests.getD d {}).ended = true ∧
        (others → r2.completed = true ∧ g2.lastDone = some i) ∧ (¬others → r2.completed = r.completed))
    (∀ x, ds.staging = [x] → allEmitted g r d = true → (p.bobj = 0 ∨ objectHeld s hk p.bobj.toNat = false) →
      p.at_ + 16 + x.pay.length ≤ g.rcap → 16 ≤ p.at_ → (∀ a b, a < b → b < g.rcap → runKeyAt p.runs a ≠ runKeyAt p.runs b) →
      g.rcap ≤ (p.runs.map Prod.snd).sum →
      ∃ u v, answers u ∧ v = { s with harts := v.harts, mem := v.mem, fe := v.fe, regions := v.regions, ecc := v.ecc, groups := v.groups } ∧
        (∀ j, j < 16 + x.pay.length → v.byteAt (runKeyAt p.runs (p.at_ + j)) = BitVec.ofNat 8 (recBits x / 2 ^ (8 * j))) ∧
        (∀ q, (∀ j, j < 16 + x.pay.length → q ≠ runKeyAt p.runs (p.at_ + j)) → v.byteAt q = s.byteAt q) ∧
        (v.hart hk).owedX = (s.hart hk).owedX ∧
        finished v u { p with at_ := p.at_ + 16 + x.pay.length, count := p.count + 1 } true) ∧
    (∀ x rest, ds.staging = x :: rest → (p.bobj = 0 ∨ objectHeld s hk p.bobj.toNat = false) → p.at_ + 16 + x.pay.length ≤ g.rcap → (rest ≠ [] ∨ allEmitted g r d = false) →
      (∀ a b, a < b → b < g.rcap → runKeyAt p.runs a ≠ runKeyAt p.runs b) → (∀ e ∈ p.runs, inPool e.1 = true) → g.rcap ≤ (p.runs.map Prod.snd).sum →
      ∃ u g2 r2, answers u ∧ (u.hart hk).posted = { p with at_ := p.at_ + 16 + x.pay.length, count := p.count + 1 } :: ps ∧
        u.groups.find gk = some g2 ∧ g2.rounds[i]? = some r2 ∧
        (r2.dests.getD d {}).staging = rest ∧ (r2.dests.getD d {}).got = ds.got + 1 ∧
        (∀ j, j < 16 + x.pay.length → u.byteAt (runKeyAt p.runs (p.at_ + j)) = BitVec.ofNat 8 (recBits x / 2 ^ (8 * j)) ∧
          u.fe.get (runKeyAt p.runs (p.at_ + j) / 16) = 1) ∧
        (∀ q, (∀ j, j < 16 + x.pay.length → q ≠ runKeyAt p.runs (p.at_ + j)) → u.byteAt q = s.byteAt q)) ∧
    (((ds.staging = [] ∧ allEmitted g r d = true) ∨ (∃ x rest, ds.staging = x :: rest ∧ g.rcap < p.at_ + 16 + x.pay.length)) →
      (p.bobj = 0 ∨ objectHeld s hk p.bobj.toNat = false) → (∀ a b, a < b → b < 16 → runKeyAt p.runs a ≠ runKeyAt p.runs b) →
      16 ≤ (p.runs.map Prod.snd).sum → ∃ u, answers u ∧ finished s u p (decide (ds.staging = [])))) ∧
  (∀ (o : OpDA) (s : State) (gk : Nat) (g : Group), s.ready (instrWtk (.xsamp o)) →
    let t := s.waited (instrWtk (.xsamp o))
    let posts := fun (t : State) (n v : Nat) =>
      exec (.xsamp o) s = .next (postBlock t (instrLen (.xsamp o)) (s.me.reg o.d).toNat n v)
    (∀ n r, s.me.remote.find 0 = some ⟨n, some r⟩ → posts t n r.1) ∧
    (groupNamed t (s.me.reg o.a).toNat = some (gk, g) → s.me.remote = [] →
      ∃ u, posts u (16 + 32 * g.dests.length) (sampleBlock g) ∧ u = t.setMe { t.me with remote := u.me.remote } ∧
        u.me.remote.find 0 = some ⟨16 + 32 * g.dests.length, some (sampleBlock g, 0)⟩) ∧
    ((∀ r ∈ g.rounds, r.closed = false) → sampleBlock g = 2 ^ 64 - 1) ∧
    (∀ i r, g.rounds[i]? = some r → r.closed = true → (∀ q x, i < q → g.rounds[q]? = some x → x.closed = false) →
      i < 2 ^ 64 → sentCount r < 2 ^ 64 → r.nsamp < 2 ^ 32 → r.j < 2 ^ 32 →
      let y := sampleBlock g
      y % 2 ^ 64 = i ∧ y / 2 ^ 64 % 2 ^ 64 = sentCount r ∧ y / 2 ^ 128 % 2 ^ 32 = r.nsamp ∧ y / 2 ^ 160 % 2 ^ 32 = r.j ∧
      ∀ e, e < g.dests.length → r.sentd.length = g.dests.length → y / 2 ^ (192 + 64 * e) % 2 ^ 64 = r.sentd.getD e 0 % 2 ^ 64 ∧
        (r.result.length = g.dests.length →
          y / 2 ^ (192 + 64 * (g.dests.length + e)) % 2 ^ 64 = (r.result.getD e ([], 0)).1.length % 2 ^ 64 ∧
          y / 2 ^ (192 + 64 * (2 * g.dests.length + e)) % 2 ^ 64 = (r.result.getD e ([], 0)).2 % 2 ^ 64))) ∧
  (∀ (s : State) (len a n v : Nat),
    (∀ q, s.me.wait = some ⟨wExchange, q, 2⟩ → postBlock s len a n v = if earlierDone s s.cur q then s.vretire len else s) ∧
    (∀ t1, (∀ q, s.me.wait ≠ some ⟨wExchange, q, 2⟩) → writeBlock s a n 8 8 v = .ok t1 →
      postBlock s len a n v = if earlierDone t1 t1.cur t1.seq then t1.vretire len else t1.holdAt wExchange t1.seq 2)) ∧
  (∀ (o : OpAB) (s : State) (gk c : Nat), s.ready (instrWtk (.xround o)) → s.me.wait = some ⟨wRounded, gk, c⟩ →
    exec (.xround o) s = .next (roundReturn (s.waited (instrWtk (.xround o))) gk (instrLen (.xround o))
      (if c = 0 then none else some (c - 1)) id)) ∧
  (∀ (o : OpAB) (s : State) (gk : Nat) (g : Group), s.ready (instrWtk (.xround o)) →
    (∀ w, s.me.wait = some w → w.kind ≠ wRounded) →
    let t := s.waited (instrWtk (.xround o))
    let answers := fun (u : State) => exec (.xround o) s = .next u
    let i := (s.me.reg o.b).toNat
    groupNamed t (s.me.reg o.a).toNat = some (gk, g) → s.groups.find gk = some g →
    (g.rounds[i]? = none → answers (t.holdAt wRound gk i)) ∧
    (∀ r, g.rounds[i]? = some r →
      let owes := s.me.owedX.any (fun p => p.1 == gk)
      let spilt := g.policy = 2 ∧ r.told.contains (s.me.launch, s.me.mid) = false
      (r.completed = false → answers (t.holdAt wRound gk i)) ∧
      (∀ c v rest, r.completed = true → s.me.owedX = (gk, c, v) :: rest →
        answers (raise c v (t.setMe { t.me with owedX := rest }))) ∧
      (∀ d, r.completed = true → owes = false → spilt → firstOver r = some d →
        ∃ v, answers (raise 0x17 (BitVec.ofNat 64 d) v) ∧ v.me = t.me) ∧
      (r.completed = true → owes = false → (¬spilt ∨ firstOver r = none) → answers (t.retire (instrLen (.xround o))))))

/-- R301-R303: XTOPK leaves for each selected row its k best columns, by descending order-preserving score and then
ascending column, and their scores, in elements i*k + j of vd and vd + 1. -/
def Obligations.TopK : Prop :=
  ∀ (o : OpMX) (s : State) (key : Nat),
    let i := Instr.xtopk o
    let t := s.waited (instrWtk i)
    let h := t.me
    let f := h.cf
    let w := fmtBits f
    let eb := w / 8
    let k := o.x.imm32.toNat % 32
    let n := o.x.imm32.toNat / 32 % 2048
    let a := (h.reg o.a).toNat
    let rows := min (h.reg o.b).toNat (256 / k)
    let d := o.d.toNat
    s.cv = none → s.ready (instrWtk i) → interlocked t 1024 [d, d + 1] = false → 1 ≤ k → k ≤ n → k ≤ 16 → n ≤ 1024 → d < 47 →
    (¬(f = .i32 ∨ f = .u32 ∨ f = .f32 ∨ f = .bf16 ∨ f = .f16) → exec i s = .next (raise 0x03 (BitVec.ofNat 64 d) t)) ∧
    ((f = .i32 ∨ f = .u32 ∨ f = .f32 ∨ f = .bf16 ∨ f = .f16) → a / 2 ^ 60 = 2 →
      windowOf t s.cur a (rows * n * eb) = some (.pool key) →
      (a % eb ≠ 0 → exec i s = .next (raise 0x04 (h.reg o.a) t)) ∧
      let row := fun (r : Nat) => r < rows ∧ (o.m = 15 ∨ maskBit (h.mask o.m.toNat) r = true)
      let bad := fun (r j : Nat) => row r ∧ j < n * eb ∧ eccHit s (key + r * n * eb + j) 1 = true
      (∀ r j, a % eb = 0 → bad r j → (∀ r2 j2, bad r2 j2 → r * n * eb + j ≤ r2 * n * eb + j2) →
        exec i s = .next (raise 0x12 (BitVec.ofNat 64 (a + (r * n * eb + j))) t)) ∧
      (a % eb = 0 → (∀ r j, ¬bad r j) →
        let t1 := (span 0 (rows * n * eb / 1024 + 1)).foldl (fun t j => pin t (key + 1024 * j)) t
        let score := fun (r c : Nat) => t1.mem.load (key + (r * n + c) * eb) eb
        let u := fun (r c : Nat) => scoreKey f (score r c)
        let better := fun (r x y : Nat) => u r y < u r x ∨ (u r x = u r y ∧ x < y)
        let on := fun (e : Nat) => decide (e / k < rows) && (o.m == 15 || maskBit (h.mask o.m.toNat) (e / k))
        ∃ (v : State) (out : Nat → List Nat), exec i s = .next v ∧
          (∀ r, row r → (out r).length = k ∧ (∀ c ∈ out r, c < n) ∧ (out r).Pairwise (better r) ∧
            ∀ c, c < n → c ∉ out r → ∀ x ∈ out r, better r x c) ∧
          (∀ e, e < 256 → elemOf (v.me.vget d) 32 e = if on e then (out (e / k)).getD (e % k) 0 else elemOf (h.vget d) 32 e) ∧
          (∀ e, e < 8192 / w → elemOf (v.me.vget (d + 1)) w e =
            if on e then score (e / k) ((out (e / k)).getD (e % k) 0) else elemOf (h.vget (d + 1)) w e) ∧
          v.me.tag d = .u32 ∧ v.me.tag (d + 1) = f ∧
          (∀ r, r ≠ d → r ≠ d + 1 → v.me.vget r = h.vget r) ∧ (∀ r, r < 64 → r ≠ d → r ≠ d + 1 → v.me.tag r = h.tag r) ∧
          v.mem = t1.mem ∧ v.me.pc = h.pc + BitVec.ofNat 64 (instrLen i) ∧
          v.me = { h with
            v := v.me.v, tags := v.me.tags, planes := v.me.planes, pc := v.me.pc, csr := { h.csr with vstart := 0 }
            wait := none, await := none, dual := none, remote := [], under := [], part := none }))

/-- R305, R307-R311, R315-R317: staging and committing a replica entry, what XLOAD reports, the control block of XPFT, and
one granule of a Monarch or a prefetch copy. That XPFT names sb when another group holds the tables, and that XLOAD shows
every field as of the last completed round, are the model's readings (logs 139, 140), and so are the Space of a WOFF that is
no multiple of 1,024 (log 90) and the claim on every module of the launch (log 89). -/
def Obligations.ExpertRouting : Prop :=
  (∀ (o : OpAB) (s t1 : State) (gk x : Nat) (g : Group), s.ready (instrWtk (.xrtab o)) →
    let t := s.waited (instrWtk (.xrtab o))
    let changed := fun (y : Group) =>
      exec (.xrtab o) s = .next (State.vretire { t1 with groups := t1.groups.put gk y } (instrLen (.xrtab o)))
    groupNamed t (s.me.reg o.a).toNat = some (gk, g) → readOnce t 0 (s.me.reg o.b).toNat 32 8 8 = .ok (t1, x) →
    groupNamed t1 (s.me.reg o.a).toNat = some (gk, g) → t1.groups.find gk = some g → t1.me.reg o.b = s.me.reg o.b →
    let c := x / 2 ^ 8 % 8 + 1
    let ds := (span 0 c).map (fun j => x / 2 ^ (64 + 16 * j) % 2 ^ 16)
    (x.testBit 15 = false → (∃ d ∈ ds, g.dests.length ≤ d) → exec (.xrtab o) s = .next (raise 0x08 (s.me.reg o.b) t1)) ∧
    (x.testBit 15 = false → (∀ d ∈ ds, d < g.dests.length) →
      changed { g with staged := g.staged.put (x % 256) ⟨ds, x / 2 ^ 32 % 2 ^ 32⟩ }) ∧
    let mine := changeOf gk t1.me
    let first := ∀ n ∈ waitingChanges t1 gk, ∃ m, mine = some m ∧ m ≤ n
    (x.testBit 15 = true → (g.open_ = true ∨ stagedCopying g = true ∨ 4 ≤ g.versions.length ∨ ¬first) →
      exec (.xrtab o) s =
        .next (if mine = none then (t1.holdAt wExchange gk (4 + t1.seq)).bump else t1.hold wExchange)) ∧
    (x.testBit 15 = true → g.open_ = false → stagedCopying g = false → g.versions.length < 4 → first → g.versions ≠ [] →
      ∃ y old new, changed y ∧ g.versions.getLast? = some old ∧
        y.versions = (if g.idle then [new] else
          g.versions.dropLast ++ [{ old with boundary := some (max (x / 2 ^ 16 % 2 ^ 16) g.maxTag) }, new]) ∧
        new.boundary = none ∧ y.staged = [] ∧
        ((g.staged.map Prod.fst).Nodup → ∀ e, new.entries.find e = (g.staged.find e <|> old.entries.find e)))) ∧
  (∀ (o : OpDA) (s : State) (gk : Nat) (g : Group), s.ready (instrWtk (.xload o)) →
    let t := s.waited (instrWtk (.xload o))
    let posts := fun (t : State) (v : Nat) =>
      exec (.xload o) s = .next (postBlock t (instrLen (.xload o)) (s.me.reg o.d).toNat 2064 v)
    (∀ r, s.me.remote.find 0 = some ⟨2064, some r⟩ → posts t r.1) ∧
    (groupNamed t (s.me.reg o.a).toNat = some (gk, g) → s.me.remote = [] →
      ∃ u, posts u g.shown ∧ u = t.setMe { t.me with remote := u.me.remote } ∧
        u.me.remote.find 0 = some ⟨2064, some (g.shown, 0)⟩) ∧
    (g.lastDone = none → loadBlock g = 2 ^ 64 - 1) ∧
    (∀ i v, g.lastDone = some i → g.versions.getLast? = some v → i < 2 ^ 64 → g.mst < 4 → g.mx < 256 → g.md < 2 ^ 16 →
      (∀ e, e < 256 → 1 ≤ (replicaOf g v e).dests.length ∧ (replicaOf g v e).dests.length ≤ 8) →
      let y := loadBlock g
      y % 2 ^ 64 = i ∧ y / 2 ^ 64 % 4 = g.mst ∧ y / 2 ^ 72 % 256 = g.mx ∧ y / 2 ^ 80 % 2 ^ 16 = g.md ∧
      ∀ e, e < 256 → y / 2 ^ (128 + 64 * e) % 2 ^ 32 = g.rlast.getD e 0 % 2 ^ 32 ∧
        y / 2 ^ (160 + 64 * e) % 8 = (replicaOf g v e).dests.length - 1 ∧
        y.testBit (163 + 64 * e) = (g.staged.find e).isSome)) ∧
  (∀ (gk i : Nat) (s : State) (g : Group) (r : Round), s.groups.find gk = some g → g.rounds[i]? = some r →
    ∃ g2, completeRound s gk i = { s with groups := s.groups.put gk g2 } ∧
      g2.rounds[i]? = some { r with completed := true } ∧ (∀ q, q ≠ i → g2.rounds[q]? = g.rounds[q]?) ∧
      g2.lastDone = some i ∧ g2.shown = loadBlock g2 ∧
      (∀ e, e < 256 → g2.rlast.getD e 0 = (r.result.flatMap Prod.fst).countP (fun x => expertOf x == some e)) ∧
      ((∀ q x, q ≠ i → g.rounds[q]? = some x → x.completed = true) → g2.versions.length ≤ 1 ∧
        g2.versions.getLast? = g.versions.getLast?)) ∧
  (∀ (o : OpAB) (s t1 : State) (gk x : Nat) (g : Group), s.ready (instrWtk (.xpft o)) →
    let t := s.waited (instrWtk (.xpft o))
    groupNamed t (s.me.reg o.a).toNat = some (gk, g) → s.groups.find gk = some g →
    let mine := changeOf gk t.me
    let first := ∀ n ∈ waitingChanges t gk, ∃ m, mine = some m ∧ m ≤ n
    (g.open_ = true ∨ ¬first → exec (.xpft o) s =
      .next (if mine = none then (t.holdAt wExchange gk (4 + t.seq)).bump else t.hold wExchange)) ∧
    (g.open_ = false → first → readBlock t 0 (s.me.reg o.b).toNat 64 8 8 = .ok (t1, x) → t1.groups = s.groups → t1.me.reg o.b = s.me.reg o.b →
      let c := readPft t1.myPkg x
      let ms := launchModules t1 g.launch
      let fits := 16 ≤ c.wlen ∧ c.wlen ≤ 2097152 ∧ c.wlen % 16 = 0 ∧ c.woff % 1024 = 0 ∧
        passesScratch t1 g (c.woff + 2 * c.wlen) = false ∧ inGlobal t1 (x / 2 ^ 64 % 2 ^ 64) = true
      (¬fits → exec (.xpft o) s = .next (raise 0x08 (s.me.reg o.b) t1)) ∧
      (fits → c.pfth ≠ 0 → (∃ p ∈ ms, ∃ k, (t1.mod p).claim = some k ∧ k ≠ gk) →
        exec (.xpft o) s = .next (raise 0x08 (s.me.reg o.b) t1)) ∧
      (fits → (c.pfth = 0 ∨ ∀ p ∈ ms, (t1.mod p).claim = none ∨ (t1.mod p).claim = some gk) →
        c.pfth = x % 8 ∧ c.enrep = x.testBit 3 ∧ c.hi = x / 2 ^ 8 % 2 ^ 24 ∧ c.lo = x / 2 ^ 32 % 2 ^ 32 ∧
        c.wlen = x / 2 ^ 256 % 2 ^ 32 ∧ c.woff = x / 2 ^ 288 % 2 ^ 32 ∧
        ∃ u g2, exec (.xpft o) s = .next u ∧ u.groups.find gk = some g2 ∧ g2.pft = some c ∧
          (c.pfth ≠ 0 → ∀ p ∈ ms, ∀ m, t1.mods.find p = some m → ∃ m2, u.mods.find p = some m2 ∧ m2.claim = some gk ∧
            (m.claim = none → m2.trans = [] ∧ m2.rows = []) ∧ (m.claim = some gk → m2 = m)) ∧
          (c.pfth = 0 → u.mods = t1.mods) ∧ u.me.pc = t1.me.pc + BitVec.ofNat 64 (instrLen (.xpft o))))) ∧
  (∀ (gk hk : Nat) (s : State) (g : Group) (c : WCopy) (src : Nat → Nat), s.groups.find gk = some g →
    memberKey s g.launch (g.dests.getD c.dest (0, 0)).1 = some hk →
    let core := (g.dests.getD c.dest (0, 0)).2
    let launcher := ((s.launches.find g.launch).map Launch.pkg).getD (pkgOf hk)
    (∀ j, j < 16 → deviceKey s launcher g.ctx ((c.src + c.at_ + j) % 2 ^ 64) 1 rR = some (src j)) →
    keysBad s ((span 0 16).map src) [] = false → reachesAll s (corePkg (coreOf hk)) ((span 0 16).map src) = true →
    let k := poolKey (coreOf hk) ((s.core (coreOf hk)).bnd1 + c.off + c.at_)
    inPool k = true → k % 16 = 0 →
    let copies := fun (i : Instr) (g2 : Group) => ∃ u, exec i s = .next u ∧ u.groups.find gk = some g2 ∧
      (∀ j, j < 16 → u.byteAt (k + j) = s.byteAt (src j)) ∧ u.fe.get (k / 16) = 1 ∧
      (∀ q, (q < k ∨ k + 16 ≤ q) → u.byteAt q = s.byteAt q) ∧ u.harts = s.harts
    let next : WCopy := { c with at_ := c.at_ + 16 }
    (g.monarch = some c → copies (.monarchCopy (corePkg core) gk)
      (if c.len ≤ c.at_ + 16 then { g with mst := 2, monarch := none } else { g with monarch := some next })) ∧
    (∀ before after, g.prefetch = before ++ c :: after → (∀ x ∈ before, (g.dests.getD x.dest (0, 0)).2 ≠ core) →
      copies (.prefetchCopy (corePkg core) gk (coreId core)) { g with prefetch :=
        before ++ (if c.len ≤ c.at_ + 16 then after else next :: after) }))

/-- R321-R324, R326, R328, R329: GRPSET, the five kinds of COLL at issue, and CWAIT. That an
instance is checked when as many have joined as the largest size a member names is the model's reading (log 94). -/
def Obligations.CollectiveInstructions : Prop :=
  (∀ (o : OpGA) (s t0 : State), s.ready (instrWtk (.grpset o)) →
    let t := s.waited (instrWtk (.grpset o))
    let g := o.g.toNat % 8
    let a := (s.me.reg o.a).toNat
    waitColls t g = .ok t0 →
    let sets := fun (r : GroupReg) => ∃ u, exec (.grpset o) s = .next u ∧ u.me.groups.find g = some r ∧
      (∀ k, k ≠ g → u.me.group k = s.me.group k) ∧ u.me.pc = s.me.pc + BitVec.ofNat 64 (instrLen (.grpset o))
    (2 ^ 60 ≤ a → exec (.grpset o) s = .next (raise 0x08 (s.me.reg o.a) t0)) ∧
    (∀ t1 x, a < 2 ^ 60 → readOnce t0 0 a 16 16 4 = .ok (t1, x) →
      let p := x % 2 ^ 32
      ((p < 1 ∨ 4096 < p ∨ s.me.system = true) → sets {}) ∧
      let whole := windowOf t1 s.cur a (16 + 4 * p)
      (1 ≤ p → p ≤ 4096 → s.me.system = false → whole = none → exec (.grpset o) s = .next (raise 0x08 (s.me.reg o.a) t1)) ∧
      (∀ t2 y, 1 ≤ p → p ≤ 4096 → s.me.system = false → whole ≠ none → readOnce t1 1 ((a + 16) % 2 ^ 64) (4 * p) 16 4 = .ok (t2, y) →
        let ms := (span 0 p).map (fun j => listedMember t2 (y / 2 ^ (32 * j) % 2 ^ 32))
        (∀ (ids : List Nat) (r : Nat), ms = ids.map some → ids.Nodup → ids[r]? = some s.me.mid →
          sets ⟨true, (if a / 2 ^ 48 % 4096 = 4095 then s.myPkg else a / 2 ^ 48 % 4096) * 2 ^ 48 + a % 2 ^ 42, p, r,
            BitVec.ofNat 64 (x / 2 ^ 64), 0, ids⟩) ∧
        ((none ∈ ms ∨ ¬(ms.filterMap id).Nodup ∨ s.me.mid ∉ ms.filterMap id) → sets {})))) ∧
  (∀ (i : Instr) (o : OpColl) (kind : Nat) (s : State), ((i = .collReduce o ∧ kind = 0) ∨ (i = .collAllred o ∧ kind = 1) ∨
      (i = .collGather o ∧ kind = 2) ∨ (i = .collScatter o ∧ kind = 3) ∨ (i = .collBcast o ∧ kind = 4)) →
    s.ready (instrWtk i) →
    let t := s.waited (instrWtk i)
    let h := t.me
    let g := o.g.toNat
    let r := h.group g
    let f := faOf (some o.x) h
    let n := o.x.imm32.toNat
    let due := !h.system && registerDue t h.launch h.mid o.a.toNat t.seq
    let usable := r.usable = true ∧ r.rank < r.size
    (¬usable → exec i s = .next (raise 0x10 (BitVec.ofNat 64 g) t)) ∧
    (usable → ((3 ≤ n / 8 % 8 ∧ isFloat f) ∨ (kind ≤ 1 ∧ isGx f)) →
      exec i s = .next (raise 0x03 (BitVec.ofNat 64 o.a.toNat) t)) ∧
    (usable → ¬((3 ≤ n / 8 % 8 ∧ isFloat f) ∨ (kind ≤ 1 ∧ isGx f)) →
      ∀ bad, bad = badSource .any f (expecting t h o.a.toNat) [o.a.toNat] →
      (∀ v, bad = some v → exec i s = .next (raise 0x03 (BitVec.ofNat 64 v) t)) ∧
      (bad = none → 8 ≤ openColls t → exec i s = .next (t.hold wColl)) ∧
      (bad = none → openColls t < 8 →
        let joined := fun (e : Nat × Coll) => e.2.state == 0 && e.2.ident == r.ident && e.2.index == r.count && e.2.launch == h.launch
        let old := s.colls.find? joined
        let ck := (old.map Prod.fst).getD s.seq
        let before := (old.map (fun e => e.2.members)).getD []
        ∃ (m : CMember) (c : Coll) (v : State), exec i s = .next (endAbandoned (checkColl v ck)) ∧
          c.members = before ++ [m] ∧ c.state = 0 ∧ c.ident = r.ident ∧ c.index = r.count ∧ c.launch = h.launch ∧
          v.colls = s.colls.put ck c ∧ v.owed = s.owed ++ [⟨h.launch, h.mid, g, ck, none, none, 0⟩] ∧ v.seq = s.seq + 1 ∧
          v.me.group g = { r with count := r.count + 1 } ∧ v.me.pc = s.me.pc + BitVec.ofNat 64 (instrLen i) ∧
          m.launch = h.launch ∧ m.mid = h.mid ∧ m.reg = g ∧ m.rank = r.rank ∧ m.size = r.size ∧ m.kind = kind ∧
          m.op = n / 8 % 8 ∧ m.exact = n.testBit 6 ∧ m.root = n / 256 ∧ fmtOf m.fmt = f ∧ m.vl = h.csr.vl ∧
          m.n = h.planesInForce ∧ m.vd = o.d.toNat ∧ m.written = false ∧
          m.seq = s.seq ∧ m.vs1 = o.a.toNat ∧ m.due = due ∧
          (∀ k e, due = false → k ≤ m.n → e < m.vl → held f e = true → s.within f e = true →
            partOf m k e = unitStored f (unitAt h f o.a.toNat k e).1) ∧
          let size := c.members.foldl (fun n x => max n x.size) 1
          (c.members.length < size → checkColl v ck = v) ∧
          (size ≤ c.members.length → collOk c = true → checkColl v ck = { v with colls := v.colls.put ck { c with state := 1 } }) ∧
          (size ≤ c.members.length → collOk c = false → (checkColl v ck).colls.find ck = none ∧
            ∀ x ∈ c.members, ∀ w ∈ (checkColl v ck).owed, w.coll = ck → w.launch = x.launch → w.mid = x.mid → w.reg = x.reg →
              (w.cause.map Prod.fst) = some 0x10)))) ∧
  (∀ (o : OpG) (s : State), s.ready (instrWtk (.cwait o)) →
    let t := s.waited (instrWtk (.cwait o))
    let g := o.g.toNat % 8
    let l := owedOn t t.me g
    ((s.me.group g).usable = false → exec (.cwait o) s = .next (raise 0x10 (BitVec.ofNat 64 g) t)) ∧
    ((s.me.group g).usable = true →
      ((∃ x ∈ l, x.ended t = false) → exec (.cwait o) s = .next (t.hold wColl)) ∧
      (∀ before x after, (∀ y ∈ l, y.ended t = true) → l = before ++ x :: after →
        (∀ y ∈ before, y.cause = none ∧ y.dl = none) →
        (∀ c v, x.cause = some (c, v) → ∃ w, exec (.cwait o) s = .next (raise c v w) ∧ w.me = t.me ∧
          w.owed = t.owed.map (fun y => if y = x then { x with cause := none } else y)) ∧
        (∀ d, x.cause = none → x.dl = some d → ∃ w, exec (.cwait o) s = .next (raise 0x11 d w) ∧ w.me = t.me ∧
          w.owed = t.owed.map (fun y => if y = x then { x with dl := none } else y))) ∧
      ((∀ y ∈ l, y.ended t = true ∧ y.cause = none ∧ y.dl = none) → ∃ u, exec (.cwait o) s = .next u ∧
        u.owed = t.owed.filter (fun y => !l.contains y) ∧
        (∀ b, u.me.csr.fflags.getLsbD b = (t.me.csr.fflags.getLsbD b || l.any (fun y => y.flags.getLsbD b))) ∧
        u.me = { t.me with csr := { t.me.csr with fflags := u.me.csr.fflags, vstart := 0 } }.done (instrLen (.cwait o)) ∧
        u = { t with harts := u.harts, owed := u.owed } ∧ (∀ k, k ≠ s.cur → u.harts.find k = s.harts.find k))))

/-- R77, R324, R325, R327, R328, R330-R333: the engine reads the sources that are there, all of an instance's staging is
reserved at once; the member of a rank receives its result, in its team's image when that is away, the last vd written
settles the deadline, and the last member ends the instance. The order in which staging is reserved (log 96), and that
GATHER, SCATTER and BCAST move the planes of integer formats too (log 163), are the model's readings. -/
def Obligations.CollectiveSteps : Prop :=
  (∀ (ck : Nat) (s t : State) (c : Coll), t = (s.colls.map Prod.fst).foldl readSources s → t.colls.find ck = some c →
    let clear := fun (x : Coll) => ∀ m ∈ x.members, collWrites m = true → ∀ e ∈ t.colls, e.2.state ≠ 2 → ∀ y ∈ e.2.members,
      y.launch = m.launch → y.mid = m.mid → y.seq < m.seq →
      (y.written = false → collWrites y = true → y.vd ≠ m.vd) ∧ (y.due = true → y.vs1 ≠ m.vd)
    let ready := fun (x : Coll) => x.state = 1 ∧ (∀ m ∈ x.members, m.due = false) ∧ clear x ∧ stagingFits t x = true
    let first := ∀ e ∈ t.colls, e.1 ≠ ck → ready e.2 → c.ident < e.2.ident ∨ (c.ident = e.2.ident ∧ ck < e.1)
    (ready c → first → exec (.stagingReservation ck) s = .next { t with colls := t.colls.put ck { c with
      state := 2, staged := stagingNeed t c, members := c.members.map (fun m => { m with pkg := memberPkg t m.launch m.mid }) } }) ∧
    (¬(ready c ∧ first) → exec (.stagingReservation ck) s = .next t)) ∧
  (∀ (ck : Nat) (s : State) (c : Coll), s.colls.find ck = some c → (c.members.map CMember.seq).Nodup →
    let u := readSources s ck
    u = { s with colls := u.colls, owed := u.owed } ∧ (∀ k, k ≠ ck → u.colls.find k = s.colls.find k) ∧
    ∃ ms, u.colls.find ck = some { c with members := ms } ∧ ms.length = c.members.length ∧ ∀ (i : Nat) (m : CMember), c.members[i]? = some m → ∃ x, ms[i]? = some x ∧
        x = { m with src := x.src, due := x.due } ∧
        ((m.due = false ∨ registerDue s m.launch m.mid m.vs1 m.seq = true) → x = m) ∧
        (∀ h, m.due = true → registerDue s m.launch m.mid m.vs1 m.seq = false → memberHart s m.launch m.mid = some h →
          x.due = false ∧ ∀ k e, k ≤ m.n → e < m.vl → held m.f e = true → e < maxVl m.f 128 →
            partOf x k e = unitStored m.f (unitAt h m.f m.vs1 k e).1)) ∧
  (∀ (ck rank : Nat) (s : State) (c : Coll) (m : CMember) (h : Hart), s.colls.find ck = some c → c.state = 2 →
    c.members.find? (fun x => x.rank == rank && !x.written) = some m → memberHart s m.launch m.mid = some h → m.bobj = 0 →
    (∀ r ∈ collRoutes s c m, routeCut s r.1 r.2 = false) →
    (targetFree s m = false → exec (.collectiveComplete ck rank) s = .next s) ∧
    (targetFree s m = true →
    let f := m.f
    let writes := collWrites m
    let count := if m.kind = 2 then m.size * m.vl else m.vl
    let on := fun (e : Nat) => writes && decide (e < count) &&
      (m.mask.map (fun k => maskBit k (if isGx f then gxLanes f * e else e))).getD true
    let of := fun (r : Nat) => c.members.find? (fun x => x.rank == r)
    let part := fun (x : Option CMember) (k e : Nat) => (x.map (fun y => (partOf y k e, (0 : Flags)))).getD (0, 0)
    let val := fun (k e : Nat) => if m.kind = 2 then part (of (e / m.vl)) k (e % m.vl)
      else if m.kind = 3 then part (of m.root) k (m.rank * m.vl + e) else if m.kind = 4 then part (of m.root) k e
      else redUnit c m k e
    let last := c.members.all (fun x => x.written || x.rank == rank)
    let lastVd := writes && c.members.all (fun x => x.written || x.rank == rank || !collWrites x)
    let deadline := c.members.foldl (fun n x => min n x.deadline) (2 ^ 64)
    ∃ u g, exec (.collectiveComplete ck rank) s = .next u ∧ memberHart u m.launch m.mid = some g ∧
      (∀ k e, k ≤ m.n → held f e = true → rawUnit f (g.plane m.vd k) e =
        if on e then unitStored f (val k e).1 else rawUnit f (h.plane m.vd k) e) ∧
      (writes = true → g.tag m.vd = f) ∧ (writes = false → g = h) ∧
      (∀ r k, r < 64 → r ≠ m.vd → g.plane r k = h.plane r k) ∧ g.regs = h.regs ∧ g.csr = h.csr ∧ g.pc = h.pc ∧ s.sameMemory u ∧
      (last = false → ∃ c2, u.colls.find ck = some c2 ∧
        c2.members = c.members.map (fun x => if x.rank = rank then { x with written := true } else x)) ∧
      (last = true → u.colls.find ck = none) ∧
      ((lastVd = false ∨ (s.mod (memberPkg s m.launch m.mid)).gtime ≤ deadline) → u.launches = s.launches) ∧
      (lastVd = true → deadline < (s.mod (memberPkg s m.launch m.mid)).gtime → ∀ x ∈ c.members, ∀ l,
        s.launches.find x.launch = some l → ∃ l2, u.launches.find x.launch = some l2 ∧
          l2.missed = (l.missed || !isFinal l.status)) ∧
      ∀ w ∈ u.owed, w.coll = ck → w.launch = m.launch → w.mid = m.mid → w.reg = m.reg → ∃ w0 ∈ s.owed,
        w = { w0 with cause := none, dl := w.dl, flags := w.flags } ∧
        ∀ b, w.flags.getLsbD b = (w0.flags.getLsbD b || writes && (List.range count).any (fun e => on e && (val 0 e).2.getLsbD b))))

/-- R337-R339, R345-R347, R349: CRINIT formats a region from a record that keeps R338 and R339 and no other record; the
key tags that CLD and CST refuse; the elements CLD and CSCAN write. That a restarted CSCAN goes on above the last key it
wrote is the model's reading (log 102). -/
def Obligations.CoordinateReads : Prop :=
  (∀ (o : OpDA) (s : State), s.ready (instrWtk (.crinit o)) →
    let t := s.waited (instrWtk (.crinit o))
    let a := s.me.reg o.a
    (a.toNat / 2 ^ 60 ≠ 0 → exec (.crinit o) s = .next (raise 0x08 a t)) ∧
    (∀ (t1 : State) (x : Nat) (runs : List (Nat × Nat)), a.toNat / 2 ^ 60 = 0 →
      scalarBlockOnce t a.toNat 128 64 64 = .ok (t1, x) →
      let keeps := 1 ≤ shRank x ∧ shRank x ≤ 8 ∧ shVfmt x ≤ 13 ∧ (∀ i, i < shRank x → 1 ≤ shExt x i) ∧
        shVolume x ≤ 2 ^ 64 - 1 ∧ shPool x / 2 ^ 60 = 0 ∧ shPool x / 2 ^ 42 % 2 ^ 6 = 0 ∧
        (shPool x / 2 ^ 48 % 2 ^ 12 = 0xFFF ∨ shPool x / 2 ^ 48 % 2 ^ 12 = t1.myPkg) ∧ shPool x % 1024 = 0 ∧
        shPsize x % 1024 = 0 ∧ 2048 ≤ shPsize x ∧ shPsize x ≤ 2 ^ 42
      let base := shPool x % 2 ^ 42
      let hdr := (runs.headD (0, 0)).1
      (¬keeps → exec (.crinit o) s = .next (raise 0x08 a t1)) ∧
      (keeps → poolPages t1 (shPsize x / 65536 + 2) base (shPsize x) = .ok runs → logInPool t1 base (shPsize x) = false →
        ∃ u r y, exec (.crinit o) s = .next u ∧ y = u.mem.load hdr 128 ∧ u.regions.find hdr = some r ∧ r.pairs = [] ∧ r.raw = [] ∧ r.runs = runs ∧
          r.shape = [[(1, 0)]] ∧
          y % 2 ^ 704 = x % 2 ^ 704 ∧ y / 2 ^ 704 % 2 ^ 64 = 1 ∧ shCount y = 0 ∧ shNfree y = (shPsize x / 1024 - 2) % 2 ^ 32 ∧
          (∀ q, (q < hdr ∨ hdr + 128 ≤ q) → u.mem.get q = t1.mem.get q) ∧
          u.me = (t1.me.setReg o.d (BitVec.ofNat 64 (4 * 2 ^ 60 + base))).done (instrLen (.crinit o)) ∧
          u = { t1 with harts := u.harts, mem := u.mem, regions := u.regions, ecc := u.ecc, seq := u.seq } ∧
          (∀ k, k ≠ s.cur → u.harts.find k = t1.harts.find k)))) ∧
  (∀ (o : OpR) (s : State) (g : Opened) (i : Instr), (i = .cld o ∨ i = .cst o) → s.ready (instrWtk i) →
    let t := s.waited (instrWtk i)
    interlocked t 1024 [o.d.toNat, o.b.toNat] = false →
    (∀ c v, openRegion t (s.me.reg o.a).toNat = .error (c, v) → exec i s = .next (raise c v t)) ∧
    (openRegion t (s.me.reg o.a).toNat = .ok g → s.me.tag o.b.toNat ≠ .i64 → s.me.tag o.b.toNat ≠ .u64 →
      exec i s = .next (raise 0x03 (o.b.setWidth 64) t))) ∧
  (∀ (o : OpR) (s : State) (g : Opened), s.ready (instrWtk (.cld o)) →
    let t := s.waited (instrWtk (.cld o))
    let h := t.me
    let d := o.d.toNat
    let f := fmtOf (shVfmt g.x)
    let w := fmtBits f
    let key := fun (e : Nat) => elemOf (h.vget o.b.toNat) 64 e
    let on := fun (e : Nat) => decide (h.csr.vstart ≤ e ∧ e < min h.csr.vl t.me.cap)
    interlocked t 1024 [d, o.b.toNat] = false → openRegion t (s.me.reg o.a).toNat = .ok g → shVfmt g.x ≤ 13 →
    (h.tag o.b.toNat = .i64 ∨ h.tag o.b.toNat = .u64) →
    let trap := fun (e : Nat) => if key e < shVolume g.x then
      nodesTrap t g.base rR (pathOf g.r.shape (leafFor g.r (key e))).reverse else none
    (∀ e c y, on e = true → trap e = some (c, y) → (∀ i, i < e → on i = true → trap i = none) →
      ∃ u, exec (.cld o) s = .next (raise c y u) ∧ t.onlyMine u ∧ u.me.tag d = h.tag d ∧ u.me.csr = { h.csr with vstart := e } ∧
        ∀ j, w * j < 8192 → elemOf (u.me.vget d) w j =
          if on j ∧ j < e then (Tab.find g.r.pairs (key j)).getD 0 % 2 ^ w else elemOf (h.vget d) w j) ∧
    ((∀ e, on e = true → trap e = none) → ∃ u, exec (.cld o) s = .next u ∧ t.onlyMine u ∧ u.me.tag d = f ∧
      (∀ e, w * e < 8192 → elemOf (u.me.vget d) w e =
        if on e then (Tab.find g.r.pairs (key e)).getD 0 % 2 ^ w else elemOf (h.vget d) w e) ∧
      (∀ k e, 1 ≤ k → k ≤ h.planesInForce → w * e < 8192 → elemOf (u.me.plane d k) w e =
        if on e then 0 else elemOf (h.plane d k) w e) ∧
      (∀ k, h.planesInForce < k → u.me.plane d k = h.plane d k) ∧
      (∀ r k, r < 64 → r ≠ d → u.me.tag r = h.tag r ∧ u.me.plane r k = h.plane r k) ∧
      u.me = { h with
        v := u.me.v, tags := u.me.tags, planes := u.me.planes, csr := { h.csr with vstart := 0 }
        pc := h.pc + BitVec.ofNat 64 (instrLen (.cld o)), wait := none, await := none, dual := none
        remote := [], under := [], part := none })) ∧
  (∀ (o : OpR) (s : State) (g : Opened), s.ready (instrWtk (.cscan o)) →
    let t := s.waited (instrWtk (.cscan o))
    let h := t.me
    let d := o.d.toNat
    let f := fmtOf (shVfmt g.x)
    let w := fmtBits f
    let l := min h.csr.vl t.me.cap
    let v := h.csr.vstart
    let b := (h.reg o.b).toNat
    let low := if v = 0 ∨ elemOf (h.vget d) 64 (v - 1) < b then b else elemOf (h.vget d) 64 (v - 1) + 1
    let tail := g.r.pairs.filter (fun p => decide (low ≤ p.1))
    let found := fun (e : Nat) => (if low = b then tail.drop v else tail)[e - v]?
    let on := fun (e : Nat) => decide (h.csr.vstart ≤ e ∧ e < l)
    interlocked t 1024 [d, d + 1] = false → d < 47 → openRegion t (s.me.reg o.a).toNat = .ok g → shVfmt g.x ≤ 13 →
    (∀ e, on e = true → b < shVolume g.x → nodesTrap t g.base rR (pathOf g.r.shape
      (((found e).map (fun q => leafFor g.r q.1)).getD ((g.r.shape.headD []).length - 1))).reverse = none) →
    ∃ u, exec (.cscan o) s = .next u ∧ t.onlyMine u ∧ u.me.tag d = .u64 ∧ u.me.tag (d + 1) = f ∧
      (∀ e, e < 128 → elemOf (u.me.vget d) 64 e =
        if on e then ((found e).getD (2 ^ 64 - 1, 0)).1 % 2 ^ 64 else elemOf (h.vget d) 64 e) ∧
      (∀ e, w * e < 8192 → elemOf (u.me.vget (d + 1)) w e =
        if on e then ((found e).getD (2 ^ 64 - 1, 0)).2 % 2 ^ w else elemOf (h.vget (d + 1)) w e) ∧
      (∀ k e, 1 ≤ k → k ≤ h.planesInForce → on e = true → elemOf (u.me.plane d k) 64 e = 0 ∧
        elemOf (u.me.plane (d + 1) k) w e = 0) ∧
      (∀ k, h.planesInForce < k → u.me.plane d k = h.plane d k ∧ u.me.plane (d + 1) k = h.plane (d + 1) k) ∧
      (∀ r k, r < 64 → r ≠ d → r ≠ d + 1 → u.me.tag r = h.tag r ∧ u.me.plane r k = h.plane r k) ∧
      u.me = { h with
        v := u.me.v, tags := u.me.tags, planes := u.me.planes, csr := { h.csr with vstart := 0 }
        pc := h.pc + BitVec.ofNat 64 (instrLen (.cscan o)), wait := none, await := none, dual := none
        remote := [], under := [], part := none })

/-- R226, R339-R341, R348, R350, R354: what one element of CST does to a region, CST's elements in order and its trap at one of
them, the box CDENSE writes, one leaf after another, and the block VSTC writes once the groups of its
active elements have come. The model's readings: a step for each leaf,
and the header, box and next coordinate a CDENSE under way keeps (log 102), and its box read through the scalar tables
(log 100). -/
def Obligations.CoordinateWrites : Prop :=
  (∀ (s : State) (ptr k x : Nat) (g : Opened), openRegion s ptr = .ok g → 2048 ≤ shPsize g.x → g.r.shape ≠ [] →
    (∀ l, (∀ n ∈ l, n < shPsize g.x / 1024) → nodesTrap s g.base rR l = none ∧ nodesTrap s g.base (rR + rW) l = none) →
    (∀ n ∈ treeNodes g.r.shape, n < shPsize g.x / 1024) →
    let f := fmtOf (shVfmt g.x)
    let zero := if isInt f then x = 0 else x % 2 ^ (fmtBits f - 1) = 0
    let had := (Tab.find g.r.pairs k).isSome
    let leaf := ((g.r.shape.headD []).getD (leafFor g.r k) (0, 0)).2
    let becomes := fun (v : Option Nat) (count : Nat) => ∃ u r y, storeKey ptr k x s = .ok u ∧ y = u.mem.load g.hdr 128 ∧
      u.regions.find g.hdr = some r ∧ Tab.find r.pairs k = v ∧ (∀ q, q ≠ k → Tab.find r.pairs q = Tab.find g.r.pairs q) ∧
      y % 2 ^ 704 = g.x % 2 ^ 704 ∧ shCount y = count % 2 ^ 64 ∧
      (∀ q, (q < g.hdr ∨ g.hdr + 128 ≤ q) → u.mem.get q = s.mem.get q) ∧
      (∀ q, q ≠ g.hdr → u.regions.find q = s.regions.find q) ∧
      u = { s with mem := u.mem, regions := u.regions, seq := u.seq }
    (shVolume g.x ≤ k → storeKey ptr k x s = .error (0x08, BitVec.ofNat 64 ptr)) ∧
    (k < shVolume g.x →
      (zero → had = false → storeKey ptr k x s = .ok s) ∧
      (zero → had = true → becomes none (shCount g.x - 1)) ∧
      (¬zero → had = true → becomes (some x) (shCount g.x)) ∧
      (¬zero → had = false → (leaf < 60 ∨ g.r.shape.length + 1 ≤ shNfree g.x) → becomes (some x) (shCount g.x + 1)) ∧
      (¬zero → had = false → 60 ≤ leaf → shNfree g.x = 0 → storeKey ptr k x s = .error (0x0E, BitVec.ofNat 64 ptr)))) ∧
  (∀ (o : OpR) (s : State) (g : Opened) (st : Nat → State), s.ready (instrWtk (.cst o)) →
    let t := s.waited (instrWtk (.cst o))
    let h := t.me
    let f := fmtOf (shVfmt g.x)
    let ptr := (s.me.reg o.a).toNat
    let l := min h.csr.vl t.me.cap
    let v := fun (e : Nat) => sourceAt h f o.d.toNat 0 e
    let one := fun (e : Nat) => storeKey ptr (elemOf (h.vget o.b.toNat) 64 e) (v e).1 (st e)
    let upTo := fun (n : Nat) => st h.csr.vstart = t ∧ ∀ e, h.csr.vstart ≤ e → e < n →
      ∃ u, one e = .ok u ∧ st (e + 1) = u.setMe (u.me.orFlags (v e).2)
    interlocked t 1024 [o.d.toNat, o.b.toNat] = false → openRegion t ptr = .ok g →
    (h.tag o.b.toNat = .i64 ∨ h.tag o.b.toNat = .u64) →
    (∀ r, badSource .any f h [o.d.toNat] = some r → exec (.cst o) s = .next (raise 0x03 (BitVec.ofNat 64 r) t)) ∧
    (badSource .any f h [o.d.toNat] = none → upTo l →
      exec (.cst o) s = .next ((st (max h.csr.vstart l)).vretire (instrLen (.cst o)))) ∧
    (∀ e c y, badSource .any f h [o.d.toNat] = none → h.csr.vstart ≤ e → e < l → upTo e → one e = .error (c, y) →
      exec (.cst o) s = .next (raise c y
        ((st e).setMe { (st e).me with csr := { (st e).me.csr with vstart := e } })))) ∧
  (∀ (o : OpAB) (s t1 : State) (g : Opened) (y : Nat), s.ready (instrWtk (.cdense o)) →
    let t := s.waited (instrWtk (.cdense o))
    let exts := shExts g.x
    let n := exts.length
    let vol := (span 0 n).foldl (fun m i => m * boxLen y i) 1
    let box := fun (g : Opened) (y : Nat) => (⟨g, y, fmtBytes (fmtOf (shVfmt g.x))⟩ : Box)
    let b := box g y
    let digit := fun (j i : Nat) => j / (range (i + 1) n).foldl (fun m q => m * boxLen y q) 1 % boxLen y i
    let answers := fun (u : State) => exec (.cdense o) s = .next u
    (∀ j x z, interlocked t 1024 [] = false → storing t.me = some j → captured t.me boxHeader = some x → captured t.me 0 = some z →
      let again := box (reopened t ((s.me.reg o.a).toNat % 2 ^ 42) x) z
      again.g.x = x ∧ answers (again.go (instrLen (.cdense o)) j t)) ∧
    (interlocked t 1024 [] = false → storing t.me = none → openRegion t (s.me.reg o.a).toNat = .ok g →
    scalarBlockOnce t (s.me.reg o.b).toNat 256 8 8 = .ok (t1, y) →
    let fits := (∀ i, i < n → boxOrig y i + boxLen y i ≤ exts.getD i 0) ∧ vol ≤ 2 ^ 32
    b.volume = vol ∧ (∀ j, j < vol →
      b.addr j = ((BitVec.ofNat 64 (boxDst y) : W64) + BitVec.ofInt 64
        ((span 0 n).foldl (fun (x : Int) i => x + (digit j i : Int) * boxStride y i) 0)).toNat ∧
      b.key j = (span 0 n).foldl (fun m i => m * exts.getD i 1 + (boxOrig y i + digit j i)) 0) ∧
    ((¬fits → answers (raise 0x08 (s.me.reg o.a) t1)) ∧
      (∀ j c v, fits → j < vol → (∀ i, i < j → ∃ p, checkedPlace t1 true b.w b.w (b.addr i) = .ok p) →
        checkedPlace t1 true b.w b.w (b.addr j) = .error (c, v) → answers (raise c v t1)) ∧
      (fits → (∀ j, j < vol → ∃ p, checkedPlace t1 true b.w b.w (b.addr j) = .ok p) →
        ∃ u, answers (b.go (instrLen (.cdense o)) 0 u) ∧ u = t1.setMe { t1.me with remote := u.me.remote } ∧
          captured u.me boxHeader = some g.x ∧ ∀ q, q ≠ boxHeader → captured u.me q = captured t1.me q)))) ∧
  (∀ (b : Box) (len j : Nat) (s : State) (place : Nat → List (Loc × Nat)),
    let read := fun (i : Nat) => (readAhead s.me i).isSome = true
    let s1 := if read j then s else b.readLeaf j s
    let run := (range j b.volume).takeWhile (fun i => (readAhead s1.me i).isSome)
    (b.volume ≤ j → b.go len j s = s.vretire len) ∧
    (∀ c v, j < b.volume → ¬read j → nodesTrap s b.g.base rR (pathOf b.g.r.shape (b.leaf j)).reverse = some (c, v) →
      b.go len j s = raise c v s) ∧
    (j < b.volume → (∀ i, j ≤ i → i < b.volume → ¬read i) → run = b.reach j ∧
      ∀ i ∈ run, readAhead s1.me i = some ((Tab.find b.g.r.pairs (b.key i)).getD 0)) ∧
    (j < b.volume → (read j ∨ nodesTrap s b.g.base rR (pathOf b.g.r.shape (b.leaf j)).reverse = none) →
      (∀ i ∈ run, placeAgain s b.w (b.addr i) = .here (place i) ∧ storeWaits s1 (.here (place i)) = false ∧
        ∀ q ∈ place i, q.1.foreign s.myPkg = false ∧ pin s q.1.key = s) →
      let u := b.go len j s
      StoredBytes s u 0 (fun i => run.contains i) (fun i _ => place i) (fun i _ => (readAhead s1.me i).getD 0) ∧
      (b.volume ≤ j + run.length → u.me = { s.me with
        csr := { s.me.csr with vstart := 0 }, pc := s.me.pc + BitVec.ofNat 64 len, wait := none, await := none, dual := none
        remote := [], under := [], part := none }) ∧
      (j + run.length < b.volume → u.me = { s1.me with wait := some ⟨wCoord, j + run.length, 1⟩ }) ∧
      u = { s with harts := u.harts, mem := u.mem, regions := u.regions, ecc := u.ecc } ∧
      (∀ k, k ≠ s.cur → u.harts.find k = s.harts.find k))) ∧
  (∀ (o : OpM) (s : State) (place : Nat → List (Loc × Nat)), s.cv = none → s.ready (instrWtk (.vstc o)) →
    let t := s.waited (instrWtk (.vstc o))
    let h := t.me
    let f := faOf o.x h
    let d := o.d.toNat
    let a := (h.reg o.a).toNat + (h.reg o.b).toNat
    let words := (h.csr.vl + 63) / 64
    let w := fmtBytes f
    let v := fun (e : Nat) => (unitAt h f d 0 e).1
    let zero := fun (e : Nat) => if isInt f then v e == 0 else v e % 2 ^ (fmtBits f - 1) == 0
    let act := fun (e : Nat) => o.m == 15 || maskBit (h.mask o.m.toNat) e
    let kept := (List.range h.csr.vl).filter (fun e => act e && !zero e)
    let map := fun (j : Nat) => (List.range 64).foldl (fun n b => if kept.contains (64 * j + b) then n + 2 ^ b else n) 0
    let bytes := fun (j : Nat) => if j ≤ words then 8 else w
    let addr := fun (j : Nat) => if j ≤ words then (a + 8 * j) % 2 ^ 64 else (a + 8 + 8 * words + (j - 1 - words) * w) % 2 ^ 64
    let data := fun (j : Nat) => if j = 0 then kept.length else if j ≤ words then map (j - 1) else v (kept.getD (j - 1 - words) 0)
    let count := 1 + words + kept.length
    let lacks := h.lacks d 0 (vstcNeed f (h.tag d) ((List.range h.csr.vl).filter act))
    (collHolds t [d] = false → isGx f = false → badSource .any f h [d] = none → lacks = true →
      exec (.vstc o) s = .next (t.hold wStore)) ∧
    (collHolds t [d] = false → lacks = false → storing h = none → isGx f = false → badSource .any f h [d] = none →
    (∀ j, j < count → checkedPlace t true (bytes j) (bytes j) (addr j) = .ok (.here (place j)) ∧
      storeWaits t (.here (place j)) = false ∧ ∀ q ∈ place j, q.1.foreign t.myPkg = false ∧ pin t q.1.key = t) →
    ∃ u, exec (.vstc o) s = .next u ∧
      StoredBytes t u 0 (fun j => decide (j < count)) (fun j _ => place j) (fun j _ => data j) ∧
      (∀ b, u.me.csr.fflags.getLsbD b =
        (h.csr.fflags.getLsbD b || (List.range h.csr.vl).any (fun e => act e && (unitAt h f d 0 e).2.getLsbD b))) ∧
      u.me = { h with
        csr := { h.csr with fflags := u.me.csr.fflags, vstart := 0 }
        pc := h.pc + BitVec.ofNat 64 (instrLen (.vstc o)), wait := none, await := none, dual := none
        remote := [], under := [], part := none } ∧
      u = { t with harts := u.harts, mem := u.mem, regions := u.regions, ecc := u.ecc } ∧
      (∀ k, k ≠ s.cur → u.harts.find k = t.harts.find k)))

/-- R351-R353: GTH, SCT and SCTADD issue with their descriptor captured; a failed check fails the token with nothing
written; else the engine does one tile of 256 positions after another, and with the last counts the bytes and completes the
token. A gather of one tile writes what R352 says and fills the granules. The tiles in ascending order, all checks at the
first, are the model's choice (log 103). -/
def Obligations.GathersAndScatters : Prop :=
  (∀ (o : OpR) (s t1 : State) (x : Nat) (i : Instr) (fn : Nat),
    (i = .gth o ∧ fn = 0 ∨ i = .sct o ∧ fn = 1 ∨ i = .sctadd o ∧ fn = 2) →
    let k := o.d.toNat
    s.ready (instrWtk i) → interlocked (s.waited (instrWtk i)) 1024 [] = false → (s.waited (instrWtk i)).ready (2 ^ k) →
    scalarBlock ((s.waited (instrWtk i)).waited (2 ^ k)) (s.me.reg o.a).toNat 64 8 8 = .ok (t1, x) → t1.ready (2 ^ k) →
    let t := t1.waited (2 ^ k)
    let new : Token :=
      { pending := true, work := some (.gather fn x), bobj := if o.b = 0 then none else some (s.me.reg o.b), seq := t.seq
        deadline := if t.me.csr.dln = 0 then (t.mod t.myPkg).gtime + 1000000 else t.me.csr.dln.toNat }
    exec i s = .next (((t.setMe (t.me.setToken k new)).bump).vretire (instrLen i))) ∧
  (∀ (hk k fn x : Nat) (s : State) (h : Hart), s.harts.find hk = some h → (h.token k).pending = true →
    (h.token k).work = some (.gather fn x) → earlierDone s hk (h.token k).seq = true →
    let t := h.token k
    let j := t.done.length
    let moves := fun (u : State) => exec (.hazelComplete hk k) s = .next u
    (∀ c v, t.done = [] → gatherCheck s hk fn x = .error (c, v) → moves (s.setHart hk (h.setToken k
      { t with pending := false, failed := true, failJ := 0, cause := c, val := v }))) ∧
    (∀ g, (t.done = [] ∧ gatherCheck s hk fn x = .ok g ∨ t.done ≠ [] ∧ g = gatherAgain s hk x t.index) →
      let n := g.idx.length
      let ps := range (256 * j) (min n (256 * (j + 1)))
      let w := gatherTile s fn x g ps (range (256 * (j + 1)) n) t.latch t.flags
      let stays := g.held s (pkgOf hk) fn (if t.done = [] then span 0 n else ps) = true ∨
        (n ≤ 256 * (j + 1) ∧ g.bytes fn ≠ 0 ∧ ∃ a, t.bobj = some a ∧ objectHeld s hk a.toNat = true)
      let a := (t.bobj.map (fun p => engineAdd w.s hk p.toNat (g.bytes fn))).getD (w.s, none)
      (stays → moves s) ∧
      (¬stays → 256 * (j + 1) < n → moves (w.s.setHart hk (h.setToken k
        { t with done := t.done ++ [j], flags := w.flags, index := g.idx, latch := w.latch }))) ∧
      (¬stays → n ≤ 256 * (j + 1) → moves (a.1.setHart hk (h.setToken k
        { t with pending := false, work := none, owed := a.2, flags := w.flags, index := [], latch := [] }))))) ∧
  (∀ (hk fn x : Nat) (s : State) (g : Gather), gatherCheck s hk fn x = .ok g → fn ≤ 2 → hzN x ≤ 256 →
    let n := hzN x
    let b := hzRowBytes x
    let ib := if x.testBit 272 then 8 else 4
    let i := fun (p : Nat) => ofBytes ((span 0 ib).map (fun j => s.byteAt (g.keys.getD (p * ib + j) 0)))
    let out := fun (p : Nat) => g.out.getD p []
    let row := fun (r : Nat) => g.table.getD r []
    let named := fun (r : Nat) => (span 0 n).filter (fun p => i p == r)
    let written := (if fn = 0 then g.out else g.table).flatMap Prod.snd
    let r := gatherTile s fn x g (range 0 n) [] [] 0
    let rowAfter := fun (q : Nat) => (row q).map r.s.byteAt
    (0 < n → engineRun s hk (hzIdx x) (n * ib) ib true false = .ok g.keys) ∧
    (∀ p, p < n → engineRun s hk ((hzOut x + p * b) % 2 ^ 64) b 8 (fn != 0) (fn == 0) = .ok (out p) ∧
      (i p < hzRows x → engineRun s hk ((hzTable x + i p * b) % 2 ^ 64) b 8 (fn != 1) (fn != 0) = .ok (row (i p)))) ∧
    (written.Nodup → (∀ q ∈ written, pin s q = s) →
      (∀ q, q ∉ written → r.s.byteAt q = s.byteAt q) ∧ r.s.harts = s.harts ∧
      (∀ q ∈ written, inPool q = true → r.s.fe.get (q / 16) = 1) ∧
      (∀ m, (∀ q ∈ written, inPool q = true → q / 16 ≠ m) → r.s.fe.get m = s.fe.get m) ∧
      (fn = 0 → g.bytes fn = n * b ∧ r.flags = 0 ∧ ∀ p, p < n → (out p).map r.s.byteAt =
        if i p < hzRows x then (row (i p)).map s.byteAt else List.replicate b 0) ∧
      (fn ≠ 0 → g.bytes fn = g.table.length * b ∧ ∀ q, (∃ v, Tab.find g.table q = some v) ↔ q < hzRows x ∧ ∃ p, p < n ∧ i p = q) ∧
      (fn = 1 → r.flags = 0 ∧ ∀ q p, q < hzRows x → (named q).getLast? = some p → rowAfter q = (out p).map s.byteAt) ∧
      (fn = 2 → ∀ q p l, q < hzRows x → named q = p :: l →
        let c := l.foldl (fun c y => (addRows (hzFmt x) c ((out y).map s.byteAt)).1) ((out p).map s.byteAt)
        rowAfter q = (addRows (hzFmt x) ((row q).map s.byteAt) c).1))) ∧
  (∀ (f : Fmt) (a c : List Byte) (e : Nat), isGx f = false →
    let w := fmtBytes f
    let el := fun (l : List Byte) => ofBytes ((l.drop (w * e)).take w)
    w * (e + 1) ≤ a.length → el (addRows f a c).1 = if isInt f then (el a + el c) % 2 ^ (8 * w)
      else (packVal f 0 false (numAdd 0 (decodeNum f (el a)) (decodeNum f (el c)))).1 % 2 ^ (8 * w))

/-- R51, R171, R359 and the reset values R51 gives: the system harts, the registers they read, the cores, GTIME. -/
def Obligations.ResetState : Prop :=
  (∀ k, (State.reset.harts.find k).isSome = true ↔ 1536 ≤ k ∧ k < 1542) ∧
  (∀ d, d < 6 →
    let s := { State.reset with cur := 1536 + d }
    s.me.system = true ∧ readCsr s 0x800 = 128 ∧
    ∀ i ∈ [0x003, 0x004, 0x005, 0x010, 0x011, 0x021, 0x023, 0x030, 0x051, 0x052, 0x053, 0x801, 0x802, 0x803, 0x804, 0x810,
      0x811, 0x812, 0x813, 0x814, 0x815, 0x820, 0x821, 0x822, 0x830], readCsr s i = 0) ∧
  (∀ k, (State.reset.core k).bnd0 = 0 ∧ (State.reset.core k).bnd1 = 0 ∧ (State.reset.core k).bnd2 = 0 ∧
    (State.reset.core k).vlcap = 128 ∧ (State.reset.core k).team = none) ∧
  (State.reset.mod 0).gtime = 0 ∧ (∀ i, (State.reset.mod 0).trans.get i = 0) ∧ State.reset.memOk = true

/-- The canonical form of memory, of the full-empty bits and of the errors is kept by every step. -/
def Obligations.StepKeepsMemoryCanonical : Prop :=
  ∀ s t : State, s.memOk = true → step s = .next t → t.memOk = true

/-- Every instruction, and every step of the device and the host, has a next state in every state: none faults, none is
refused. A step faults only where its hart is a system hart that is not there, which is the model's own stop (log 10). -/
def Obligations.EveryInstructionHasANextState : Prop :=
  (∀ (i : Instr) (s : State), ∃ t, exec i s = .next t) ∧
  (∀ s : State, (∃ t, step s = .next t) ∨
    (step s = .fault .noHart ∧ s.agenda = [] ∧ s.harts.find s.cur = none ∧ isSystemKey s.cur = true))

/-- R111: s0 reads zero and a write to it is discarded; every other scalar register holds what was last written to it. -/
def Obligations.ScalarRegisterZero : Prop :=
  ∀ (h : Hart) (v : W64), h.reg 0 = 0 ∧ h.setReg 0 v = h ∧
    ∀ d, d ≠ 0 → (h.setReg d v).reg d = v ∧ (∀ r, r ≠ d → (h.setReg d v).reg r = h.reg r) ∧
      h.setReg d v = { h with regs := (h.setReg d v).regs }

/-- R20-R23, R102, R128, R132: where the words at the pc decode to an instruction that no check of R23, R46 and R47 stops, a step is
its meaning; two chained instructions act one after the other as one unit. The model's readings: which
convoys wait for arriving registers (log 20), and when VL is cut (log 14). The words of a convoy under way are fetched once
(R21, R48): `underway` adds nothing but them. -/
def Obligations.StepRunsInstruction : Prop :=
  (∀ (s t : State) (d : Decoded), Turn s t → DecodesAt t t.me.pc.toNat d → memberTrap t d.instr t.me.pc.toNat = none →
    d.chain = false → step s = exec d.instr (underway [⟨d.instr, t.me.pc.toNat, d.len⟩] t)) ∧
  (∀ (t : State) (fs : List Found), ∃ x, underway fs t = t.setMe { t.me with under := x } ∧
    ∀ f ∈ fs, ∀ a ∈ f.spots, ∀ w, fetchWord t a = .ok w → x.find a = some w ∧ fetchWord (underway fs t) a = .ok w) ∧
  (∀ (s t : State), Turn s t → t.me.yielded = false ∧
    (t.me.undispatched = true → t.me.csr.vl ≤ maxVl t.me.cf (t.core t.myCore).vlcap ∧
      t.me.cap = (t.core t.myCore).vlcap ∧ ∀ h, s.harts.find t.cur = some h → h.ahead = none →
      t.me.csr.vl ≤ maxVl t.me.cf h.vcap ∧ t.me.csr.vl ≤ h.csr.vl ∧ t.me.vcap = 128)) ∧
  (∀ (s t0 : State) (d e : Decoded) (c1 c2 : Convoy), Turn s t0 → t0.cv = none → t0.me.part = none →
    let a := t0.me.pc.toNat
    let t := underway [⟨d.instr, a, d.len⟩, ⟨e.instr, (a + 4 * d.len) % 2 ^ 64, e.len⟩] t0
    let b := (a + 4 * d.len) % 2 ^ 64
    let n := t.me.planesInForce
    DecodesAt t0 a d → DecodesAt t0 b e → memberTrap t0 d.instr a = none → memberTrap t0 e.instr b = none →
    d.chain = true → e.chain = false → chainable d.instr = true → chainable e.instr = true →
    (∀ r ∈ writeSet n (uses e.instr), r ∉ readSet n (uses d.instr)) →
    let m := instrWtk d.instr ||| instrWtk e.instr
    let w := t.waited m
    let t1 := memberOf d.instr { w with cv := some {} }
    let t2 := memberOf e.instr { t1 with cv := some { c1 with idx := 1 } }
    t.ready m → regsHere w [d.instr, e.instr] = true →
    t1.cv = some c1 → c1.stop = none → c1.idx = 0 →
    t2.cv = some c2 → c2.stop = none → hasRoom t2.me c2.pushes = true →
    step s = .next (completeConvoy (4 * (d.len + e.len)) t2)) ∧
  (∀ (t : State) (a : Nat) (ws : List W32), fetchInstr t a = .ok ws →
    (∀ j, j < ws.length → fetchWord t ((a + 4 * j) % 2 ^ 64) = .ok (ws.getD j 0) ∨ j = 0 ∧ fetchWord t a = .ok (ws.getD 0 0)) ∧
    ws.length = (match (ws.getD 0 0).toNat / 2 ^ 30 with | 0 => 1 | 1 => 3 | 2 => 3 | _ => 4))

/-- R21, R23, R25, R46, R47, R94, R261, R356: where a step raises a trap before its convoy issues, and where a hart does not
issue at all; the words that are no instruction and the failed fetch have the same meaning as rows of the table. The member
that Convoy-form is charged to (log 16) and what bars a DUAL prefix (log 131) are the model's readings.
R14, R106, R107: the vector stream of a hart that waits at an empty queue may perform convoys and retires none: the hart stays
where it waits, with its scalar registers and queues (when a stream does so, and what it does not go past, is log 7). R371, R376, R382, R385: the events of the agenda happen when their turn comes, those of
a module that is off not at all, and what reaches an idle die makes it leave idle (all of its module's, log 117); time moves
GTIME on where the module is on; the host reads BAR0 and resizes BAR2 (log 112), and a counter counts (log 144). -/
def Obligations.StepTrapsAndEvents : Prop :=
  ((∀ (s t : State) (c : Nat) (v : W64), Turn s t → fetchInstr t t.me.pc.toNat = .error (c, v) →
    step s = .next (raise c v t) ∧ exec (.instructionFetchFault c v.toNat) t = .next (raise c v t)) ∧
  (∀ (s t : State) (ws : List W32) (e : DecodeErr), Turn s t → fetchInstr t t.me.pc.toNat = .ok ws → decode ws = .bad e →
    step s = .next (raise 0x01 t.me.pc t) ∧ exec (.illegalInstruction t.me.pc.toNat) t = .next (raise 0x01 t.me.pc t)) ∧
  (∀ (s t : State) (d : Decoded), Turn s t → DecodesAt t t.me.pc.toNat d →
    let i := d.instr
    let next := fetchWord t ((t.me.pc.toNat + 4) % 2 ^ 64)
    let illegal := illegalPlane t (namedPlane i) = true ∨ badCsr i = true ∨
      (i.isDual = true ∧ ∃ w, next = .ok w ∧ barsDual w.toNat = true)
    (illegal → step s = .next (raise 0x01 t.me.pc t)) ∧
    (¬illegal → isPriv i = true → t.me.system = false → step s = .next (raise 0x15 t.me.pc t)) ∧
    (¬illegal → (isPriv i = false ∨ t.me.system = true) → memberTrap t i t.me.pc.toNat = none) ∧
    (memberTrap t i t.me.pc.toNat = none → d.chain = true → chainable i = false → step s = .next (raise 0x02 t.me.pc t)) ∧
    (memberTrap t i t.me.pc.toNat = none → d.chain = true → chainable i = true → ∀ e : Decoded,
      let b := (t.me.pc.toNat + 4 * d.len) % 2 ^ 64
      let n := t.me.planesInForce
      DecodesAt t b e → memberTrap t e.instr b = none →
      (chainable e.instr = false ∨ ∃ r ∈ writeSet n (uses e.instr), r ∈ readSet n (uses i)) →
      step s = .next (raise 0x02 (BitVec.ofNat 64 b) t))) ∧
  (∀ (s : State), s.agenda = [] → (s.harts.find s.cur).isSome = true →
    let w := regrant s s.myCore
    (canIssue w = false → step s = .next w) ∧
    ((s.core s.myCore).rowsDue = true → freeRows s (quadOf s.myCore) < dueRows s s.myCore → step s = .next s)) ∧
  (∀ (s : State) (l : Launch), s.agenda = [] → (s.harts.find s.cur).isSome = true →
    let w := regrant s s.myCore
    canIssue w = true →
    s.me.system = false → s.me.dlRaised = false → s.me.ahead = none → s.me.wait = none → s.me.dual = none → s.launchOf s.me = some l →
    l.blk.dlfault = true → l.blk.deadline ≠ 0 → l.blk.deadline < (s.mod s.myPkg).gtime →
    step s = .next (raise 0x11 (BitVec.ofNat 64 l.blk.deadline) (w.setMe { w.me with dlRaised := true })))) ∧
  ((∀ (s : State) (i : Instr) (r : List Move), s.agenda = .event i :: r → isEvent i = true →
    step s = happen i { s with agenda := r }) ∧
  (∀ (i : Instr) (s : State), (∃ p ∈ unitsAt s i, modOn s p = false) → happen i s = .next s) ∧
  (∀ (i : Instr) (s t : State), (∀ p ∈ unitsAt s i, modOn s p = true) → exec i s = .next t → ∃ u, happen i s = .next u ∧ u = { t with mods := u.mods } ∧
    ∀ p m, t.mods.find p = some m → ∃ x, u.mods.find p = some x ∧ x = { m with waking := x.waking } ∧ ∀ d,
      x.waking.get d = if p ∈ trafficAt s i ∧ d ∈ m.idle ∧ m.waking.get d = 0 then BitVec.ofNat 64 (m.age + 2001)
        else m.waking.get d) ∧
  (∀ (s : State) (p n : Nat) (r : List Move), modOn s p = true →
    let t := { s with agenda := r }
    (s.agenda = .bar0Read p n :: r → n % 8 = 0 → n < 2 ^ 26 →
      step s = .next { t with hostRead := bytesOf (bar0Dword t p n) 8 }) ∧
    (s.agenda = .resizeBar2 p n :: r → 30 ≤ n → n ≤ 38 → step s = .next (updMod t p (fun m => { m with b2bits := n }))) ∧
    (s.agenda = .corrected p n :: r → n < 98304 →
      step s = .next (updMod t p (fun m => { m with counters := m.counters.set n (m.counters.get n + 1) })))) ∧
  (∀ (s : State) (p slot q : Nat), slot < 16 → q < 64 →
    let c := s.ctx p slot
    let x := (s.mod p).queues.getD q {}
    bar0Dword s p (0x10000 + 256 * slot) = (if c.en then 1 else 0) + (if c.live then 2 else 0) ∧
    (∀ i, 1 ≤ i → i ≤ 7 → bar0Dword s p (0x10000 + 256 * slot + 8 * i) = (c.fields.get i).toNat) ∧
    bar0Dword s p (0x100000 + 64 * q) = x.base.toNat ∧
    bar0Dword s p (0x100008 + 64 * q) = x.size + x.ctx * 2 ^ 16 + x.vec * 2 ^ 20 ∧
    bar0Dword s p (0x100010 + 64 * q) = x.head ∧ bar0Dword s p (0x100018 + 64 * q) = x.tail ∧
    (∀ i, i < 4096 → bar0Dword s p (0x200000 + 8 * i) = (s.mod p).msix.load (8 * i) 8)) ∧
  (∀ (s : State) (k : Nat) (h : Hart) (r : List Move), s.agenda = .ahead k :: r → s.harts.find k = some h →
    let u : State := { s with agenda := r, cur := k }
    (∃ t g, step s = .next t ∧ t.cur = s.cur ∧ t.harts.find k = some g ∧
      g.side = h.side ∧ g.regs = h.regs ∧ g.queues = h.queues) ∧
    (∀ (i : Instr) (d : Decoded) (t : State) (o : OpQ) (x : Nat),
      let a := h.ahead.getD ⟨(h.done (instrLen i)).side, [], h.under, [(h.pc, o.d)]⟩
      let v := atTurn (u.setMe (h.streamed a))
      let p := v.me.pc.toNat
      let w := underway [⟨d.instr, p, d.len⟩] v
      canIssue u = true → h.wait = some ⟨wQueue, x, 0⟩ → i ∈ [.qpop o, .qpeek o] →
      DecodesAt u h.pc.toNat ⟨i, false, instrLen i / 4⟩ → memberTrap u i h.pc.toNat = none →
      DecodesAt v p d → memberTrap v d.instr p = none → d.chain = false →
      (∀ ds, passedOver d.instr = some ds → ∃ b, step s = .next ({ s with agenda := r }.setHart k { h with ahead := some b }) ∧
        b.side = { a.side with pc := a.side.pc + BitVec.ofNat 64 (4 * d.len) } ∧ b.past = a.past ∧
        b.stale = a.stale ++ ds.map (fun q => (a.side.pc, q))) ∧
      (passedOver d.instr = none → (∀ c, fetchWord v p = .ok c → goesAhead c.toNat d.instr = true) →
        (∀ q ∈ captures d.instr, q = 0 ∨ ∀ e ∈ a.stale, e.2 ≠ q) →
        exec d.instr w = .next t → wentOn (4 * d.len) w.me t.me = true →
        step s = .next { t with harts := t.harts.put k (h.joined a w.me t.me), cur := s.cur }))) ∧
  (∀ (s : State), s.agenda = [] → (s.harts.find s.cur).isSome = true → canIssue (regrant s s.myCore) = true →
    ∀ a p r, s.me.ahead = some a → a.past = p :: r → p.pc = s.me.pc → ∃ u, step s = .next u ∧ u.me.pc = p.next ∧
      (∀ q, u.me.queue q = s.me.queue q ++ (p.pushes.filter (fun e => e.1 == q)).map Prod.snd) ∧
      u.me.ahead = some { a with past := r } ∧ u.mem = s.mem) ∧
  (∀ (s : State) (ns : Nat) (r : List Move), s.agenda = .time ns :: r → ∃ t, step s = .next t ∧ t.agenda = r ∧
    ∀ p m, s.mods.find p = some m → m.slow ≤ ns → ∃ n, t.mods.find p = some n ∧
      n.gtime = if m.on then (m.gtime + (ns - m.slow)) % 2 ^ 64 else m.gtime))

/-- R20, R23, R27-R48: words written out from the encodings the rules give, with their fields; the words R47 lists as
Illegal-instruction decode to nothing. -/
def Obligations.DecodeWords : Prop :=
  decode [0x28C30422] = .ok ⟨.vmul ⟨3, 1, 2, 2, none⟩, true, 1⟩ ∧
  decode [0x08440C52] = .ok ⟨.vadd ⟨4, 3, 5, 2, none⟩, false, 1⟩ ∧
  decode [0x4B460420, 0, 0xFF238003] = .ok ⟨.vfnms ⟨6, 1, 2, 0, ⟨15, 15, 1, 7, 0, 0, 3, 0⟩⟩, false, 3⟩ ∧
  decode [0x808A5000, 0, 1] = .ok ⟨.addi ⟨5, 5, 0, .lit 0x100000000⟩, false, 3⟩ ∧
  decode [0x03860FFB] = .ok ⟨.bne ⟨3, 0, 0xFFB, none⟩, false, 1⟩ ∧
  decode [0x038A0FF9] = .ok ⟨.bne ⟨5, 0, 0xFF9, none⟩, false, 1⟩ ∧
  decode [0x13100000] = .ok ⟨.dual ⟨2⟩, false, 1⟩ ∧
  -- sd 1, sa 2, sb 3 at the base words of R122, R125, R215 and R345
  decode [0x05400000 + 1 * 2 ^ 17 + 2 * 2 ^ 12 + 8] = .ok ⟨.jr ⟨1, 2, 8, none⟩, false, 1⟩ ∧
  decode [0x06400000 + 1 * 2 ^ 17 + 0x021] = .ok ⟨.csrr ⟨1, 0x021, none⟩, false, 1⟩ ∧
  decode [0x18C00000 + 0x81] = .ok ⟨.tkwait ⟨0x81, none⟩, false, 1⟩ ∧
  decode [0x1E800000 + 1 * 2 ^ 17 + 2 * 2 ^ 12 + 3 * 2 ^ 7 + 0] = .ok ⟨.cld ⟨1, 2, 3, none⟩, false, 1⟩ ∧
  (∀ w ∈ ([0x00000000, 0x1FC00000, 0x05C00000, 0x0843042C, 0x13000000, 0x02400000] : List W32), ∃ e, decode [w] = .bad e) ∧
  decode [0x08430422] = .ok ⟨.vadd ⟨3, 1, 2, 2, none⟩, false, 1⟩

/-- Decoding inverts encoding: every instruction whose fields the encoding admits comes back from its words, with its
chain bit and its length, whatever words follow.
R27-R34, R46: no bit of a word is without meaning: words that decode are the words of the instruction they decode to. -/
def Obligations.EncodingsRoundTrip : Prop :=
  (∀ (i : Instr) (c : Bool) (rest : List W32), i.isWord = true → i.check = none → (c = true → i.isDual = false) →
    ∃ n, decode (encode c i ++ rest) = .ok ⟨i, c, n⟩ ∧ (encode c i).length = n ∧ 4 * n = instrLen i) ∧
  (∀ (ws : List W32) (d : Decoded), decode ws = .ok d → encode d.chain d.instr = ws.take d.len ∧
    d.instr.isWord = true ∧ d.instr.check = none)

/-- R48, R364, R367: a hart's fetch may go on with a word as it once was until an acquire and then a jump, and the TLBs of a
module may go on with a translation until TLBINV. When either keeps something is a move of the agenda, which is the
model's own (log 11). -/
def Obligations.KeptWordsAndTranslations : Prop :=
  (∀ (s : State) (a k : Nat), s.me.heldWord a = none → fetchKey s a = .ok k →
    (∀ w old, s.me.fetched.find k = some (w, old) → fetchWord s a = .ok w) ∧
    (s.me.fetched.find k = none → eccHit s k 4 = false → fetchWord s a = .ok (BitVec.ofNat 32 (loadMem s k 4)))) ∧
  (∀ (s : State) (a : W64), ((s.setMe s.me.acquired).jump a).me.fetched = [] ∧
    (∀ k w, s.me.fetched.find k = some (w, false) → (s.jump a).me.fetched.find k = some (w, false))) ∧
  (∀ (s : State) (k key : Nat) (h : Hart) (r : List Move), s.harts.find k = some h →
    let t := { s with agenda := r }
    (s.agenda = .keepWord k key :: r → key % 4 = 0 → key < 2 ^ 60 → eccHit s key 4 = false →
      ∃ u, step s = .next u ∧ u = { t with harts := u.harts } ∧ (∀ j, j ≠ k → u.harts.find j = s.harts.find j) ∧
        u.hart k = { h with fetched := (u.hart k).fetched } ∧
        (u.hart k).fetched.find key = some (BitVec.ofNat 32 (loadMem s key 4), false) ∧
        ∀ q, q ≠ key → (u.hart k).fetched.find q = h.fetched.find q) ∧
    (s.agenda = .dropWord k key :: r →
      ∃ u, step s = .next u ∧ u = { t with harts := u.harts } ∧ (∀ j, j ≠ k → u.harts.find j = s.harts.find j) ∧
        u.hart k = { h with fetched := (u.hart k).fetched } ∧ (u.hart k).fetched.find key = none ∧
        ∀ q, q ≠ key → (u.hart k).fetched.find q = h.fetched.find q)) ∧
  (∀ (s : State) (p slot page : Nat) (r : List Move), (s.ctx p slot).live = true → page < 2 ^ 26 →
    s.agenda = .keepPage p slot page :: r →
    ∃ t, step s = .next t ∧ t = { s with agenda := r, ctxs := t.ctxs } ∧
      ∀ u, u.ctx p slot = t.ctx p slot → ∀ va, va / 65536 = page →
        (∀ e pa, walkNow s p slot (65536 * page) = .ok (e, pa) → translation u p slot va = .ok (e, pa + va % 65536)) ∧
        (walkNow s p slot (65536 * page) = .error 0x05 → translation u p slot va = .error 0x05)) ∧
  (∀ (s : State) (p slot : Nat) (named : Nat → Bool), (s.ctx p slot).live = true →
    let t := dropPages p slot named s
    t = { s with ctxs := t.ctxs } ∧ (∀ c j, ctxKey c j ≠ ctxKey p slot → t.ctx c j = s.ctx c j) ∧
    t.ctx p slot = { s.ctx p slot with tlb := (t.ctx p slot).tlb } ∧
    (∀ va,
      translation t p slot va = if named (va / 65536) = true then walkNow s p slot va else translation s p slot va) ∧
    ∀ page r, s.agenda = .dropPage p slot page :: r → step s = .next (dropPages p slot (fun q => q == page) { s with agenda := r }))
end

