-- ==== Sys2Proof/Laws/Tab.lean ====
section
/-! SUPPORT. The tables of the state: reading after writing, and the order of keys and the canonical form that every
operation keeps. -/

namespace Sys2Proof.Machine

/-! ## Reading after writing -/

theorem Tab.find_put_same {α : Type} (t : Tab α) (k : Nat) (v : α) : Tab.find (Tab.put t k v) k = some v := by
  induction t with
  | nil => simp [Tab.put, Tab.find]
  | cons p r ih =>
    obtain ⟨j, x⟩ := p
    unfold Tab.put
    split
    · simp [Tab.find]
    · split
      · simp [Tab.find]
      · rename_i h1 h2
        simp [Tab.find, h2, ih]

theorem Tab.find_put_other {α : Type} (t : Tab α) (k q : Nat) (v : α) (h : q ≠ k) :
    Tab.find (Tab.put t k v) q = Tab.find t q := by
  induction t with
  | nil => simp [Tab.put, Tab.find, Ne.symm h]
  | cons p r ih =>
    obtain ⟨j, x⟩ := p
    unfold Tab.put
    split
    · simp [Tab.find, Ne.symm h]
    · split
      · rename_i h1 h2
        subst h2
        simp [Tab.find, Ne.symm h]
      · by_cases e : j = q
        · simp [Tab.find, e]
        · simp [Tab.find, e, ih]

theorem Tab.find_del_same {α : Type} (t : Tab α) (k : Nat) : Tab.find (Tab.del t k) k = none := by
  induction t with
  | nil => rfl
  | cons p r ih =>
    obtain ⟨j, x⟩ := p
    unfold Tab.del
    split
    · exact ih
    · rename_i h
      simp [Tab.find, h, ih]

theorem Tab.find_del_other {α : Type} (t : Tab α) (k q : Nat) (h : q ≠ k) :
    Tab.find (Tab.del t k) q = Tab.find t q := by
  induction t with
  | nil => rfl
  | cons p r ih =>
    obtain ⟨j, x⟩ := p
    unfold Tab.del
    split
    · rename_i e
      subst e
      simp [Tab.find, Ne.symm h, ih]
    · by_cases e : j = q
      · simp [Tab.find, e]
      · simp [Tab.find, e, ih]

theorem Tab.getD_put_same {α : Type} (t : Tab α) (k : Nat) (v d : α) : Tab.getD (Tab.put t k v) k d = v := by
  simp [Tab.getD, Tab.find_put_same]

theorem Tab.getD_put_other {α : Type} (t : Tab α) (k q : Nat) (v d : α) (h : q ≠ k) :
    Tab.getD (Tab.put t k v) q d = Tab.getD t q d := by
  simp [Tab.getD, Tab.find_put_other t k q v h]

theorem Cells.get_set_same {w : Nat} (c : Cells w) (k : Nat) (v : BitVec w) : Cells.get (Cells.set c k v) k = v := by
  unfold Cells.set
  split
  · rename_i h
    simp [Cells.get, Tab.find_del_same, h]
  · simp [Cells.get, Tab.find_put_same]

theorem Cells.get_set_other {w : Nat} (c : Cells w) (k q : Nat) (v : BitVec w) (h : q ≠ k) :
    Cells.get (Cells.set c k v) q = Cells.get c q := by
  unfold Cells.set
  split
  · simp [Cells.get, Tab.find_del_other c k q h]
  · simp [Cells.get, Tab.find_put_other c k q v h]

/-- A byte outside the `n` stored ones reads as before. -/
theorem Cells.get_store_outside (c : Cells 8) (a n v q : Nat) (h : q < a ∨ a + n ≤ q) :
    Cells.get (Cells.store c a n v) q = Cells.get c q := by
  induction n generalizing c a v with
  | zero => rfl
  | succ n ih =>
    rw [Cells.store, ih (c := Cells.set c a _) (a := a + 1) (h := by omega)]
    exact Cells.get_set_other c a q _ (by omega)

/-- Byte `i` of a stored number. -/
theorem Cells.get_store_inside (c : Cells 8) (a n v i : Nat) (h : i < n) :
    Cells.get (Cells.store c a n v) (a + i) = BitVec.ofNat 8 (v / 256 ^ i) := by
  induction n generalizing c a v i with
  | zero => omega
  | succ n ih =>
    rw [Cells.store]
    cases i with
    | zero =>
      rw [Cells.get_store_outside _ _ _ _ _ (by omega)]
      simp [Cells.get_set_same]
    | succ i =>
      have e := ih (c := Cells.set c a (BitVec.ofNat 8 v)) (a := a + 1) (v := v / 256) (i := i) (by omega)
      rw [show a + (i + 1) = a + 1 + i by omega, e, Nat.div_div_eq_div_mul, Nat.pow_succ, Nat.mul_comm]

/-! ## Order and canonical form -/

theorem Tab.rising_weaken {α : Type} (t : Tab α) (lo : Nat) (h : Tab.risingFrom (some lo) t = true) :
    Tab.risingFrom none t = true := by
  cases t with
  | nil => rfl
  | cons p r =>
    obtain ⟨k, x⟩ := p
    simp only [Tab.risingFrom, Bool.and_eq_true] at h ⊢
    exact ⟨trivial, h.2⟩

theorem Tab.rising_mono {α : Type} (t : Tab α) (lo hi : Nat) (h : Tab.risingFrom (some hi) t = true) (e : lo ≤ hi) :
    Tab.risingFrom (some lo) t = true := by
  cases t with
  | nil => rfl
  | cons p r =>
    obtain ⟨k, x⟩ := p
    simp only [Tab.risingFrom, Bool.and_eq_true, decide_eq_true_eq] at h ⊢
    exact ⟨Nat.lt_of_le_of_lt e h.1, h.2⟩

theorem Tab.put_rising {α : Type} (t : Tab α) (lo : Option Nat) (k : Nat) (v : α)
    (h : Tab.risingFrom lo t = true) (e : ∀ l, lo = some l → l < k) : Tab.risingFrom lo (Tab.put t k v) = true := by
  induction t generalizing lo with
  | nil =>
    cases lo with
    | none => rfl
    | some l => simp [Tab.put, Tab.risingFrom, e l rfl]
  | cons p r ih =>
    obtain ⟨j, x⟩ := p
    simp only [Tab.risingFrom, Bool.and_eq_true] at h
    unfold Tab.put
    split
    · rename_i c
      simp only [Tab.risingFrom, Bool.and_eq_true, decide_eq_true_eq]
      refine ⟨?_, c, h.2⟩
      cases lo with
      | none => trivial
      | some l => simpa using e l rfl
    · split
      · rename_i c1 c2
        subst c2
        simp only [Tab.risingFrom, Bool.and_eq_true]
        exact ⟨h.1, h.2⟩
      · rename_i c1 c2
        simp only [Tab.risingFrom, Bool.and_eq_true]
        refine ⟨h.1, ih (some j) h.2 ?_⟩
        intro l hl
        injection hl with hl
        omega

theorem Tab.del_rising {α : Type} (t : Tab α) (lo : Option Nat) (k : Nat) (h : Tab.risingFrom lo t = true) :
    Tab.risingFrom lo (Tab.del t k) = true := by
  induction t generalizing lo with
  | nil => exact h
  | cons p r ih =>
    obtain ⟨j, x⟩ := p
    simp only [Tab.risingFrom, Bool.and_eq_true] at h
    unfold Tab.del
    split
    · cases lo with
      | none => exact ih none (Tab.rising_weaken r j h.2)
      | some l =>
        have hl : l < j := by simpa using h.1
        exact ih (some l) (Tab.rising_mono r l j h.2 (Nat.le_of_lt hl))
    · simp only [Tab.risingFrom, Bool.and_eq_true]
      exact ⟨h.1, ih (some j) h.2⟩

theorem Tab.filter_rising {α : Type} (f : Nat × α → Bool) (t : Tab α) (lo : Option Nat)
    (h : Tab.risingFrom lo t = true) : Tab.risingFrom lo (List.filter f t) = true := by
  induction t generalizing lo with
  | nil => exact h
  | cons p r ih =>
    obtain ⟨j, x⟩ := p
    simp only [Tab.risingFrom, Bool.and_eq_true] at h
    rw [List.filter_cons]
    split
    · simp only [Tab.risingFrom, Bool.and_eq_true]
      exact ⟨h.1, ih (some j) h.2⟩
    · cases lo with
      | none => exact ih none (Tab.rising_weaken r j h.2)
      | some l =>
        have hl : l < j := by simpa using h.1
        exact ih (some l) (Tab.rising_mono r l j h.2 (Nat.le_of_lt hl))

/-- What stands under a key after entries were dropped by their keys. -/
theorem Tab.find_drop_keys {α : Type} (t : Tab α) (f : Nat → Bool) (k : Nat) :
    Tab.find (t.filter (fun e => !f e.1)) k = if f k = true then none else Tab.find t k := by
  induction t with
  | nil => simp [Tab.find]
  | cons e r ih =>
    obtain ⟨a, b⟩ := e
    by_cases ha : a = k
    · subst ha
      by_cases hb : f a = true
      · simp only [hb, if_true] at ih
        simp [hb, ih]
      · simp [hb, Tab.find]
    · by_cases hb : f a = true <;> simp [hb, Tab.find, ha, ih]

theorem Tab.put_wf {α : Type} (t : Tab α) (k : Nat) (v : α) (h : Tab.wf t = true) : Tab.wf (Tab.put t k v) = true :=
  Tab.put_rising t none k v h (fun _ e => by cases e)

theorem Tab.del_wf {α : Type} (t : Tab α) (k : Nat) (h : Tab.wf t = true) : Tab.wf (Tab.del t k) = true :=
  Tab.del_rising t none k h

theorem Tab.mem_put {α : Type} (t : Tab α) (k : Nat) (v : α) (p : Nat × α) (h : p ∈ Tab.put t k v) :
    p ∈ t ∨ p = (k, v) := by
  induction t with
  | nil => simp [Tab.put] at h; exact Or.inr h
  | cons q r ih =>
    obtain ⟨j, x⟩ := q
    unfold Tab.put at h
    split at h
    · rcases List.mem_cons.mp h with e | e
      · exact Or.inr e
      · exact Or.inl e
    · split at h
      · rcases List.mem_cons.mp h with e | e
        · exact Or.inr e
        · exact Or.inl (List.mem_cons_of_mem _ e)
      · rcases List.mem_cons.mp h with e | e
        · exact Or.inl (e ▸ List.mem_cons_self ..)
        · rcases ih e with e | e
          · exact Or.inl (List.mem_cons_of_mem _ e)
          · exact Or.inr e

theorem Tab.mem_del {α : Type} (t : Tab α) (k : Nat) (p : Nat × α) (h : p ∈ Tab.del t k) : p ∈ t := by
  induction t with
  | nil => exact h
  | cons q r ih =>
    obtain ⟨j, x⟩ := q
    unfold Tab.del at h
    split at h
    · exact List.mem_cons_of_mem _ (ih h)
    · rcases List.mem_cons.mp h with e | e
      · exact e ▸ List.mem_cons_self ..
      · exact List.mem_cons_of_mem _ (ih e)

theorem Cells.wf_iff {w : Nat} (c : Cells w) :
    Cells.wf c = true ↔ Tab.wf c = true ∧ ∀ p ∈ c, p.2 ≠ 0 := by
  simp [Cells.wf]

theorem Cells.set_wf {w : Nat} (c : Cells w) (k : Nat) (v : BitVec w) (h : Cells.wf c = true) :
    Cells.wf (Cells.set c k v) = true := by
  rw [Cells.wf_iff] at h ⊢
  unfold Cells.set
  split
  · exact ⟨Tab.del_wf c k h.1, fun p m => h.2 p (Tab.mem_del c k p m)⟩
  · rename_i e
    refine ⟨Tab.put_wf c k v h.1, fun p m => ?_⟩
    rcases Tab.mem_put c k v p m with m | m
    · exact h.2 p m
    · subst m; exact e

theorem Cells.store_wf (c : Cells 8) (a n v : Nat) (h : Cells.wf c = true) : Cells.wf (Cells.store c a n v) = true := by
  induction n generalizing c a v with
  | zero => exact h
  | succ n ih => exact ih _ _ _ (Cells.set_wf c a _ h)

theorem Cells.fill_wf {w : Nat} (c : Cells w) (a n : Nat) (v : BitVec w) (h : Cells.wf c = true) :
    Cells.wf (Cells.fill c a v n) = true := by
  induction n generalizing c a with
  | zero => exact h
  | succ n ih => exact ih _ _ (Cells.set_wf c a v h)

theorem Cells.filter_wf {w : Nat} (f : Nat × BitVec w → Bool) (c : Cells w) (h : Cells.wf c = true) :
    Cells.wf (List.filter f c) = true := by
  rw [Cells.wf_iff] at h ⊢
  exact ⟨Tab.filter_rising f c none h.1, fun p m => h.2 p (List.mem_filter.mp m).1⟩

theorem Cells.clear_wf {w : Nat} (c : Cells w) (lo hi : Nat) (h : Cells.wf c = true) :
    Cells.wf (Cells.clear c lo hi) = true := Cells.filter_wf _ c h

theorem Cells.foldl_set_wf {w : Nat} {β : Type} (l : List β) (k : β → Nat) (v : β → BitVec w) (c : Cells w)
    (h : Cells.wf c = true) : Cells.wf (l.foldl (fun c b => Cells.set c (k b) (v b)) c) = true := by
  induction l generalizing c with
  | nil => exact h
  | cons b r ih => exact ih _ (Cells.set_wf c _ _ h)

theorem Cells.paste_wf {w : Nat} (c : Cells w) (lo : Nat) (s : Cells w) (h : Cells.wf c = true) :
    Cells.wf (Cells.paste c lo s) = true := Cells.foldl_set_wf s _ _ c h

end Sys2Proof.Machine
end

