-- ==== Sys2Proof/Laws/State.lean ====
section
/-! SUPPORT. One lemma per field per update of the state and of a hart, so that no proof unfolds a record update. -/

namespace Sys2Proof.Machine

/-! ## Updates of the state -/

@[simp] theorem State.setHart_mem (s : State) (k : Nat) (h : Hart) : (s.setHart k h).mem = s.mem := rfl
@[simp] theorem State.setHart_fe (s : State) (k : Nat) (h : Hart) : (s.setHart k h).fe = s.fe := rfl
@[simp] theorem State.setHart_ecc (s : State) (k : Nat) (h : Hart) : (s.setHart k h).ecc = s.ecc := rfl
@[simp] theorem State.setHart_harts (s : State) (k : Nat) (h : Hart) : (s.setHart k h).harts = s.harts.put k h := rfl
@[simp] theorem State.setHart_cores (s : State) (k : Nat) (h : Hart) : (s.setHart k h).cores = s.cores := rfl
@[simp] theorem State.setHart_mods (s : State) (k : Nat) (h : Hart) : (s.setHart k h).mods = s.mods := rfl
@[simp] theorem State.setHart_ctxs (s : State) (k : Nat) (h : Hart) : (s.setHart k h).ctxs = s.ctxs := rfl
@[simp] theorem State.setHart_launches (s : State) (k : Nat) (h : Hart) : (s.setHart k h).launches = s.launches := rfl
@[simp] theorem State.setHart_groups (s : State) (k : Nat) (h : Hart) : (s.setHart k h).groups = s.groups := rfl
@[simp] theorem State.setHart_colls (s : State) (k : Nat) (h : Hart) : (s.setHart k h).colls = s.colls := rfl
@[simp] theorem State.setHart_owed (s : State) (k : Nat) (h : Hart) : (s.setHart k h).owed = s.owed := rfl
@[simp] theorem State.setHart_regions (s : State) (k : Nat) (h : Hart) : (s.setHart k h).regions = s.regions := rfl
@[simp] theorem State.setHart_remote (s : State) (k : Nat) (h : Hart) : (s.setHart k h).remote = s.remote := rfl
@[simp] theorem State.setHart_images (s : State) (k : Nat) (h : Hart) : (s.setHart k h).images = s.images := rfl
@[simp] theorem State.setHart_cur (s : State) (k : Nat) (h : Hart) : (s.setHart k h).cur = s.cur := rfl
@[simp] theorem State.setHart_cv (s : State) (k : Nat) (h : Hart) : (s.setHart k h).cv = s.cv := rfl
@[simp] theorem State.setHart_agenda (s : State) (k : Nat) (h : Hart) : (s.setHart k h).agenda = s.agenda := rfl
@[simp] theorem State.setHart_seq (s : State) (k : Nat) (h : Hart) : (s.setHart k h).seq = s.seq := rfl
@[simp] theorem State.setHart_hostRead (s : State) (k : Nat) (h : Hart) : (s.setHart k h).hostRead = s.hostRead := rfl

@[simp] theorem State.setMe_mem (s : State) (h : Hart) : (s.setMe h).mem = s.mem := rfl
@[simp] theorem State.setMe_fe (s : State) (h : Hart) : (s.setMe h).fe = s.fe := rfl
@[simp] theorem State.setMe_ecc (s : State) (h : Hart) : (s.setMe h).ecc = s.ecc := rfl
@[simp] theorem State.setMe_harts (s : State) (h : Hart) : (s.setMe h).harts = s.harts.put s.cur h := rfl
@[simp] theorem State.setMe_cores (s : State) (h : Hart) : (s.setMe h).cores = s.cores := rfl
@[simp] theorem State.setMe_mods (s : State) (h : Hart) : (s.setMe h).mods = s.mods := rfl
@[simp] theorem State.setMe_ctxs (s : State) (h : Hart) : (s.setMe h).ctxs = s.ctxs := rfl
@[simp] theorem State.setMe_launches (s : State) (h : Hart) : (s.setMe h).launches = s.launches := rfl
@[simp] theorem State.setMe_groups (s : State) (h : Hart) : (s.setMe h).groups = s.groups := rfl
@[simp] theorem State.setMe_colls (s : State) (h : Hart) : (s.setMe h).colls = s.colls := rfl
@[simp] theorem State.setMe_owed (s : State) (h : Hart) : (s.setMe h).owed = s.owed := rfl
@[simp] theorem State.setMe_regions (s : State) (h : Hart) : (s.setMe h).regions = s.regions := rfl
@[simp] theorem State.setMe_remote (s : State) (h : Hart) : (s.setMe h).remote = s.remote := rfl
@[simp] theorem State.setMe_images (s : State) (h : Hart) : (s.setMe h).images = s.images := rfl
@[simp] theorem State.setMe_cur (s : State) (h : Hart) : (s.setMe h).cur = s.cur := rfl
@[simp] theorem State.setMe_cv (s : State) (h : Hart) : (s.setMe h).cv = s.cv := rfl
@[simp] theorem State.setMe_agenda (s : State) (h : Hart) : (s.setMe h).agenda = s.agenda := rfl
@[simp] theorem State.setMe_seq (s : State) (h : Hart) : (s.setMe h).seq = s.seq := rfl
@[simp] theorem State.setMe_hostRead (s : State) (h : Hart) : (s.setMe h).hostRead = s.hostRead := rfl

@[simp] theorem State.setCore_mem (s : State) (k : Nat) (c : CoreS) : (s.setCore k c).mem = s.mem := rfl
@[simp] theorem State.setCore_fe (s : State) (k : Nat) (c : CoreS) : (s.setCore k c).fe = s.fe := rfl
@[simp] theorem State.setCore_ecc (s : State) (k : Nat) (c : CoreS) : (s.setCore k c).ecc = s.ecc := rfl
@[simp] theorem State.setCore_harts (s : State) (k : Nat) (c : CoreS) : (s.setCore k c).harts = s.harts := rfl
@[simp] theorem State.setCore_cores (s : State) (k : Nat) (c : CoreS) : (s.setCore k c).cores = s.cores.put k c := rfl
@[simp] theorem State.setCore_mods (s : State) (k : Nat) (c : CoreS) : (s.setCore k c).mods = s.mods := rfl
@[simp] theorem State.setCore_ctxs (s : State) (k : Nat) (c : CoreS) : (s.setCore k c).ctxs = s.ctxs := rfl
@[simp] theorem State.setCore_launches (s : State) (k : Nat) (c : CoreS) : (s.setCore k c).launches = s.launches := rfl
@[simp] theorem State.setCore_groups (s : State) (k : Nat) (c : CoreS) : (s.setCore k c).groups = s.groups := rfl
@[simp] theorem State.setCore_colls (s : State) (k : Nat) (c : CoreS) : (s.setCore k c).colls = s.colls := rfl
@[simp] theorem State.setCore_owed (s : State) (k : Nat) (c : CoreS) : (s.setCore k c).owed = s.owed := rfl
@[simp] theorem State.setCore_regions (s : State) (k : Nat) (c : CoreS) : (s.setCore k c).regions = s.regions := rfl
@[simp] theorem State.setCore_remote (s : State) (k : Nat) (c : CoreS) : (s.setCore k c).remote = s.remote := rfl
@[simp] theorem State.setCore_images (s : State) (k : Nat) (c : CoreS) : (s.setCore k c).images = s.images := rfl
@[simp] theorem State.setCore_cur (s : State) (k : Nat) (c : CoreS) : (s.setCore k c).cur = s.cur := rfl
@[simp] theorem State.setCore_cv (s : State) (k : Nat) (c : CoreS) : (s.setCore k c).cv = s.cv := rfl
@[simp] theorem State.setCore_agenda (s : State) (k : Nat) (c : CoreS) : (s.setCore k c).agenda = s.agenda := rfl
@[simp] theorem State.setCore_seq (s : State) (k : Nat) (c : CoreS) : (s.setCore k c).seq = s.seq := rfl
@[simp] theorem State.setCore_hostRead (s : State) (k : Nat) (c : CoreS) : (s.setCore k c).hostRead = s.hostRead := rfl

@[simp] theorem State.setMod_mem (s : State) (p : Nat) (m : Mod) : (s.setMod p m).mem = s.mem := rfl
@[simp] theorem State.setMod_fe (s : State) (p : Nat) (m : Mod) : (s.setMod p m).fe = s.fe := rfl
@[simp] theorem State.setMod_ecc (s : State) (p : Nat) (m : Mod) : (s.setMod p m).ecc = s.ecc := rfl
@[simp] theorem State.setMod_harts (s : State) (p : Nat) (m : Mod) : (s.setMod p m).harts = s.harts := rfl
@[simp] theorem State.setMod_cores (s : State) (p : Nat) (m : Mod) : (s.setMod p m).cores = s.cores := rfl
@[simp] theorem State.setMod_mods (s : State) (p : Nat) (m : Mod) : (s.setMod p m).mods = s.mods.put p m := rfl
@[simp] theorem State.setMod_ctxs (s : State) (p : Nat) (m : Mod) : (s.setMod p m).ctxs = s.ctxs := rfl
@[simp] theorem State.setMod_launches (s : State) (p : Nat) (m : Mod) : (s.setMod p m).launches = s.launches := rfl
@[simp] theorem State.setMod_groups (s : State) (p : Nat) (m : Mod) : (s.setMod p m).groups = s.groups := rfl
@[simp] theorem State.setMod_colls (s : State) (p : Nat) (m : Mod) : (s.setMod p m).colls = s.colls := rfl
@[simp] theorem State.setMod_owed (s : State) (p : Nat) (m : Mod) : (s.setMod p m).owed = s.owed := rfl
@[simp] theorem State.setMod_regions (s : State) (p : Nat) (m : Mod) : (s.setMod p m).regions = s.regions := rfl
@[simp] theorem State.setMod_remote (s : State) (p : Nat) (m : Mod) : (s.setMod p m).remote = s.remote := rfl
@[simp] theorem State.setMod_images (s : State) (p : Nat) (m : Mod) : (s.setMod p m).images = s.images := rfl
@[simp] theorem State.setMod_cur (s : State) (p : Nat) (m : Mod) : (s.setMod p m).cur = s.cur := rfl
@[simp] theorem State.setMod_cv (s : State) (p : Nat) (m : Mod) : (s.setMod p m).cv = s.cv := rfl
@[simp] theorem State.setMod_agenda (s : State) (p : Nat) (m : Mod) : (s.setMod p m).agenda = s.agenda := rfl
@[simp] theorem State.setMod_seq (s : State) (p : Nat) (m : Mod) : (s.setMod p m).seq = s.seq := rfl
@[simp] theorem State.setMod_hostRead (s : State) (p : Nat) (m : Mod) : (s.setMod p m).hostRead = s.hostRead := rfl

@[simp] theorem State.setCtx_mem (s : State) (p i : Nat) (c : Ctx) : (s.setCtx p i c).mem = s.mem := rfl
@[simp] theorem State.setCtx_fe (s : State) (p i : Nat) (c : Ctx) : (s.setCtx p i c).fe = s.fe := rfl
@[simp] theorem State.setCtx_ecc (s : State) (p i : Nat) (c : Ctx) : (s.setCtx p i c).ecc = s.ecc := rfl
@[simp] theorem State.setCtx_harts (s : State) (p i : Nat) (c : Ctx) : (s.setCtx p i c).harts = s.harts := rfl
@[simp] theorem State.setCtx_cores (s : State) (p i : Nat) (c : Ctx) : (s.setCtx p i c).cores = s.cores := rfl
@[simp] theorem State.setCtx_mods (s : State) (p i : Nat) (c : Ctx) : (s.setCtx p i c).mods = s.mods := rfl
@[simp] theorem State.setCtx_ctxs (s : State) (p i : Nat) (c : Ctx) : (s.setCtx p i c).ctxs = s.ctxs.put (ctxKey p i) c := rfl
@[simp] theorem State.setCtx_launches (s : State) (p i : Nat) (c : Ctx) : (s.setCtx p i c).launches = s.launches := rfl
@[simp] theorem State.setCtx_groups (s : State) (p i : Nat) (c : Ctx) : (s.setCtx p i c).groups = s.groups := rfl
@[simp] theorem State.setCtx_colls (s : State) (p i : Nat) (c : Ctx) : (s.setCtx p i c).colls = s.colls := rfl
@[simp] theorem State.setCtx_owed (s : State) (p i : Nat) (c : Ctx) : (s.setCtx p i c).owed = s.owed := rfl
@[simp] theorem State.setCtx_regions (s : State) (p i : Nat) (c : Ctx) : (s.setCtx p i c).regions = s.regions := rfl
@[simp] theorem State.setCtx_remote (s : State) (p i : Nat) (c : Ctx) : (s.setCtx p i c).remote = s.remote := rfl
@[simp] theorem State.setCtx_images (s : State) (p i : Nat) (c : Ctx) : (s.setCtx p i c).images = s.images := rfl
@[simp] theorem State.setCtx_cur (s : State) (p i : Nat) (c : Ctx) : (s.setCtx p i c).cur = s.cur := rfl
@[simp] theorem State.setCtx_cv (s : State) (p i : Nat) (c : Ctx) : (s.setCtx p i c).cv = s.cv := rfl
@[simp] theorem State.setCtx_agenda (s : State) (p i : Nat) (c : Ctx) : (s.setCtx p i c).agenda = s.agenda := rfl
@[simp] theorem State.setCtx_seq (s : State) (p i : Nat) (c : Ctx) : (s.setCtx p i c).seq = s.seq := rfl
@[simp] theorem State.setCtx_hostRead (s : State) (p i : Nat) (c : Ctx) : (s.setCtx p i c).hostRead = s.hostRead := rfl

@[simp] theorem State.bump_mem (s : State) : (s.bump).mem = s.mem := rfl
@[simp] theorem State.bump_fe (s : State) : (s.bump).fe = s.fe := rfl
@[simp] theorem State.bump_ecc (s : State) : (s.bump).ecc = s.ecc := rfl
@[simp] theorem State.bump_harts (s : State) : (s.bump).harts = s.harts := rfl
@[simp] theorem State.bump_cores (s : State) : (s.bump).cores = s.cores := rfl
@[simp] theorem State.bump_mods (s : State) : (s.bump).mods = s.mods := rfl
@[simp] theorem State.bump_ctxs (s : State) : (s.bump).ctxs = s.ctxs := rfl
@[simp] theorem State.bump_launches (s : State) : (s.bump).launches = s.launches := rfl
@[simp] theorem State.bump_groups (s : State) : (s.bump).groups = s.groups := rfl
@[simp] theorem State.bump_colls (s : State) : (s.bump).colls = s.colls := rfl
@[simp] theorem State.bump_owed (s : State) : (s.bump).owed = s.owed := rfl
@[simp] theorem State.bump_regions (s : State) : (s.bump).regions = s.regions := rfl
@[simp] theorem State.bump_remote (s : State) : (s.bump).remote = s.remote := rfl
@[simp] theorem State.bump_images (s : State) : (s.bump).images = s.images := rfl
@[simp] theorem State.bump_cur (s : State) : (s.bump).cur = s.cur := rfl
@[simp] theorem State.bump_cv (s : State) : (s.bump).cv = s.cv := rfl
@[simp] theorem State.bump_agenda (s : State) : (s.bump).agenda = s.agenda := rfl
@[simp] theorem State.bump_seq (s : State) : (s.bump).seq = s.seq + 1 := rfl
@[simp] theorem State.bump_hostRead (s : State) : (s.bump).hostRead = s.hostRead := rfl

/-! ## Reading what was written -/

@[simp] theorem State.hart_setHart (s : State) (k : Nat) (h : Hart) : (s.setHart k h).hart k = h :=
  Tab.getD_put_same s.harts k h {}

theorem State.hart_setHart_other (s : State) (k j : Nat) (h : Hart) (e : j ≠ k) : (s.setHart k h).hart j = s.hart j :=
  Tab.getD_put_other s.harts k j h {} e

@[simp] theorem State.me_setMe (s : State) (h : Hart) : (s.setMe h).me = h := Tab.getD_put_same s.harts s.cur h {}

theorem State.hart_setMe_other (s : State) (j : Nat) (h : Hart) (e : j ≠ s.cur) : (s.setMe h).hart j = s.hart j :=
  Tab.getD_put_other s.harts s.cur j h {} e

@[simp] theorem State.me_bump (s : State) : s.bump.me = s.me := rfl
@[simp] theorem State.me_setCore (s : State) (k : Nat) (c : CoreS) : (s.setCore k c).me = s.me := rfl
@[simp] theorem State.me_setMod (s : State) (p : Nat) (m : Mod) : (s.setMod p m).me = s.me := rfl
@[simp] theorem State.me_setCtx (s : State) (p i : Nat) (c : Ctx) : (s.setCtx p i c).me = s.me := rfl

@[simp] theorem State.core_setCore (s : State) (k : Nat) (c : CoreS) : (s.setCore k c).core k = c :=
  Tab.getD_put_same s.cores k c {}

@[simp] theorem State.mod_setMod (s : State) (p : Nat) (m : Mod) : (s.setMod p m).mod p = m :=
  Tab.getD_put_same s.mods p m {}

@[simp] theorem State.core_setMe (s : State) (h : Hart) (k : Nat) : (s.setMe h).core k = s.core k := rfl
@[simp] theorem State.mod_setMe (s : State) (h : Hart) (p : Nat) : (s.setMe h).mod p = s.mod p := rfl
@[simp] theorem State.byteAt_setMe (s : State) (h : Hart) (k : Nat) : (s.setMe h).byteAt k = s.byteAt k := rfl
@[simp] theorem State.byteAt_bump (s : State) (k : Nat) : s.bump.byteAt k = s.byteAt k := rfl

/-! ## Updates of a hart -/

@[simp] theorem Hart.vset_system (h : Hart) (r : Nat) (x : VReg) : (h.vset r x).system = h.system := rfl
@[simp] theorem Hart.vset_stat (h : Hart) (r : Nat) (x : VReg) : (h.vset r x).stat = h.stat := rfl
@[simp] theorem Hart.vset_pc (h : Hart) (r : Nat) (x : VReg) : (h.vset r x).pc = h.pc := rfl
@[simp] theorem Hart.vset_dual (h : Hart) (r : Nat) (x : VReg) : (h.vset r x).dual = h.dual := rfl
@[simp] theorem Hart.vset_regs (h : Hart) (r : Nat) (x : VReg) : (h.vset r x).regs = h.regs := rfl
@[simp] theorem Hart.vset_v (h : Hart) (r : Nat) (x : VReg) : (h.vset r x).v = h.v.set r x := rfl
@[simp] theorem Hart.vset_tags (h : Hart) (r : Nat) (x : VReg) : (h.vset r x).tags = h.tags := rfl
@[simp] theorem Hart.vset_planes (h : Hart) (r : Nat) (x : VReg) : (h.vset r x).planes = h.planes := rfl
@[simp] theorem Hart.vset_masks (h : Hart) (r : Nat) (x : VReg) : (h.vset r x).masks = h.masks := rfl
@[simp] theorem Hart.vset_queues (h : Hart) (r : Nat) (x : VReg) : (h.vset r x).queues = h.queues := rfl
@[simp] theorem Hart.vset_groups (h : Hart) (r : Nat) (x : VReg) : (h.vset r x).groups = h.groups := rfl
@[simp] theorem Hart.vset_ln (h : Hart) (r : Nat) (x : VReg) : (h.vset r x).ln = h.ln := rfl
@[simp] theorem Hart.vset_chains (h : Hart) (r : Nat) (x : VReg) : (h.vset r x).chains = h.chains := rfl
@[simp] theorem Hart.vset_tokens (h : Hart) (r : Nat) (x : VReg) : (h.vset r x).tokens = h.tokens := rfl
@[simp] theorem Hart.vset_csr (h : Hart) (r : Nat) (x : VReg) : (h.vset r x).csr = h.csr := rfl
@[simp] theorem Hart.vset_sys (h : Hart) (r : Nat) (x : VReg) : (h.vset r x).sys = h.sys := rfl
@[simp] theorem Hart.vset_recs (h : Hart) (r : Nat) (x : VReg) : (h.vset r x).recs = h.recs := rfl
@[simp] theorem Hart.vset_serving (h : Hart) (r : Nat) (x : VReg) : (h.vset r x).serving = h.serving := rfl
@[simp] theorem Hart.vset_ctx (h : Hart) (r : Nat) (x : VReg) : (h.vset r x).ctx = h.ctx := rfl
@[simp] theorem Hart.vset_launch (h : Hart) (r : Nat) (x : VReg) : (h.vset r x).launch = h.launch := rfl
@[simp] theorem Hart.vset_mid (h : Hart) (r : Nat) (x : VReg) : (h.vset r x).mid = h.mid := rfl
@[simp] theorem Hart.vset_cls (h : Hart) (r : Nat) (x : VReg) : (h.vset r x).cls = h.cls := rfl
@[simp] theorem Hart.vset_nplanes (h : Hart) (r : Nat) (x : VReg) : (h.vset r x).nplanes = h.nplanes := rfl
@[simp] theorem Hart.vset_vcap (h : Hart) (r : Nat) (x : VReg) : (h.vset r x).vcap = h.vcap := rfl
@[simp] theorem Hart.vset_cap (h : Hart) (r : Nat) (x : VReg) : (h.vset r x).cap = h.cap := rfl
@[simp] theorem Hart.vset_inUser (h : Hart) (r : Nat) (x : VReg) : (h.vset r x).inUser = h.inUser := rfl
@[simp] theorem Hart.vset_att (h : Hart) (r : Nat) (x : VReg) : (h.vset r x).att = h.att := rfl
@[simp] theorem Hart.vset_frozen (h : Hart) (r : Nat) (x : VReg) : (h.vset r x).frozen = h.frozen := rfl
@[simp] theorem Hart.vset_stream (h : Hart) (r : Nat) (x : VReg) : (h.vset r x).stream = h.stream := rfl
@[simp] theorem Hart.vset_sending (h : Hart) (r : Nat) (x : VReg) : (h.vset r x).sending = h.sending := rfl
@[simp] theorem Hart.vset_posted (h : Hart) (r : Nat) (x : VReg) : (h.vset r x).posted = h.posted := rfl
@[simp] theorem Hart.vset_owedX (h : Hart) (r : Nat) (x : VReg) : (h.vset r x).owedX = h.owedX := rfl
@[simp] theorem Hart.vset_barls (h : Hart) (r : Nat) (x : VReg) : (h.vset r x).barls = h.barls := rfl
@[simp] theorem Hart.vset_phases (h : Hart) (r : Nat) (x : VReg) : (h.vset r x).phases = h.phases := rfl
@[simp] theorem Hart.vset_farmed (h : Hart) (r : Nat) (x : VReg) : (h.vset r x).farmed = h.farmed := rfl
@[simp] theorem Hart.vset_strips (h : Hart) (r : Nat) (x : VReg) : (h.vset r x).strips = h.strips := rfl
@[simp] theorem Hart.vset_wait (h : Hart) (r : Nat) (x : VReg) : (h.vset r x).wait = h.wait := rfl
@[simp] theorem Hart.vset_await (h : Hart) (r : Nat) (x : VReg) : (h.vset r x).await = h.await := rfl
@[simp] theorem Hart.vset_remote (h : Hart) (r : Nat) (x : VReg) : (h.vset r x).remote = h.remote := rfl
@[simp] theorem Hart.vset_yielded (h : Hart) (r : Nat) (x : VReg) : (h.vset r x).yielded = h.yielded := rfl
@[simp] theorem Hart.vset_seen (h : Hart) (r : Nat) (x : VReg) : (h.vset r x).seen = h.seen := rfl
@[simp] theorem Hart.vset_dlRaised (h : Hart) (r : Nat) (x : VReg) : (h.vset r x).dlRaised = h.dlRaised := rfl
@[simp] theorem Hart.vset_held (h : Hart) (r : Nat) (x : VReg) : (h.vset r x).held = h.held := rfl
@[simp] theorem Hart.vset_fetched (h : Hart) (r : Nat) (x : VReg) : (h.vset r x).fetched = h.fetched := rfl
@[simp] theorem Hart.vset_under (h : Hart) (r : Nat) (x : VReg) : (h.vset r x).under = h.under := rfl
@[simp] theorem Hart.vset_part (h : Hart) (r : Nat) (x : VReg) : (h.vset r x).part = h.part := rfl
@[simp] theorem Hart.vset_ahead (h : Hart) (r : Nat) (x : VReg) : (h.vset r x).ahead = h.ahead := rfl

@[simp] theorem Hart.setTag_system (h : Hart) (r : Nat) (f : Fmt) : (h.setTag r f).system = h.system := rfl
@[simp] theorem Hart.setTag_stat (h : Hart) (r : Nat) (f : Fmt) : (h.setTag r f).stat = h.stat := rfl
@[simp] theorem Hart.setTag_pc (h : Hart) (r : Nat) (f : Fmt) : (h.setTag r f).pc = h.pc := rfl
@[simp] theorem Hart.setTag_dual (h : Hart) (r : Nat) (f : Fmt) : (h.setTag r f).dual = h.dual := rfl
@[simp] theorem Hart.setTag_regs (h : Hart) (r : Nat) (f : Fmt) : (h.setTag r f).regs = h.regs := rfl
@[simp] theorem Hart.setTag_v (h : Hart) (r : Nat) (f : Fmt) : (h.setTag r f).v = h.v := rfl
@[simp] theorem Hart.setTag_tags (h : Hart) (r : Nat) (f : Fmt) : (h.setTag r f).tags = h.tags.set r (BitVec.ofNat 4 (fmtCode f)) := rfl
@[simp] theorem Hart.setTag_planes (h : Hart) (r : Nat) (f : Fmt) : (h.setTag r f).planes = h.planes := rfl
@[simp] theorem Hart.setTag_masks (h : Hart) (r : Nat) (f : Fmt) : (h.setTag r f).masks = h.masks := rfl
@[simp] theorem Hart.setTag_queues (h : Hart) (r : Nat) (f : Fmt) : (h.setTag r f).queues = h.queues := rfl
@[simp] theorem Hart.setTag_groups (h : Hart) (r : Nat) (f : Fmt) : (h.setTag r f).groups = h.groups := rfl
@[simp] theorem Hart.setTag_ln (h : Hart) (r : Nat) (f : Fmt) : (h.setTag r f).ln = h.ln := rfl
@[simp] theorem Hart.setTag_chains (h : Hart) (r : Nat) (f : Fmt) : (h.setTag r f).chains = h.chains := rfl
@[simp] theorem Hart.setTag_tokens (h : Hart) (r : Nat) (f : Fmt) : (h.setTag r f).tokens = h.tokens := rfl
@[simp] theorem Hart.setTag_csr (h : Hart) (r : Nat) (f : Fmt) : (h.setTag r f).csr = h.csr := rfl
@[simp] theorem Hart.setTag_sys (h : Hart) (r : Nat) (f : Fmt) : (h.setTag r f).sys = h.sys := rfl
@[simp] theorem Hart.setTag_recs (h : Hart) (r : Nat) (f : Fmt) : (h.setTag r f).recs = h.recs := rfl
@[simp] theorem Hart.setTag_serving (h : Hart) (r : Nat) (f : Fmt) : (h.setTag r f).serving = h.serving := rfl
@[simp] theorem Hart.setTag_ctx (h : Hart) (r : Nat) (f : Fmt) : (h.setTag r f).ctx = h.ctx := rfl
@[simp] theorem Hart.setTag_launch (h : Hart) (r : Nat) (f : Fmt) : (h.setTag r f).launch = h.launch := rfl
@[simp] theorem Hart.setTag_mid (h : Hart) (r : Nat) (f : Fmt) : (h.setTag r f).mid = h.mid := rfl
@[simp] theorem Hart.setTag_cls (h : Hart) (r : Nat) (f : Fmt) : (h.setTag r f).cls = h.cls := rfl
@[simp] theorem Hart.setTag_nplanes (h : Hart) (r : Nat) (f : Fmt) : (h.setTag r f).nplanes = h.nplanes := rfl
@[simp] theorem Hart.setTag_vcap (h : Hart) (r : Nat) (f : Fmt) : (h.setTag r f).vcap = h.vcap := rfl
@[simp] theorem Hart.setTag_cap (h : Hart) (r : Nat) (f : Fmt) : (h.setTag r f).cap = h.cap := rfl
@[simp] theorem Hart.setTag_inUser (h : Hart) (r : Nat) (f : Fmt) : (h.setTag r f).inUser = h.inUser := rfl
@[simp] theorem Hart.setTag_att (h : Hart) (r : Nat) (f : Fmt) : (h.setTag r f).att = h.att := rfl
@[simp] theorem Hart.setTag_frozen (h : Hart) (r : Nat) (f : Fmt) : (h.setTag r f).frozen = h.frozen := rfl
@[simp] theorem Hart.setTag_stream (h : Hart) (r : Nat) (f : Fmt) : (h.setTag r f).stream = h.stream := rfl
@[simp] theorem Hart.setTag_sending (h : Hart) (r : Nat) (f : Fmt) : (h.setTag r f).sending = h.sending := rfl
@[simp] theorem Hart.setTag_posted (h : Hart) (r : Nat) (f : Fmt) : (h.setTag r f).posted = h.posted := rfl
@[simp] theorem Hart.setTag_owedX (h : Hart) (r : Nat) (f : Fmt) : (h.setTag r f).owedX = h.owedX := rfl
@[simp] theorem Hart.setTag_barls (h : Hart) (r : Nat) (f : Fmt) : (h.setTag r f).barls = h.barls := rfl
@[simp] theorem Hart.setTag_phases (h : Hart) (r : Nat) (f : Fmt) : (h.setTag r f).phases = h.phases := rfl
@[simp] theorem Hart.setTag_farmed (h : Hart) (r : Nat) (f : Fmt) : (h.setTag r f).farmed = h.farmed := rfl
@[simp] theorem Hart.setTag_strips (h : Hart) (r : Nat) (f : Fmt) : (h.setTag r f).strips = h.strips := rfl
@[simp] theorem Hart.setTag_wait (h : Hart) (r : Nat) (f : Fmt) : (h.setTag r f).wait = h.wait := rfl
@[simp] theorem Hart.setTag_await (h : Hart) (r : Nat) (f : Fmt) : (h.setTag r f).await = h.await := rfl
@[simp] theorem Hart.setTag_remote (h : Hart) (r : Nat) (f : Fmt) : (h.setTag r f).remote = h.remote := rfl
@[simp] theorem Hart.setTag_yielded (h : Hart) (r : Nat) (f : Fmt) : (h.setTag r f).yielded = h.yielded := rfl
@[simp] theorem Hart.setTag_seen (h : Hart) (r : Nat) (f : Fmt) : (h.setTag r f).seen = h.seen := rfl
@[simp] theorem Hart.setTag_dlRaised (h : Hart) (r : Nat) (f : Fmt) : (h.setTag r f).dlRaised = h.dlRaised := rfl
@[simp] theorem Hart.setTag_held (h : Hart) (r : Nat) (f : Fmt) : (h.setTag r f).held = h.held := rfl
@[simp] theorem Hart.setTag_fetched (h : Hart) (r : Nat) (f : Fmt) : (h.setTag r f).fetched = h.fetched := rfl
@[simp] theorem Hart.setTag_under (h : Hart) (r : Nat) (f : Fmt) : (h.setTag r f).under = h.under := rfl
@[simp] theorem Hart.setTag_part (h : Hart) (r : Nat) (f : Fmt) : (h.setTag r f).part = h.part := rfl
@[simp] theorem Hart.setTag_ahead (h : Hart) (r : Nat) (f : Fmt) : (h.setTag r f).ahead = h.ahead := rfl

@[simp] theorem Hart.setMask_system (h : Hart) (m : Nat) (x : MReg) : (h.setMask m x).system = h.system := rfl
@[simp] theorem Hart.setMask_stat (h : Hart) (m : Nat) (x : MReg) : (h.setMask m x).stat = h.stat := rfl
@[simp] theorem Hart.setMask_pc (h : Hart) (m : Nat) (x : MReg) : (h.setMask m x).pc = h.pc := rfl
@[simp] theorem Hart.setMask_dual (h : Hart) (m : Nat) (x : MReg) : (h.setMask m x).dual = h.dual := rfl
@[simp] theorem Hart.setMask_regs (h : Hart) (m : Nat) (x : MReg) : (h.setMask m x).regs = h.regs := rfl
@[simp] theorem Hart.setMask_v (h : Hart) (m : Nat) (x : MReg) : (h.setMask m x).v = h.v := rfl
@[simp] theorem Hart.setMask_tags (h : Hart) (m : Nat) (x : MReg) : (h.setMask m x).tags = h.tags := rfl
@[simp] theorem Hart.setMask_planes (h : Hart) (m : Nat) (x : MReg) : (h.setMask m x).planes = h.planes := rfl
@[simp] theorem Hart.setMask_masks (h : Hart) (m : Nat) (x : MReg) : (h.setMask m x).masks = h.masks.set m x := rfl
@[simp] theorem Hart.setMask_queues (h : Hart) (m : Nat) (x : MReg) : (h.setMask m x).queues = h.queues := rfl
@[simp] theorem Hart.setMask_groups (h : Hart) (m : Nat) (x : MReg) : (h.setMask m x).groups = h.groups := rfl
@[simp] theorem Hart.setMask_ln (h : Hart) (m : Nat) (x : MReg) : (h.setMask m x).ln = h.ln := rfl
@[simp] theorem Hart.setMask_chains (h : Hart) (m : Nat) (x : MReg) : (h.setMask m x).chains = h.chains := rfl
@[simp] theorem Hart.setMask_tokens (h : Hart) (m : Nat) (x : MReg) : (h.setMask m x).tokens = h.tokens := rfl
@[simp] theorem Hart.setMask_csr (h : Hart) (m : Nat) (x : MReg) : (h.setMask m x).csr = h.csr := rfl
@[simp] theorem Hart.setMask_sys (h : Hart) (m : Nat) (x : MReg) : (h.setMask m x).sys = h.sys := rfl
@[simp] theorem Hart.setMask_recs (h : Hart) (m : Nat) (x : MReg) : (h.setMask m x).recs = h.recs := rfl
@[simp] theorem Hart.setMask_serving (h : Hart) (m : Nat) (x : MReg) : (h.setMask m x).serving = h.serving := rfl
@[simp] theorem Hart.setMask_ctx (h : Hart) (m : Nat) (x : MReg) : (h.setMask m x).ctx = h.ctx := rfl
@[simp] theorem Hart.setMask_launch (h : Hart) (m : Nat) (x : MReg) : (h.setMask m x).launch = h.launch := rfl
@[simp] theorem Hart.setMask_mid (h : Hart) (m : Nat) (x : MReg) : (h.setMask m x).mid = h.mid := rfl
@[simp] theorem Hart.setMask_cls (h : Hart) (m : Nat) (x : MReg) : (h.setMask m x).cls = h.cls := rfl
@[simp] theorem Hart.setMask_nplanes (h : Hart) (m : Nat) (x : MReg) : (h.setMask m x).nplanes = h.nplanes := rfl
@[simp] theorem Hart.setMask_vcap (h : Hart) (m : Nat) (x : MReg) : (h.setMask m x).vcap = h.vcap := rfl
@[simp] theorem Hart.setMask_cap (h : Hart) (m : Nat) (x : MReg) : (h.setMask m x).cap = h.cap := rfl
@[simp] theorem Hart.setMask_inUser (h : Hart) (m : Nat) (x : MReg) : (h.setMask m x).inUser = h.inUser := rfl
@[simp] theorem Hart.setMask_att (h : Hart) (m : Nat) (x : MReg) : (h.setMask m x).att = h.att := rfl
@[simp] theorem Hart.setMask_frozen (h : Hart) (m : Nat) (x : MReg) : (h.setMask m x).frozen = h.frozen := rfl
@[simp] theorem Hart.setMask_stream (h : Hart) (m : Nat) (x : MReg) : (h.setMask m x).stream = h.stream := rfl
@[simp] theorem Hart.setMask_sending (h : Hart) (m : Nat) (x : MReg) : (h.setMask m x).sending = h.sending := rfl
@[simp] theorem Hart.setMask_posted (h : Hart) (m : Nat) (x : MReg) : (h.setMask m x).posted = h.posted := rfl
@[simp] theorem Hart.setMask_owedX (h : Hart) (m : Nat) (x : MReg) : (h.setMask m x).owedX = h.owedX := rfl
@[simp] theorem Hart.setMask_barls (h : Hart) (m : Nat) (x : MReg) : (h.setMask m x).barls = h.barls := rfl
@[simp] theorem Hart.setMask_phases (h : Hart) (m : Nat) (x : MReg) : (h.setMask m x).phases = h.phases := rfl
@[simp] theorem Hart.setMask_farmed (h : Hart) (m : Nat) (x : MReg) : (h.setMask m x).farmed = h.farmed := rfl
@[simp] theorem Hart.setMask_strips (h : Hart) (m : Nat) (x : MReg) : (h.setMask m x).strips = h.strips := rfl
@[simp] theorem Hart.setMask_wait (h : Hart) (m : Nat) (x : MReg) : (h.setMask m x).wait = h.wait := rfl
@[simp] theorem Hart.setMask_await (h : Hart) (m : Nat) (x : MReg) : (h.setMask m x).await = h.await := rfl
@[simp] theorem Hart.setMask_remote (h : Hart) (m : Nat) (x : MReg) : (h.setMask m x).remote = h.remote := rfl
@[simp] theorem Hart.setMask_yielded (h : Hart) (m : Nat) (x : MReg) : (h.setMask m x).yielded = h.yielded := rfl
@[simp] theorem Hart.setMask_seen (h : Hart) (m : Nat) (x : MReg) : (h.setMask m x).seen = h.seen := rfl
@[simp] theorem Hart.setMask_dlRaised (h : Hart) (m : Nat) (x : MReg) : (h.setMask m x).dlRaised = h.dlRaised := rfl
@[simp] theorem Hart.setMask_held (h : Hart) (m : Nat) (x : MReg) : (h.setMask m x).held = h.held := rfl
@[simp] theorem Hart.setMask_fetched (h : Hart) (m : Nat) (x : MReg) : (h.setMask m x).fetched = h.fetched := rfl
@[simp] theorem Hart.setMask_under (h : Hart) (m : Nat) (x : MReg) : (h.setMask m x).under = h.under := rfl
@[simp] theorem Hart.setMask_part (h : Hart) (m : Nat) (x : MReg) : (h.setMask m x).part = h.part := rfl
@[simp] theorem Hart.setMask_ahead (h : Hart) (m : Nat) (x : MReg) : (h.setMask m x).ahead = h.ahead := rfl

@[simp] theorem Hart.setQueue_system (h : Hart) (q : Nat) (l : List W64) : (h.setQueue q l).system = h.system := rfl
@[simp] theorem Hart.setQueue_stat (h : Hart) (q : Nat) (l : List W64) : (h.setQueue q l).stat = h.stat := rfl
@[simp] theorem Hart.setQueue_pc (h : Hart) (q : Nat) (l : List W64) : (h.setQueue q l).pc = h.pc := rfl
@[simp] theorem Hart.setQueue_dual (h : Hart) (q : Nat) (l : List W64) : (h.setQueue q l).dual = h.dual := rfl
@[simp] theorem Hart.setQueue_regs (h : Hart) (q : Nat) (l : List W64) : (h.setQueue q l).regs = h.regs := rfl
@[simp] theorem Hart.setQueue_v (h : Hart) (q : Nat) (l : List W64) : (h.setQueue q l).v = h.v := rfl
@[simp] theorem Hart.setQueue_tags (h : Hart) (q : Nat) (l : List W64) : (h.setQueue q l).tags = h.tags := rfl
@[simp] theorem Hart.setQueue_planes (h : Hart) (q : Nat) (l : List W64) : (h.setQueue q l).planes = h.planes := rfl
@[simp] theorem Hart.setQueue_masks (h : Hart) (q : Nat) (l : List W64) : (h.setQueue q l).masks = h.masks := rfl
@[simp] theorem Hart.setQueue_queues (h : Hart) (q : Nat) (l : List W64) : (h.setQueue q l).queues = h.queues.put q l := rfl
@[simp] theorem Hart.setQueue_groups (h : Hart) (q : Nat) (l : List W64) : (h.setQueue q l).groups = h.groups := rfl
@[simp] theorem Hart.setQueue_ln (h : Hart) (q : Nat) (l : List W64) : (h.setQueue q l).ln = h.ln := rfl
@[simp] theorem Hart.setQueue_chains (h : Hart) (q : Nat) (l : List W64) : (h.setQueue q l).chains = h.chains := rfl
@[simp] theorem Hart.setQueue_tokens (h : Hart) (q : Nat) (l : List W64) : (h.setQueue q l).tokens = h.tokens := rfl
@[simp] theorem Hart.setQueue_csr (h : Hart) (q : Nat) (l : List W64) : (h.setQueue q l).csr = h.csr := rfl
@[simp] theorem Hart.setQueue_sys (h : Hart) (q : Nat) (l : List W64) : (h.setQueue q l).sys = h.sys := rfl
@[simp] theorem Hart.setQueue_recs (h : Hart) (q : Nat) (l : List W64) : (h.setQueue q l).recs = h.recs := rfl
@[simp] theorem Hart.setQueue_serving (h : Hart) (q : Nat) (l : List W64) : (h.setQueue q l).serving = h.serving := rfl
@[simp] theorem Hart.setQueue_ctx (h : Hart) (q : Nat) (l : List W64) : (h.setQueue q l).ctx = h.ctx := rfl
@[simp] theorem Hart.setQueue_launch (h : Hart) (q : Nat) (l : List W64) : (h.setQueue q l).launch = h.launch := rfl
@[simp] theorem Hart.setQueue_mid (h : Hart) (q : Nat) (l : List W64) : (h.setQueue q l).mid = h.mid := rfl
@[simp] theorem Hart.setQueue_cls (h : Hart) (q : Nat) (l : List W64) : (h.setQueue q l).cls = h.cls := rfl
@[simp] theorem Hart.setQueue_nplanes (h : Hart) (q : Nat) (l : List W64) : (h.setQueue q l).nplanes = h.nplanes := rfl
@[simp] theorem Hart.setQueue_vcap (h : Hart) (q : Nat) (l : List W64) : (h.setQueue q l).vcap = h.vcap := rfl
@[simp] theorem Hart.setQueue_cap (h : Hart) (q : Nat) (l : List W64) : (h.setQueue q l).cap = h.cap := rfl
@[simp] theorem Hart.setQueue_inUser (h : Hart) (q : Nat) (l : List W64) : (h.setQueue q l).inUser = h.inUser := rfl
@[simp] theorem Hart.setQueue_att (h : Hart) (q : Nat) (l : List W64) : (h.setQueue q l).att = h.att := rfl
@[simp] theorem Hart.setQueue_frozen (h : Hart) (q : Nat) (l : List W64) : (h.setQueue q l).frozen = h.frozen := rfl
@[simp] theorem Hart.setQueue_stream (h : Hart) (q : Nat) (l : List W64) : (h.setQueue q l).stream = h.stream := rfl
@[simp] theorem Hart.setQueue_sending (h : Hart) (q : Nat) (l : List W64) : (h.setQueue q l).sending = h.sending := rfl
@[simp] theorem Hart.setQueue_posted (h : Hart) (q : Nat) (l : List W64) : (h.setQueue q l).posted = h.posted := rfl
@[simp] theorem Hart.setQueue_owedX (h : Hart) (q : Nat) (l : List W64) : (h.setQueue q l).owedX = h.owedX := rfl
@[simp] theorem Hart.setQueue_barls (h : Hart) (q : Nat) (l : List W64) : (h.setQueue q l).barls = h.barls := rfl
@[simp] theorem Hart.setQueue_phases (h : Hart) (q : Nat) (l : List W64) : (h.setQueue q l).phases = h.phases := rfl
@[simp] theorem Hart.setQueue_farmed (h : Hart) (q : Nat) (l : List W64) : (h.setQueue q l).farmed = h.farmed := rfl
@[simp] theorem Hart.setQueue_strips (h : Hart) (q : Nat) (l : List W64) : (h.setQueue q l).strips = h.strips := rfl
@[simp] theorem Hart.setQueue_wait (h : Hart) (q : Nat) (l : List W64) : (h.setQueue q l).wait = h.wait := rfl
@[simp] theorem Hart.setQueue_await (h : Hart) (q : Nat) (l : List W64) : (h.setQueue q l).await = h.await := rfl
@[simp] theorem Hart.setQueue_remote (h : Hart) (q : Nat) (l : List W64) : (h.setQueue q l).remote = h.remote := rfl
@[simp] theorem Hart.setQueue_yielded (h : Hart) (q : Nat) (l : List W64) : (h.setQueue q l).yielded = h.yielded := rfl
@[simp] theorem Hart.setQueue_seen (h : Hart) (q : Nat) (l : List W64) : (h.setQueue q l).seen = h.seen := rfl
@[simp] theorem Hart.setQueue_dlRaised (h : Hart) (q : Nat) (l : List W64) : (h.setQueue q l).dlRaised = h.dlRaised := rfl
@[simp] theorem Hart.setQueue_held (h : Hart) (q : Nat) (l : List W64) : (h.setQueue q l).held = h.held := rfl
@[simp] theorem Hart.setQueue_fetched (h : Hart) (q : Nat) (l : List W64) : (h.setQueue q l).fetched = h.fetched := rfl
@[simp] theorem Hart.setQueue_under (h : Hart) (q : Nat) (l : List W64) : (h.setQueue q l).under = h.under := rfl
@[simp] theorem Hart.setQueue_part (h : Hart) (q : Nat) (l : List W64) : (h.setQueue q l).part = h.part := rfl
@[simp] theorem Hart.setQueue_ahead (h : Hart) (q : Nat) (l : List W64) : (h.setQueue q l).ahead = h.ahead := rfl

@[simp] theorem Hart.setToken_system (h : Hart) (k : Nat) (t : Token) : (h.setToken k t).system = h.system := rfl
@[simp] theorem Hart.setToken_stat (h : Hart) (k : Nat) (t : Token) : (h.setToken k t).stat = h.stat := rfl
@[simp] theorem Hart.setToken_pc (h : Hart) (k : Nat) (t : Token) : (h.setToken k t).pc = h.pc := rfl
@[simp] theorem Hart.setToken_dual (h : Hart) (k : Nat) (t : Token) : (h.setToken k t).dual = h.dual := rfl
@[simp] theorem Hart.setToken_regs (h : Hart) (k : Nat) (t : Token) : (h.setToken k t).regs = h.regs := rfl
@[simp] theorem Hart.setToken_v (h : Hart) (k : Nat) (t : Token) : (h.setToken k t).v = h.v := rfl
@[simp] theorem Hart.setToken_tags (h : Hart) (k : Nat) (t : Token) : (h.setToken k t).tags = h.tags := rfl
@[simp] theorem Hart.setToken_planes (h : Hart) (k : Nat) (t : Token) : (h.setToken k t).planes = h.planes := rfl
@[simp] theorem Hart.setToken_masks (h : Hart) (k : Nat) (t : Token) : (h.setToken k t).masks = h.masks := rfl
@[simp] theorem Hart.setToken_queues (h : Hart) (k : Nat) (t : Token) : (h.setToken k t).queues = h.queues := rfl
@[simp] theorem Hart.setToken_groups (h : Hart) (k : Nat) (t : Token) : (h.setToken k t).groups = h.groups := rfl
@[simp] theorem Hart.setToken_ln (h : Hart) (k : Nat) (t : Token) : (h.setToken k t).ln = h.ln := rfl
@[simp] theorem Hart.setToken_chains (h : Hart) (k : Nat) (t : Token) : (h.setToken k t).chains = h.chains := rfl
@[simp] theorem Hart.setToken_tokens (h : Hart) (k : Nat) (t : Token) : (h.setToken k t).tokens = h.tokens.put k t := rfl
@[simp] theorem Hart.setToken_csr (h : Hart) (k : Nat) (t : Token) : (h.setToken k t).csr = h.csr := rfl
@[simp] theorem Hart.setToken_sys (h : Hart) (k : Nat) (t : Token) : (h.setToken k t).sys = h.sys := rfl
@[simp] theorem Hart.setToken_recs (h : Hart) (k : Nat) (t : Token) : (h.setToken k t).recs = h.recs := rfl
@[simp] theorem Hart.setToken_serving (h : Hart) (k : Nat) (t : Token) : (h.setToken k t).serving = h.serving := rfl
@[simp] theorem Hart.setToken_ctx (h : Hart) (k : Nat) (t : Token) : (h.setToken k t).ctx = h.ctx := rfl
@[simp] theorem Hart.setToken_launch (h : Hart) (k : Nat) (t : Token) : (h.setToken k t).launch = h.launch := rfl
@[simp] theorem Hart.setToken_mid (h : Hart) (k : Nat) (t : Token) : (h.setToken k t).mid = h.mid := rfl
@[simp] theorem Hart.setToken_cls (h : Hart) (k : Nat) (t : Token) : (h.setToken k t).cls = h.cls := rfl
@[simp] theorem Hart.setToken_nplanes (h : Hart) (k : Nat) (t : Token) : (h.setToken k t).nplanes = h.nplanes := rfl
@[simp] theorem Hart.setToken_vcap (h : Hart) (k : Nat) (t : Token) : (h.setToken k t).vcap = h.vcap := rfl
@[simp] theorem Hart.setToken_cap (h : Hart) (k : Nat) (t : Token) : (h.setToken k t).cap = h.cap := rfl
@[simp] theorem Hart.setToken_inUser (h : Hart) (k : Nat) (t : Token) : (h.setToken k t).inUser = h.inUser := rfl
@[simp] theorem Hart.setToken_att (h : Hart) (k : Nat) (t : Token) : (h.setToken k t).att = h.att := rfl
@[simp] theorem Hart.setToken_frozen (h : Hart) (k : Nat) (t : Token) : (h.setToken k t).frozen = h.frozen := rfl
@[simp] theorem Hart.setToken_stream (h : Hart) (k : Nat) (t : Token) : (h.setToken k t).stream = h.stream := rfl
@[simp] theorem Hart.setToken_sending (h : Hart) (k : Nat) (t : Token) : (h.setToken k t).sending = h.sending := rfl
@[simp] theorem Hart.setToken_posted (h : Hart) (k : Nat) (t : Token) : (h.setToken k t).posted = h.posted := rfl
@[simp] theorem Hart.setToken_owedX (h : Hart) (k : Nat) (t : Token) : (h.setToken k t).owedX = h.owedX := rfl
@[simp] theorem Hart.setToken_barls (h : Hart) (k : Nat) (t : Token) : (h.setToken k t).barls = h.barls := rfl
@[simp] theorem Hart.setToken_phases (h : Hart) (k : Nat) (t : Token) : (h.setToken k t).phases = h.phases := rfl
@[simp] theorem Hart.setToken_farmed (h : Hart) (k : Nat) (t : Token) : (h.setToken k t).farmed = h.farmed := rfl
@[simp] theorem Hart.setToken_strips (h : Hart) (k : Nat) (t : Token) : (h.setToken k t).strips = h.strips := rfl
@[simp] theorem Hart.setToken_wait (h : Hart) (k : Nat) (t : Token) : (h.setToken k t).wait = h.wait := rfl
@[simp] theorem Hart.setToken_await (h : Hart) (k : Nat) (t : Token) : (h.setToken k t).await = h.await := rfl
@[simp] theorem Hart.setToken_remote (h : Hart) (k : Nat) (t : Token) : (h.setToken k t).remote = h.remote := rfl
@[simp] theorem Hart.setToken_yielded (h : Hart) (k : Nat) (t : Token) : (h.setToken k t).yielded = h.yielded := rfl
@[simp] theorem Hart.setToken_seen (h : Hart) (k : Nat) (t : Token) : (h.setToken k t).seen = h.seen := rfl
@[simp] theorem Hart.setToken_dlRaised (h : Hart) (k : Nat) (t : Token) : (h.setToken k t).dlRaised = h.dlRaised := rfl
@[simp] theorem Hart.setToken_held (h : Hart) (k : Nat) (t : Token) : (h.setToken k t).held = h.held := rfl
@[simp] theorem Hart.setToken_fetched (h : Hart) (k : Nat) (t : Token) : (h.setToken k t).fetched = h.fetched := rfl
@[simp] theorem Hart.setToken_under (h : Hart) (k : Nat) (t : Token) : (h.setToken k t).under = h.under := rfl
@[simp] theorem Hart.setToken_part (h : Hart) (k : Nat) (t : Token) : (h.setToken k t).part = h.part := rfl
@[simp] theorem Hart.setToken_ahead (h : Hart) (k : Nat) (t : Token) : (h.setToken k t).ahead = h.ahead := rfl

@[simp] theorem Hart.done_system (h : Hart) (n : Nat) : (h.done n).system = h.system := rfl
@[simp] theorem Hart.done_stat (h : Hart) (n : Nat) : (h.done n).stat = h.stat := rfl
@[simp] theorem Hart.done_pc (h : Hart) (n : Nat) : (h.done n).pc = h.pc + BitVec.ofNat 64 n := rfl
@[simp] theorem Hart.done_dual (h : Hart) (n : Nat) : (h.done n).dual = none := rfl
@[simp] theorem Hart.done_regs (h : Hart) (n : Nat) : (h.done n).regs = h.regs := rfl
@[simp] theorem Hart.done_v (h : Hart) (n : Nat) : (h.done n).v = h.v := rfl
@[simp] theorem Hart.done_tags (h : Hart) (n : Nat) : (h.done n).tags = h.tags := rfl
@[simp] theorem Hart.done_planes (h : Hart) (n : Nat) : (h.done n).planes = h.planes := rfl
@[simp] theorem Hart.done_masks (h : Hart) (n : Nat) : (h.done n).masks = h.masks := rfl
@[simp] theorem Hart.done_queues (h : Hart) (n : Nat) : (h.done n).queues = h.queues := rfl
@[simp] theorem Hart.done_groups (h : Hart) (n : Nat) : (h.done n).groups = h.groups := rfl
@[simp] theorem Hart.done_ln (h : Hart) (n : Nat) : (h.done n).ln = h.ln := rfl
@[simp] theorem Hart.done_chains (h : Hart) (n : Nat) : (h.done n).chains = h.chains := rfl
@[simp] theorem Hart.done_tokens (h : Hart) (n : Nat) : (h.done n).tokens = h.tokens := rfl
@[simp] theorem Hart.done_csr (h : Hart) (n : Nat) : (h.done n).csr = h.csr := rfl
@[simp] theorem Hart.done_sys (h : Hart) (n : Nat) : (h.done n).sys = h.sys := rfl
@[simp] theorem Hart.done_recs (h : Hart) (n : Nat) : (h.done n).recs = h.recs := rfl
@[simp] theorem Hart.done_serving (h : Hart) (n : Nat) : (h.done n).serving = h.serving := rfl
@[simp] theorem Hart.done_ctx (h : Hart) (n : Nat) : (h.done n).ctx = h.ctx := rfl
@[simp] theorem Hart.done_launch (h : Hart) (n : Nat) : (h.done n).launch = h.launch := rfl
@[simp] theorem Hart.done_mid (h : Hart) (n : Nat) : (h.done n).mid = h.mid := rfl
@[simp] theorem Hart.done_cls (h : Hart) (n : Nat) : (h.done n).cls = h.cls := rfl
@[simp] theorem Hart.done_nplanes (h : Hart) (n : Nat) : (h.done n).nplanes = h.nplanes := rfl
@[simp] theorem Hart.done_vcap (h : Hart) (n : Nat) : (h.done n).vcap = h.vcap := rfl
@[simp] theorem Hart.done_cap (h : Hart) (n : Nat) : (h.done n).cap = h.cap := rfl
@[simp] theorem Hart.done_inUser (h : Hart) (n : Nat) : (h.done n).inUser = h.inUser := rfl
@[simp] theorem Hart.done_att (h : Hart) (n : Nat) : (h.done n).att = h.att := rfl
@[simp] theorem Hart.done_frozen (h : Hart) (n : Nat) : (h.done n).frozen = h.frozen := rfl
@[simp] theorem Hart.done_stream (h : Hart) (n : Nat) : (h.done n).stream = h.stream := rfl
@[simp] theorem Hart.done_sending (h : Hart) (n : Nat) : (h.done n).sending = h.sending := rfl
@[simp] theorem Hart.done_posted (h : Hart) (n : Nat) : (h.done n).posted = h.posted := rfl
@[simp] theorem Hart.done_owedX (h : Hart) (n : Nat) : (h.done n).owedX = h.owedX := rfl
@[simp] theorem Hart.done_barls (h : Hart) (n : Nat) : (h.done n).barls = h.barls := rfl
@[simp] theorem Hart.done_phases (h : Hart) (n : Nat) : (h.done n).phases = h.phases := rfl
@[simp] theorem Hart.done_farmed (h : Hart) (n : Nat) : (h.done n).farmed = h.farmed := rfl
@[simp] theorem Hart.done_strips (h : Hart) (n : Nat) : (h.done n).strips = h.strips := rfl
@[simp] theorem Hart.done_wait (h : Hart) (n : Nat) : (h.done n).wait = none := rfl
@[simp] theorem Hart.done_await (h : Hart) (n : Nat) : (h.done n).await = none := rfl
@[simp] theorem Hart.done_remote (h : Hart) (n : Nat) : (h.done n).remote = [] := rfl
@[simp] theorem Hart.done_yielded (h : Hart) (n : Nat) : (h.done n).yielded = h.yielded := rfl
@[simp] theorem Hart.done_seen (h : Hart) (n : Nat) : (h.done n).seen = h.seen := rfl
@[simp] theorem Hart.done_dlRaised (h : Hart) (n : Nat) : (h.done n).dlRaised = h.dlRaised := rfl
@[simp] theorem Hart.done_held (h : Hart) (n : Nat) : (h.done n).held = h.held := rfl
@[simp] theorem Hart.done_fetched (h : Hart) (n : Nat) : (h.done n).fetched = h.fetched := rfl
@[simp] theorem Hart.done_under (h : Hart) (n : Nat) : (h.done n).under = [] := rfl
@[simp] theorem Hart.done_part (h : Hart) (n : Nat) : (h.done n).part = none := rfl
@[simp] theorem Hart.done_ahead (h : Hart) (n : Nat) : (h.done n).ahead = h.ahead := rfl

@[simp] theorem Hart.withSide_system (h : Hart) (d : Side) : (h.withSide d).system = h.system := rfl
@[simp] theorem Hart.withSide_stat (h : Hart) (d : Side) : (h.withSide d).stat = h.stat := rfl
@[simp] theorem Hart.withSide_pc (h : Hart) (d : Side) : (h.withSide d).pc = d.pc := rfl
@[simp] theorem Hart.withSide_dual (h : Hart) (d : Side) : (h.withSide d).dual = d.dual := rfl
@[simp] theorem Hart.withSide_regs (h : Hart) (d : Side) : (h.withSide d).regs = h.regs := rfl
@[simp] theorem Hart.withSide_v (h : Hart) (d : Side) : (h.withSide d).v = h.v := rfl
@[simp] theorem Hart.withSide_tags (h : Hart) (d : Side) : (h.withSide d).tags = h.tags := rfl
@[simp] theorem Hart.withSide_planes (h : Hart) (d : Side) : (h.withSide d).planes = h.planes := rfl
@[simp] theorem Hart.withSide_masks (h : Hart) (d : Side) : (h.withSide d).masks = h.masks := rfl
@[simp] theorem Hart.withSide_queues (h : Hart) (d : Side) : (h.withSide d).queues = h.queues := rfl
@[simp] theorem Hart.withSide_groups (h : Hart) (d : Side) : (h.withSide d).groups = h.groups := rfl
@[simp] theorem Hart.withSide_ln (h : Hart) (d : Side) : (h.withSide d).ln = h.ln := rfl
@[simp] theorem Hart.withSide_chains (h : Hart) (d : Side) : (h.withSide d).chains = h.chains := rfl
@[simp] theorem Hart.withSide_tokens (h : Hart) (d : Side) : (h.withSide d).tokens = h.tokens := rfl
@[simp] theorem Hart.withSide_csr (h : Hart) (d : Side) : (h.withSide d).csr = h.csr := rfl
@[simp] theorem Hart.withSide_sys (h : Hart) (d : Side) : (h.withSide d).sys = h.sys := rfl
@[simp] theorem Hart.withSide_recs (h : Hart) (d : Side) : (h.withSide d).recs = h.recs := rfl
@[simp] theorem Hart.withSide_serving (h : Hart) (d : Side) : (h.withSide d).serving = h.serving := rfl
@[simp] theorem Hart.withSide_ctx (h : Hart) (d : Side) : (h.withSide d).ctx = h.ctx := rfl
@[simp] theorem Hart.withSide_launch (h : Hart) (d : Side) : (h.withSide d).launch = h.launch := rfl
@[simp] theorem Hart.withSide_mid (h : Hart) (d : Side) : (h.withSide d).mid = h.mid := rfl
@[simp] theorem Hart.withSide_cls (h : Hart) (d : Side) : (h.withSide d).cls = h.cls := rfl
@[simp] theorem Hart.withSide_nplanes (h : Hart) (d : Side) : (h.withSide d).nplanes = h.nplanes := rfl
@[simp] theorem Hart.withSide_vcap (h : Hart) (d : Side) : (h.withSide d).vcap = h.vcap := rfl
@[simp] theorem Hart.withSide_cap (h : Hart) (d : Side) : (h.withSide d).cap = h.cap := rfl
@[simp] theorem Hart.withSide_inUser (h : Hart) (d : Side) : (h.withSide d).inUser = h.inUser := rfl
@[simp] theorem Hart.withSide_att (h : Hart) (d : Side) : (h.withSide d).att = h.att := rfl
@[simp] theorem Hart.withSide_frozen (h : Hart) (d : Side) : (h.withSide d).frozen = h.frozen := rfl
@[simp] theorem Hart.withSide_stream (h : Hart) (d : Side) : (h.withSide d).stream = h.stream := rfl
@[simp] theorem Hart.withSide_sending (h : Hart) (d : Side) : (h.withSide d).sending = h.sending := rfl
@[simp] theorem Hart.withSide_posted (h : Hart) (d : Side) : (h.withSide d).posted = h.posted := rfl
@[simp] theorem Hart.withSide_owedX (h : Hart) (d : Side) : (h.withSide d).owedX = h.owedX := rfl
@[simp] theorem Hart.withSide_barls (h : Hart) (d : Side) : (h.withSide d).barls = h.barls := rfl
@[simp] theorem Hart.withSide_phases (h : Hart) (d : Side) : (h.withSide d).phases = h.phases := rfl
@[simp] theorem Hart.withSide_farmed (h : Hart) (d : Side) : (h.withSide d).farmed = h.farmed := rfl
@[simp] theorem Hart.withSide_strips (h : Hart) (d : Side) : (h.withSide d).strips = h.strips := rfl
@[simp] theorem Hart.withSide_wait (h : Hart) (d : Side) : (h.withSide d).wait = d.wait := rfl
@[simp] theorem Hart.withSide_await (h : Hart) (d : Side) : (h.withSide d).await = d.await := rfl
@[simp] theorem Hart.withSide_remote (h : Hart) (d : Side) : (h.withSide d).remote = d.remote := rfl
@[simp] theorem Hart.withSide_yielded (h : Hart) (d : Side) : (h.withSide d).yielded = h.yielded := rfl
@[simp] theorem Hart.withSide_seen (h : Hart) (d : Side) : (h.withSide d).seen = h.seen := rfl
@[simp] theorem Hart.withSide_dlRaised (h : Hart) (d : Side) : (h.withSide d).dlRaised = h.dlRaised := rfl
@[simp] theorem Hart.withSide_held (h : Hart) (d : Side) : (h.withSide d).held = h.held := rfl
@[simp] theorem Hart.withSide_fetched (h : Hart) (d : Side) : (h.withSide d).fetched = h.fetched := rfl
@[simp] theorem Hart.withSide_under (h : Hart) (d : Side) : (h.withSide d).under = d.under := rfl
@[simp] theorem Hart.withSide_part (h : Hart) (d : Side) : (h.withSide d).part = d.part := rfl
@[simp] theorem Hart.withSide_ahead (h : Hart) (d : Side) : (h.withSide d).ahead = h.ahead := rfl
@[simp] theorem Hart.side_withSide (h : Hart) (d : Side) : (h.withSide d).side = d := rfl

@[simp] theorem Hart.orFlags_system (h : Hart) (f : Flags) : (h.orFlags f).system = h.system := rfl
@[simp] theorem Hart.orFlags_stat (h : Hart) (f : Flags) : (h.orFlags f).stat = h.stat := rfl
@[simp] theorem Hart.orFlags_pc (h : Hart) (f : Flags) : (h.orFlags f).pc = h.pc := rfl
@[simp] theorem Hart.orFlags_dual (h : Hart) (f : Flags) : (h.orFlags f).dual = h.dual := rfl
@[simp] theorem Hart.orFlags_regs (h : Hart) (f : Flags) : (h.orFlags f).regs = h.regs := rfl
@[simp] theorem Hart.orFlags_v (h : Hart) (f : Flags) : (h.orFlags f).v = h.v := rfl
@[simp] theorem Hart.orFlags_tags (h : Hart) (f : Flags) : (h.orFlags f).tags = h.tags := rfl
@[simp] theorem Hart.orFlags_planes (h : Hart) (f : Flags) : (h.orFlags f).planes = h.planes := rfl
@[simp] theorem Hart.orFlags_masks (h : Hart) (f : Flags) : (h.orFlags f).masks = h.masks := rfl
@[simp] theorem Hart.orFlags_queues (h : Hart) (f : Flags) : (h.orFlags f).queues = h.queues := rfl
@[simp] theorem Hart.orFlags_groups (h : Hart) (f : Flags) : (h.orFlags f).groups = h.groups := rfl
@[simp] theorem Hart.orFlags_ln (h : Hart) (f : Flags) : (h.orFlags f).ln = h.ln := rfl
@[simp] theorem Hart.orFlags_chains (h : Hart) (f : Flags) : (h.orFlags f).chains = h.chains := rfl
@[simp] theorem Hart.orFlags_tokens (h : Hart) (f : Flags) : (h.orFlags f).tokens = h.tokens := rfl
@[simp] theorem Hart.orFlags_sys (h : Hart) (f : Flags) : (h.orFlags f).sys = h.sys := rfl
@[simp] theorem Hart.orFlags_recs (h : Hart) (f : Flags) : (h.orFlags f).recs = h.recs := rfl
@[simp] theorem Hart.orFlags_serving (h : Hart) (f : Flags) : (h.orFlags f).serving = h.serving := rfl
@[simp] theorem Hart.orFlags_ctx (h : Hart) (f : Flags) : (h.orFlags f).ctx = h.ctx := rfl
@[simp] theorem Hart.orFlags_launch (h : Hart) (f : Flags) : (h.orFlags f).launch = h.launch := rfl
@[simp] theorem Hart.orFlags_mid (h : Hart) (f : Flags) : (h.orFlags f).mid = h.mid := rfl
@[simp] theorem Hart.orFlags_cls (h : Hart) (f : Flags) : (h.orFlags f).cls = h.cls := rfl
@[simp] theorem Hart.orFlags_nplanes (h : Hart) (f : Flags) : (h.orFlags f).nplanes = h.nplanes := rfl
@[simp] theorem Hart.orFlags_vcap (h : Hart) (f : Flags) : (h.orFlags f).vcap = h.vcap := rfl
@[simp] theorem Hart.orFlags_cap (h : Hart) (f : Flags) : (h.orFlags f).cap = h.cap := rfl
@[simp] theorem Hart.orFlags_inUser (h : Hart) (f : Flags) : (h.orFlags f).inUser = h.inUser := rfl
@[simp] theorem Hart.orFlags_att (h : Hart) (f : Flags) : (h.orFlags f).att = h.att := rfl
@[simp] theorem Hart.orFlags_frozen (h : Hart) (f : Flags) : (h.orFlags f).frozen = h.frozen := rfl
@[simp] theorem Hart.orFlags_stream (h : Hart) (f : Flags) : (h.orFlags f).stream = h.stream := rfl
@[simp] theorem Hart.orFlags_sending (h : Hart) (f : Flags) : (h.orFlags f).sending = h.sending := rfl
@[simp] theorem Hart.orFlags_posted (h : Hart) (f : Flags) : (h.orFlags f).posted = h.posted := rfl
@[simp] theorem Hart.orFlags_owedX (h : Hart) (f : Flags) : (h.orFlags f).owedX = h.owedX := rfl
@[simp] theorem Hart.orFlags_barls (h : Hart) (f : Flags) : (h.orFlags f).barls = h.barls := rfl
@[simp] theorem Hart.orFlags_phases (h : Hart) (f : Flags) : (h.orFlags f).phases = h.phases := rfl
@[simp] theorem Hart.orFlags_farmed (h : Hart) (f : Flags) : (h.orFlags f).farmed = h.farmed := rfl
@[simp] theorem Hart.orFlags_strips (h : Hart) (f : Flags) : (h.orFlags f).strips = h.strips := rfl
@[simp] theorem Hart.orFlags_wait (h : Hart) (f : Flags) : (h.orFlags f).wait = h.wait := rfl
@[simp] theorem Hart.orFlags_await (h : Hart) (f : Flags) : (h.orFlags f).await = h.await := rfl
@[simp] theorem Hart.orFlags_remote (h : Hart) (f : Flags) : (h.orFlags f).remote = h.remote := rfl
@[simp] theorem Hart.orFlags_yielded (h : Hart) (f : Flags) : (h.orFlags f).yielded = h.yielded := rfl
@[simp] theorem Hart.orFlags_seen (h : Hart) (f : Flags) : (h.orFlags f).seen = h.seen := rfl
@[simp] theorem Hart.orFlags_dlRaised (h : Hart) (f : Flags) : (h.orFlags f).dlRaised = h.dlRaised := rfl
@[simp] theorem Hart.orFlags_held (h : Hart) (f : Flags) : (h.orFlags f).held = h.held := rfl
@[simp] theorem Hart.orFlags_fetched (h : Hart) (f : Flags) : (h.orFlags f).fetched = h.fetched := rfl
@[simp] theorem Hart.orFlags_under (h : Hart) (f : Flags) : (h.orFlags f).under = h.under := rfl
@[simp] theorem Hart.orFlags_part (h : Hart) (f : Flags) : (h.orFlags f).part = h.part := rfl
@[simp] theorem Hart.orFlags_ahead (h : Hart) (f : Flags) : (h.orFlags f).ahead = h.ahead := rfl
@[simp] theorem Hart.orFlags_fflags (h : Hart) (f : Flags) : (h.orFlags f).csr.fflags = h.csr.fflags ||| f := rfl

@[simp] theorem Hart.setReg_system (h : Hart) (r : BitVec 5) (v : W64) : (h.setReg r v).system = h.system := by
  unfold Hart.setReg; split <;> rfl
@[simp] theorem Hart.setReg_stat (h : Hart) (r : BitVec 5) (v : W64) : (h.setReg r v).stat = h.stat := by
  unfold Hart.setReg; split <;> rfl
@[simp] theorem Hart.setReg_pc (h : Hart) (r : BitVec 5) (v : W64) : (h.setReg r v).pc = h.pc := by
  unfold Hart.setReg; split <;> rfl
@[simp] theorem Hart.setReg_dual (h : Hart) (r : BitVec 5) (v : W64) : (h.setReg r v).dual = h.dual := by
  unfold Hart.setReg; split <;> rfl
@[simp] theorem Hart.setReg_v (h : Hart) (r : BitVec 5) (v : W64) : (h.setReg r v).v = h.v := by
  unfold Hart.setReg; split <;> rfl
@[simp] theorem Hart.setReg_tags (h : Hart) (r : BitVec 5) (v : W64) : (h.setReg r v).tags = h.tags := by
  unfold Hart.setReg; split <;> rfl
@[simp] theorem Hart.setReg_planes (h : Hart) (r : BitVec 5) (v : W64) : (h.setReg r v).planes = h.planes := by
  unfold Hart.setReg; split <;> rfl
@[simp] theorem Hart.setReg_masks (h : Hart) (r : BitVec 5) (v : W64) : (h.setReg r v).masks = h.masks := by
  unfold Hart.setReg; split <;> rfl
@[simp] theorem Hart.setReg_queues (h : Hart) (r : BitVec 5) (v : W64) : (h.setReg r v).queues = h.queues := by
  unfold Hart.setReg; split <;> rfl
@[simp] theorem Hart.setReg_groups (h : Hart) (r : BitVec 5) (v : W64) : (h.setReg r v).groups = h.groups := by
  unfold Hart.setReg; split <;> rfl
@[simp] theorem Hart.setReg_ln (h : Hart) (r : BitVec 5) (v : W64) : (h.setReg r v).ln = h.ln := by
  unfold Hart.setReg; split <;> rfl
@[simp] theorem Hart.setReg_chains (h : Hart) (r : BitVec 5) (v : W64) : (h.setReg r v).chains = h.chains := by
  unfold Hart.setReg; split <;> rfl
@[simp] theorem Hart.setReg_tokens (h : Hart) (r : BitVec 5) (v : W64) : (h.setReg r v).tokens = h.tokens := by
  unfold Hart.setReg; split <;> rfl
@[simp] theorem Hart.setReg_csr (h : Hart) (r : BitVec 5) (v : W64) : (h.setReg r v).csr = h.csr := by
  unfold Hart.setReg; split <;> rfl
@[simp] theorem Hart.setReg_sys (h : Hart) (r : BitVec 5) (v : W64) : (h.setReg r v).sys = h.sys := by
  unfold Hart.setReg; split <;> rfl
@[simp] theorem Hart.setReg_recs (h : Hart) (r : BitVec 5) (v : W64) : (h.setReg r v).recs = h.recs := by
  unfold Hart.setReg; split <;> rfl
@[simp] theorem Hart.setReg_serving (h : Hart) (r : BitVec 5) (v : W64) : (h.setReg r v).serving = h.serving := by
  unfold Hart.setReg; split <;> rfl
@[simp] theorem Hart.setReg_ctx (h : Hart) (r : BitVec 5) (v : W64) : (h.setReg r v).ctx = h.ctx := by
  unfold Hart.setReg; split <;> rfl
@[simp] theorem Hart.setReg_launch (h : Hart) (r : BitVec 5) (v : W64) : (h.setReg r v).launch = h.launch := by
  unfold Hart.setReg; split <;> rfl
@[simp] theorem Hart.setReg_mid (h : Hart) (r : BitVec 5) (v : W64) : (h.setReg r v).mid = h.mid := by
  unfold Hart.setReg; split <;> rfl
@[simp] theorem Hart.setReg_cls (h : Hart) (r : BitVec 5) (v : W64) : (h.setReg r v).cls = h.cls := by
  unfold Hart.setReg; split <;> rfl
@[simp] theorem Hart.setReg_nplanes (h : Hart) (r : BitVec 5) (v : W64) : (h.setReg r v).nplanes = h.nplanes := by
  unfold Hart.setReg; split <;> rfl
@[simp] theorem Hart.setReg_vcap (h : Hart) (r : BitVec 5) (v : W64) : (h.setReg r v).vcap = h.vcap := by
  unfold Hart.setReg; split <;> rfl
@[simp] theorem Hart.setReg_cap (h : Hart) (r : BitVec 5) (v : W64) : (h.setReg r v).cap = h.cap := by
  unfold Hart.setReg; split <;> rfl
@[simp] theorem Hart.setReg_inUser (h : Hart) (r : BitVec 5) (v : W64) : (h.setReg r v).inUser = h.inUser := by
  unfold Hart.setReg; split <;> rfl
@[simp] theorem Hart.setReg_att (h : Hart) (r : BitVec 5) (v : W64) : (h.setReg r v).att = h.att := by
  unfold Hart.setReg; split <;> rfl
@[simp] theorem Hart.setReg_frozen (h : Hart) (r : BitVec 5) (v : W64) : (h.setReg r v).frozen = h.frozen := by
  unfold Hart.setReg; split <;> rfl
@[simp] theorem Hart.setReg_stream (h : Hart) (r : BitVec 5) (v : W64) : (h.setReg r v).stream = h.stream := by
  unfold Hart.setReg; split <;> rfl
@[simp] theorem Hart.setReg_sending (h : Hart) (r : BitVec 5) (v : W64) : (h.setReg r v).sending = h.sending := by
  unfold Hart.setReg; split <;> rfl
@[simp] theorem Hart.setReg_posted (h : Hart) (r : BitVec 5) (v : W64) : (h.setReg r v).posted = h.posted := by
  unfold Hart.setReg; split <;> rfl
@[simp] theorem Hart.setReg_owedX (h : Hart) (r : BitVec 5) (v : W64) : (h.setReg r v).owedX = h.owedX := by
  unfold Hart.setReg; split <;> rfl
@[simp] theorem Hart.setReg_barls (h : Hart) (r : BitVec 5) (v : W64) : (h.setReg r v).barls = h.barls := by
  unfold Hart.setReg; split <;> rfl
@[simp] theorem Hart.setReg_phases (h : Hart) (r : BitVec 5) (v : W64) : (h.setReg r v).phases = h.phases := by
  unfold Hart.setReg; split <;> rfl
@[simp] theorem Hart.setReg_farmed (h : Hart) (r : BitVec 5) (v : W64) : (h.setReg r v).farmed = h.farmed := by
  unfold Hart.setReg; split <;> rfl
@[simp] theorem Hart.setReg_strips (h : Hart) (r : BitVec 5) (v : W64) : (h.setReg r v).strips = h.strips := by
  unfold Hart.setReg; split <;> rfl
@[simp] theorem Hart.setReg_wait (h : Hart) (r : BitVec 5) (v : W64) : (h.setReg r v).wait = h.wait := by
  unfold Hart.setReg; split <;> rfl
@[simp] theorem Hart.setReg_await (h : Hart) (r : BitVec 5) (v : W64) : (h.setReg r v).await = h.await := by
  unfold Hart.setReg; split <;> rfl
@[simp] theorem Hart.setReg_remote (h : Hart) (r : BitVec 5) (v : W64) : (h.setReg r v).remote = h.remote := by
  unfold Hart.setReg; split <;> rfl
@[simp] theorem Hart.setReg_yielded (h : Hart) (r : BitVec 5) (v : W64) : (h.setReg r v).yielded = h.yielded := by
  unfold Hart.setReg; split <;> rfl
@[simp] theorem Hart.setReg_seen (h : Hart) (r : BitVec 5) (v : W64) : (h.setReg r v).seen = h.seen := by
  unfold Hart.setReg; split <;> rfl
@[simp] theorem Hart.setReg_dlRaised (h : Hart) (r : BitVec 5) (v : W64) : (h.setReg r v).dlRaised = h.dlRaised := by
  unfold Hart.setReg; split <;> rfl
@[simp] theorem Hart.setReg_held (h : Hart) (r : BitVec 5) (v : W64) : (h.setReg r v).held = h.held := by
  unfold Hart.setReg; split <;> rfl
@[simp] theorem Hart.setReg_fetched (h : Hart) (r : BitVec 5) (v : W64) : (h.setReg r v).fetched = h.fetched := by
  unfold Hart.setReg; split <;> rfl
@[simp] theorem Hart.setReg_under (h : Hart) (r : BitVec 5) (v : W64) : (h.setReg r v).under = h.under := by
  unfold Hart.setReg; split <;> rfl
@[simp] theorem Hart.setReg_part (h : Hart) (r : BitVec 5) (v : W64) : (h.setReg r v).part = h.part := by
  unfold Hart.setReg; split <;> rfl
@[simp] theorem Hart.setReg_ahead (h : Hart) (r : BitVec 5) (v : W64) : (h.setReg r v).ahead = h.ahead := by
  unfold Hart.setReg; split <;> rfl

/-! ## Registers (R111) -/

/-- s0 reads zero. -/
@[simp] theorem Hart.reg_zero (h : Hart) : h.reg 0 = 0 := rfl

/-- A write to s0 changes nothing. -/
@[simp] theorem Hart.setReg_zero (h : Hart) (v : W64) : h.setReg 0 v = h := rfl

theorem Hart.reg_setReg_same (h : Hart) (r : BitVec 5) (v : W64) (e : r ≠ 0) : (h.setReg r v).reg r = v := by
  simp only [Hart.setReg, Hart.reg, if_neg e]
  exact Cells.get_set_same h.regs r.toNat v

theorem Hart.reg_setReg_other (h : Hart) (r q : BitVec 5) (v : W64) (e : q ≠ r) : (h.setReg r v).reg q = h.reg q := by
  unfold Hart.setReg
  split
  · rfl
  · unfold Hart.reg
    split
    · rfl
    · exact Cells.get_set_other h.regs r.toNat q.toNat v (fun c => e (BitVec.eq_of_toNat_eq c))

@[simp] theorem Hart.reg_done (h : Hart) (n : Nat) (r : BitVec 5) : (h.done n).reg r = h.reg r := rfl
@[simp] theorem Hart.reg_orFlags (h : Hart) (f : Flags) (r : BitVec 5) : (h.orFlags f).reg r = h.reg r := rfl
@[simp] theorem Hart.token_done (h : Hart) (n k : Nat) : (h.done n).token k = h.token k := rfl
@[simp] theorem Hart.queue_done (h : Hart) (n q : Nat) : (h.done n).queue q = h.queue q := rfl

@[simp] theorem Hart.vget_vset (h : Hart) (r : Nat) (x : VReg) : (h.vset r x).vget r = x := Cells.get_set_same h.v r x

theorem Hart.vget_vset_other (h : Hart) (r q : Nat) (x : VReg) (e : q ≠ r) : (h.vset r x).vget q = h.vget q :=
  Cells.get_set_other h.v r q x e

@[simp] theorem Hart.mask_setMask (h : Hart) (m : Nat) (x : MReg) : (h.setMask m x).mask m = x :=
  Cells.get_set_same h.masks m x

@[simp] theorem Hart.queue_setQueue (h : Hart) (q : Nat) (l : List W64) : (h.setQueue q l).queue q = l :=
  Tab.getD_put_same h.queues q l []

@[simp] theorem Hart.token_setToken (h : Hart) (k : Nat) (t : Token) : (h.setToken k t).token k = t :=
  Tab.getD_put_same h.tokens k t {}

/-! ## Completing (R107) -/

@[simp] theorem Hart.pushed_nil (h : Hart) : h.pushed [] = h := rfl

@[simp] theorem State.me_retire (s : State) (n : Nat) : (s.retire n).me = s.me.done n := State.me_setMe s _
@[simp] theorem State.mem_retire (s : State) (n : Nat) : (s.retire n).mem = s.mem := rfl
@[simp] theorem State.me_jump (s : State) (a : W64) :
    (s.jump a).me = { s.me.refetched with pc := a, wait := none, dual := none, remote := [], under := [], part := none } :=
  State.me_setMe s _
@[simp] theorem State.mem_jump (s : State) (a : W64) : (s.jump a).mem = s.mem := rfl
@[simp] theorem State.me_wr (s : State) (n : Nat) (d : BitVec 5) (v : W64) :
    (s.wr n d v).me = (s.me.setReg d v).done n := State.me_setMe s _
@[simp] theorem State.mem_wr (s : State) (n : Nat) (d : BitVec 5) (v : W64) : (s.wr n d v).mem = s.mem := rfl
@[simp] theorem State.me_hold (s : State) (k : Nat) :
    (s.hold k).me = { s.me with wait := some { s.me.wait.getD ⟨k, 0, 0⟩ with kind := k } } := State.me_setMe s _
@[simp] theorem State.mem_hold (s : State) (k : Nat) : (s.hold k).mem = s.mem := rfl

end Sys2Proof.Machine
end

