-- ==== Sys2Proof/Laws/Ops.lean ====
section
/-! SUPPORT. What the shared operations do: waits on tokens, scalar results, privileged instructions, traps. -/

namespace Sys2Proof.Machine

/-! ## Tokens -/

theorem mem_span {lo n k : Nat} (h : k ∈ span lo n) : lo ≤ k ∧ k < lo + n := by
  induction n generalizing lo with
  | zero => cases h
  | succ n ih =>
    rcases List.mem_cons.mp h with e | e
    · omega
    · have := ih e; omega

theorem span_mem {lo n k : Nat} (h : lo ≤ k ∧ k < lo + n) : k ∈ span lo n := by
  induction n generalizing lo with
  | zero => omega
  | succ n ih =>
    by_cases e : k = lo
    · exact List.mem_cons.mpr (Or.inl e)
    · exact List.mem_cons.mpr (Or.inr (ih (by omega)))

/-- A wait that no token of the mask stops goes on in `waited`. -/
theorem gate_of_ready {s : State} {wtk : Nat} (h : s.ready wtk) : gate wtk s = .ok (s.waited wtk) := by
  have key : ∃ t, gate wtk s = .ok t := by
    unfold gate
    split
    · exact ⟨_, rfl⟩
    · dsimp only
      rw [if_neg]
      · split
        · rename_i k hk
          exfalso
          have hm := List.mem_of_find?_eq_some hk
          have hb := List.find?_some hk
          simp only [List.mem_filter] at hm
          have hr := h k (by have := mem_span hm.1; omega) hm.2
          simp [Token.bad, hr] at hb
        · split <;> exact ⟨_, rfl⟩
      · simp only [List.any_eq_true, List.mem_filter, not_exists]
        intro k hk
        have hr := h k (by have := mem_span hk.1.1; omega) hk.1.2
        simp [hr] at hk
  obtain ⟨t, e⟩ := key
  rw [e]; simp [State.waited, e]

theorem gate_zero (s : State) : gate 0 s = .ok s := rfl

theorem waited_zero (s : State) : s.waited 0 = s := rfl

theorem ready_zero (s : State) : s.ready 0 := by intro k _ h; simp at h

theorem gated_of_ready {s : State} {wtk : Nat} (h : s.ready wtk) (k : State → State) :
    gated wtk s k = .next (k (s.waited wtk)) := by simp [gated, gate_of_ready h]

theorem scalar_of_ready {s : State} {x : Option Ext} (h : s.ready (wtkOf x)) (k : State → State) :
    scalar x s k = .next (k (s.waited (wtkOf x))) := gated_of_ready h k

/-- What a wait on ready tokens can change: tokens and FFLAGS of the executing hart. -/
theorem waited_cases {s : State} {wtk : Nat} (h : s.ready wtk) :
    s.waited wtk = s ∨
      ∃ tk fl, s.waited wtk = s.setMe { s.me with tokens := tk, csr := { s.me.csr with fflags := fl } } := by
  have g := gate_of_ready h
  unfold gate at g
  split at g
  · left; simpa using g.symm
  · dsimp only at g
    split at g
    · cases g
    · split at g
      · cases g
      · split at g
        · left; simpa using g.symm
        · right
          have e := Except.ok.inj g
          rw [← e]
          have f : ∀ (l : List Nat) (h0 h : Hart), ∃ tk fl,
              l.foldl (fun h k => (h.orFlags (h.token k).flags).setToken k { h.token k with flags := 0 }) h =
                { h with tokens := tk, csr := { h.csr with fflags := fl } } := by
            intro l
            induction l with
            | nil => intro _ h; exact ⟨h.tokens, h.csr.fflags, rfl⟩
            | cons a r ih =>
              intro h0 h
              obtain ⟨tk, fl, e⟩ := ih h0 ((h.orFlags (h.token a).flags).setToken a { h.token a with flags := 0 })
              exact ⟨tk, fl, by rw [List.foldl_cons, e]; rfl⟩
          obtain ⟨tk, fl, e'⟩ := f _ s.me s.me
          exact ⟨tk, fl, by rw [e']⟩

theorem lform_ofOption (x : Option Ext) : lformLen (ofOption x) = lenOf x ∧ lformWtk (ofOption x) = wtkOf x := by
  cases x <;> exact ⟨rfl, rfl⟩

/-- A scalar instruction that runs `k` once its tokens are done. -/
theorem scalar_exec {i : Instr} {x : Option Ext} {s : State} (k : State → State) (hi : i.form = ofOption x)
    (he : exec i s = scalar x s k) (h : s.ready (instrWtk i)) : exec i s = .next (k (s.waited (instrWtk i))) := by
  have e : instrWtk i = wtkOf x := by rw [instrWtk, hi]; exact (lform_ofOption x).2
  rw [e] at h ⊢
  rw [he, scalar_of_ready h]

theorem instrLen_of {i : Instr} {x : Option Ext} (hi : i.form = ofOption x) : instrLen i = lenOf x := by
  rw [instrLen, hi]; exact (lform_ofOption x).1

/-! ## The state after a wait -/

@[simp] theorem waited_mem {s : State} {w : Nat} (h : s.ready w) : (s.waited w).mem = s.mem := by
  rcases waited_cases h with e | ⟨_, _, e⟩ <;> rw [e] <;> rfl

@[simp] theorem waited_fe {s : State} {w : Nat} (h : s.ready w) : (s.waited w).fe = s.fe := by
  rcases waited_cases h with e | ⟨_, _, e⟩ <;> rw [e] <;> rfl

@[simp] theorem waited_ecc {s : State} {w : Nat} (h : s.ready w) : (s.waited w).ecc = s.ecc := by
  rcases waited_cases h with e | ⟨_, _, e⟩ <;> rw [e] <;> rfl

@[simp] theorem waited_cores {s : State} {w : Nat} (h : s.ready w) : (s.waited w).cores = s.cores := by
  rcases waited_cases h with e | ⟨_, _, e⟩ <;> rw [e] <;> rfl

@[simp] theorem waited_mods {s : State} {w : Nat} (h : s.ready w) : (s.waited w).mods = s.mods := by
  rcases waited_cases h with e | ⟨_, _, e⟩ <;> rw [e] <;> rfl

@[simp] theorem waited_ctxs {s : State} {w : Nat} (h : s.ready w) : (s.waited w).ctxs = s.ctxs := by
  rcases waited_cases h with e | ⟨_, _, e⟩ <;> rw [e] <;> rfl

@[simp] theorem waited_launches {s : State} {w : Nat} (h : s.ready w) : (s.waited w).launches = s.launches := by
  rcases waited_cases h with e | ⟨_, _, e⟩ <;> rw [e] <;> rfl

@[simp] theorem waited_groups {s : State} {w : Nat} (h : s.ready w) : (s.waited w).groups = s.groups := by
  rcases waited_cases h with e | ⟨_, _, e⟩ <;> rw [e] <;> rfl

@[simp] theorem waited_colls {s : State} {w : Nat} (h : s.ready w) : (s.waited w).colls = s.colls := by
  rcases waited_cases h with e | ⟨_, _, e⟩ <;> rw [e] <;> rfl

@[simp] theorem waited_owed {s : State} {w : Nat} (h : s.ready w) : (s.waited w).owed = s.owed := by
  rcases waited_cases h with e | ⟨_, _, e⟩ <;> rw [e] <;> rfl

@[simp] theorem waited_regions {s : State} {w : Nat} (h : s.ready w) : (s.waited w).regions = s.regions := by
  rcases waited_cases h with e | ⟨_, _, e⟩ <;> rw [e] <;> rfl

@[simp] theorem waited_remote {s : State} {w : Nat} (h : s.ready w) : (s.waited w).remote = s.remote := by
  rcases waited_cases h with e | ⟨_, _, e⟩ <;> rw [e] <;> rfl

@[simp] theorem waited_images {s : State} {w : Nat} (h : s.ready w) : (s.waited w).images = s.images := by
  rcases waited_cases h with e | ⟨_, _, e⟩ <;> rw [e] <;> rfl

@[simp] theorem waited_cur {s : State} {w : Nat} (h : s.ready w) : (s.waited w).cur = s.cur := by
  rcases waited_cases h with e | ⟨_, _, e⟩ <;> rw [e] <;> rfl

@[simp] theorem waited_cv {s : State} {w : Nat} (h : s.ready w) : (s.waited w).cv = s.cv := by
  rcases waited_cases h with e | ⟨_, _, e⟩ <;> rw [e] <;> rfl

@[simp] theorem waited_agenda {s : State} {w : Nat} (h : s.ready w) : (s.waited w).agenda = s.agenda := by
  rcases waited_cases h with e | ⟨_, _, e⟩ <;> rw [e] <;> rfl

@[simp] theorem waited_seq {s : State} {w : Nat} (h : s.ready w) : (s.waited w).seq = s.seq := by
  rcases waited_cases h with e | ⟨_, _, e⟩ <;> rw [e] <;> rfl

@[simp] theorem waited_hostRead {s : State} {w : Nat} (h : s.ready w) : (s.waited w).hostRead = s.hostRead := by
  rcases waited_cases h with e | ⟨_, _, e⟩ <;> rw [e] <;> rfl

@[simp] theorem waited_me_system {s : State} {w : Nat} (h : s.ready w) : (s.waited w).me.system = s.me.system := by
  rcases waited_cases h with e | ⟨_, _, e⟩ <;> rw [e] <;> simp

@[simp] theorem waited_me_stat {s : State} {w : Nat} (h : s.ready w) : (s.waited w).me.stat = s.me.stat := by
  rcases waited_cases h with e | ⟨_, _, e⟩ <;> rw [e] <;> simp

@[simp] theorem waited_me_pc {s : State} {w : Nat} (h : s.ready w) : (s.waited w).me.pc = s.me.pc := by
  rcases waited_cases h with e | ⟨_, _, e⟩ <;> rw [e] <;> simp

@[simp] theorem waited_me_dual {s : State} {w : Nat} (h : s.ready w) : (s.waited w).me.dual = s.me.dual := by
  rcases waited_cases h with e | ⟨_, _, e⟩ <;> rw [e] <;> simp

@[simp] theorem waited_me_regs {s : State} {w : Nat} (h : s.ready w) : (s.waited w).me.regs = s.me.regs := by
  rcases waited_cases h with e | ⟨_, _, e⟩ <;> rw [e] <;> simp

@[simp] theorem waited_me_v {s : State} {w : Nat} (h : s.ready w) : (s.waited w).me.v = s.me.v := by
  rcases waited_cases h with e | ⟨_, _, e⟩ <;> rw [e] <;> simp

@[simp] theorem waited_me_tags {s : State} {w : Nat} (h : s.ready w) : (s.waited w).me.tags = s.me.tags := by
  rcases waited_cases h with e | ⟨_, _, e⟩ <;> rw [e] <;> simp

@[simp] theorem waited_me_planes {s : State} {w : Nat} (h : s.ready w) : (s.waited w).me.planes = s.me.planes := by
  rcases waited_cases h with e | ⟨_, _, e⟩ <;> rw [e] <;> simp

@[simp] theorem waited_me_masks {s : State} {w : Nat} (h : s.ready w) : (s.waited w).me.masks = s.me.masks := by
  rcases waited_cases h with e | ⟨_, _, e⟩ <;> rw [e] <;> simp

@[simp] theorem waited_me_queues {s : State} {w : Nat} (h : s.ready w) : (s.waited w).me.queues = s.me.queues := by
  rcases waited_cases h with e | ⟨_, _, e⟩ <;> rw [e] <;> simp

@[simp] theorem waited_me_groups {s : State} {w : Nat} (h : s.ready w) : (s.waited w).me.groups = s.me.groups := by
  rcases waited_cases h with e | ⟨_, _, e⟩ <;> rw [e] <;> simp

@[simp] theorem waited_me_ln {s : State} {w : Nat} (h : s.ready w) : (s.waited w).me.ln = s.me.ln := by
  rcases waited_cases h with e | ⟨_, _, e⟩ <;> rw [e] <;> simp

@[simp] theorem waited_me_sys {s : State} {w : Nat} (h : s.ready w) : (s.waited w).me.sys = s.me.sys := by
  rcases waited_cases h with e | ⟨_, _, e⟩ <;> rw [e] <;> simp

@[simp] theorem waited_me_recs {s : State} {w : Nat} (h : s.ready w) : (s.waited w).me.recs = s.me.recs := by
  rcases waited_cases h with e | ⟨_, _, e⟩ <;> rw [e] <;> simp

@[simp] theorem waited_me_serving {s : State} {w : Nat} (h : s.ready w) : (s.waited w).me.serving = s.me.serving := by
  rcases waited_cases h with e | ⟨_, _, e⟩ <;> rw [e] <;> simp

@[simp] theorem waited_me_ctx {s : State} {w : Nat} (h : s.ready w) : (s.waited w).me.ctx = s.me.ctx := by
  rcases waited_cases h with e | ⟨_, _, e⟩ <;> rw [e] <;> simp

@[simp] theorem waited_me_launch {s : State} {w : Nat} (h : s.ready w) : (s.waited w).me.launch = s.me.launch := by
  rcases waited_cases h with e | ⟨_, _, e⟩ <;> rw [e] <;> simp

@[simp] theorem waited_me_mid {s : State} {w : Nat} (h : s.ready w) : (s.waited w).me.mid = s.me.mid := by
  rcases waited_cases h with e | ⟨_, _, e⟩ <;> rw [e] <;> simp

@[simp] theorem waited_me_cls {s : State} {w : Nat} (h : s.ready w) : (s.waited w).me.cls = s.me.cls := by
  rcases waited_cases h with e | ⟨_, _, e⟩ <;> rw [e] <;> simp

@[simp] theorem waited_me_nplanes {s : State} {w : Nat} (h : s.ready w) : (s.waited w).me.nplanes = s.me.nplanes := by
  rcases waited_cases h with e | ⟨_, _, e⟩ <;> rw [e] <;> simp

@[simp] theorem waited_me_inUser {s : State} {w : Nat} (h : s.ready w) : (s.waited w).me.inUser = s.me.inUser := by
  rcases waited_cases h with e | ⟨_, _, e⟩ <;> rw [e] <;> simp

@[simp] theorem waited_me_att {s : State} {w : Nat} (h : s.ready w) : (s.waited w).me.att = s.me.att := by
  rcases waited_cases h with e | ⟨_, _, e⟩ <;> rw [e] <;> simp

@[simp] theorem waited_me_frozen {s : State} {w : Nat} (h : s.ready w) : (s.waited w).me.frozen = s.me.frozen := by
  rcases waited_cases h with e | ⟨_, _, e⟩ <;> rw [e] <;> simp

@[simp] theorem waited_me_stream {s : State} {w : Nat} (h : s.ready w) : (s.waited w).me.stream = s.me.stream := by
  rcases waited_cases h with e | ⟨_, _, e⟩ <;> rw [e] <;> simp

@[simp] theorem waited_me_sending {s : State} {w : Nat} (h : s.ready w) : (s.waited w).me.sending = s.me.sending := by
  rcases waited_cases h with e | ⟨_, _, e⟩ <;> rw [e] <;> simp

@[simp] theorem waited_me_yielded {s : State} {w : Nat} (h : s.ready w) : (s.waited w).me.yielded = s.me.yielded := by
  rcases waited_cases h with e | ⟨_, _, e⟩ <;> rw [e] <;> simp

@[simp] theorem waited_me_seen {s : State} {w : Nat} (h : s.ready w) : (s.waited w).me.seen = s.me.seen := by
  rcases waited_cases h with e | ⟨_, _, e⟩ <;> rw [e] <;> simp

@[simp] theorem waited_me_posted {s : State} {w : Nat} (h : s.ready w) : (s.waited w).me.posted = s.me.posted := by
  rcases waited_cases h with e | ⟨_, _, e⟩ <;> rw [e] <;> simp

@[simp] theorem waited_me_owedX {s : State} {w : Nat} (h : s.ready w) : (s.waited w).me.owedX = s.me.owedX := by
  rcases waited_cases h with e | ⟨_, _, e⟩ <;> rw [e] <;> simp

@[simp] theorem waited_me_barls {s : State} {w : Nat} (h : s.ready w) : (s.waited w).me.barls = s.me.barls := by
  rcases waited_cases h with e | ⟨_, _, e⟩ <;> rw [e] <;> simp

@[simp] theorem waited_me_phases {s : State} {w : Nat} (h : s.ready w) : (s.waited w).me.phases = s.me.phases := by
  rcases waited_cases h with e | ⟨_, _, e⟩ <;> rw [e] <;> simp

@[simp] theorem waited_me_farmed {s : State} {w : Nat} (h : s.ready w) : (s.waited w).me.farmed = s.me.farmed := by
  rcases waited_cases h with e | ⟨_, _, e⟩ <;> rw [e] <;> simp

@[simp] theorem waited_me_strips {s : State} {w : Nat} (h : s.ready w) : (s.waited w).me.strips = s.me.strips := by
  rcases waited_cases h with e | ⟨_, _, e⟩ <;> rw [e] <;> simp

@[simp] theorem waited_me_wait {s : State} {w : Nat} (h : s.ready w) : (s.waited w).me.wait = s.me.wait := by
  rcases waited_cases h with e | ⟨_, _, e⟩ <;> rw [e] <;> simp

@[simp] theorem waited_me_remote {s : State} {w : Nat} (h : s.ready w) : (s.waited w).me.remote = s.me.remote := by
  rcases waited_cases h with e | ⟨_, _, e⟩ <;> rw [e] <;> simp

@[simp] theorem waited_me_dlRaised {s : State} {w : Nat} (h : s.ready w) : (s.waited w).me.dlRaised = s.me.dlRaised := by
  rcases waited_cases h with e | ⟨_, _, e⟩ <;> rw [e] <;> simp

@[simp] theorem waited_me_held {s : State} {w : Nat} (h : s.ready w) : (s.waited w).me.held = s.me.held := by
  rcases waited_cases h with e | ⟨_, _, e⟩ <;> rw [e] <;> simp

@[simp] theorem waited_cap {s : State} {w : Nat} (h : s.ready w) : (s.waited w).me.cap = s.me.cap := by
  rcases waited_cases h with e | ⟨_, _, e⟩ <;> rw [e] <;> simp

@[simp] theorem waited_csr_vl {s : State} {w : Nat} (h : s.ready w) :
    (s.waited w).me.csr.vl = s.me.csr.vl := by
  rcases waited_cases h with e | ⟨_, _, e⟩ <;> rw [e] <;> simp

@[simp] theorem waited_csr_cf {s : State} {w : Nat} (h : s.ready w) :
    (s.waited w).me.csr.cf = s.me.csr.cf := by
  rcases waited_cases h with e | ⟨_, _, e⟩ <;> rw [e] <;> simp

@[simp] theorem waited_csr_vctl {s : State} {w : Nat} (h : s.ready w) :
    (s.waited w).me.csr.vctl = s.me.csr.vctl := by
  rcases waited_cases h with e | ⟨_, _, e⟩ <;> rw [e] <;> simp

@[simp] theorem waited_csr_vstart {s : State} {w : Nat} (h : s.ready w) :
    (s.waited w).me.csr.vstart = s.me.csr.vstart := by
  rcases waited_cases h with e | ⟨_, _, e⟩ <;> rw [e] <;> simp

@[simp] theorem waited_csr_rm {s : State} {w : Nat} (h : s.ready w) :
    (s.waited w).me.csr.rm = s.me.csr.rm := by
  rcases waited_cases h with e | ⟨_, _, e⟩ <;> rw [e] <;> simp

@[simp] theorem waited_csr_toff {s : State} {w : Nat} (h : s.ready w) :
    (s.waited w).me.csr.toff = s.me.csr.toff := by
  rcases waited_cases h with e | ⟨_, _, e⟩ <;> rw [e] <;> simp

@[simp] theorem waited_csr_dualn {s : State} {w : Nat} (h : s.ready w) :
    (s.waited w).me.csr.dualn = s.me.csr.dualn := by
  rcases waited_cases h with e | ⟨_, _, e⟩ <;> rw [e] <;> simp

@[simp] theorem waited_csr_dln {s : State} {w : Nat} (h : s.ready w) :
    (s.waited w).me.csr.dln = s.me.csr.dln := by
  rcases waited_cases h with e | ⟨_, _, e⟩ <;> rw [e] <;> simp

@[simp] theorem waited_csr_lead {s : State} {w : Nat} (h : s.ready w) :
    (s.waited w).me.csr.lead = s.me.csr.lead := by
  rcases waited_cases h with e | ⟨_, _, e⟩ <;> rw [e] <;> simp

@[simp] theorem waited_csr_uhaddr {s : State} {w : Nat} (h : s.ready w) :
    (s.waited w).me.csr.uhaddr = s.me.csr.uhaddr := by
  rcases waited_cases h with e | ⟨_, _, e⟩ <;> rw [e] <;> simp

@[simp] theorem waited_csr_ucause {s : State} {w : Nat} (h : s.ready w) :
    (s.waited w).me.csr.ucause = s.me.csr.ucause := by
  rcases waited_cases h with e | ⟨_, _, e⟩ <;> rw [e] <;> simp

@[simp] theorem waited_csr_upc {s : State} {w : Nat} (h : s.ready w) :
    (s.waited w).me.csr.upc = s.me.csr.upc := by
  rcases waited_cases h with e | ⟨_, _, e⟩ <;> rw [e] <;> simp

@[simp] theorem waited_csr_uval {s : State} {w : Nat} (h : s.ready w) :
    (s.waited w).me.csr.uval = s.me.csr.uval := by
  rcases waited_cases h with e | ⟨_, _, e⟩ <;> rw [e] <;> simp

@[simp] theorem waited_reg {s : State} {w : Nat} (h : s.ready w) (r : BitVec 5) :
    (s.waited w).me.reg r = s.me.reg r := by simp [Hart.reg, h]

@[simp] theorem waited_queue {s : State} {w : Nat} (h : s.ready w) (r : Nat) :
    (s.waited w).me.queue r = s.me.queue r := by simp [Hart.queue, h]

@[simp] theorem waited_vget {s : State} {w : Nat} (h : s.ready w) (r : Nat) :
    (s.waited w).me.vget r = s.me.vget r := by simp [Hart.vget, h]

@[simp] theorem waited_tag {s : State} {w : Nat} (h : s.ready w) (r : Nat) :
    (s.waited w).me.tag r = s.me.tag r := by simp [Hart.tag, h]

@[simp] theorem waited_mask {s : State} {w : Nat} (h : s.ready w) (r : Nat) :
    (s.waited w).me.mask r = s.me.mask r := by simp [Hart.mask, h]

@[simp] theorem waited_h_cf {s : State} {w : Nat} (h : s.ready w) :
    (s.waited w).me.cf = s.me.cf := by simp [Hart.cf, h]

@[simp] theorem waited_h_rm {s : State} {w : Nat} (h : s.ready w) :
    (s.waited w).me.rm = s.me.rm := by simp [Hart.rm, h]

@[simp] theorem waited_h_sate4 {s : State} {w : Nat} (h : s.ready w) :
    (s.waited w).me.sate4 = s.me.sate4 := by simp [Hart.sate4, h]

@[simp] theorem waited_h_fconv {s : State} {w : Nat} (h : s.ready w) :
    (s.waited w).me.fconv = s.me.fconv := by simp [Hart.fconv, h]

@[simp] theorem waited_h_planesInForce {s : State} {w : Nat} (h : s.ready w) :
    (s.waited w).me.planesInForce = s.me.planesInForce := by simp [Hart.planesInForce, h]

@[simp] theorem waited_h_restart {s : State} {w : Nat} (h : s.ready w) :
    (s.waited w).me.restart = s.me.restart := by simp [Hart.restart, h]

@[simp] theorem waited_h_slot {s : State} {w : Nat} (h : s.ready w) :
    (s.waited w).me.slot = s.me.slot := by simp [Hart.slot, h]

@[simp] theorem waited_core {s : State} {w : Nat} (h : s.ready w) (k : Nat) : (s.waited w).core k = s.core k := by
  simp [State.core, h]

@[simp] theorem waited_mod {s : State} {w : Nat} (h : s.ready w) (k : Nat) : (s.waited w).mod k = s.mod k := by
  simp [State.mod, h]

@[simp] theorem waited_ctx {s : State} {w : Nat} (h : s.ready w) (p k : Nat) : (s.waited w).ctx p k = s.ctx p k := by
  simp [State.ctx, h]

@[simp] theorem waited_myCore {s : State} {w : Nat} (h : s.ready w) : (s.waited w).myCore = s.myCore := by
  simp [State.myCore, h]

@[simp] theorem waited_myPkg {s : State} {w : Nat} (h : s.ready w) : (s.waited w).myPkg = s.myPkg := by
  simp [State.myPkg, h]

@[simp] theorem waited_byteAt {s : State} {w : Nat} (h : s.ready w) (k : Nat) : (s.waited w).byteAt k = s.byteAt k := by
  simp [State.byteAt, h]

/-- A wait changes the executing hart only. -/
theorem waited_find {s : State} {w k : Nat} (h : s.ready w) (e : k ≠ s.cur) :
    (s.waited w).harts.find k = s.harts.find k := by
  rcases waited_cases h with e' | ⟨_, _, e'⟩ <;> rw [e']
  simp [Tab.find_put_other _ _ _ _ e]

end Sys2Proof.Machine
end

