-- ==== Sys2Proof/Laws/Convoy.lean ====
section
/-! SUPPORT. Elements written into registers, and a convoy of one member. -/

namespace Sys2Proof.Machine

/-! ## Bits and elements -/

theorem putBits_eq (x lo w v : Nat) :
    putBits x lo w v = 2 ^ lo * (2 ^ w * (x / 2 ^ (lo + w)) + v % 2 ^ w) + x % 2 ^ lo := by
  unfold putBits
  simp only [Nat.shiftRight_eq_div_pow, Nat.shiftLeft_eq]
  have h1 : x = 2 ^ lo * (x / 2 ^ lo) + x % 2 ^ lo := (Nat.div_add_mod x (2 ^ lo)).symm
  have h2 : x / 2 ^ lo = 2 ^ w * (x / 2 ^ lo / 2 ^ w) + x / 2 ^ lo % 2 ^ w := (Nat.div_add_mod _ _).symm
  have h3 : x / 2 ^ lo / 2 ^ w = x / 2 ^ (lo + w) := by rw [Nat.div_div_eq_div_mul, ← Nat.pow_add]
  rw [h3] at h2
  generalize x / 2 ^ lo % 2 ^ w = b at *
  generalize x / 2 ^ (lo + w) = c at *
  generalize v % 2 ^ w = d at *
  have h4 : x = 2 ^ lo * (2 ^ w * c) + 2 ^ lo * b + x % 2 ^ lo := by rw [← Nat.mul_add, ← h2]; exact h1
  rw [Nat.mul_add]
  rw [Nat.mul_comm b, Nat.mul_comm d]
  omega

theorem putBits_testBit (x lo w v i : Nat) :
    (putBits x lo w v).testBit i = if lo ≤ i ∧ i < lo + w then v.testBit (i - lo) else x.testBit i := by
  rw [putBits_eq, Nat.testBit_two_pow_mul_add _ (Nat.mod_lt _ (Nat.two_pow_pos _))]
  by_cases h : i < lo
  · rw [if_pos h, if_neg (by omega), Nat.testBit_mod_two_pow]; simp [h]
  · rw [if_neg h, Nat.testBit_two_pow_mul_add _ (Nat.mod_lt _ (Nat.two_pow_pos _))]
    by_cases g : i - lo < w
    · rw [if_pos g, if_pos (by omega), Nat.testBit_mod_two_pow]; simp [g]
    · rw [if_neg g, if_neg (by omega), Nat.testBit_div_two_pow]
      congr 1; omega

theorem elemOf_testBit (v : VReg) (w e i : Nat) : (elemOf v w e).testBit i = (decide (i < w) && v.toNat.testBit (w * e + i)) := by
  unfold elemOf
  rw [Nat.testBit_mod_two_pow, Nat.testBit_shiftRight]

theorem elemOf_setElem_same (v : VReg) (w e x : Nat) (h : w * e + w ≤ 8192) : elemOf (setElem v w e x) w e = x % 2 ^ w := by
  apply Nat.eq_of_testBit_eq
  intro i
  rw [elemOf_testBit, Nat.testBit_mod_two_pow]
  by_cases hi : i < w
  · unfold setElem
    rw [if_pos h]
    simp only [BitVec.toNat_ofNat, Nat.testBit_mod_two_pow, putBits_testBit]
    rw [if_pos (by omega)]
    have : w * e + i < 8192 := by omega
    simp [hi, this]
  · simp [hi]

theorem elemOf_setElem_other (v : VReg) (w e f x : Nat) (h : f ≠ e) : elemOf (setElem v w e x) w f = elemOf v w f := by
  apply Nat.eq_of_testBit_eq
  intro i
  rw [elemOf_testBit, elemOf_testBit]
  by_cases hi : i < w
  · unfold setElem
    split
    · simp only [BitVec.toNat_ofNat, Nat.testBit_mod_two_pow, putBits_testBit]
      have hne : ¬(w * e ≤ w * f + i ∧ w * f + i < w * e + w) := by
        intro hh
        rcases Nat.lt_or_gt_of_ne h with g | g
        · have : w * (f + 1) ≤ w * e := Nat.mul_le_mul_left _ g
          rw [Nat.mul_add] at this; omega
        · have : w * (e + 1) ≤ w * f := Nat.mul_le_mul_left _ g
          rw [Nat.mul_add] at this; omega
      rw [if_neg hne]
      by_cases hb : w * f + i < 8192
      · simp [hb]
      · have : v.toNat.testBit (w * f + i) = false :=
          Nat.testBit_lt_two_pow (Nat.lt_of_lt_of_le v.isLt (Nat.pow_le_pow_right (by decide) (by omega)))
        simp [this]
    · rfl
  · simp [hi]

/-- Element `e` after elements were written, no element twice. -/
theorem elemOf_putElems (w e : Nat) (f : Nat → Nat) (h : w * e + w ≤ 8192) (l : List Nat) : ∀ v : VReg,
    elemOf (putElems v w (l.map (fun i => (i, f i)))) w e = if e ∈ l then f e % 2 ^ w else elemOf v w e := by
  induction l with
  | nil => intro v; simp [putElems]
  | cons a r ih =>
    intro v
    have := ih (setElem v w a (f a))
    simp only [putElems] at this
    simp only [putElems, List.map_cons, List.foldl_cons]
    rw [this]
    by_cases hr : e ∈ r
    · simp [hr]
    · by_cases ha : e = a
      · subst ha; simp [hr, elemOf_setElem_same v w e _ h]
      · simp [hr, ha, elemOf_setElem_other v w a e _ ha]

theorem allFlags_bit (l : List (Nat × Flags)) (b : Nat) :
    (allFlags l).getLsbD b = l.any (fun p => p.2.getLsbD b) := by
  unfold allFlags
  have : ∀ a : Flags, (l.foldl (fun a p => a ||| p.2) a).getLsbD b = (a.getLsbD b || l.any (fun p => p.2.getLsbD b)) := by
    induction l with
    | nil => intro a; simp
    | cons p r ih => intro a; simp [List.foldl_cons, ih, Bool.or_assoc]
  rw [this]; simp

/-! ## Masks -/

theorem maskBit_set (m : MReg) (e i : Nat) (b : Bool) (h : i < 1024) :
    maskBit (setMaskBit m e b) i = if i = e then b else maskBit m i := by
  unfold setMaskBit maskBit
  split
  · simp only [BitVec.toNat_ofNat, Nat.testBit_mod_two_pow, putBits_testBit, h, decide_true, Bool.true_and]
    by_cases g : i = e
    · subst g; rw [if_pos (by omega), if_pos rfl]; cases b <;> simp
    · rw [if_neg (by omega), if_neg g]
  · rw [if_neg (by omega)]

theorem maskBit_foldl (i : Nat) (f : Nat → Bool) (h : i < 1024) (l : List Nat) : ∀ m : MReg,
    maskBit ((l.map (fun e => (e, f e))).foldl (fun x p => setMaskBit x p.1 p.2) m) i = if i ∈ l then f i else maskBit m i := by
  induction l with
  | nil => intro m; simp
  | cons a r ih =>
    intro m
    simp only [List.map_cons, List.foldl_cons]
    rw [ih]
    by_cases hr : i ∈ r
    · simp [hr]
    · by_cases ha : i = a
      · subst ha; simp [hr, maskBit_set _ _ _ _ h]
      · simp [hr, ha, maskBit_set _ _ _ _ h]

/-! ## A convoy of one member -/

/-- One pass over one member that does not stop. -/
theorem settle_one (f : Member) (s t : State) (c : Convoy) (h : f { s with cv := some {} } = t) (hc : t.cv = some c)
    (hs : c.stop = none) :
    settle [f] [false] s 2 none [] none = ({ t with cv := some { c with idx := c.idx + 1 } }, none) := by
  have hp : passOver [f] { s with cv := some {} } = { t with cv := some { c with idx := c.idx + 1 } } := by
    simp only [passOver, h, hc, hs]
  unfold settle
  simp only [hp, stopOf, hs]

/-- One pass over one member whose checks stop the whole convoy. -/
theorem settle_whole (f : Member) (s : State) (k : Nat) (v : W64)
    (h : f { s with cv := some {} } = stopWith (.whole k v) { s with cv := some {} }) :
    settle [f] [false] s 2 none [] none = (s, some (.whole k v)) := by
  unfold settle
  simp only [passOver, h, stopWith, stopOf]

@[simp] theorem opened_me (s : State) (i : Instr) : (s.opened i).me = (s.waited (instrWtk i)).me := rfl
@[simp] theorem opened_cv (s : State) (i : Instr) : (s.opened i).cv = some {} := rfl
@[simp] theorem sighted_opened (s : State) (i : Instr) : sighted (s.opened i) {} = (s.waited (instrWtk i)).me := rfl
@[simp] theorem opened_core (s : State) (i : Instr) (k : Nat) : (s.opened i).core k = (s.waited (instrWtk i)).core k := rfl
@[simp] theorem opened_myCore (s : State) (i : Instr) : (s.opened i).myCore = (s.waited (instrWtk i)).myCore := rfl

/-- A chainable instruction alone in its convoy: its member's effect, then completion (R107, R129). -/
theorem vec_alone {i : Instr} {f : Member} {s t : State} {c : Convoy} (hv : s.cv = none) (hr : s.ready (instrWtk i))
    (hi : regsHere (s.waited (instrWtk i)) [i] = true)
    (h : f (s.opened i) = t) (hc : t.cv = some c) (hs : c.stop = none)
    (hq : hasRoom t.me c.pushes = true) :
    vec i f s = .next (completeConvoy (instrLen i) { t with cv := some { c with idx := c.idx + 1 } }) := by
  have hq' : hasRoom ({ t with cv := some { c with idx := c.idx + 1 } } : State).me c.pushes = true := hq
  unfold vec
  simp only [hv]
  unfold runConvoy
  rw [gate_of_ready hr]
  simp only [hi, List.length_singleton]
  rw [show 2 * 1 = 2 from rfl, if_pos trivial, settle_one f (s.waited (instrWtk i)) t c h hc hs]
  simp [finishConvoy, hq']

/-- A check of the whole convoy stops it before any element. -/
theorem vec_whole {i : Instr} {f : Member} {s : State} {k : Nat} {v : W64} (hv : s.cv = none) (hr : s.ready (instrWtk i))
    (hi : regsHere (s.waited (instrWtk i)) [i] = true)
    (h : f (s.opened i) =
      stopWith (.whole k v) (s.opened i)) :
    vec i f s = .next (raise k v (s.waited (instrWtk i))) := by
  unfold vec
  simp only [hv]
  unfold runConvoy
  rw [gate_of_ready hr]
  simp only [hi, List.length_singleton]
  rw [show 2 * 1 = 2 from rfl, if_pos trivial, settle_whole f (s.waited (instrWtk i)) k v h]
  simp [finishConvoy]

/-! ## Units written -/

theorem isGx_bits {f : Fmt} (h : isGx f = true) : f = .gx8 ∨ f = .gx4 := by cases f <;> simp_all [isGx, fmtCode]

theorem held_bits {f : Fmt} {e : Nat} (h : held f e = true) :
    if isGx f then gxBits f * e + gxBits f ≤ 8192 else fmtBits f * e + fmtBits f ≤ 8192 := by
  cases f <;> (have h' := of_decide_eq_true h; revert h'; simp only [isGx, fmtCode, gxBits, gxLanes, fmtBits]; intro h'; simp at h' ⊢; omega)

theorem elemOf_foldl_set (w e : Nat) (g : Nat → Nat) (h : w * e + w ≤ 8192) (l : List Nat) (v : VReg) :
    elemOf ((l.map (fun i => (i, g i))).foldl (fun v p => setElem v w p.1 p.2) v) w e =
      if e ∈ l then g e % 2 ^ w else elemOf v w e := elemOf_putElems w e g h l v

/-- A unit of a register after units were written. -/
theorem rawUnit_putUnits (f : Fmt) (e : Nat) (g : Nat → Nat) (h : held f e = true) (l : List Nat) (v : VReg) :
    rawUnit f (putUnits f v (l.map (fun i => (i, g i)))) e = if e ∈ l then unitStored f (g e) else rawUnit f v e := by
  have hb := held_bits h
  unfold rawUnit putUnits unitStored
  by_cases hg : isGx f
  · simp only [hg, if_true] at hb ⊢
    unfold putGroups groupOf
    have := elemOf_foldl_set (gxBits f) e (fun i => putBits (g i) 16 48 (fmtCode f)) hb l v
    simp only [List.foldl_map] at this ⊢
    exact this
  · simp only [hg] at hb ⊢
    exact elemOf_putElems (fmtBits f) e g hb l v

theorem fmtOf_code (f : Fmt) : fmtOf (BitVec.ofNat 4 (fmtCode f)).toNat = f := by cases f <;> rfl

@[simp] theorem setTag_tag_same (h : Hart) (r : Nat) (f : Fmt) : (h.setTag r f).tag r = f := by
  unfold Hart.tag Hart.setTag; rw [Cells.get_set_same, fmtOf_code]

theorem setTag_tag_other (h : Hart) (r q : Nat) (f : Fmt) (e : q ≠ r) : (h.setTag r f).tag q = h.tag q := by
  simp [Hart.tag, Hart.setTag, Cells.get_set_other _ _ _ _ e]

theorem setPlane_same (h : Hart) (r k : Nat) (x : VReg) : (h.setPlane r k x).plane r k = x := by
  unfold Hart.setPlane Hart.plane
  split
  · simp [Hart.vset, Cells.get_set_same]
  · simp [Cells.get_set_same]

theorem setPlane_other (h : Hart) (r k q j : Nat) (x : VReg) (hr : r < 64) (hq : q < 64) (e : q ≠ r ∨ j ≠ k) :
    (h.setPlane r k x).plane q j = h.plane q j := by
  unfold Hart.setPlane Hart.plane
  by_cases hk : k = 0 <;> by_cases hj : j = 0 <;> simp only [hk, hj, if_true, if_false]
  · have : q ≠ r := by rcases e with e | e
                       · exact e
                       · exact absurd (hj.trans hk.symm) e
    simp [Hart.vset, Cells.get_set_other _ _ _ _ this]
  · simp [Hart.vset]
  · have : j * 64 + q ≠ k * 64 + r := by
      rcases e with e | e
      · omega
      · omega
    rw [Cells.get_set_other _ _ _ _ this]

/-- Only the planes of the register change. -/
theorem mapPlanes_rest (d : Nat) (p : Nat → VReg → VReg) (l : List Nat) (hl : ∀ k ∈ l, k ≠ 0) : ∀ h : Hart,
    l.foldl (fun g k => g.setPlane d k (p k (g.plane d k))) h =
      { h with planes := (l.foldl (fun g k => g.setPlane d k (p k (g.plane d k))) h).planes } := by
  induction l with
  | nil => intro h; rfl
  | cons a r ih =>
    intro h
    have ha : a ≠ 0 := hl a (List.mem_cons_self ..)
    rw [List.foldl_cons, ih (fun k hk => hl k (List.mem_cons_of_mem _ hk))]
    simp [Hart.setPlane, ha]

theorem mapPlanes_plane (d : Nat) (hd : d < 64) (p : Nat → VReg → VReg) (l : List Nat) (hl : l.Nodup) : ∀ (h : Hart) (r k : Nat),
    r < 64 →
    (l.foldl (fun g k => g.setPlane d k (p k (g.plane d k))) h).plane r k =
      if r = d ∧ k ∈ l then p k (h.plane r k) else h.plane r k := by
  induction l with
  | nil => intro h r k _; simp
  | cons a l ih =>
    intro h r k hr
    rw [List.foldl_cons, ih (List.nodup_cons.mp hl).2 _ _ _ hr]
    by_cases ha : r = d ∧ k = a
    · obtain ⟨rfl, rfl⟩ := ha
      have : k ∉ l := (List.nodup_cons.mp hl).1
      simp [this, setPlane_same]
    · have := setPlane_other h d a r k (p a (h.plane d a)) hd hr (by
        by_cases g : r = d
        · exact .inr (fun e => ha ⟨g, e⟩)
        · exact .inl g)
      rw [this]
      by_cases hm : r = d ∧ k ∈ l
      · simp [hm]
      · have : ¬(r = d ∧ k ∈ a :: l) := by
          intro ⟨g, m⟩
          rcases List.mem_cons.mp m with e | e
          · exact ha ⟨g, e⟩
          · exact hm ⟨g, e⟩
        rw [if_neg hm, if_neg this]

theorem span_nodup (lo n : Nat) : (span lo n).Nodup := by
  induction n generalizing lo with
  | zero => exact List.nodup_nil
  | succ n ih =>
    refine List.nodup_cons.mpr ⟨fun h => ?_, ih _⟩
    have := mem_span h
    omega

/-- The hart a member leaves that writes units: primal, planes in force, tag, flags. -/
def unitsHart (put : VReg → List (Nat × Nat) → VReg) (d : Nat) (fd : Fmt) (acts : List Nat) (res : Nat → Nat × Flags)
    (tan : Nat → Nat → Nat) (h : Hart) : Hart :=
  let rs := acts.map (fun e => (e, res e))
  let h1 := h.vset d (put (h.vget d) (rs.map (fun p => (p.1, p.2.1))))
  let h2 := mapPlanes h.planesInForce h1 (fun k g => g.setPlane d k (put (g.plane d k) (rs.map (fun p => (p.1, tan k p.1)))))
  (h2.setTag d fd).orFlags (allFlags (rs.map Prod.snd))

theorem writeElems_eq (d : Nat) (fd : Fmt) (acts : List Nat) (res : Nat → Nat × Flags) (tan : Nat → Nat → Nat → Nat)
    (s : State) (hg : isGx fd = false) :
    writeElems d fd acts res tan s = s.setMe (unitsHart (putUnits fd) d fd acts res (fun k e => tan k e (res e).1) s.me) := by
  unfold writeElems unitsHart putUnits
  simp [hg, List.map_map, Function.comp_def]

theorem writeGroups_eq (d : Nat) (fd : Fmt) (acts : List Nat) (res : Nat → Nat × Flags) (tan : Nat → Nat → Nat)
    (s : State) (hg : isGx fd = true) :
    writeGroups d fd acts res tan s = s.setMe (unitsHart (putUnits fd) d fd acts res tan s.me) := by
  unfold writeGroups unitsHart putUnits
  simp [hg, List.map_map, Function.comp_def]

theorem writeUnits_eq (d : Nat) (fd : Fmt) (acts : List Nat) (res : Nat → Nat × Flags) (tan : Nat → Nat → Nat) (s : State) :
    writeUnits d fd acts res tan s = s.setMe (unitsHart (putUnits fd) d fd acts res tan s.me) := by
  unfold writeUnits
  split
  · next h => exact writeGroups_eq d fd acts res tan s h
  · next h => exact writeElems_eq d fd acts res (fun k e _ => tan k e) s (by simpa using h)

theorem unitLeft_eq {f t : Fmt} (h : t = f ∨ isGx f = false) (x : Nat) : unitLeft f t x = unitStored f x := by
  unfold unitLeft
  by_cases q : t = f
  · simp [q]
  · have g : isGx f = false := h.resolve_left q
    simp [q, unitStored, g]

/-- A way of writing units of format `f` under which a unit is what a write that leaves tag `t` leaves. -/
def Puts (put : VReg → List (Nat × Nat) → VReg) (f t : Fmt) : Prop :=
  ∀ (e : Nat) (g : Nat → Nat), held f e = true → ∀ (l : List Nat) (v : VReg),
    rawUnit f (put v (l.map (fun i => (i, g i)))) e = if e ∈ l then unitLeft f t (g e) else rawUnit f v e

theorem puts_units {f t : Fmt} (ht : t = f ∨ isGx f = false) : Puts (putUnits f) f t := by
  intro e g h l v; rw [rawUnit_putUnits f e g h, unitLeft_eq ht]

theorem puts_lanes {f t : Fmt} (hg : isGx f = true) (ht : t ≠ f) : Puts (fun v l => putElems v (gxBits f) l) f t := by
  intro e g h l v
  have hb := held_bits h
  simp only [hg, if_true] at hb
  unfold rawUnit unitLeft groupOf
  simp only [hg, if_true, if_neg ht]
  exact elemOf_putElems (gxBits f) e g hb l v

/-- A plane of a hart whose convoy has completed. -/
theorem finished_plane (g : Hart) (c : Csrs) (len r k : Nat) :
    (({ g.unchained with csr := c } : Hart).done len).plane r k = g.plane r k := by unfold Hart.plane; rfl

/-- The hart after a member that writes units, completed. -/
theorem unitsHart_result (len : Nat) (h : Hart) (d : Nat) (hd : d < 64) (f t : Fmt) (put : VReg → List (Nat × Nat) → VReg) (hput : Puts put f t)
    (acts : List Nat) (on : Nat → Bool)
    (res : Nat → Nat × Flags) (tan : Nat → Nat → Nat) (hon : ∀ e, held f e = true → (on e = true ↔ e ∈ acts))
    (hfl : ∀ e, e < h.csr.vl → ∀ b, (on e && (res e).2.getLsbD b) = (decide (e ∈ acts) && (res e).2.getLsbD b))
    (hvl : ∀ e ∈ acts, e < h.csr.vl) (g : Hart)
    (hg : g = (unitsHart put d f acts res tan h).setTag d t) :
    VecResult len h ({ g.unchained with csr := { g.csr with vstart := 0 } }.done len) d f t on res tan := by
  have hrest := fun (p : Nat → VReg → VReg) (x : Hart) => mapPlanes_rest d p (span 1 h.planesInForce)
    (fun k hk => by have := mem_span hk; omega) x
  have hplane := fun (p : Nat → VReg → VReg) (x : Hart) (r k : Nat) (hr : r < 64) =>
    mapPlanes_plane d hd p (span 1 h.planesInForce) (span_nodup _ _) x r k hr
  have hm : ∀ k, k ∈ span 1 h.planesInForce ↔ 1 ≤ k ∧ k ≤ h.planesInForce :=
    fun k => ⟨fun q => by have := mem_span q; omega, fun q => span_mem (by omega)⟩
  have e1 : ∀ (l : List Nat) (q : Nat → Nat), (l.map (fun e => (e, res e))).map (fun p => (p.1, q p.1)) = l.map (fun e => (e, q e)) :=
    fun l q => by simp [List.map_map, Function.comp_def]
  have e2 : (acts.map (fun e => (e, res e))).map (fun p => (p.1, p.2.1)) = acts.map (fun e => (e, (res e).1)) := by
    simp [List.map_map, Function.comp_def]
  have hfl2 : ∀ b, (allFlags ((acts.map (fun e => (e, res e))).map Prod.snd)).getLsbD b =
      (List.range h.csr.vl).any (fun e => on e && (res e).2.getLsbD b) := by
    intro b
    rw [allFlags_bit]
    rw [Bool.eq_iff_iff]
    simp only [List.any_eq_true, List.mem_map, List.mem_range]
    constructor
    · rintro ⟨p, ⟨q, ⟨e, he, rfl⟩, rfl⟩, hp⟩
      refine ⟨e, hvl e he, ?_⟩
      rw [hfl e (hvl e he) b]
      simp [he]; exact hp
    · rintro ⟨e, he, hp⟩
      rw [hfl e he b] at hp
      simp only [Bool.and_eq_true, decide_eq_true_eq] at hp
      exact ⟨res e, ⟨(e, res e), ⟨e, hp.1, rfl⟩, rfl⟩, hp.2⟩
  subst hg
  have hU : ∃ h2 : Hart, h2 = mapPlanes h.planesInForce (h.vset d (put (h.vget d) (acts.map (fun e => (e, (res e).1)))))
      (fun k g => g.setPlane d k (put (g.plane d k) (acts.map (fun e => (e, tan k e))))) := ⟨_, rfl⟩
  obtain ⟨h2, hh⟩ := hU
  have hu : unitsHart put d f acts res tan h = (h2.setTag d f).orFlags
      (allFlags ((acts.map (fun e => (e, res e))).map Prod.snd)) := by
    rw [hh]; unfold unitsHart; simp only [e1, e2]
  have hr2 := hrest (fun k v => put v (acts.map (fun e => (e, tan k e))))
    (h.vset d (put (h.vget d) (acts.map (fun e => (e, (res e).1)))))
  have hp2 := hplane (fun k v => put v (acts.map (fun e => (e, tan k e))))
    (h.vset d (put (h.vget d) (acts.map (fun e => (e, (res e).1)))))
  change h2 = _ at hh
  unfold mapPlanes at hh
  rw [← hh] at hr2
  have hp3 : ∀ r k, r < 64 → h2.plane r k = if r = d ∧ k ∈ span 1 h.planesInForce
      then put ((h.vset d (put (h.vget d) (acts.map (fun e => (e, (res e).1))))).plane r k)
        (acts.map (fun e => (e, tan k e)))
      else (h.vset d (put (h.vget d) (acts.map (fun e => (e, (res e).1))))).plane r k := by
    intro r k hr; rw [hh]; exact hp2 r k hr
  have hv : h2.v = h.v.set d (put (h.vget d) (acts.map (fun e => (e, (res e).1)))) := by rw [hr2]; rfl
  have hpz : ∀ k, k ≠ 0 → ∀ r, (h.vset d (put (h.vget d) (acts.map (fun e => (e, (res e).1))))).plane r k = h.plane r k := by
    intro k hk r; unfold Hart.plane; simp [hk, Hart.vset]
  rw [hu]
  refine ⟨?_, ?_, ?_, ?_, ?_, ?_, ?_⟩
  · intro e he
    show rawUnit f (h2.v.get d) e = _
    rw [hv, Cells.get_set_same, hput e _ he]
    by_cases ho : e ∈ acts
    · simp [ho, (hon e he).mpr ho]
    · have : on e = false := by
        cases q : on e
        · rfl
        · exact absurd ((hon e he).mp q) ho
      simp [ho, this]
  · intro k e h1 h3 he
    rw [finished_plane]
    change rawUnit f (h2.plane d k) e = _
    rw [hp3 d k hd, if_pos ⟨rfl, (hm k).mpr ⟨h1, h3⟩⟩, hpz k (by omega), hput e _ he]
    by_cases ho : e ∈ acts
    · simp [ho, (hon e he).mpr ho]
    · have : on e = false := by
        cases q : on e
        · rfl
        · exact absurd ((hon e he).mp q) ho
      simp [ho, this]
  · intro k hk
    rw [finished_plane]
    change h2.plane d k = _
    rw [hp3 d k hd, if_neg (fun q => by have := (hm k).mp q.2; omega), hpz k (by omega)]
  · intro b
    have hc : h2.csr = h.csr := by rw [hr2]; rfl
    show (h2.csr.fflags ||| _).getLsbD b = _
    rw [hc, BitVec.getLsbD_or, hfl2]
  · exact setTag_tag_same _ d t
  · intro r k hr hne
    have ht : h2.tags = h.tags := by rw [hr2]; rfl
    refine ⟨?_, ?_⟩
    · have h1 := setTag_tag_other ((h2.setTag d f).orFlags (allFlags ((acts.map (fun e => (e, res e))).map Prod.snd))) d r t hne
      have h3 := setTag_tag_other h2 d r f hne
      have h4 : h2.tag r = h.tag r := by unfold Hart.tag; rw [ht]
      exact h1.trans (h3.trans h4)
    · rw [finished_plane]
      change h2.plane r k = _
      rw [hp3 r k hr, if_neg (fun q => hne q.1)]
      unfold Hart.plane Hart.vset
      split
      · exact Cells.get_set_other _ _ _ _ hne
      · rfl
  · rw [hr2]
    rfl

theorem Tab.put_put {α : Type} (t : Tab α) (k : Nat) (v w : α) : Tab.put (Tab.put t k v) k w = Tab.put t k w := by
  induction t with
  | nil => simp [Tab.put]
  | cons p r ih =>
    obtain ⟨q, x⟩ := p
    simp only [Tab.put]
    by_cases h1 : k < q
    · simp [h1, Tab.put]
    · by_cases h2 : q = k
      · simp [h2, Tab.put]
      · simp [h1, h2, Tab.put, ih]

theorem setTag_setTag (h : Hart) (d : Nat) (f t : Fmt) (fl : Flags) (e : t = f) :
    ((h.setTag d f).orFlags fl).setTag d t = (h.setTag d f).orFlags fl := by
  subst e
  unfold Hart.setTag Hart.orFlags Cells.set
  split
  · simp only [Hart.mk.injEq, true_and, and_true]
    induction h.tags with
    | nil => rfl
    | cons p r ih =>
      obtain ⟨q, x⟩ := p
      simp only [Tab.del]
      by_cases g : q = d
      · simp [g, ih]
      · simp [g, Tab.del, ih]
  · simp [Tab.put_put]

theorem unitsHart_setTag (put : VReg → List (Nat × Nat) → VReg) (d : Nat) (f : Fmt) (acts : List Nat) (res : Nat → Nat × Flags)
    (tan : Nat → Nat → Nat) (h : Hart) : (unitsHart put d f acts res tan h).setTag d f = unitsHart put d f acts res tan h :=
  setTag_setTag _ d f f _ rfl

theorem setMe_onlyMine (s : State) (h : Hart) : s.onlyMine (s.setMe h) :=
  ⟨rfl, fun k e => Tab.find_put_other s.harts s.cur k h e⟩

theorem waited_onlyMine {s : State} {w : Nat} (hr : s.ready w) (h : Hart) : s.onlyMine ((s.waited w).setMe h) := by
  refine ⟨?_, fun k e => ?_⟩
  · rcases waited_cases hr with e | ⟨_, _, e⟩ <;> rw [e] <;> rfl
  · have : ((s.waited w).setMe h).harts.find k = (s.waited w).harts.find k := by
      refine Tab.find_put_other _ _ k h ?_
      rw [waited_cur hr]; exact e
    rw [this, waited_find hr e]

theorem setMe_setMe (t : State) (h g : Hart) : (t.setMe h).setMe g = t.setMe g := by
  unfold State.setMe State.setHart
  simp [Tab.put_put]

@[simp] theorem me_cv (s : State) (c : Option Convoy) : ({ s with cv := c } : State).me = s.me := rfl

/-- A convoy that has changed the hart to `h'`, with no mask and no push to make, completes. -/
theorem complete_hart (len : Nat) (t : State) (c : Option Convoy) (n : Nat) (x : Tab Hart) (h' : Hart) (hv : t.cv = none) :
    completeConvoy len { (({ t with cv := c } : State).setMe h') with cv := some { idx := n, seen := x } } =
      t.setMe ({ h'.unchained with csr := { h'.csr with vstart := 0 } }.done len) := by
  unfold completeConvoy
  simp only [List.foldl_nil, Option.getD_some, Hart.pushed_nil]
  rw [me_cv, State.me_setMe]
  have e2 : ({ t with cv := none } : State) = t := by rw [← hv]
  rw [show ({ ({ (({ t with cv := c } : State).setMe h') with cv := some { idx := n, seen := x } } : State) with cv := none } : State)
    = ({ t with cv := none } : State).setMe h' from rfl, e2, setMe_setMe]

/-- A vector instruction alone in its convoy whose member changes the hart to `h'`, whatever it noted of earlier members. -/
theorem vec_hart_seen {i : Instr} {f : Member} {s : State} {h' : Hart} {x : Tab Hart} (hg : s.goes i)
    (hf : f (s.opened i) = ({ s.waited (instrWtk i) with cv := some { seen := x } } : State).setMe h') :
    vec i f s = .next (s.vdone i (fun _ => h')) := by
  obtain ⟨hv, hr, hi⟩ := hg
  rw [vec_alone hv hr hi hf rfl rfl (by simp [hasRoom, span])]
  congr 1
  exact complete_hart _ (s.waited (instrWtk i)) (some { seen := x }) 1 x h' (by rw [waited_cv hr]; exact hv)

/-- A vector instruction alone in its convoy whose member changes the hart to `h'`. -/
theorem vec_hart {i : Instr} {f : Member} {s : State} {h' : Hart} (hg : s.goes i)
    (hf : f (s.opened i) = (s.opened i).setMe h') : vec i f s = .next (s.vdone i (fun _ => h')) :=
  vec_hart_seen (x := []) hg hf

/-- A vector instruction alone in its convoy that writes units. -/
theorem vec_sets_seen {i : Instr} {m : Member} {s : State} {d : BitVec 6} {f t : Fmt} {es : List Nat} {on : Nat → Bool}
    {res : Nat → Nat × Flags} {tan : Nat → Nat → Nat} {put : VReg → List (Nat × Nat) → VReg} (hput : Puts put f t) (hg : s.goes i) (he : exec i s = vec i m s) {x : Tab Hart}
    (hf : m (s.opened i) = ({ s.waited (instrWtk i) with cv := some { seen := x } } : State).setMe
      ((unitsHart put d.toNat f es res tan (s.waited (instrWtk i)).me).setTag d.toNat t))
    (hon : ∀ e, held f e = true → (on e = true ↔ e ∈ es))
    (hfl : ∀ e, e < s.me.csr.vl → ∀ b, (on e && (res e).2.getLsbD b) = (decide (e ∈ es) && (res e).2.getLsbD b))
    (hvl : ∀ e ∈ es, e < s.me.csr.vl) : VecSets i s d f t on res tan := by
  refine ⟨_, he.trans (vec_hart_seen hg hf), waited_onlyMine hg.2.1 _, ?_⟩
  unfold State.vdone
  rw [State.me_setMe]
  exact unitsHart_result (instrLen i) (s.waited (instrWtk i)).me d.toNat d.isLt f t put hput es on res tan hon
    (by rw [waited_csr_vl hg.2.1]; exact hfl) (by rw [waited_csr_vl hg.2.1]; exact hvl) _ rfl

/-- As `vec_sets_seen`, for a member that notes nothing. -/
theorem vec_sets {i : Instr} {m : Member} {s : State} {d : BitVec 6} {f t : Fmt} {es : List Nat} {on : Nat → Bool}
    {res : Nat → Nat × Flags} {tan : Nat → Nat → Nat} (ht : t = f ∨ isGx f = false) (hg : s.goes i) (he : exec i s = vec i m s)
    (hf : m (s.opened i) = (s.opened i).setMe
      ((unitsHart (putUnits f) d.toNat f es res tan (s.waited (instrWtk i)).me).setTag d.toNat t))
    (hon : ∀ e, held f e = true → (on e = true ↔ e ∈ es))
    (hfl : ∀ e, e < s.me.csr.vl → ∀ b, (on e && (res e).2.getLsbD b) = (decide (e ∈ es) && (res e).2.getLsbD b))
    (hvl : ∀ e ∈ es, e < s.me.csr.vl) : VecSets i s d f t on res tan :=
  vec_sets_seen (x := []) (puts_units ht) hg he hf hon hfl hvl

/-! ## Active units -/

theorem mem_elemsUpTo {s : State} {n e : Nat} {x : Tab Hart} (h : s.cv = some { seen := x }) :
    e ∈ elemsUpTo s n ↔ s.me.csr.vstart ≤ e ∧ e < n := by
  unfold elemsUpTo range
  rw [h]
  constructor
  · intro q; have := mem_span q; simp only at this; omega
  · intro q; refine span_mem ?_; simp only; omega

theorem selects_opened {s : State} {m : BitVec 4} {b : Nat} {x : Tab Hart} (h : s.cv = some { seen := x }) :
    selects s m b = (m == 15 || maskBit (s.me.mask m.toNat) b) := by
  unfold selects maskOf
  rw [h]
  rfl

theorem mem_actives {s : State} {m : BitVec 4} {e : Nat} {f : Fmt} {x : Tab Hart} (h : s.cv = some { seen := x }) (hg : isGx f = false) :
    e ∈ actives s m ↔ s.activeUnit f m e = true := by
  unfold actives State.activeUnit
  rw [List.mem_filter, mem_elemsUpTo h, selects_opened h]
  simp [hg]

theorem mem_activesIn {s : State} {m : BitVec 4} {e : Nat} {f : Fmt} {x : Tab Hart} (h : s.cv = some { seen := x }) :
    e ∈ activesIn f s m ↔ s.activeUnit f m e = true := by
  unfold activesIn
  cases hg : isGx f
  · simpa using mem_actives h hg
  · unfold activeGroups State.activeUnit
    simp only [if_true]
    rw [List.mem_filter, mem_elemsUpTo h, selects_opened h]
    simp [hg]

theorem mem_bounded {s : State} {f : Fmt} {l : List Nat} {e : Nat} :
    e ∈ bounded f s l ↔ e ∈ l ∧ s.within f e = true := by
  unfold bounded State.within
  rw [List.mem_filter]

theorem activeUnit_waited {s : State} {w : Nat} (h : s.ready w) (c : Option Convoy) (f : Fmt) (m : BitVec 4) (e : Nat) :
    ({ s.waited w with cv := c } : State).activeUnit f m e = s.activeUnit f m e := by
  unfold State.activeUnit
  change (decide ((s.waited w).me.csr.vstart ≤ e ∧ e < (s.waited w).me.csr.vl) &&
    (m == 15 || maskBit ((s.waited w).me.mask m.toNat) _)) = _
  rw [waited_csr_vl h, waited_csr_vstart h, waited_mask h]

@[simp] theorem activeUnit_opened {s : State} {i : Instr} (h : s.ready (instrWtk i)) (f : Fmt) (m : BitVec 4) (e : Nat) :
    (s.opened i).activeUnit f m e = s.activeUnit f m e := activeUnit_waited h _ f m e

theorem within_waited {s : State} {w : Nat} (h : s.ready w) (c : Option Convoy) (f : Fmt) (e : Nat) :
    ({ s.waited w with cv := c } : State).within f e = s.within f e := by
  unfold State.within
  change decide (e < maxVl f (s.waited w).me.cap) = _
  rw [waited_cap h]

@[simp] theorem within_opened {s : State} {i : Instr} (h : s.ready (instrWtk i)) (f : Fmt) (e : Nat) :
    (s.opened i).within f e = s.within f e := within_waited h _ f e

theorem activeUnit_lt {s : State} {f : Fmt} {m : BitVec 4} {e : Nat} (h : s.activeUnit f m e = true) : e < s.me.csr.vl := by
  unfold State.activeUnit at h
  simp only [Bool.and_eq_true, decide_eq_true_eq] at h
  exact h.1.2

theorem badFormat_gx {k : Kind} {fa fd : Fmt} (h : badFormat k fa fd = false) : isGx fa = false ∧ isGx fd = false := by
  unfold badFormat at h
  simp only [Bool.or_eq_false_iff] at h
  exact ⟨h.1.1, h.1.2⟩

theorem formatTrap_none {k : Kind} {fa fd : Fmt} {h : Hart} {first : Nat} {rs : List Nat}
    (e : formatTrap k fa fd h first rs = none) : badFormat k fa fd = false := by
  unfold formatTrap at e
  split at e
  · cases e
  · next g => simpa using g

/-- An instruction with an element loop. -/
theorem eltIn_writes {i : Instr} {env : State → VEnv} {k : Kind} {d : BitVec 6} {rs : List Nat} {m : BitVec 4}
    {f : VEnv → Nat → Nat × Flags} {t : VEnv → Nat → Nat → Nat → Nat}
    (he : ∀ s, exec i s = vec i (eltIn env k d.toNat rs m f t) s)
    (henv : ∀ (s : State) c, env { s with cv := c } = env s) (hh : ∀ s, (env s).h = s.me) :
    VecWrites i env k rs d m VEnv.fd f t := by
  intro s hg
  have hr := hg.2.1
  dsimp only
  have hv : env (s.opened i) = env (s.waited (instrWtk i)) := henv _ _
  split
  · next r hf =>
    rw [he, vec_whole hg.1 hg.2.1 hg.2.2]
    unfold eltIn checked
    simp only [hv, opened_me]
    rw [hh] at hf
    rw [hf]
  · next hf =>
    have hx := (badFormat_gx (formatTrap_none hf)).2
    refine vec_sets (es := bounded (env (s.waited (instrWtk i))).fd (s.opened i)
      (actives (s.opened i) m)) (.inl rfl) hg (he s) ?_ ?_ ?_ ?_
    · unfold eltIn checked
      simp only [hv, opened_me]
      rw [hh] at hf
      rw [hf]
      simp only
      rw [writeElems_eq _ _ _ _ _ _ hx, opened_me, unitsHart_setTag]
    · intro e _
      rw [mem_bounded, mem_actives (x := []) (f := (env (s.waited (instrWtk i))).fd) rfl hx, activeUnit_opened hr, within_opened hr]
      simp
    · intro e _ b
      congr 1
      rw [Bool.eq_iff_iff, decide_eq_true_eq, mem_bounded, mem_actives (x := []) (f := (env (s.waited (instrWtk i))).fd) rfl hx,
        activeUnit_opened hr, within_opened hr]
      simp
    · intro e hm
      rw [mem_bounded, mem_actives (x := []) (f := (env (s.waited (instrWtk i))).fd) rfl hx, activeUnit_opened hr] at hm
      exact activeUnit_lt hm.1

/-- A member that writes the active units of its destination's format. -/
theorem vec_sets_active {i : Instr} {m : Member} {s : State} {d : BitVec 6} {f t : Fmt} {mk : BitVec 4}
    {res : Nat → Nat × Flags} {tan : Nat → Nat → Nat} (ht : t = f ∨ isGx f = false) (hg : s.goes i) (he : exec i s = vec i m s)
    (hf : m (s.opened i) = (s.opened i).setMe
      ((unitsHart (putUnits f) d.toNat f (bounded f (s.opened i) (activesIn f (s.opened i) mk)) res tan
        (s.waited (instrWtk i)).me).setTag d.toNat t)) :
    VecSets i s d f t (fun e => s.activeUnit f mk e && s.within f e) res tan := by
  have hr := hg.2.1
  have hm : ∀ e, e ∈ bounded f (s.opened i) (activesIn f (s.opened i) mk) ↔ s.activeUnit f mk e = true ∧ s.within f e = true := by
    intro e; rw [mem_bounded, mem_activesIn (x := []) rfl, activeUnit_opened hr, within_opened hr]
  refine vec_sets ht hg he hf (fun e _ => ?_) (fun e _ b => ?_) (fun e h => activeUnit_lt ((hm e).mp h).1)
  · rw [hm]; simp
  · congr 1
    rw [Bool.eq_iff_iff, decide_eq_true_eq, hm]; simp

/-- Only the results of the units written matter. -/
theorem unitsHart_congr (put : VReg → List (Nat × Nat) → VReg) (d : Nat) (f : Fmt) (es : List Nat) (res res' : Nat → Nat × Flags)
    (tan tan' : Nat → Nat → Nat) (h : Hart) (hr : ∀ e ∈ es, res e = res' e) (ht : ∀ k, ∀ e ∈ es, tan k e = tan' k e) :
    unitsHart put d f es res tan h = unitsHart put d f es res' tan' h := by
  have e1 : es.map (fun e => (e, res e)) = es.map (fun e => (e, res' e)) :=
    List.map_congr_left (fun e he => by rw [hr e he])
  have e2 : ∀ k, (es.map (fun e => (e, res' e))).map (fun p => (p.1, tan k p.1)) =
      (es.map (fun e => (e, res' e))).map (fun p => (p.1, tan' k p.1)) := by
    intro k
    refine List.map_congr_left (fun p hp => ?_)
    obtain ⟨e, he, rfl⟩ := List.mem_map.mp hp
    rw [ht k e he]
  unfold unitsHart
  simp only [e1, e2]

theorem find_pairs (es : List Nat) (g : Nat → Option (Nat × Nat)) (e : Nat) (h : e ∈ es) :
    (es.map (fun e => (e, g e))).find? (fun p => p.1 == e) = some (e, g e) := by
  induction es with
  | nil => cases h
  | cons a r ih =>
    rw [List.map_cons, List.find?_cons]
    by_cases q : a = e
    · subst q; simp
    · rcases List.mem_cons.mp h with x | x
      · exact absurd x.symm q
      · rw [show (a == e) = false by simpa using q]; exact ih x

/-- An element mover alone in its convoy (R152-R158). -/
theorem mover_moves {i : Instr} {s : State} {d : BitVec 6} {rs : List Nat} {index : Option Nat}
    {ps : Hart → State → List (Nat × Option (Nat × Nat))} {es : List Nat} {on : Nat → Bool} {origin : Nat → Option (Nat × Nat)}
    (he : exec i s = vec i (mover d.toNat rs index ps) s)
    (hix : index.any (fun r => !isInt (s.me.tag r)) = false)
    (hps : s.goes i → ∀ x, ps (s.waited (instrWtk i)).me { s.waited (instrWtk i) with cv := some { seen := x } } =
      es.map (fun e => (e, origin e)))
    (hon : ∀ e, on e = true ↔ e ∈ es) (hvl : ∀ e ∈ es, e < s.me.csr.vl) : Moves i s d rs on origin := by
  intro hg
  dsimp only
  intro hb
  have hr := hg.2.1
  have hcf : (s.waited (instrWtk i)).me.cf = s.me.cf := waited_h_cf hr
  refine vec_sets_seen (x := [(0, (s.waited (instrWtk i)).me)]) (es := es) (puts_units (.inl rfl)) hg he ?_ (fun e _ => hon e) (fun e _ b => ?_) hvl
  · have h1 : mover d.toNat rs index ps (s.opened i) =
        writeUnits d.toNat s.me.cf es (fun e => s.taken (s.waited (instrWtk i)).me 0 (origin e))
          (fun k e => if isInt s.me.cf then 0 else (s.taken (s.waited (instrWtk i)).me k (origin e)).1)
          { s.waited (instrWtk i) with cv := some { seen := [(0, (s.waited (instrWtk i)).me)] } } := by
      unfold mover wholeMember
      simp only [opened_cv, Tab.find, sighted_opened, Tab.put]
      have e0 : ({ (s.opened i) with cv := some { seen := [(0, (s.waited (instrWtk i)).me)] } } : State) =
        { s.waited (instrWtk i) with cv := some { seen := [(0, (s.waited (instrWtk i)).me)] } } := rfl
      simp only [e0, me_cv, hcf, hb]
      have hix' : index.any (fun r => !isInt ((s.waited (instrWtk i)).me.tag r)) = false := by
        simpa only [waited_tag hr] using hix
      rw [if_neg (by rw [hix']; simp), hps hg, waited_cap hr]
      have hm : (es.map (fun e => (e, origin e))).map Prod.fst = es := by
        rw [List.map_map]; exact List.map_id _
      rw [hm, writeUnits_eq, writeUnits_eq]
      congr 1
      refine unitsHart_congr _ _ _ _ _ _ _ _ _ (fun e he => ?_) (fun k e he => ?_)
      · rw [find_pairs es origin e he]
        unfold State.taken State.within
        cases origin e with
        | none => rfl
        | some p =>
          simp only [decide_eq_true_eq]
      · rw [find_pairs es origin e he]
        unfold State.taken State.within
        congr 1
        cases origin e with
        | none => rfl
        | some p =>
          simp only [decide_eq_true_eq]
    rw [h1, writeUnits_eq, unitsHart_setTag]
    rfl
  · congr 1
    rw [Bool.eq_iff_iff, decide_eq_true_eq]; exact hon e

theorem mem_activesBy {s : State} {g : Hart} {f : Fmt} {m : BitVec 4} {e : Nat} {x : Tab Hart} (h : s.cv = some { seen := x })
    (hm : g.mask m.toNat = s.me.mask m.toNat) : e ∈ activesBy g f s m ↔ s.activeUnit f m e = true := by
  unfold activesBy State.activeUnit pickedBy
  rw [List.mem_filter, mem_elemsUpTo h, hm]
  simp

theorem mem_activesBy_seen {s : State} {w : Nat} (hr : s.ready w) (f : Fmt) (m : BitVec 4) (x : Tab Hart) (e : Nat) :
    e ∈ activesBy (s.waited w).me f ({ s.waited w with cv := some { seen := x } } : State) m ↔ s.activeUnit f m e = true := by
  rw [← activeUnit_waited hr (some { seen := x })]
  exact mem_activesBy rfl rfl

theorem span_eq_map : ∀ e lo, span lo e = (List.range e).map (fun i => lo + i) := by
  intro e
  induction e with
  | zero => intro lo; rfl
  | succ e ih =>
    intro lo
    rw [List.range_succ_eq_map]
    simp [span, ih, Function.comp_def]
    intros
    omega

theorem span_zero_eq (e : Nat) : span 0 e = List.range e := by rw [span_eq_map]; simp

theorem selectedBy_seen {s : State} {w : Nat} (hr : s.ready w) (m : BitVec 4) (x : Tab Hart) :
    selectedBy (s.waited w).me s.me.cf ({ s.waited w with cv := some { seen := x } } : State) m = s.chosen s.me.cf m := by
  unfold selectedBy State.chosen pickedBy
  simp only [me_cv, waited_csr_vl hr, span_zero_eq, waited_mask hr]

theorem allActive_seen {s : State} {w : Nat} (hr : s.ready w) (m : BitVec 4) (x : Tab Hart) :
    allActive (s.waited w).me ({ s.waited w with cv := some { seen := x } } : State) m =
      (List.range s.me.csr.vl).filter (fun e => m == 15 || maskBit (s.me.mask m.toNat) e) := by
  unfold allActive
  simp only [me_cv, waited_csr_vl hr, span_zero_eq, waited_mask hr]

/-- A whole-vector member alone in its convoy reads its own hart. -/
theorem wholeMember_opened (f : Hart → Member) (s : State) (i : Instr) :
    wholeMember f (s.opened i) = f (s.waited (instrWtk i)).me
      { s.waited (instrWtk i) with cv := some { seen := [(0, (s.waited (instrWtk i)).me)] } } := rfl

/-- A member that reads beyond its own element, alone in its convoy, reads its own hart. -/
theorem scaledMember_opened (ready : State → Nat → Nat) (f : Hart → Member) (s : State) (i : Instr) :
    scaledMember ready f (s.opened i) = f (s.waited (instrWtk i)).me
      { s.waited (instrWtk i) with cv := some { seen := [(0, (s.waited (instrWtk i)).me)] } } := rfl

/-- How a bitwise member writes its units: plainly where the tag it leaves makes them no groups of `f` (R138). -/
def putBitwise (f t : Fmt) : VReg → List (Nat × Nat) → VReg :=
  if isGx f && !(t == f) then fun v l => putElems v (gxBits f) l else putUnits f

theorem puts_bitwise (f t : Fmt) : Puts (putBitwise f t) f t := by
  unfold putBitwise
  split
  · next h =>
    simp only [Bool.and_eq_true, Bool.not_eq_true', beq_eq_false_iff_ne] at h
    exact puts_lanes h.1 h.2
  · next h =>
    refine puts_units ?_
    cases hg : isGx f
    · exact .inr rfl
    · simp only [hg, Bool.true_and, Bool.not_eq_true', Bool.not_eq_false, beq_iff_eq] at h
      exact .inl h

theorem orFlags_none (h : Hart) (l : List Nat) (g : Nat → Nat) :
    h.orFlags (allFlags ((l.map (fun e => (e, (g e, (0 : Flags))))).map Prod.snd)) = h := by
  have : allFlags ((l.map (fun e => (e, (g e, (0 : Flags))))).map Prod.snd) = 0 := by
    apply BitVec.eq_of_getLsbD_eq
    intro i _
    rw [allFlags_bit]
    simp
  rw [this]
  unfold Hart.orFlags
  simp

/-- The effect of a bitwise member on the sources of its own hart (R138). -/
theorem bitwiseOf_eq (o : OpV) (f : Nat → Nat → Nat) (s : State) :
    let fd := fdOf o.x s.me
    let t := if xfOf o.x then fd else s.me.tag o.a.toNat
    bitwiseOf o f s.me s = s.setMe ((unitsHart (putBitwise fd t) o.d.toNat fd (bounded fd s (activesBy s.me fd s o.m))
      (fun e => (f (rawUnit fd (s.me.vget o.a.toNat) e) (rawUnit fd (s.me.vget o.b.toNat) e), 0))
      (fun _ _ => 0) s.me).setTag o.d.toNat t) := by
  unfold bitwiseOf
  dsimp only
  generalize fdOf o.x s.me = fd
  generalize (if xfOf o.x then fd else s.me.tag o.a.toNat) = t
  cases hx : isGx fd
  · rw [if_neg (by simp), writeElems_eq _ _ _ _ _ _ hx, State.me_setMe, setMe_setMe]
    simp only [hx, rawUnit, putBitwise, Bool.false_and]
    rfl
  · by_cases ht : t = fd
    · rw [if_pos rfl, if_pos ht, writeGroups_eq _ _ _ _ _ _ hx, State.me_setMe, setMe_setMe]
      simp only [hx, rawUnit, putBitwise, ht]
      simp
    · rw [if_pos rfl, if_neg ht]
      unfold writeLanes
      rw [State.me_setMe, setMe_setMe]
      have hb : (t == fd) = false := by simpa using ht
      simp only [hx, rawUnit, putBitwise, hb, Bool.not_false, Bool.and_self, if_true]
      unfold unitsHart
      simp only [orFlags_none]
      simp [List.map_map, Function.comp_def]

/-- Masks and pushes of a member that changes nothing else take effect at completion (R129). -/
theorem vec_ctl {i : Instr} {f : Member} {s : State} {cm : Tab MReg} {ps : List (Nat × W64)} (hg : s.goes i)
    (hf : f (s.opened i) =
      ({ s.waited (instrWtk i) with cv := some { cmasks := cm, pushes := ps } } : State))
    (hq : hasRoom (s.waited (instrWtk i)).me ps = true) :
    vec i f s = .next (s.vdone i (fun h => ps.foldl (fun h p => h.setQueue p.1 (h.queue p.1 ++ [p.2]))
      (cm.foldl (fun h p => h.setMask p.1 p.2) h))) := by
  obtain ⟨hv, hr, hi⟩ := hg
  rw [vec_alone hv hr hi hf rfl rfl hq]
  congr 1
  unfold completeConvoy State.vdone
  have e2 : ({ s.waited (instrWtk i) with cv := none } : State) = s.waited (instrWtk i) := by
    have : (s.waited (instrWtk i)).cv = none := by rw [waited_cv hr]; exact hv
    rw [← this]
  simp only [Option.getD_some]
  rw [show ∀ c, ({ ({ s.waited (instrWtk i) with cv := c } : State) with cv := none } : State) =
    { s.waited (instrWtk i) with cv := none } from fun _ => rfl, e2]
  rfl

/-- A queue of fewer than sixteen has room for one push. -/
theorem hasRoom_one (h : Hart) (q : Nat) (v : W64) (hl : (h.queue q).length < 16) : hasRoom h [(q, v)] = true := by
  unfold hasRoom
  simp only [List.all_eq_true]
  intro k _
  by_cases e : q = k
  · subst e; simp; omega
  · simp [e]

/-! ## Convoys of several members -/

/-- A convoy that is not under way member by member, and need not be, runs as one unit. -/
theorem runMembers_unit {fs look : List Member} {whole : List Bool} {is : List Instr} {len wtk : Nat} {s u : State}
    (hg : gate wtk s = .ok u) (hp : u.me.part = none) (hd : stagedDue fs whole is u = false) :
    runMembers fs look whole is len wtk s = runConvoy fs whole is len wtk s := by
  unfold runMembers
  simp only [hg, hp, hd, Bool.false_eq_true, if_false]

/-- A convoy whose registers are there and that stops nowhere need not go member by member. -/
theorem stagedDue_none {fs : List Member} {whole : List Bool} {is : List Instr} {s : State} (hr : regsHere s is = true)
    (hs : (settle fs whole s (2 * fs.length) none [] none).2 = none) : stagedDue fs whole is s = false := by
  unfold stagedDue
  simp [hr, hs, Stop.parks]

/-- A convoy under way goes on with the member at which it waits. -/
theorem runMembers_on {fs look : List Member} {whole : List Bool} {is : List Instr} {len wtk : Nat} {s u : State} {p : Part}
    (hg : gate wtk s = .ok u) (hp : u.me.part = some p) :
    runMembers fs look whole is len wtk s = stagedOn len (List.zip fs is) p u := by
  unfold runMembers
  simp only [hg, hp]

end Sys2Proof.Machine
end

