-- ==== Sys2Proof/Laws/Keeps.lean ====
section
/-! SUPPORT. What an instruction under way keeps, what a completed convoy and a re-emitted token drop, and invalidations. -/

namespace Sys2Proof.Machine

/-! ## Captured accesses -/

@[simp] theorem State.capture_mem (s : State) (j n v : Nat) : (s.capture j n v).mem = s.mem := rfl
@[simp] theorem State.capture_fe (s : State) (j n v : Nat) : (s.capture j n v).fe = s.fe := rfl
@[simp] theorem State.capture_ecc (s : State) (j n v : Nat) : (s.capture j n v).ecc = s.ecc := rfl
@[simp] theorem State.capture_cores (s : State) (j n v : Nat) : (s.capture j n v).cores = s.cores := rfl
@[simp] theorem State.capture_remote (s : State) (j n v : Nat) : (s.capture j n v).remote = s.remote := rfl
@[simp] theorem State.capture_cur (s : State) (j n v : Nat) : (s.capture j n v).cur = s.cur := rfl

theorem State.capture_me (s : State) (j n v : Nat) :
    (s.capture j n v).me = { s.me with remote := s.me.remote.put j ⟨n, some (v, 0)⟩ } := by
  unfold State.capture
  exact State.me_setMe _ _

@[simp] theorem captured_capture (s : State) (j n v : Nat) : captured (s.capture j n v).me j = some v := by
  simp [captured, State.capture_me, Tab.find_put_same]

/-- What has been captured is not read again. -/
theorem once_captured {s : State} {j x : Nat} (h : captured s.me j = some x) (r : Except State (State × Nat)) :
    s.once j r = .ok (s, x) := by simp [State.once, h]

/-- A first read that succeeds is captured. -/
theorem once_first {s t : State} {j x : Nat} (h : captured s.me j = none) :
    s.once j (.ok (t, x)) = .ok (t.capture j 0 x, x) := by simp [State.once, h]

/-- A first read that stops, stops the instruction. -/
theorem once_stop {s t : State} {j : Nat} (h : captured s.me j = none) : s.once j (.error t) = .error t := by
  simp [State.once, h]

/-- A block that has been formed is written as it was formed. -/
theorem postOnce_formed {s : State} {n v : Nat} {f : Flags} (h : s.me.remote.find 0 = some ⟨n, some (v, f)⟩) (len a : Nat)
    (first : (Nat → Nat → State) → State) : postOnce s len a first = postBlock s len a n v := by simp [postOnce, h]

/-! ## Convoys and tokens -/

@[simp] theorem Hart.unchained_regs (h : Hart) : h.unchained.regs = h.regs := rfl
@[simp] theorem Hart.unchained_v (h : Hart) : h.unchained.v = h.v := rfl
@[simp] theorem Hart.unchained_planes (h : Hart) : h.unchained.planes = h.planes := rfl
@[simp] theorem Hart.unchained_tags (h : Hart) : h.unchained.tags = h.tags := rfl
@[simp] theorem Hart.unchained_masks (h : Hart) : h.unchained.masks = h.masks := rfl
@[simp] theorem Hart.unchained_csr (h : Hart) : h.unchained.csr = h.csr := rfl
@[simp] theorem Hart.unchained_pc (h : Hart) : h.unchained.pc = h.pc := rfl

/-- A completed convoy leaves no partial tangents of its own. -/
theorem Hart.unchained_chains (h : Hart) : ∀ c ∈ h.unchained.chains, c.pc ≠ h.pc := by
  intro c hc
  simpa [Hart.unchained] using (List.mem_filter.mp hc).2

@[simp] theorem Token.again_pending (t : Token) : t.again.pending = true := rfl
@[simp] theorem Token.again_failed (t : Token) : t.again.failed = false := rfl
@[simp] theorem Token.again_work (t : Token) : t.again.work = t.work := rfl

/-- Of a re-emitted token no copy from the failed one on counts as done. -/
theorem Token.again_done (t : Token) : ∀ j ∈ t.again.done, j < t.failJ := by
  intro j hj
  simpa [Token.again] using (List.mem_filter.mp hj).2

/-! ## Invalidations -/

@[simp] theorem callBack_mem (s : State) (p slot : Nat) (q : Nat → Bool) : (callBack s p slot q).mem = s.mem := rfl
@[simp] theorem callBack_cores (s : State) (p slot : Nat) (q : Nat → Bool) : (callBack s p slot q).cores = s.cores := rfl

/-- An invalidation waits, or goes on in a state in which no request on its way is translated for its addresses. -/
theorem invalidated_cases (s : State) (slot : Nat) (q : Nat → Bool) (k : State → State) :
    (∃ t : State, invalidated s slot q k = t.hold wOrder) ∨
    (invalidated s slot q k = k (callBack s s.myPkg slot q) ∧
      ∀ e ∈ (callBack s s.myPkg slot q).remote, e.2.under (callBack s s.myPkg slot q) s.myPkg slot q = false) := by
  simp only [invalidated]
  split
  · exact .inl ⟨_, rfl⟩
  · next h => exact .inr ⟨rfl, by simpa using h⟩

end Sys2Proof.Machine
end

