-- ==== Sys2Proof/Laws/Mem.lean ====
section
/-! SUPPORT. Every operation over memory keeps its canonical form, and what it changes. -/

namespace Sys2Proof.Machine

/-! ## Clearing a run of cells -/

theorem Tab.find_filter_keep {α : Type} (t : Tab α) (f : Nat → Bool) (k : Nat) (h : f k = true) :
    Tab.find (List.filter (fun p => f p.1) t) k = Tab.find t k := by
  induction t with
  | nil => rfl
  | cons p r ih =>
    obtain ⟨q, v⟩ := p
    by_cases e : q = k
    · subst e; simp [List.filter, h, Tab.find]
    · by_cases g : f q = true
      · simp only [List.filter, g, Tab.find, if_neg e]; exact ih
      · simp only [List.filter, g, Tab.find, if_neg e]; exact ih

theorem Tab.find_filter_drop {α : Type} (t : Tab α) (f : Nat → Bool) (k : Nat) (h : f k = false) :
    Tab.find (List.filter (fun p => f p.1) t) k = none := by
  induction t with
  | nil => rfl
  | cons p r ih =>
    obtain ⟨q, v⟩ := p
    by_cases g : f q = true
    · have e : q ≠ k := by intro e; rw [e, h] at g; cases g
      simp only [List.filter, g, Tab.find, if_neg e]; exact ih
    · simp only [List.filter, g]; exact ih

theorem Cells.get_clear_outside {w : Nat} (c : Cells w) (lo hi k : Nat) (h : k < lo ∨ hi ≤ k) :
    Cells.get (Cells.clear c lo hi) k = Cells.get c k := by
  unfold Cells.get Cells.clear
  rw [Tab.find_filter_keep c (fun q => !(decide (lo ≤ q) && decide (q < hi))) k]
  rcases h with h | h
  · have : ¬lo ≤ k := by omega
    simp [this]
  · have : ¬k < hi := by omega
    simp [this]

theorem Cells.get_clear_inside {w : Nat} (c : Cells w) (lo hi k : Nat) (h : lo ≤ k ∧ k < hi) :
    Cells.get (Cells.clear c lo hi) k = 0 := by
  unfold Cells.get Cells.clear
  rw [Tab.find_filter_drop c (fun q => !(decide (lo ≤ q) && decide (q < hi))) k]
  simp [h.1, h.2]

/-! ## Storing bytes -/

theorem inRuns_append (a b : List (Nat × Nat)) (k : Nat) : inRuns (a ++ b) k = (inRuns a k || inRuns b k) := by
  simp [inRuns]

/-- A store takes the bytes it writes out of a region's nodes, and no others. -/
theorem noLayout_touch (r : Region) (hdr k n q : Nat) :
    (r.touch k n).noLayout hdr q =
      (r.noLayout hdr q && !(decide (k ≤ q) && decide (q < k + n))) := by
  unfold Region.touch
  split
  · simp only [Region.noLayout, inRuns_append]
    simp only [inRuns, List.any_cons, List.any_nil, Bool.or_false]
    cases List.any r.runs _ <;> cases (decide (hdr ≤ q) && decide (q < hdr + 128)) <;>
      cases List.any r.raw _ <;> simp
  · rename_i h
    by_cases c : decide (k ≤ q) && decide (q < k + n)
    · simp only [Bool.and_eq_true, decide_eq_true_eq] at c
      have : inRuns r.runs q = false := by
        simp only [inRuns, List.any_eq_false]
        intro x hx g
        apply h
        simp only [Bool.and_eq_true, decide_eq_true_eq] at g
        rw [List.any_eq_true]
        exact ⟨x, hx, by simp only [Bool.and_eq_true, decide_eq_true_eq]; omega⟩
      simp [Region.noLayout, this]
    · simp only [Bool.not_eq_true] at c
      simp [c]

theorem find_map_same {α β : Type} (l : List (Nat × α)) (f : α → β) (p : Nat × α → Bool) (q : Nat × β → Bool)
    (h : ∀ e ∈ l, q (e.1, f e.2) = p e) :
    (l.map (fun e => (e.1, f e.2))).find? q = (l.find? p).map (fun e => (e.1, f e.2)) := by
  induction l with
  | nil => rfl
  | cons a r ih =>
    simp only [List.map_cons, List.find?_cons, h a (List.mem_cons_self ..)]
    cases p a
    · exact ih (fun e he => h e (List.mem_cons_of_mem _ he))
    · rfl

theorem touch_ver (r : Region) (k n : Nat) : (r.touch k n).ver = r.ver := by
  unfold Region.touch; split <;> rfl

/-- A byte outside a store is as before. -/
theorem byteAt_putMem_outside (s : State) (k n v q : Nat) (h : q < k ∨ k + n ≤ q) :
    (putMem s k n v).byteAt q = s.byteAt q := by
  unfold State.byteAt putMem
  dsimp only
  have c : (decide (k ≤ q) && decide (q < k + n)) = false := by
    rcases h with h | h
    · simp; omega
    · simp; omega
  rw [find_map_same s.regions (fun r => r.touch k n) (fun r => r.2.noLayout r.1 q)
    (fun r => r.2.noLayout r.1 q) (fun e _ => by simp [noLayout_touch, c])]
  cases List.find? (fun r => r.2.noLayout r.1 q) s.regions with
  | none => simp [Cells.get_store_outside _ _ _ _ _ h]
  | some e => simp [touch_ver]

/-- A byte of a store is the byte stored. -/
theorem byteAt_putMem_inside (s : State) (k n v i : Nat) (h : i < n) :
    (putMem s k n v).byteAt (k + i) = BitVec.ofNat 8 (v / 256 ^ i) := by
  unfold State.byteAt putMem
  dsimp only
  have : (List.map (fun e => (e.1, e.2.touch k n)) s.regions).find? (fun r => r.2.noLayout r.1 (k + i)) = none := by
    rw [List.find?_eq_none]
    intro e he
    obtain ⟨x, _, rfl⟩ := List.mem_map.mp he
    simp [noLayout_touch, h]
  rw [this]
  exact Cells.get_store_inside _ _ _ _ _ h

@[simp] theorem putMem_harts (s : State) (k n v : Nat) : (putMem s k n v).harts = s.harts := rfl
@[simp] theorem putMem_me (s : State) (k n v : Nat) : (putMem s k n v).me = s.me := rfl
@[simp] theorem putMem_cur (s : State) (k n v : Nat) : (putMem s k n v).cur = s.cur := rfl
@[simp] theorem putMem_fe (s : State) (k n v : Nat) : (putMem s k n v).fe = s.fe := rfl

/-! ## Pinned lines (R171) -/

/-- Pinning either does nothing or clears one block of a pool and counts it as pinned. -/
theorem pin_cases (s : State) (k : Nat) : pin s k = s ∨
    (2 ^ 60 ≤ k ∧ k < 2 ^ 61 ∧ ∃ c : CoreS,
      pin s k = { s.setCore ((k - 2 ^ 60) / 2 ^ 23) c with
        mem := s.mem.clear (k / 1024 * 1024) (k / 1024 * 1024 + 1024)
        fe := s.fe.clear (k / 1024 * 1024 / 16) (k / 1024 * 1024 / 16 + 64) }) := by
  unfold pin
  split
  · exact .inl rfl
  · rename_i h
    dsimp only
    split
    · refine .inr ⟨by omega, by omega,
        { s.core ((k - 2 ^ 60) / 2 ^ 23) with
          pinned := (s.core ((k - 2 ^ 60) / 2 ^ 23)).pinned ++ [(k - 2 ^ 60) % 2 ^ 23 / 1024] }, ?_⟩
      have e : poolKey ((k - 2 ^ 60) / 2 ^ 23) ((k - 2 ^ 60) % 2 ^ 23 / 1024 * 1024) = k / 1024 * 1024 := by
        unfold poolKey; omega
      rw [e]
    · exact .inl rfl

@[simp] theorem pin_harts (s : State) (k : Nat) : (pin s k).harts = s.harts := by
  rcases pin_cases s k with e | ⟨_, _, c, e⟩ <;> rw [e]; rfl
@[simp] theorem pin_cur (s : State) (k : Nat) : (pin s k).cur = s.cur := by
  rcases pin_cases s k with e | ⟨_, _, c, e⟩ <;> rw [e]; rfl
@[simp] theorem pin_me (s : State) (k : Nat) : (pin s k).me = s.me := by
  simp [State.me, State.hart]
@[simp] theorem pin_launches (s : State) (k : Nat) : (pin s k).launches = s.launches := by
  rcases pin_cases s k with e | ⟨_, _, c, e⟩ <;> rw [e]; rfl
@[simp] theorem pin_regions (s : State) (k : Nat) : (pin s k).regions = s.regions := by
  rcases pin_cases s k with e | ⟨_, _, c, e⟩ <;> rw [e]; rfl
@[simp] theorem pin_ecc (s : State) (k : Nat) : (pin s k).ecc = s.ecc := by
  rcases pin_cases s k with e | ⟨_, _, c, e⟩ <;> rw [e]; rfl
@[simp] theorem pin_cv (s : State) (k : Nat) : (pin s k).cv = s.cv := by
  rcases pin_cases s k with e | ⟨_, _, c, e⟩ <;> rw [e]; rfl
@[simp] theorem pin_myCore (s : State) (k : Nat) : (pin s k).myCore = s.myCore := by simp [State.myCore]
@[simp] theorem pin_myPkg (s : State) (k : Nat) : (pin s k).myPkg = s.myPkg := by simp [State.myPkg]

/-- A byte outside the block of a pinned line is as before. -/
theorem pin_get_outside (s : State) (k q : Nat) (h : k / 1024 ≠ q / 1024) :
    (pin s k).mem.get q = s.mem.get q := by
  rcases pin_cases s k with e | ⟨_, _, c, e⟩ <;> rw [e]
  exact Cells.get_clear_outside _ _ _ _ (by omega)

/-! ## Canonical form -/

theorem putMem_memOk {s : State} (k n v : Nat) (h : s.memOk = true) : (putMem s k n v).memOk = true := by
  simp only [State.memOk, Memory.wf, Bool.and_eq_true] at h ⊢
  exact ⟨⟨Cells.store_wf _ _ _ _ h.1.1, h.1.2⟩, Cells.filter_wf _ _ h.2⟩

theorem pin_memOk {s : State} (k : Nat) (h : s.memOk = true) : (pin s k).memOk = true := by
  rcases pin_cases s k with e | ⟨_, _, c, e⟩ <;> rw [e]
  · exact h
  · simp only [State.memOk, Memory.wf, Bool.and_eq_true] at h ⊢
    exact ⟨⟨Cells.clear_wf _ _ _ h.1.1, Cells.clear_wf _ _ _ h.1.2⟩, h.2⟩

theorem setFull_memOk {s : State} (k n : Nat) (h : s.memOk = true) : (setFull s k n).memOk = true := by
  unfold setFull
  split
  · simp only [State.memOk, Memory.wf, Bool.and_eq_true] at h ⊢
    exact ⟨⟨h.1.1, Cells.foldl_set_wf _ id (fun _ => 1) _ h.1.2⟩, h.2⟩
  · exact h

theorem setEmpty_memOk {s : State} (gs : List Nat) (h : s.memOk = true) : (setEmpty s gs).memOk = true := by
  simp only [State.memOk, Memory.wf, Bool.and_eq_true, setEmpty] at h ⊢
  exact ⟨⟨h.1.1, Cells.foldl_set_wf _ id (fun _ => 0) _ h.1.2⟩, h.2⟩

end Sys2Proof.Machine
end

