-- ==== Sys2Proof/Tests/Slice0.lean ====
section
/-!
SUPPORT. Tests: ill-formed terms that WellFormed refuses, words decoded, single steps on small states, and for every
statement with hypotheses a state and operands that meet them (test_hyp_<statement>). Expected values are computed by
hand from the rules named.
-/
namespace Sys2Proof.Tests

-- One proof at a time: the checks of this file are many and small, and each thread of Lean's own has a large stack.
set_option Elab.async false

open Sys2Proof Sys2Proof.Machine

/-! ## Small states -/

/-- Two harts of one team on core 0, pool boundaries set, phases counted at level 0, a FARM level above it. -/
def tLevels : List Level := [⟨2, 2, 0, false, true, 2⟩, ⟨8, 3, 2, true, false, 1⟩]

def tBlk : Lpb where
  entry := 0x100
  arg := 7
  dualn := 0
  planes := 2
  cls := 1
  cf := 8
  vctl := 0
  vlcap := 128
  deadline := 0
  lead := 1
  dlfault := false
  uhaddr := 0x200
  toff := [0, 0, 0, 0]
  bnd0 := 294912
  bnd1 := 299008
  bnd2 := 1323008
  event := 0
  levels := tLevels

def tLaunch : Launch where
  pkg := 0
  ctx := 0
  addr := 0x4000
  blk := tBlk
  cls := 1
  handle := 5
  queue := none
  teams := [(0, 0)]
  places := [(0, 0)]
  members := [(0, false), (1, false)]
  farms := []
  phases := []
  status := 1
  missed := false
  since := 0

def tHart (mid : Nat) : Hart := { launch := 1, mid := mid, cls := 1, nplanes := 2, pc := 0x100 }

/-- Hart 0 of core 0 executes; context 0 maps addresses below 2^29 to themselves for every access, and the vector unit
of address 0 too. -/
def usr (f : Hart → Hart) : State :=
  { State.reset with
    mem := [(0x10000, 0x1F)]
    harts := [(0, f (tHart 0)), (1, tHart 1)] ++ State.reset.harts
    cores := [(0, { bnd0 := 294912, bnd1 := 299008, bnd2 := 1323008, team := some (1, 0) })]
    ctxs := [(0, { live := true, sptb := 0x10000, vht := [(0, 13)], tdeleg := 0x18 })]
    launches := [(1, tLaunch)]
    cur := 0 }

/-- System hart 1536 executes. -/
def sys (f : Hart → Hart) : State :=
  { State.reset with harts := [(1536, f resetSystemHart)] ++ State.reset.harts.drop 1 }

/-- A hart with no token is ready for every mask. -/
theorem rdy {s : State} (h : s.me.tokens = []) (m : Nat) : s.ready m := by
  intro k _ _
  simp [Hart.token, h, Tab.getD, Tab.find]

theorem okOf {ε α : Type} [DecidableEq α] {r : Except ε α} {a : α}
    (h : (match r with | .ok b => decide (b = a) | .error _ => false) = true) : r = .ok a := by
  cases r with
  | error e => simp at h
  | ok b => exact congrArg _ (of_decide_eq_true h)

theorem someOk {ε α : Type} {r : Except ε α} (h : (match r with | .ok _ => true | .error _ => false) = true) :
    ∃ a, r = .ok a := by
  cases r with
  | error e => simp at h
  | ok b => exact ⟨b, rfl⟩

theorem errOf {ε α : Type} [DecidableEq ε] {r : Except ε α} {a : ε}
    (h : (match r with | .error b => decide (b = a) | .ok _ => false) = true) : r = .error a := by
  cases r with
  | ok e => simp at h
  | error b => exact congrArg _ (of_decide_eq_true h)

/-- The hart keeps the number that request j read. -/
def kept (s : State) (j x : Nat) : State := s.setMe { s.me with remote := s.me.remote.put j ⟨0, some (x, 0)⟩ }

/-- Scalar register r holds v, vector element e of register r. -/
def withRegs (l : List (BitVec 5 × W64)) (h : Hart) : Hart := l.foldl (fun h p => h.setReg p.1 p.2) h

/-! ## Hypotheses that are met: tokens, scalar instructions, CSRs -/

theorem test_hyp_TokenWait_pending : ∃ k, k < 8 ∧ Nat.testBit 8 k = true ∧
    ((usr (fun h => h.setToken 3 { pending := true })).me.token k).pending = true := ⟨3, by decide +kernel⟩

theorem test_hyp_TokenWait_failed :
    let s := usr (fun h => h.setToken 3 { failed := true })
    (∀ j, j < 8 → Nat.testBit 255 j = true → (s.me.token j).pending = false) ∧
    (∀ j, j < 3 → Nat.testBit 255 j = true → (s.me.token j).failed = false ∧ (s.me.token j).owed = none) ∧
    (s.me.token 3).failed = true := by decide +kernel

theorem test_hyp_TokenWait_owed :
    let s := usr (fun h => h.setToken 7 { owed := some (0x0C, 1) })
    (∀ j, j < 7 → Nat.testBit 128 j = true → (s.me.token j).failed = false ∧ (s.me.token j).owed = none) ∧
    (s.me.token 7).failed = false ∧ (s.me.token 7).owed = some (0x0C, 1) := by decide +kernel

/-- Flags that a complete token brings are raised once: a ready state that the wait changes. -/
theorem test_hyp_TokenWait_ready : (usr (fun h => h.setToken 0 { flags := 16 })).ready 1 ∧
    ((usr (fun h => h.setToken 0 { flags := 16 })).waited 1).me.csr.fflags = 16 :=
  ⟨by intro k hk; revert k; decide +kernel, by decide +kernel⟩

theorem test_hyp_ready : (usr id).ready 255 ∧ (sys id).ready 255 := ⟨rdy rfl 255, rdy rfl 255⟩

/-- R114: the corners of division. -/
theorem test_div_corners : ([execDiv, execDivu, execRem, execRemu].map (fun f =>
    (match f ⟨1, 2, 3, none⟩ (usr (withRegs [(2, 0x8000000000000000), (3, -1)])) with
      | .next t => t.me.reg 1 | .fault _ => 77 | .refused _ => 77))) =
    [0x8000000000000000, 0, 0, 0x8000000000000000] := by decide +kernel

theorem test_div_truncates : ([execDiv, execRem].map (fun f =>
    (match f ⟨1, 2, 3, none⟩ (usr (withRegs [(2, -7), (3, 2)])) with
      | .next t => t.me.reg 1 | .fault _ => 77 | .refused _ => 77))) = [-3, -1] := by decide +kernel

theorem test_hyp_ScalarLoads : let s := usr (withRegs [(2, 0x40000)])
    s.me.remote.find 0 = none ∧ scalarLoc s s.cur (scalarAddr s ⟨1, 2, 0x1FF, none⟩ 8) 8 8 rR = .ok ⟨0x3FFF8, some (0, 0x3FFF8)⟩ ∧
    eccHit s 0x3FFF8 8 = false ∧ Loc.foreign ⟨0x3FFF8, some (0, 0x3FFF8)⟩ s.myPkg = false :=
  ⟨by decide +kernel, okOf (by decide +kernel), by decide +kernel, by decide +kernel⟩

theorem test_hyp_ScalarStores : let s := usr (withRegs [(2, 0x2000000000000010)])
    let l : Loc := ⟨poolKey 0 (299008 + 16), none⟩
    scalarLoc s s.cur (scalarAddr s ⟨1, 2, 0, none⟩ 4) 4 4 rW = .ok l ∧ eccStoreHit s l.key 4 = false ∧
    ownLogCovers s s.cur l 4 = false ∧ matrixReads s.me l.key 4 = false ∧ l.foreign s.myPkg = false :=
  ⟨okOf (by decide +kernel), by decide +kernel⟩

theorem test_hyp_ScalarTraps :
    scalarLoc (usr id) 0 0x4000000000000001 2 2 rR = .error (0x08, 0x4000000000000001) ∧
    scalarLoc (usr id) 0 0x40001 2 2 rR = .error (0x04, 0x40001) ∧ windowOf (usr id) 0 0x40001 2 ≠ none ∧
    scalarLoc (usr id) 0 0x20000000 2 2 rR = .error (0x05, 0x20000000) ∧
    (4 ≤ 0x4000000000000001 >>> 60) ∧
    (0x2001000000000000 >>> 60 = 2 ∧ ((usr id).hart 0).system = false ∧ bitsOf 0x2001000000000000 55 48 ≠ coreId (coreOf 0)) :=
  ⟨errOf (by decide +kernel), errOf (by decide +kernel), by decide +kernel, errOf (by decide +kernel), by decide +kernel⟩

/-- A line of a pool whose boundaries are unset, and one of a pool whose boundaries are set. -/
theorem test_hyp_PinnedLines : let s := usr id
    let k := poolKey 3 1024
    2 ^ 60 ≤ k ∧ k < 2 ^ 61 ∧ (s.core ((k - 2 ^ 60) / 2 ^ 23)).bnd0 = 0 ∧ (s.core ((k - 2 ^ 60) / 2 ^ 23)).bnd1 = 0 ∧
    (s.core ((k - 2 ^ 60) / 2 ^ 23)).bnd2 = 0 ∧
    ¬(k - 2 ^ 60) % 2 ^ 23 / 1024 ∈ (s.core ((k - 2 ^ 60) / 2 ^ 23)).pinned ∧ k / 1024 = (k + 1023) / 1024 ∧
    k / 1024 ≠ (k + 1024) / 1024 ∧ (s.core ((poolKey 0 0 - 2 ^ 60) / 2 ^ 23)).bnd0 ≠ 0 := by decide +kernel

theorem test_hyp_JrAligned : ((0x40 : W64) + (0xFFC : BitVec 12).signExtend 64).toNat % 4 = 0 ∧
    ((0x40 : W64) + (0xFFD : BitVec 12).signExtend 64).toNat % 4 ≠ 0 := by decide

/-- R120's example: BNE s10, s0 four words behind is 0x03940FFC, and goes back 16 bytes. -/
theorem test_bne_back : decode [0x03940FFC] = .ok ⟨.bne ⟨10, 0, 0xFFC, none⟩, false, 1⟩ ∧
    (match execBne ⟨10, 0, 0xFFC, none⟩ (usr (withRegs [(10, 1)])) with
      | .next t => t.me.pc | .fault _ => 0 | .refused _ => 0) = 0xF0 := by decide +kernel

theorem test_hyp_QueueReads : (usr (fun h => h.setQueue 1 [5, 6])).me.queue 1 = 5 :: [6] ∧ (usr id).me.queue 1 = [] := by
  decide +kernel

theorem test_hyp_CsrSystem : (sys id).me.system = true ∧ (usr id).me.system = false ∧
    (sys (fun h => { h with sys := { tstatus := 0x800 } })).me.sys.tstatus.getLsbD 11 = true ∧
    ([CoreS.vlcap, CoreS.bnd0, CoreS.bnd1, CoreS.bnd2][3]?).isSome = true ∧
    (sys id).me.sys.tstatus.getLsbD 11 = false ∧ (1 : BitVec 2) ≠ 0 := by decide +kernel

/-- SLSTAT of a served core: one entry of 24 bytes, whose unit is unmapped, and a hart that waits for room. -/
theorem test_hyp_CsrSlstat : let e : LogEntry := ⟨0, 0, 1, 0, 0x4000000, 0x4000000, 0, [1, 2], false, none⟩
    let s := { usr (fun h => { h with wait := some ⟨wLog, 0, 0⟩ }) with
      cur := 1536
      cores := [(0, { log := [e] })]
      harts := [(0, { tHart 0 with wait := some ⟨wLog, 0, 0⟩ }),
        (1536, { resetSystemHart with sys := { tstatus := 0x800 } })] }
    s.me.system = true ∧ s.me.sys.tstatus.getLsbD 11 = true ∧ (s.core 0).log.length < 2 ^ 16 ∧
    (((s.core 0).log.map (fun e => 16 + roundUp e.data.length 16)).sum) ≤ 2 ^ 16 ∧
    (match execCsrr ⟨3, 0x830, none⟩ s with | .next t => t.me.reg 3 | .fault _ => 0 | .refused _ => 0) =
      BitVec.ofNat 64 (1 + 2 * 2 ^ 16 + 2 ^ 29 + 2 ^ 30) := by decide +kernel

theorem test_hyp_CsrBoundary : let s := { usr id with
      cur := 1536
      harts := [(0, tHart 0), (1536, { resetSystemHart with sys := { tstatus := 0x800 } })] }
    s.me.system = true ∧ s.me.sys.tstatus.getLsbD 11 = true ∧ (s.core 0).team = some (1, 0) ∧
    s.launches.find 1 = some tLaunch ∧ boundsOk (hartsPerCore tLevels) 2 294912 299008 1323008 = true ∧
    boundsOk (hartsPerCore tLevels) 2 294912 299008 299008 = false := by decide +kernel

theorem test_hyp_PrivilegeChecks : csrAssigned 0x006 = false ∧ csrAssigned 0x800 = true ∧ (usr id).me.system = false := by
  decide +kernel

/-! ## Traps, returns, system instructions, the tree -/

/-- Delegated (Align, TDELEG 0x18), not delegated (Page), and inside a user handler. -/
theorem test_hyp_TrapEntry_user : let s := usr id
    s.me.system = false ∧ s.cur ≠ servantOf s.cur ∧
    ((s.ctx s.myPkg s.me.ctx).tdeleg.getLsbD 0x04 && [0x03, 0x04, 0x08, 0x0B, 0x0C, 0x0D, 0x0E, 0x10, 0x17].contains 0x04) = true ∧
    ((s.ctx s.myPkg s.me.ctx).tdeleg.getLsbD 0x05 && [0x03, 0x04, 0x08, 0x0B, 0x0C, 0x0D, 0x0E, 0x10, 0x17].contains 0x05) = false ∧
    s.me.inUser = false ∧ (usr (fun h => { h with inUser := true })).me.inUser = true := by decide +kernel

def tRec : TrapRec := ⟨0, 0x05, 0x104, 0x20000000, false, false, false, 1, 0, 1, 0⟩

/-- A system hart that serves the hart of `usr`; `ts` is TSTATUS. -/
def serves (ts : W64) (h : Hart) : State :=
  let s := usr (fun _ => h)
  { s with
    cur := 1536
    harts := [(0, h), (1, tHart 1), (1536, { resetSystemHart with
      sys := { tstatus := ts, tpc := 0x104, tval := 3, tvec := 0x0FFF000000000400 }, serving := some tRec })] }

/-- A first trap of a system hart, and one with NEST = 1 while a record of a resident context is in service. -/
theorem test_hyp_TrapEntry_system : let s := serves 0x1800 (tHart 0)
    s.me.system = true ∧ (serves 0x800 (tHart 0)).me.sys.tstatus.getLsbD 12 = false ∧ s.me.sys.tstatus.getLsbD 12 = true ∧
    s.me.serving = some tRec ∧ (s.ctx s.myPkg tRec.ctx).live = true ∧ (s.ctx s.myPkg tRec.ctx).spans s.myPkg = true := by
  decide +kernel

def tAtt : Attach where
  handle := 9
  core := 0
  rows := 16
  infmt := 9
  accfmt := 9
  chain := false
  split := 0
  active := {}
  shadow := {}
  base := 0
  len := 4096
  queue := []
  flags := 1

theorem test_hyp_Returns : let q : MCmd := ⟨1, 1, 1, 0, 0, [], 0, 0, 0, 0, 0⟩
    ((sys (fun h => { h with att := some { tAtt with queue := [q] }, sys := { tstatus := 0x800 } })).me.att.map
      (fun a => !a.queue.isEmpty)).getD false = true ∧
    (sys (fun h => { h with sys := { tstatus := 0x1000 } })).me.sys.tstatus.getLsbD 12 = true ∧
    ({ tHart 0 with frozen := [some tAtt] } : Hart).frozen = some tAtt :: [] ∧ (tHart 0).att = none ∧
    ({ tHart 0 with frozen := [none], att := some tAtt } : Hart).frozen = none :: [] := by decide +kernel

/-- ERET of a served hart with WB and RC: its token 3 holds work. -/
theorem test_hyp_Eret_served : let s := serves 0x108800 ((tHart 0).setToken 3 { failed := true, work := some (.bytes 0 0 0 []) })
    s.me.system = true ∧ s.me.sys.tstatus.getLsbD 12 = false ∧ s.me.sys.tstatus.getLsbD 11 = true ∧
    s.me.serving = some tRec ∧ memberKey s tRec.launch tRec.mid = some 0 ∧ s.cur ≠ 0 ∧ s.me.sys.tstatus.getLsbD 16 = false ∧
    s.me.sys.tstatus.getLsbD 17 = false ∧ (s.harts.find 0).isSome = true ∧ s.me.sys.tstatus.getLsbD 15 = true ∧ s.me.sys.tstatus.getLsbD 20 = true ∧
    ((s.hart 0).token (s.me.sys.tval.toNat % 8)).work.isSome = true := by decide +kernel

/-- The same when the served hart's team has been swapped out: the record's hart stands in image 7. -/
theorem test_hyp_Eret_image : let s := serves 0x108800 (tHart 0)
    ((saveTeam s 0 true).map (fun im =>
      let u := { s with harts := s.harts.drop 2, images := [(7, im)] }
      memberKey u tRec.launch tRec.mid == none && memberImage u tRec.launch tRec.mid == some (7, 0) &&
        (im.harts.find 0).isSome && u.me.serving == some tRec)) = some true := by decide +kernel

theorem test_syscall : (match exec (.syscall ⟨none⟩) (usr id) with
    | .next t => (t.hart 1536).recs = [⟨0, 0x13, 0x104, 0, false, false, false, 1, 0, 1, 0⟩] ∧ t.me.stat = .stopped
    | .fault _ => False | .refused _ => False) := by
  show _ ∧ _
  decide +kernel

/-- Two records: class 0 is taken before class 1, queued first. -/
theorem test_hyp_Wfi : let s := sys (fun h => { h with recs := [tRec, { tRec with cls := 0 }, tRec] })
    s.me.system = true ∧ s.me.sys.tstatus.getLsbD 11 = false ∧ s.me.recs = [tRec] ++ { tRec with cls := 0 } :: [tRec] ∧
    (∀ q ∈ [tRec], ({ tRec with cls := 0 } : TrapRec).cls < q.cls) ∧ (∀ q ∈ [tRec], ({ tRec with cls := 0 } : TrapRec).cls ≤ q.cls) ∧
    (sys id).me.recs = [] ∧ (sys id).me.wait = none := by decide +kernel

theorem test_hyp_Halt : let s := serves 0x800 (tHart 0)
    isSystemKey s.cur = true ∧ (s.ctx s.myPkg 0).spans s.myPkg = true ∧ (s.ctx s.myPkg 0).live = true ∧
    (s.harts.find 0).isSome = true ∧ isSystemKey 0 = false ∧ pkgOf 0 = s.myPkg := by decide +kernel

theorem test_hyp_Vhtinv : let s := serves 0x800 (tHart 0)
    ∀ j, j < 1 → physOk ((s.ctx s.myPkg 0).vhtb.toNat / 2 ^ 20 % 2 ^ 22 * 2 ^ 20 + 8 * j) = true ∧
      eccHit s (physKey s.myPkg (8 * j)) 8 = false := by decide +kernel

theorem test_hyp_Ctxsave : let s := serves 0x800 (tHart 0)
    servedTeam (sys id) = none ∧ servedTeam s = some 0 ∧ (saveTeam s 0 false).isSome = true ∧ coreOf s.cur ≠ 0 ∧
    stopReady s 0 = true ∧
    stopReady { s with cores := s.cores.map (fun c => (c.1, { c.2 with log := [⟨0, 0, 0, 0, 0, 0, 0, [1], false, none⟩] })) } 0 = false := by
  decide +kernel

/-- These bytes, one after another, from k. -/
def tRow (k : Nat) : List Byte → Cells 8
  | [] => []
  | b :: r => (k, b) :: tRow (k + 1) r

theorem tRow_get (l : List Byte) (c : Cells 8) : ∀ k j : Nat, (h : j < l.length) → Cells.get (tRow k l ++ c) (k + j) = l[j] := by
  suffices ∀ k j : Nat, (h : j < l.length) → Tab.find (tRow k l ++ c) (k + j) = some l[j] from
    fun k j h => by simp [Cells.get, this k j h]
  induction l with
  | nil => intro k j h; simp at h
  | cons b r ih =>
    intro k j h
    cases j with
    | zero => simp [tRow, Tab.find]
    | succ j =>
      have := ih (k + 1) j (by simpa using h)
      simp only [tRow, List.cons_append, Tab.find]
      rw [if_neg (by omega), show k + (j + 1) = k + 1 + j by omega, this]; simp

theorem ofBytes_append (l r : List Byte) : ofBytes (l ++ r) = ofBytes l + 2 ^ (8 * l.length) * ofBytes r := by
  induction l with
  | nil => simp [ofBytes]
  | cons b l ih =>
    simp only [List.cons_append, ofBytes, ih, List.length_cons, Nat.mul_add, Nat.pow_add]
    rw [Nat.mul_comm (2 ^ (8 * l.length)) (2 ^ (8 * 1)), Nat.mul_assoc]
    omega

theorem bytesOf_ofBytes (l r : List Byte) : bytesOf (ofBytes (l ++ r)) l.length = l := by
  induction l with
  | nil => rfl
  | cons b l ih =>
    simp only [List.cons_append, ofBytes, List.length_cons, bytesOf]
    have e : (b.toNat + 256 * ofBytes (l ++ r)) / 256 = ofBytes (l ++ r) := by have := b.isLt; omega
    rw [e, ih]
    congr 1
    apply BitVec.eq_of_toNat_eq
    have := b.isLt
    simp; omega

theorem ofBytes_lt (l : List Byte) : ofBytes l < 2 ^ (8 * l.length) := by
  induction l with
  | nil => simp [ofBytes]
  | cons b l ih =>
    have := b.isLt
    simp only [ofBytes, List.length_cons, Nat.mul_add, Nat.pow_add]
    omega

theorem ofBytes_bytesOf (n : Nat) : ∀ x, x < 2 ^ (8 * n) → ofBytes (bytesOf x n) = x := by
  induction n with
  | zero => intro x h; simp [bytesOf, ofBytes] at *; omega
  | succ n ih =>
    intro x h
    simp only [bytesOf, ofBytes]
    rw [ih (x / 256) (by rw [Nat.mul_add, Nat.pow_add] at h; omega)]
    simp; omega


/-- The block of 4,096 bytes that ends image 7, its check code off by `d`. -/
def imTail (d : BitVec 32) : List Byte :=
  (span 4096 4092).map (fun i => Config.imageByte (9 * 7 + 8) i) ++
    bytesOf (Config.checkCode ((span 4096 4092).map (fun i => Config.imageByte (9 * 7 + 8) i)) + d).toNat 4

/-- The image of a team of no hart. -/
def tImage : Image where
  launch := 1
  team := 0
  pkg := 0
  core := 0
  ctx := 0
  cls := 1
  vlcap := 128
  bnd0 := 0
  bnd1 := 0
  bnd2 := 0
  harts := []
  orig := []
  phases := []
  pool := []
  fe := []
  ext := []
  swapped := false

/-- Image 7 stands at physical address 0x1000, the check code of its last block off by `d`; context 0 owns `cores` (0: all), and
s3 holds b. -/
def tImaged (d : BitVec 32) (b : W64) (cores : BitVec 192) (live : Bool) : State :=
  let s := serves 0x800 (tHart 0)
  { s with
    mem := tRow 0x1000 (bytesOf (imageHeader s tImage) 64 ++ imTail d) ++ s.mem
    ctxs := s.ctxs.map (fun c => (c.1, { c.2 with cores := cores, live := live }))
    images := [(7, tImage)]
    harts := s.harts.put 1536 ((s.hart 1536).setReg 3 b) }

theorem phys_key {s : State} {i : Nat} (hs : (s.hart s.cur).system = true) (hp : pkgOf s.cur = 0) (h : i < 2 ^ 20) :
    byteKeyAt s (0x0FFF000000001000 + i) = 0x1000 + i := by
  have e : ∀ hi lo : Nat, bitsOf (0x0FFF000000001000 + i) hi lo = (0x0FFF000000001000 + i) / 2 ^ lo % 2 ^ (hi + 1 - lo) := by
    intro hi lo; simp [bitsOf, Nat.shiftRight_eq_div_pow]
  have e0 : (0x0FFF000000001000 + i) >>> 60 = 0 := by rw [Nat.shiftRight_eq_div_pow]; omega
  have e1 : bitsOf (0x0FFF000000001000 + i) 47 42 = 0 := by rw [e]; omega
  have e2 : bitsOf (0x0FFF000000001000 + i) 41 0 = 0x1000 + i := by rw [e]; omega
  have e3 : bitsOf (0x0FFF000000001000 + i) 59 48 = 0xFFF := by rw [e]; omega
  have e4 : ¬(2 ^ 42 < 0x1000 + i + 1) := by omega
  have e5 : physOk (0x1000 + i) = true := by simp [physOk]; omega
  have e6 : windowOf s s.cur (0x0FFF000000001000 + i) 1 = some (.glob 0 (0x1000 + i)) := by
    unfold windowOf
    simp only [e0, e1, e2, e3]
    rw [if_neg (by simp only [not_or]; exact ⟨by simp, e4⟩), if_pos (Or.inl trivial), hp]
  simp only [byteKeyAt, scalarLoc, e6, Nat.mod_one, hs, e5, if_true]
  simp [physKey]

theorem bytes_at {s : State} {l : List Byte} {c : Cells 8} (hs : (s.hart s.cur).system = true) (hp : pkgOf s.cur = 0)
    (hr : s.regions = []) (hm : s.mem = tRow 0x1000 l ++ c) (i n : Nat) (h : i + n ≤ l.length) (hl : l.length < 2 ^ 20) :
    getBytes s (0x0FFF000000001000 + i) n = ofBytes ((l.drop i).take n) := by
  have : (span (0x0FFF000000001000 + i) n).map (fun q => s.byteAt (byteKeyAt s q)) = (l.drop i).take n := by
    rw [span_eq_map]
    apply List.ext_getElem
    · simp; omega
    · intro j h1 h2
      have hj : j < n := by simpa using h1
      simp only [List.getElem_map, List.getElem_range, List.getElem_take, List.getElem_drop]
      rw [Nat.add_assoc, phys_key hs hp (by omega)]
      simp only [State.byteAt, hr, List.find?_nil, hm]
      exact tRow_get l c 0x1000 (i + j) (by omega)
  unfold getBytes
  rw [this]


/-- A block and its check code, as bytes and as a number. -/
theorem block_bytes (l : List Byte) (c : BitVec 32) :
    let x := ofBytes l + c.toNat <<< (8 * l.length)
    ofBytes (l ++ bytesOf c.toNat 4) = x ∧ bytesOf x l.length = l ∧ bitsOf x (8 * (l.length + 4) - 1) (8 * l.length) = c.toNat := by
  intro x
  have hx : x = ofBytes l + 2 ^ (8 * l.length) * c.toNat := by simp [x, Nat.shiftLeft_eq, Nat.mul_comm]
  have h1 : ofBytes (l ++ bytesOf c.toNat 4) = x := by
    rw [ofBytes_append, ofBytes_bytesOf 4 _ (by have := c.isLt; omega), hx]
  refine ⟨h1, h1 ▸ bytesOf_ofBytes l _, ?_⟩
  rw [bitsOf, hx, Nat.shiftRight_eq_div_pow, Nat.add_mul_div_left _ _ (Nat.two_pow_pos _), Nat.div_eq_of_lt (ofBytes_lt l),
    Nat.zero_add, show 8 * (l.length + 4) - 1 + 1 - 8 * l.length = 32 by omega]
  exact Nat.mod_eq_of_lt c.isLt

theorem block_checked (l : List Byte) (c : BitVec 32) :
    (l ++ bytesOf c.toNat 4).length = l.length + 4 ∧ ofBytes (l ++ bytesOf c.toNat 4) = ofBytes l + c.toNat <<< (8 * l.length) ∧
      codeOk (ofBytes (l ++ bytesOf c.toNat 4)) (l.length + 4) = decide (Config.checkCode l = c) := by
  obtain ⟨h1, h2, h3⟩ := block_bytes l c
  refine ⟨by simp [bytesOf], h1, ?_⟩
  rw [h1, codeOk, Nat.add_sub_cancel, h2, h3]
  exact decide_eq_decide.2 BitVec.toNat_inj

theorem tail_checked (n h k : Nat) (d : BitVec 32) :
    let l := (span 4096 k).map (fun i => Config.imageByte (9 * n + h) i)
    let x := fun (d : BitVec 32) => l ++ bytesOf (Config.checkCode l + d).toNat 4
    (x d).length = k + 4 ∧ codeOk (ofBytes (x d)) (k + 4) = decide (d = 0) ∧ ofBytes (x 0) = checkedBlock n h (k + 4) := by
  intro l x
  have hl : l.length = k := by simp [l, span_eq_map]
  obtain ⟨h1, -, h3⟩ := block_checked l (Config.checkCode l + d)
  obtain ⟨-, h2, -⟩ := block_checked l (Config.checkCode l + 0)
  rw [hl] at h1 h2 h3
  refine ⟨h1, h3.trans (decide_eq_decide.2 ⟨fun h => ?_, fun h => by simp [h]⟩), ?_⟩
  · have := BitVec.eq_sub_iff_add_eq.2 (show d + _ = _ from (BitVec.add_comm _ _).trans h.symm)
    simpa using this
  · have e : Config.checkCode l + 0 = Config.checkCode l := BitVec.add_zero _
    rw [e] at h2
    show ofBytes (l ++ bytesOf (Config.checkCode l + 0).toNat 4) = _
    rw [e]
    exact h2

theorem imTail_is (d : BitVec 32) : (imTail d).length = 4096 ∧ codeOk (ofBytes (imTail d)) 4096 = decide (d = 0) ∧
    ofBytes (imTail 0) = checkedBlock 7 8 4096 :=
  tail_checked 7 8 4092 d

theorem blockTeam_one {s : State} {n x : Nat} {im : Image} (h : s.images = [(n, im)]) (hs : im.swapped = false)
    (hx : x = checkedBlock n 8 4096) : blockTeam s x = (n, im) := by
  unfold blockTeam
  simp [h, hs, ← hx]

theorem tImaged_is (d : BitVec 32) (b : W64) (cores : BitVec 192) (live : Bool)
    (h4 : d = 0 → headed (tImaged d b cores live) (imageHeader (serves 0x800 (tHart 0)) tImage) tImage = tImage) :
    imageAt (tImaged d b cores live) 0x0FFF000000001000 = if d = 0 then some (7, tImage) else none := by
  let s := tImaged d b cores live
  let l := bytesOf (imageHeader (serves 0x800 (tHart 0)) tImage) 64 ++ imTail d
  have hs : (s.hart s.cur).system = true := rfl
  have hlen : l.length = 4160 := by simp only [l, List.length_append, (imTail_is d).1]; rfl
  have hb := fun i n h => bytes_at (s := s) (l := l) (c := (serves 0x800 (tHart 0)).mem) hs (show (1536 : Nat) / 2048 = 0 by decide) rfl rfl i n h (by rw [hlen]; omega)
  have h0 : getBytes s 0x0FFF000000001000 64 = imageHeader (serves 0x800 (tHart 0)) tImage := by
    rw [show (0x0FFF000000001000 : Nat) = 0x0FFF000000001000 + 0 from rfl, hb 0 64 (by omega)]
    rw [List.drop_zero, List.take_left' (by rfl)]
    exact ofBytes_bytesOf 64 _ (by decide +kernel)
  have h1 : getBytes s (0x0FFF000000001000 + 4160 - 4096) 4096 = ofBytes (imTail d) := by
    rw [show (0x0FFF000000001000 + 4160 - 4096 : Nat) = 0x0FFF000000001000 + 64 by decide, hb 64 4096 (by omega),
      List.drop_left' (by rfl), List.take_of_length_le (Nat.le_of_eq (imTail_is d).1)]
  have h2 : let x := imageHeader (serves 0x800 (tHart 0)) tImage
      headHarts x = [] ∧ headLen x = 4160 := by decide +kernel
  obtain ⟨a1, a2⟩ := h2
  show imageAt s _ = _
  unfold imageAt
  simp only [h0, a1, a2, h1, (imTail_is d).2.1]
  by_cases hd : d = 0
  · subst hd
    have h3 : blockTeam s (ofBytes (imTail 0)) = (7, tImage) := blockTeam_one rfl rfl (imTail_is 0).2.2
    rw [h3, show headed s _ tImage = tImage from h4 rfl]
    simp [tImage]
  · simp only [hd, decide_false, Bool.and_false, if_false, Bool.false_eq_true]

/-- CTXLOAD of an image as CTXSAVE writes it: its context has ended; no core takes it; the named core does not; it does. -/
theorem test_hyp_Ctxload_image : let a := 0x0FFF000000001000
    let dead := tImaged 0 (-1) 1 false
    let full := tImaged 0 (-1) 1 true
    let here := tImaged 0 0 0 true
    let next := tImaged 0 1 0 true
    imageAt full a = some (7, tImage) ∧ imageAt next a = some (7, tImage) ∧ imageAt (tImaged 1 0 0 true) a = none ∧
    a % 4096 = 0 ∧ blocksTrap full a 64 rR = none ∧ blocksTrap full a (imageLen tImage) rR = none ∧
    blocksTrap full a (max (headLen (getBytes full a 64)) (bitsOf (getBytes full a 64) 127 64)) rR = none ∧
    (dead.ctx 0 0).live = false ∧ (full.ctx 0 0).live = true ∧ full.me.reg 3 = -1 ∧
    (span 0 192).all (fun c => !coreTakes full tImage c) = true ∧ (next.me.reg 3).toNat = 1 ∧ coreTakes here tImage 0 = false ∧
    coreTakes next tImage 1 = true :=
  ⟨tImaged_is _ _ _ _ (fun _ => by decide +kernel), tImaged_is _ _ _ _ (fun _ => by decide +kernel),
    tImaged_is _ _ _ _ (fun h => absurd h (by decide)), by decide +kernel⟩

/-- An image at the end of the physical map. -/
theorem test_hyp_Ctxload_outside : let s := serves 0x800 (tHart 0)
    let a := 0x0FFF000000000000 + 0x02CB4177000
    blocksTrap s a 64 rR = none ∧
      (blocksTrap s a (max (headLen (getBytes s a 64)) (bitsOf (getBytes s a 64) 127 64)) rR).map Prod.fst = some 0x07 := by
  decide +kernel

def withLog (l : List LogEntry) (s : State) : State := s.setCore 0 { s.core 0 with log := l }

theorem test_hyp_Sldrain : let s := serves 0x800 (tHart 0)
    let e : LogEntry := ⟨0, 0, 0, 0, 0x100, 0x100, 0, [1], false, none⟩
    let u := withLog [e] s
    servedCore (sys id) = none ∧ servedCore s = some 0 ∧ e.ctx = 0 ∧ (u.core 0).log = [e] ∧ logStuck u 0 = false ∧
    logStuck (withLog [{ e with va := 0x2000000 }] s) 0 = true := by decide +kernel

/-! ## The bound tree -/

theorem test_hyp_TreeReads : let s := usr id
    s.levels[0]? = some ⟨2, 2, 0, false, true, 2⟩ ∧ s.levels[1]? = some ⟨8, 3, 2, true, false, 1⟩ ∧ s.levels[2]? = none := by
  decide +kernel

/-- R98: the index of hart 1 at level 0 is 1; R100: strip 0 first. -/
theorem test_tid : (match execTid ⟨4, 0, none⟩ { usr id with cur := 1 } with
    | .next t => t.me.reg 4 | .fault _ => 9 | .refused _ => 9) = 1 := by decide +kernel

theorem test_farmnext : (match execFarmnext ⟨4, 1, none⟩ (usr id) with
    | .next t => (t.me.reg 4, t.me.strips.get 1) | .fault _ => (9, 9) | .refused _ => (9, 9)) = (0, 1) := by decide +kernel

/-- A FARM level of two workers: one has strips, then the other has none and steals, then none are left. -/
theorem test_hyp_FarmStrips : let ls : List Level := [⟨8, 3, 2, false, false, 2⟩]
    let l := fun (f : Tab Strips) => { tLaunch with blk := { tBlk with levels := ls }, farms := f }
    let s := { usr id with launches := [(1, l [])] }
    let k := farmKey ls 0 0
    (farmBlock (l []) 0 0 0).lo < (farmBlock (l []) 0 0 0).hi ∧
    (farmBlock (l [(k 0, ⟨4, 4⟩)]) 0 0 0).hi ≤ (farmBlock (l [(k 0, ⟨4, 4⟩)]) 0 0 0).lo ∧
    victim s 1 (l [(k 0, ⟨4, 4⟩)]) 0 0 2 = some 1 ∧
    victim s 1 (l (Tab.put [(k 0, ⟨4, 4⟩)] (k 1) ⟨8, 8⟩)) 0 0 2 = none ∧ s.launchOf s.me = some (l []) ∧
    s.me.farmed.get 0 = 0 ∧ (usr (fun h => { h with farmed := [(0, 1)] })).me.farmed.get 0 ≠ 0 := by decide +kernel

theorem test_hyp_LevelBarriers_barl : let s := usr id
    let w := usr (fun h => { h with wait := some ⟨wBarl, 1, 1⟩ })
    coresident s.levels 1 = true ∧ coresident [⟨8, 3, 2, false, false, 1⟩] 0 = false ∧ w.me.wait = some ⟨wBarl, 1, 1⟩ ∧
    s.me.wait ≠ some ⟨wBarl, 1, 1⟩ ∧ hasLog s s.cur = false ∧ performedAt s 3 = true ∧
    peers tLevels 1 0 = [0, 1] := by decide +kernel

theorem test_hyp_LevelBarriers_phase : let s := usr id
    let w := usr (fun h => { h with wait := some ⟨wPhase, 0, 1⟩ })
    leadOk s tLaunch 0 = true ∧ performedAt s (phaseScope tLevels 0) = true ∧ s.me.wait ≠ some ⟨wPhase, 0, 1⟩ ∧
    w.me.wait = some ⟨wPhase, 0, 1⟩ ∧
    leadOk s { tLaunch with phases := [(unitKey tLevels 0 0, 1)] } 0 = false := by decide +kernel


/-! ## Vectors -/

/-- Nothing holds a vector-stream instruction of a hart with no token, of any format. -/
theorem goesOf {s : State} (hv : s.cv = none) (ht : s.me.tokens = []) (hc : s.colls = []) (hl : s.me.csr.vl ≤ 1024) (i : Instr) :
    s.goes i := by
  have h := rdy ht (instrWtk i)
  refine ⟨hv, h, ?_⟩
  have ht' : (s.waited (instrWtk i)).me.tokens = [] := by
    unfold State.waited gate
    by_cases e : instrWtk i % 256 = 0 <;> simp [e, ht, Hart.token, Tab.getD, Tab.find, Token.bad]
    rw [List.find?_eq_none.2 (by simp)]; exact ht
  have ha : ∀ r, (s.waited (instrWtk i)).me.arrived r = 1024 := fun r => by
    unfold Hart.arrived
    rw [List.find?_eq_none.2 (by simp [ht'])]
  have hu : unitsHere (s.waited (instrWtk i)) i = 1024 := by
    have : (regsOf i).filter (fun r => decide ((s.waited (instrWtk i)).me.arrived r < 1024)) = [] := by simp [ha]
    simp [unitsHere, this]
  have hw : waitsWhole (s.waited (instrWtk i)) [i] = false := by
    simp [waitsWhole, collHolds, waited_colls h, hc, Hart.lacks, ht']
  have hr : unitsReady (s.waited (instrWtk i)) [i] = 1024 := by simp [unitsReady, hu]
  simp only [regsHere, hw, Bool.not_false, Bool.true_and, decide_eq_true_eq]
  rw [waited_csr_vl h]
  omega

/-- VL = 2, format `f`, registers and tags given. -/
def vec2 (f : Nat) (tags : List (Nat × Fmt)) (regs : List (BitVec 5 × W64)) (h : Hart) : Hart :=
  withRegs regs (tags.foldl (fun h p => h.setTag p.1 p.2) { h with csr := { h.csr with vl := 2, cf := BitVec.ofNat 4 f } })

theorem test_hyp_vector_goes (i : Instr) : (usr id).goes i ∧
    (usr (vec2 8 [(1, .f64), (2, .f64)] [(2, 0x2000000000000010), (3, 8)])).goes i :=
  ⟨goesOf rfl rfl rfl (by decide) i, goesOf rfl rfl rfl (by decide) i⟩

/-- Formats that fit: a float CF over float tags, an integer CF over integer ones; and one that does not. -/
theorem test_hyp_vector_formats :
    (let h := (usr (vec2 9 [(1, .f32), (2, .f32)] [])).me
     formatTrap .any h.cf h.cf h 1 [1, 2] = none ∧ formatTrap .float h.cf h.cf h 1 [1] = none ∧ badSource .any h.cf h [1, 2] = none ∧
      isInt h.cf = false ∧ isGx h.cf = false) ∧
    (let h := (usr (vec2 0 [(1, .i64), (2, .i64)] [])).me
     formatTrap .any h.cf h.cf h 1 [1, 2] = none ∧ formatTrap .strict h.cf h.cf h 1 [1, 2] = none ∧
      formatTrap .int h.cf h.cf h 1 [1, 2, 3] = none ∧ isInt h.cf = true ∧ formatTrap .float h.cf h.cf h 1 [1] ≠ none) := by
  decide +kernel

/-- A second field that names GX8 as fd (XF = 1). -/
def tExtGx : Ext := { fd := 14, fa := 0, rm := 0, vs3 := 0, wtk := 0, lvl := 0, sub := 6, imm32 := 0 }

theorem test_hyp_VectorConversions_gx :
    let s := usr (vec2 0 [(1, .i64), (2, .i64)] [])
    s.goes (.vextS ⟨3, 1, 2, 15, tExtGx⟩) ∧ isGx (fdOf (some tExtGx) (s.waited (instrWtk (.vextS ⟨3, 1, 2, 15, tExtGx⟩))).me) = true :=
  ⟨goesOf rfl rfl rfl (by decide) _, by decide +kernel⟩

theorem test_hyp_VectorMoves : let s := usr (vec2 0 [(1, .i64)] [])
    s.levels[0]? ≠ none ∧ s.levels[2]? = none ∧ (s.me.queue 0).length < 16 := by decide +kernel

theorem test_hyp_VectorMasks_full : 16 ≤ ((usr (fun h => h.setQueue 1 (List.replicate 16 7))).me.queue 1).length := by
  decide +kernel

theorem test_hyp_Tangents : let s := usr (vec2 8 [(1, .f64), (2, .f64)] [])
    let h := s.me
    (2 ≤ h.nplanes) ∧ (h.nplanes < 3) ∧ tagFits (h.tag 1) (h.tag 2) = true := by decide +kernel

theorem places_of {t : State} {store : Bool} {f : Fmt} {a : Nat} {ps : List (Loc × Nat)}
    (h : placesOf t store (elemSize f) (elemAlign f) (planeAddrs t a) =
      .ok ((planeAddrs t a).map (fun p => (p.1, VPlace.here ps))))
    (hq : ps.all (fun q => !q.1.foreign t.myPkg && decide (pin t q.1.key = t)) = true) :
    VPlaces t store f a (fun _ => ps) := by
  refine ⟨h, fun k _ q hq' => ?_⟩
  have := List.all_eq_true.1 hq q hq'
  simpa using this

def spPiece (off n : Nat) : List (Loc × Nat) := [(⟨poolKey 0 (299008 + off), none⟩, n)]

/-- A second word with this immediate and nothing else. -/
def tExt (imm : BitVec 32) : Ext := ⟨0, 0, 0, 0, 0, 0, 0, imm⟩

def spState : State := usr (vec2 8 [(1, .f64)] [(2, 0x2000000000000010)])

theorem below_two {s : State} {f : Fmt} {m : BitVec 4} {e : Nat} (hv : s.me.csr.vl = 2) (h : s.activeUnit f m e = true) :
    e = 0 ∨ e = 1 := by
  have := activeUnit_lt h
  omega

/-- Two binary64 elements in the scratchpad, no plane in force. -/
theorem test_hyp_VectorLoads : let o : VMemOp := ⟨.unit, 1, 2, 0, 15, none⟩
    let t := spState.waited 0
    ∀ store e, t.activeUnit .f64 15 e && (addrOf o t.me 8 e).isSome = true →
      VPlaces t store .f64 ((addrOf o t.me 8 e).getD 0) (fun _ => spPiece (16 + 8 * e) 8) ∧
      ∀ k, k ≤ t.me.planesInForce → ∀ q ∈ spPiece (16 + 8 * e) 8,
        ownLogCovers t t.cur q.1 q.2 = false ∧ matrixReads t.me q.1.key q.2 = false := by
  intro o t store e h
  simp only [Bool.and_eq_true] at h
  obtain rfl | rfl := below_two rfl h.1 <;> cases store <;>
    exact ⟨places_of (okOf (by decide +kernel)) (by decide +kernel), fun _ _ => by decide +kernel⟩

theorem test_hyp_VectorStores : let h := spState.me
    badSource .any .f64 h [1] = none ∧ spState.activeUnit .f64 15 1 = true ∧ spState.activeUnit .f64 15 2 = false ∧
    (addrOf ⟨.twoD, 1, 2, 3, 15, some (tExt 0x20010)⟩
      (withRegs [(3, 2)] h) 8 3).isSome = true ∧
    addrOf ⟨.twoD, 1, 2, 3, 15, some (tExt 0x20010)⟩
      (withRegs [(3, 2)] h) 8 4 = none := by decide +kernel

/-- Two elements of one granule each kind: the granule of byte 16 full, or empty. -/
theorem test_hyp_VectorFullEmpty : let o : VMemOp := ⟨.unit, 1, 2, 0, 15, none⟩
    let t := spState.waited 0
    let full := { t with fe := [((2 ^ 60 + 299008 + 16) / 16, 1)] }
    (∀ e, t.activeUnit .f64 15 e = true → inScratch ((addrOf o t.me 8 e).getD 0) = true) ∧
    granules (poolKey 0 (299008 + 16)) 8 = [(2 ^ 60 + 299008 + 16) / 16] ∧
    granules (poolKey 0 (299008 + 24)) 8 = [(2 ^ 60 + 299008 + 16) / 16] ∧
    full.fe.get ((2 ^ 60 + 299008 + 16) / 16) ≠ 0 ∧ t.fe.get ((2 ^ 60 + 299008 + 16) / 16) = 0 := by
  refine ⟨fun e h => ?_, by decide +kernel⟩
  obtain rfl | rfl := below_two rfl h <;> decide +kernel

/-! ## Atomics, fences, barrier objects, windows, full-empty bits -/

theorem test_hyp_Atomics : let s := usr (withRegs [(2, 0x40000)])
    let l : Loc := ⟨0x40000, some (0, 0x40000)⟩
    let sc : Option Ext := some { tExt 0 with lvl := 1, sub := 4 }
    badLevel s none = none ∧ badLevel s sc = none ∧ atomOrder sc = 4 ∧ performedAt s (scopePhys s sc) = true ∧
    scalarLoc s s.cur (s.me.reg 2).toNat 8 8 (rR + rW) = .ok l ∧ eccHit s l.key 8 = false ∧
    ownLogCovers s s.cur l 8 = false ∧ matrixReads s.me l.key 8 = false ∧ l.foreign s.myPkg = false ∧
    badLevel s (some { tExt 0 with lvl := 2, sub := 2 }) = some 2 := by
  refine ⟨?_, ?_, ?_, ?_, okOf ?_, ?_⟩ <;> decide +kernel

/-- A store of the hart to another module is on its way, and one has arrived there unacknowledged. -/
def tStore (st : Nat) : RemoteOp := ⟨0, 0, 1, [2 ^ 42], 1, 0, 7, 0, st, 0, 0, 3, 0, [], false, false, none, none⟩

theorem test_hyp_Fences : let s := usr id
    let w := { s with remote := [(9, tStore 0)] }
    (s.levels[1]?).map Level.phys = some 3 ∧ s.levels[2]? = none ∧ performedAt s 3 = true ∧ performedAt w 3 = false ∧
    atomOrder (some { tExt 0 with lvl := 1, sub := 2 }) = 2 ∧
    badLevel w (some { tExt 0 with lvl := 1, sub := 2 }) = none ∧
    performedAt w (scopePhys w (some { tExt 0 with lvl := 1, sub := 2 })) = false := by decide +kernel

/-- Objects at 0x40000: EXPECT 4, none arrived, level 1, phase 0. -/
def tObj (f : Hart → Hart) : State :=
  { usr f with mem := [(0x10000, 0x1F), (0x40000, 4), (0x40010, 1)] }

theorem test_hyp_BarrierObjects : let s := tObj (withRegs [(2, 0x40000), (3, 4)])
    let l : Loc := ⟨0x40000, some (0, 0x40000)⟩
    scalarLoc s s.cur 0x40000 32 32 rW = .ok l ∧ scalarLoc s s.cur 0x40000 32 32 (rR + rW) = .ok l ∧
    scalarLoc s s.cur 0x40000 32 32 rR = .ok l ∧ l.foreign s.myPkg = false ∧ eccStoreHit s l.key 32 = false ∧
    eccHit s l.key 32 = false ∧ ownLogCovers s s.cur l 32 = false ∧ matrixReads s.me l.key 32 = false ∧
    (1 : BitVec 5).toNat < s.levels.length ∧
    readLoc s s.myCore s.me.ctx l 32 / 2 ^ 128 % 16 < s.levels.length ∧ loadMem s l.key 32 % 2 ^ 64 = 4 ∧
    loadMem s l.key 32 / 2 ^ 64 % 2 ^ 64 = 0 ∧ readLoc s s.myCore s.me.ctx l 32 / 2 ^ 136 % 2 = 0 ∧
    [3, 4, 5].all (fun n => rangeUnperformed s (physOf s 1) 0 n == false) = true := by
  refine ⟨okOf ?_, okOf ?_, okOf ?_, ?_⟩ <;> decide +kernel

theorem test_hyp_Windows : let s := usr (withRegs [(2, 0x2000000000000010), (3, 0x2001000000000010)])
    (s.me.reg 2).toNat / 2 ^ 60 = 2 ∧ (s.me.reg 2).toNat / 2 ^ 48 % 256 = (readCsr s 0x041).toNat ∧
    (s.me.reg 3).toNat / 2 ^ 48 % 256 ≠ (readCsr s 0x041).toNat := by decide +kernel

/-- SPCCAST with window 5 is no instruction. -/
theorem test_bad_window : (Instr.spccastTo ⟨1, 2, 5, none⟩).check ≠ none ∧ (Instr.spccastFrom ⟨1, 2, 5, none⟩).check ≠ none := by
  decide +kernel

theorem test_hyp_ScalarFullEmpty : let s := usr (withRegs [(2, 0x2000000000000010)])
    let l : Loc := ⟨poolKey 0 (299008 + 16), none⟩
    inScratch 0x2000000000000010 = true ∧ inScratch 0x40000 = false ∧
    scalarLoc s s.cur 0x2000000000000010 4 4 rR = .ok l ∧ scalarLoc s s.cur 0x2000000000000010 4 4 rW = .ok l ∧
    eccHit s l.key 4 = false ∧ eccStoreHit s l.key 4 = false ∧ ownLogCovers s s.cur l 4 = false ∧
    matrixReads s.me l.key 4 = false ∧ inPool l.key = true ∧ l.key % 4 = 0 ∧ s.fe.get (l.key / 16) = 0 ∧
    ({ s with fe := [(l.key / 16, 1)] } : State).fe.get (l.key / 16) ≠ 0 := by
  refine ⟨?_, ?_, okOf ?_, okOf ?_, ?_⟩ <;> decide +kernel

/-- A cached line, one outside every window, and a line of a pool whose boundaries are unset. -/
theorem test_hyp_Cache : let s := { usr id with cores := [(0, { pinned := [4] })] }
    cacheCheck s 0x40000 = none ∧ (∃ p, cacheCheck s 0x4000000000000001 = some p) ∧
    cacheCheck (sys id) 0x2000000000001000 = none ∧
    windowOf (sys id) 1536 0x2000000000001000 1 = some (.pool (2 ^ 60 + 0 * 2 ^ 23 + 0x1000)) ∧
    ((sys id).core 0).bnd0 = 0 ∧ ((sys id).core 0).bnd1 = 0 ∧ ((sys id).core 0).bnd2 = 0 := by
  refine ⟨?_, ⟨_, rfl⟩, ?_⟩ <;> decide +kernel

/-! ## Launches -/

/-- A block at 0x4000: its bytes from offset 0 that are not zero. -/
def tBytes (l : List (Nat × Byte)) : State :=
  let s := usr (withRegs [(2, 0x4000)])
  { s with mem := l.map (fun p => (0x4000 + p.1, p.2)) ++ s.mem }

/-- ENTRY 0x100, DEPTH 1, PLANES 0, CLASS 1, CF 8; one level of two harts. -/
def tGood : List (Nat × Byte) := [(1, 1), (0x10, 1), (0x13, 1), (0x14, 8), (0x100, 2), (0x104, 2)]

def tLoc (j : Nat) : Loc := ⟨0x4000 + 64 * j, some (0, 0x4000 + 64 * j)⟩

def tRead (s : State) : Nat := (span 0 8).foldr (fun j n => readLoc s s.myCore s.me.ctx (tLoc j) 64 + 2 ^ 512 * n) 0

theorem test_hyp_Launch_reads : let s := tBytes tGood
    performedAt s 6 = true ∧ (s.me.reg 2).toNat < 2 ^ 60 ∧ s.launches.length < 2 ^ 60 ∧ ∀ j, j < 8 →
      scalarLoc s s.cur (0x4000 + 64 * j) 64 64 rR = .ok (tLoc j) ∧ eccHit s (tLoc j).key 64 = false ∧
      (tLoc j).foreign s.myPkg = false := by
  refine ⟨by decide +kernel, by decide +kernel, by decide +kernel, fun j hj => ?_⟩
  match j, hj with
  | 0, _ => exact ⟨okOf (by decide +kernel), by decide +kernel⟩
  | 1, _ => exact ⟨okOf (by decide +kernel), by decide +kernel⟩
  | 2, _ => exact ⟨okOf (by decide +kernel), by decide +kernel⟩
  | 3, _ => exact ⟨okOf (by decide +kernel), by decide +kernel⟩
  | 4, _ => exact ⟨okOf (by decide +kernel), by decide +kernel⟩
  | 5, _ => exact ⟨okOf (by decide +kernel), by decide +kernel⟩
  | 6, _ => exact ⟨okOf (by decide +kernel), by decide +kernel⟩
  | 7, _ => exact ⟨okOf (by decide +kernel), by decide +kernel⟩

/-- A store of the hart that no other hart of its module can see yet, and a pointer of a pool. -/
theorem test_hyp_Launch_early : performedAt { usr id with remote := [(9, tStore 0)] } 6 = false ∧
    2 ^ 60 ≤ ((usr (withRegs [(2, 0x2000000000000010)])).me.reg 2).toNat := by decide +kernel

/-- R85: bound, DEPTH 0, no hart, and 2^42 members. -/
theorem test_hyp_Launch_binds :
    (let s := tBytes tGood
     ∃ b, bindBlock (s.ctx 0 0) (tRead s) = .ok b ∧ b.entry = 0x100 ∧ b.levels = [⟨2, 2, 0, false, false, 2⟩] ∧
       b.levels.any (fun l => decide (6 ≤ l.phys)) = false ∧ openLaunches s 0 0 < 4096) ∧
    (let s := tBytes [(1, 1)]; bindBlock (s.ctx 0 0) (tRead s) = .treeBind) ∧
    (let s := tBytes [(0x10, 1)]; bindBlock (s.ctx 0 0) (tRead s) = .empty) ∧
    (let s := tBytes [(0x10, 2), (0x102, 0x20), (0x104, 2), (0x112, 0x20), (0x114, 3)]
     bindBlock (s.ctx 0 0) (tRead s) = .range) := by
  refine ⟨⟨?b, ?_, ?_⟩, ?_⟩
  case b => exact match bindBlock ((tBytes tGood).ctx 0 0) (tRead (tBytes tGood)) with
    | .ok b => b | .treeBind => tBlk | .range => tBlk | .empty => tBlk
  all_goals decide +kernel

/-- A block with a PACKAGE level while a store to another module is unacknowledged. -/
theorem test_hyp_Launch_wide :
    let s := { tBytes [(1, 1), (0x10, 1), (0x14, 8), (0x100, 1), (0x104, 6)] with remote := [(9, tStore 1)] }
    performedAt s 6 = true ∧ performedAt s 7 = false ∧
    (match bindBlock (s.ctx 0 0) (tRead s) with
      | .ok b => b.levels.any (fun l => decide (6 ≤ l.phys)) | .treeBind => false | .range => false | .empty => false) = true := by
  decide +kernel

/-- The context holds 4,096 launches that are not complete. -/
theorem test_hyp_Launch_full : 4096 ≤ openLaunches { usr id with launches := (span 0 4096).map (fun i => (i, tLaunch)) } 0 0 := by
  decide +kernel

theorem test_hyp_Lwait : let s := usr (withRegs [(2, 5), (3, 6)])
    let d := { s with launches := [(1, { tLaunch with status := 2 })] }
    namedLaunch s (s.me.reg 2) = some tLaunch ∧ namedLaunch s (s.me.reg 3) = none ∧ isFinal tLaunch.status = false ∧
    namedLaunch d (d.me.reg 2) = some { tLaunch with status := 2 } ∧ isFinal 2 = true := by decide +kernel

/-- A member of a collective that has not written, a busy attachment, and neither. -/
theorem test_hyp_Exit : let s := usr id
    let q : MCmd := ⟨1, 1, 1, 0, 0, [], 0, 0, 0, 0, 0⟩
    let b := usr (fun h => { h with att := some { tAtt with queue := [q] } })
    s.me.system = false ∧ openColls s = 0 ∧ (closeStream s).me.busy = false ∧ (closeStream s).me.frozenBusy = false ∧
    hasLog (closeStream s) 0 = false ∧ performedAt (closeStream s) (exitPhys (closeStream s)) = true ∧
    performedAt (closeStream { s with remote := [(9, tStore 0)] }) (exitPhys (closeStream s)) = false ∧
    openColls b = 0 ∧ (closeStream b).me.busy = true ∧ (sys id).me.system = true ∧ openColls (sys id) = 0 := by
  decide +kernel

/-- A launch with its two teams to place on cores 0 and 1. -/
theorem test_hyp_TeamPlacement : let l := { tLaunch with
      blk := { tBlk with levels := [⟨2, 2, 0, false, false, 2⟩, ⟨2, 3, 0, true, false, 2⟩] }, teams := [], members := [], status := 0 }
    let s := { usr id with harts := State.reset.harts, cores := [], launches := [(1, l)], cur := 1536 }
    (pendingTeams l).take 2 = [0, 1] ∧ isFinal l.status = false ∧ placementOk s l [(0, 0), (1, 1)] = true ∧
    wholeUnits l [0, 1] = true ∧ firstInLine s 1 l = true ∧ teamHarts l.blk.levels ≤ 8 ∧
    ((usr id).core 0).team ≠ none ∧ (pendingTeams tLaunch).take 1 = [] := by decide +kernel

/-- An entry of queue 3 names the block at 0x4000. -/
theorem test_hyp_Doorbell : let r : Queue := { base := 0x8000, size := 16, ctx := 0, head := 2, tail := 2 }
    let s := { usr id with
      mem := tGood.map (fun p => (0x4000 + p.1, p.2)) ++ [(0x10000, 0x1F), (2 ^ 41 + 0x8011, 0x40)]
      mods := [(0, { queues := [(3, r)] })] }
    let a := s.mem.load (hostKey 0 (r.base.toNat + 8 * r.head)) 8
    let full := { s with launches := (span 0 4096).map (fun i => (i, tLaunch)) }
    modOn s 0 = true ∧ queueSizeOk r.size = true ∧ r.head < r.size ∧ 3 = r.head + 1 ∧ openLaunches s 0 r.ctx < 4096 ∧
    4096 ≤ openLaunches full 0 r.ctx ∧ modOn { s with mods := [(0, { on := false })] } 0 = false ∧
    a = 0x4000 ∧ ((deviceBlock s 0 r.ctx a).map (fun x => match bindBlock (s.ctx 0 r.ctx) x with
      | .ok b => b.entry | .treeBind => 9 | .range => 9 | .empty => 9)) = some 0x100 := by decide +kernel

theorem test_hyp_Deadline : let l := { tLaunch with blk := { tBlk with deadline := 50 } }
    let s := { usr id with launches := [(1, l)], mods := [(0, { gtime := 51 })] }
    isFinal l.status = false ∧ l.blk.deadline ≠ 0 ∧ l.blk.deadline < (s.mod l.pkg).gtime := by decide +kernel

/-- All cores of the context hold a team of class 2; a launch of class 0 with a DEADLINE waits. -/
theorem test_hyp_Preemption : let old := { tLaunch with cls := 2 }
    let new := { tLaunch with
      cls := 0, handle := 6, teams := [], members := [], status := 0
      blk := { tBlk with deadline := 50, levels := [⟨2, 2, 0, false, false, 2⟩] } }
    let s := { usr id with
      launches := [(1, old), (2, new)]
      ctxs := [(0, { live := true, sptb := 0x10000, vht := [(0, 13)], tdeleg := 0x18, cores := 1 })] }
    mayPreempt s new = true ∧ victimFor s new = some 0 ∧ swapReason s 0 = true ∧
    stopReady s 0 = true ∧ (saveTeam s 0 true).isSome = true ∧ swapReason (usr id) 0 = false := by decide +kernel

/-- An image of the team of `usr`, and a free core for it. -/
theorem test_hyp_Resume : let s := usr id
    ((saveTeam s 0 true).map (fun im =>
      let u := { s with images := [(7, im)] }
      im.swapped && coreTakes u im 1 && (u.ctx im.pkg im.ctx).spans (corePkg 1) &&
        decide ((im.harts.map Prod.fst).Nodup) && im.harts.all (fun e => decide (e.1 < 8)))) = some true := by decide +kernel

/-! ## Requests between modules -/

/-- A load, a store, an ATOM, a CAS that swaps and one that does not, each reaching its module. -/
theorem test_hyp_RemoteAccess : let op := fun (k c : Nat) => { tStore 0 with kind := k, cmp := c }
    [op 0 0, op 1 0, op 2 0, op 3 0, op 3 1].all (fun o =>
      let s := { usr id with mods := [(0, {}), (1, {})], remote := [(9, o)] }
      o.state == 0 && o.carried s && decide o.keys.Nodup && s.remote.all (fun e => !decide (e.1 < 9)) &&
        !o.carried { s with mods := [(0, {}), (1, { on := false })] }) = true ∧
    remoteRead (usr id) (op 3 0) = 0 := by decide +kernel

theorem test_hyp_RemoteAnswers : let o := { tStore 1 with kind := 0 }
    let s := { usr (fun h => { h with remote := [(0, ⟨9, none⟩), (1, ⟨8, none⟩)] }) with mods := [(0, {}), (1, {})] }
    o.carried s = true ∧ (tStore 1).carried s = true ∧ (tStore 1).kind = 1 ∧ (tStore 1).state = 1 ∧ o.kind ≠ 1 ∧ (s.harts.find o.hart).isSome = true ∧
    s.me.remote.find 0 = some ⟨9, none⟩ ∧ s.me.remote.find 1 = some ⟨8, none⟩ := by decide +kernel

/-- The oldest entry of a side log: its own module's, or another's. -/
theorem test_hyp_SideLog : let e : LogEntry := ⟨0, 0, 1, 0, 0x40000, 0x40000, 3, [1, 2], false, none⟩
    let s := usr id
    replayKey s 0 0 0 0x40000 = some 0x40000 ∧ replayKey s 0 0 0 0x40001 = some 0x40001 ∧ e.pkg = corePkg 0 ∧
    (replayKey { s with ctxs := [(0, { (s.ctx 0 0) with groupmods := 2, ngroups := 1 })], mods := [(0, {}), (1, {})] }
      0 0 1 0x40000).isSome = true ∧
    ([(9, { tStore 0 with ord := true })] : Tab RemoteOp).any (fun p => p.2.hart == e.hart && p.2.ord && p.2.state == 0) = true ∧
    replayKey s 0 0 0 0x4000000 = none := by decide +kernel

/-! ## Contexts, host, modules -/

theorem test_hyp_Contexts : let s := usr id
    modOn s 0 = true ∧ (s.mod 0).booted = true ∧ (s.ctx 0 0).live = true ∧ (s.ctx 0 1).live = false ∧
    0 ∈ (s.ctx 0 0).modules ∧ (s.harts.find (systemKey 0 2)).isSome = true := by decide +kernel

theorem test_hyp_Host : let s := usr id
    let m : Mod := { gtime := 20000, synced := 10000 }
    let r := { State.reset with mods := [(0, {}), (1, m)] }
    s.mods.find 0 = some {} ∧ ({} : Mod).on = true ∧ anyResident s 0 = true ∧ anyResident r 0 = false ∧
    r.mods.find (7 % 4096) = none ∧ 0 = timeSource r ∧ 1 ≠ timeSource r ∧ anyResident r 1 = false ∧
    (∀ j, j < 3 → physOk (({} : Mod).b2base + 0x1000 + j) = true) ∧ dieBusy s 0 0 = true ∧ dieBusy r 1 0 = false ∧
    10000 ≤ m.synced ∧ ({} : Mod).synced < 10000 ∧ 0x1000 + 3 ≤ 2 ^ ({} : Mod).b2bits ∧
    m.gtime ≥ (m.busy.get 0).toNat + 10000 ∧ m.idle.contains 0 = false ∧ m.ports.contains 3 = false ∧
    m.sigs < 2 ^ 20 ∧ 2 ^ 20 ≤ ({ m with sigs := 2 ^ 20 } : Mod).sigs := by
  decide +kernel

/-! ## Copies -/

/-- Token 2 of hart 0 copies 8 bytes from 0x40000 to 0x40100, twice. -/
def tCopy (w : Work) (t : Token → Token) : State :=
  usr (fun h => h.setToken 2 (t { pending := true, work := some w, seq := 1 }))

theorem test_hyp_CopyPerformed : let w : Work := .bytes 0x40000 0x40100 8 [⟨2, 8, 8⟩]
    let s := tCopy w id
    (copying s 0 2).isSome = true ∧ copyCount w = 2 ∧ copyHeld s 0 w 1 = false ∧
    (∃ p, copyCheck s 0 w 0 = .ok p) ∧ copyCheck s 0 w 1 = .ok (span 0x40008 8, span 0x40108 8) ∧
    keysBad s (span 0x40008 8) (span 0x40108 8) = false ∧
    copyClear s 0 { pending := true, work := some w, seq := 1 } (span 0x40008 8) (span 0x40108 8) = true ∧
    reachesAll s (pkgOf 0) (span 0x40008 8 ++ span 0x40108 8) = true ∧ reachesAll s 0 [2 ^ 42] = false ∧
    (span 0x40108 8).Nodup := by
  refine ⟨?_, ?_, ?_, ⟨(span 0x40000 8, span 0x40100 8), okOf ?_⟩, okOf ?_, ?_⟩ <;> decide +kernel

/-- CPYX for member 1, whose team has been swapped out into image 7. -/
theorem test_hyp_CopyToImage : let s := tCopy (.regX 4 1 (some 9) [(5, 0)]) id
    ((saveTeam s 0 true).map (fun im =>
      let hs := im.harts.map (fun e => (e.1, { e.2 with mid := 8 + e.2.mid }))
      let u := { s with images := [(7, { im with team := 1, harts := hs })] }
      (copying u 0 2).isSome && memberKey u 1 9 == none && memberImage u 1 9 == some (7, 1) && (Tab.find hs 1).isSome &&
        (match copyCheck u 0 (.regX 4 1 (some 9) [(5, 0)]) 3 with | .ok p => p == ([], []) | .error _ => false))) = some true := by decide +kernel

/-- Registers in, registers out, and registers to another member. -/
theorem test_hyp_CopyRegisters : let s := usr id
    copyCheck s 0 (.regIn 4 1 0x40000) 3 = .ok (span 0x400C0 64, []) ∧
    copyCheck s 0 (.regOut 4 1 0x40000 [0]) 3 = .ok ([], span 0x400C0 64) ∧
    copyCheck s 0 (.regX 4 1 (some 1) [(0, 0)]) 3 = .ok ([], []) ∧ memberKey s 1 1 = some 1 := by
  refine ⟨okOf ?_, okOf ?_, okOf ?_, ?_⟩ <;> decide +kernel

/-- A copy whose source is not mapped fails; one whose copies are all done completes, with and without an object. -/
theorem test_hyp_CopyEnds : let w : Work := .bytes 0x20000000 0x40100 8 [⟨2, 8, 8⟩]
    let s := tCopy w id
    let d := tCopy w (fun t => { t with done := [0, 1] })
    copyHeld s 0 w 0 = false ∧ (∃ p, copyCheck s 0 w 0 = .error p) ∧ copyCount w ≤ (d.me.token 2).done.length ∧
    (d.me.token 2).bobj = none ∧ ((tCopy w (fun t => { t with done := [0, 1], bobj := some 0x40000 })).me.token 2).bobj ≠ none ∧
    objectHeld s 0 0x40000 = false ∧ objectHeld { s with ecc := [(0x8001, 1)] } 0 0x40000 = true := by
  refine ⟨?_, ⟨(0x05, 0x20000000), errOf ?_⟩, ?_⟩ <;> decide +kernel

/-! ## The matrix unit -/

/-- `f` of the state with the low `n` bytes of `v` at byte key `k`. -/
def withBytes (k n v : Nat) (s : State) : State := { s with mem := s.mem.store k n v }

theorem test_hyp_Matt : let s := usr (withRegs [(2, 0x00100010), (3, 0x0000040000000000)])
    let sb := (s.me.reg 3).toNat
    matCore s = some 0 ∧ (attachments s).length < 2 ^ 60 ∧ s.me.att = none ∧ sb % 2 ^ 22 % 1024 = 0 ∧
    sb / 2 ^ 32 % 2 ^ 23 = 1024 ∧ extentTaken s 0 0 1024 = false ∧ freeRows s (quadOf 0) = 256 ∧
    (let b := usr (fun h => { h with att := some { tAtt with rows := 256 } })
     b.me.att.isSome = true ∧ extentTaken b 0 0 1024 = true ∧ freeRows b (quadOf 0) = 0) ∧
    (∃ w, (usr (fun h => { h with wait := some ⟨wMatt, 0, 0⟩ })).me.wait = some w ∧ w.kind = wMatt) ∧
    waitQuad 1536 { resetSystemHart with wait := some ⟨wMatt, 0, 0⟩ } = none := by decide +kernel

def tCmd (k : Nat) : MCmd := ⟨k, 1, 1, 0, 0, [[(poolKey 0 299008, 64)]], 0, 0x0000000100010001, 0xFFFFFFFF, 0, 0⟩

/-- Rows, depth, bases and a region for MLDS and MSTRM on an attachment of 16 rows with the binary32 formats. -/
theorem test_hyp_MatrixCommands : let x : Nat := 0x0008000100010001
    let a : Attach := { tAtt with active := { kt := 8, w := [], tan := [] } }
    let s := usr (fun h => withRegs [(2, 0x2000000000000000)] { h with att := some a })
    allRuns s (fun p => [(p, 1 * rowBytes .f32 8)]) (planeBases s 0x2000000000000000) = .ok [[(poolKey 0 299008, 32)]] ∧
    misaligned (planeBases s 0x2000000000000000) = none ∧ fmtOf a.infmt = .f32 ∧ shMR x = 1 ∧ shN x = 1 ∧
    (depthsAfter a).1 = 8 ∧ regionBad a x 0 0 = false ∧ regionBad a x 4096 0 = true ∧ a.queue = [] ∧
    ({ a with queue := [tCmd 1] } : Attach).queue ≠ [] ∧ a.rows < shMR 0x0008002000010001 := by
  refine ⟨okOf ?_, ?_⟩ <;> decide +kernel

/-- MACST and MACLD of one binary32 cell. -/
theorem test_hyp_MatrixTransfers : let x : Nat := 0x0008000100010001
    let s := usr (fun h => withRegs [(2, 0x2000000000000000)] { h with csr := { h.csr with cf := 9 }, att := some tAtt })
    allRuns s (fun p => (span 0 (shMR x)).map (fun r => (macAddr x 4 p r 0, shNC x * 4))) (planeBases s 0x2000000000000000) =
      .ok [[(poolKey 0 299008, 4)]] ∧
    regionBad tAtt x 0 0 = false ∧ misaligned (planeBases s 0x2000000000000000) = none ∧ isFloat s.me.cf = true ∧
    isFloat .i32 = false ∧
    earlierCopy s s.cur s.seq (poolKey 0 299008, 4) true = false ∧ earlierCopy s s.cur s.seq (poolKey 0 299008, 4) false = false ∧
    matrixReads s.me (poolKey 0 299008) 4 = false ∧ eccHit s (poolKey 0 299008) 4 = false ∧
    eccHit s (accKey 0 0) 4 = false ∧ cellKey tAtt x 0 0 0 0 = accKey 0 0 ∧ poolKey 0 299008 + 4 ≤ accKey 0 0 ∧
    keysBad s [] (cellBytes tAtt x 0 0) = false ∧ keysBad s (cellBytes tAtt x 0 0) (span (poolKey 0 299008) 4) = false ∧
    keysBad s (span (poolKey 0 299008) 4) (cellBytes tAtt x 0 0) = false := by
  refine ⟨okOf ?_, ?_⟩ <;> decide +kernel

/-- A head command of each kind is first in its quad. -/
theorem test_hyp_MatrixArray : let s := fun (k : Nat) => usr (fun h => { h with
      att := some { tAtt with active := { kt := 8, w := [], tan := [] }, queue := [tCmd k] } })
    [0, 1, 2].all (fun k => (firstOf (ready (s k) 0)).isSome) = true ∧ 8 / stepWidth .f32 ≠ 0 ∧
    (tCmd 0).shape / 2 ^ 16 % 512 ≤ 256 ∧
    (attachments (s 2)).filter (fun x => x.1 == 0) =
      [(0, 0, { tAtt with active := { kt := 8, w := [], tan := [] }, queue := [tCmd 2] })] ∧
    quadOf tAtt.core = 0 := by decide +kernel

/-! ## Sorting and exchange -/

/-- A region of two records, keys 9 and 4, in the scratchpad. -/
def tRegion : Nat × Nat := regionRaw [⟨9, 32, 9 + 16 * 2 ^ 64⟩, ⟨4, 32, 4 + 16 * 2 ^ 64⟩]

def tSort : State := withBytes (poolKey 0 299008) tRegion.2 tRegion.1 (usr (withRegs [(2, 0x2000000000000000), (3, 0x2000000000000400)]))

/-- The input as read and a destination elsewhere; 80 bytes in, 96 out at most. -/
theorem test_hyp_Xrun : readRegion tSort 0x2000000000000000 =
      .ok ([(poolKey 0 299008, 80)], 80, [⟨9, 32, 9 + 16 * 2 ^ 64⟩, ⟨4, 32, 4 + 16 * 2 ^ 64⟩]) ∧
    poolBytes tSort 0x2000000000000400 96 = .ok [(poolKey 0 300032, 96)] ∧ 0x2000000000000400 % 16 = 0 ∧
    runsMeet [(poolKey 0 300032, 96)] [(poolKey 0 299008, 80)] = false ∧ eccHit tSort (poolKey 0 300032) 96 = false ∧
    matrixReads tSort.me (poolKey 0 300032) 96 = false ∧
    ∀ i j, i < j → j < 96 → runKeyAt [(poolKey 0 300032, 96)] i ≠ runKeyAt [(poolKey 0 300032, 96)] j := by
  refine ⟨okOf (by decide +kernel), okOf (by decide +kernel), by decide +kernel, by decide +kernel, by decide +kernel,
    by decide +kernel, fun i j h1 h2 => ?_⟩
  simp only [runKeyAt, h2, Nat.lt_trans h1 h2, if_true]
  omega

/-- A run set of one region. -/
theorem test_hyp_Xmrg : let w := runSetRaw [[⟨4, 32, 4 + 16 * 2 ^ 64⟩, ⟨9, 32, 9 + 16 * 2 ^ 64⟩]]
    let s := withBytes (poolKey 0 299008) w.2 w.1 tSort
    poolBytes s 0x2000000000000000 16 = .ok [(poolKey 0 299008, 16)] ∧ readRuns s [(poolKey 0 299008, 16)] 0 8 = 1 ∧
    readRuns s [(poolKey 0 299008, 16)] 8 8 = 80 ∧ poolBytes s 0x2000000000000000 96 = .ok [(poolKey 0 299008, 96)] ∧
    eccAddr s [(poolKey 0 299008, 96)] 0x2000000000000000 96 = none ∧
    readRunSet s 0x2000000000000000 1 16 = .ok ([[⟨4, 32, 4 + 16 * 2 ^ 64⟩, ⟨9, 32, 9 + 16 * 2 ^ 64⟩]], 96) := by
  refine ⟨okOf ?_, ?_, ?_, okOf ?_, ?_, okOf ?_⟩ <;> decide +kernel

/-- R290: replacement selection puts keys 9, 4 in one run, ascending. -/
theorem test_xrun : (runsOf [⟨9, 32, 0⟩, ⟨4, 32, 0⟩]).map (fun r => r.map Raw.key) = [[4, 9]] := by decide +kernel

/-- A descriptor of two destinations, one sender and 4,128-byte regions at 0x5000, and a splitter of 2^40 at 0x6000. -/
def tDesc : State :=
  withBytes 0x6000 8 (2 ^ 40) (withBytes 0x5000 24 (2 * 2 ^ 16 + 1 * 2 ^ 32 + 4128 * 2 ^ 64 + 0x100000 * 2 ^ 160)
    (usr (withRegs [(2, 0x5000), (3, 0x6000), (4, 0x2000000000000000)])))

theorem test_hyp_Xsplt_install : let x := 2 * 2 ^ 16 + 1 * 2 ^ 32 + 4128 * 2 ^ 64
    let y := 0x100000 * 2 ^ 32
    let t1 := kept tDesc 0 x
    let t2 := kept t1 1 y
    groupNamed tDesc 0x5000 = none ∧ groupByte tDesc 0x5000 = some 0x5000 ∧
    readOnce tDesc 0 0x5000 16 64 4 = .ok (t1, x) ∧ readOnce t1 1 0x5010 8 16 4 = .ok (t2, y) ∧
    (span 0 2).map (fun i => destMember t2 (y / 2 ^ (32 * i) % 2 ^ 32)) = [(0, 0), (1, 0)].map some ∧
    groupsFull t2 = false ∧ readBlock t2 2 0x6000 8 8 8 = .ok (t2, 2 ^ 40) := by
  refine ⟨?_, ?_, okOf ?_, okOf ?_, ?_, ?_, okOf ?_⟩ <;> decide +kernel

def tGroup : Group where
  launch := 1
  ctx := 0
  key := 0x5000
  rebal := false
  policy := 2
  layer := false
  level := 0
  s := 1
  rcap := 4128
  dests := [(0, 0), (1, 0)]
  set := [2 ^ 40]
  comb := 0
  caps := [0xFFFFFFFF, 0xFFFFFFFF]
  rounds := []
  home := []
  versions := [⟨[], none⟩]
  staged := []
  maxTag := 0
  pft := none
  rlast := []
  lastDone := none
  mst := 0
  mx := 0
  md := 0
  shown := 0
  monarch := none
  prefetch := []
  fetched := []

def tRound (streams : Tab Stream) (closed completed : Bool) : Round where
  set := [2 ^ 40]
  comb := 0
  caps := [0xFFFFFFFF, 0xFFFFFFFF]
  streams := streams
  closed := closed
  completed := completed
  dests := []
  prop := []
  nsamp := 0
  j := 0
  sentd := [0, 0]
  result := []
  told := []

/-- Hart 1 waits with a change of group 7, numbered 5. -/
def behindOne (s : State) : State :=
  { s with harts := s.harts.put 1 { s.hart 1 with wait := some ⟨wExchange, 7, 5⟩ } }

def tGrp (f : Group → Group) : State := { tDesc with groups := [(7, f tGroup)] }

def tStream (closed : Bool) (recs : List Rec) : Stream := ⟨1, 0, 0, closed, none, recs⟩

def tRec1 : Rec := ⟨9, 2, false, false, false, 0, 0, []⟩

/-- A group that is named, with no round, an open one, and one that is closed. -/
theorem test_hyp_ExchangeGroups : let g := { tGroup with rounds := [tRound [] false false] }
    let c := { tGroup with rounds := [tRound [(0, tStream true [])] true false] }
    let d := { tGroup with rounds := [tRound [(0, tStream true [])] true true] }
    groupNamed (tGrp id) 0x5000 = some (7, tGroup) ∧ (tGrp id).groups.find 7 = some tGroup ∧ groupNamed (tGrp id) 0x5010 = none ∧
    g.open_ = true ∧ tGroup.open_ = false ∧ c.open_ = false ∧ d.open_ = false ∧
    (∃ r ∈ c.rounds, r.completed = false) ∧ (∀ r ∈ d.rounds, r.completed = true) ∧
    waitingChanges (tGrp id) 7 = [] ∧ waitingChanges (behindOne (tGrp id)) 7 = [5] ∧ changeOf 7 (tGrp id).me = none ∧
    changeOf 7 { tHart 0 with wait := some ⟨wExchange, 7, 4⟩ } = some 4 := by decide +kernel

theorem test_hyp_ExchangeBlocks :
    (tGrp id).me.remote.find 0 = none ∧ readBlock (tGrp id) 0 0x6000 8 4 4 = .ok (tGrp id, 2 ^ 40) ∧ readBlock (tGrp id) 2 0x6000 8 8 8 = .ok (tGrp id, 2 ^ 40) := by
  refine ⟨?_, okOf ?_, okOf ?_⟩ <;> decide +kernel

/-- XOPEN of sender 0: a new round, a round another sender opened, and an open round that has its stream already. -/
theorem test_hyp_Xopen : let g := { tGroup with s := 2, rounds := [tRound [(1, tStream false [])] false false] }
    let w := { tGroup with s := 2, rounds := [tRound [(0, tStream true [])] false false] }
    (0 : Nat) < tGroup.s ∧ tGroup.s ≤ 1 ∧ (closeStream (tGrp id)).groups.find 7 = some tGroup ∧
    (closeStream (tGrp (fun _ => g))).groups.find 7 = some g ∧ ((g.rounds[0]?).map (fun x => x.streams.find 0)) = some none ∧
    (closeStream (tGrp (fun _ => w))).groups.find 7 = some w ∧ w.open_ = true ∧
    ((w.rounds[0]?).map (fun x => (x.streams.find 0).isSome)) = some true ∧
    waitingChanges (closeStream (tGrp id)) 7 = [] ∧ waitingChanges (closeStream (behindOne (tGrp id))) 7 ≠ [] := by decide +kernel

theorem test_hyp_Xrecv : let s := tGrp id
    (0 : Nat) < tGroup.dests.length ∧ (tGroup.dests.getD 0 (0, 0)).1 = s.me.mid ∧ (tGroup.dests.map Prod.fst).Nodup ∧
    s.me.launch = tGroup.launch ∧ s.me.system = false ∧ (∃ rs, poolBytes s (s.me.reg 4).toNat tGroup.rcap = .ok rs) ∧
    (s.me.reg 4).toNat % 16 = 0 ∧ (s.me.reg 2).toNat % 32 = 0 := by
  refine ⟨?_, ?_, ?_, ?_, ?_, ⟨(span 0 4).map (fun i => (poolKey 0 299008 + 1024 * i, 1024)) ++ [(poolKey 0 299008 + 4096, 32)],
    okOf ?_⟩, ?_⟩ <;> decide +kernel

/-- A hart with a stream, and a region of records ready to send: in order, and out of order. -/
theorem test_hyp_Xsend : let g := { tGroup with rounds := [tRound [(0, tStream false [])] false false] }
    let f := fun (s : State) => s.setMe { s.me with stream := some (7, 0) }
    let s := f { tSort with groups := [(7, g)] }
    s.me.sending = none ∧ s.me.stream = some (7, 0) ∧ s.groups.find 7 = some g ∧ g.rounds.getLast? = some (tRound [(0, tStream false [])] false false) ∧
    Tab.find [(0, tStream false [])] 0 = some (tStream false []) ∧
    disorder none [⟨9, 32, 0⟩, ⟨4, 32, 0⟩] = some 4 ∧ tSort.me.stream = none ∧
    [(⟨4, 32, 0⟩ : Raw), ⟨9, 32, 0⟩].Pairwise (fun x y => x.key ≤ y.key) ∧
    pin s (poolKey 0 299008) = s ∧ ({ s.me with sending := some (0x2000000000000000, 16, 2) } : Hart).sending ≠ none ∧
    (recordsFrom s 0x2000000000000000 2 16).map Raw.key = [9, 4] ∧
    (∃ rs n, readRegion (usr id) 0x2000000000000000 = .ok (rs, n, [])) := by
  refine ⟨?_, ?_, ?_, ?_, ?_, ?_, ?_, ?_, ?_, ?_, ?_, ⟨[(poolKey 0 299008, 16)], 16, okOf ?_⟩⟩ <;> decide +kernel

/-- A closed round with one record for destination 0; staging has room, or none. -/
theorem test_hyp_SwitchEmit : let r := { tRound [(0, tStream true [tRec1])] true false with result := [([tRec1], 0), ([], 0)] }
    let g := { tGroup with rounds := [r] }
    let big : Rec := { tRec1 with pay := List.replicate 4080 1 }
    let full := { tGroup with rounds := [{ r with dests := [(0, { emitted := 0, staging := List.replicate 16 big })] }] }
    corePkg (g.dests.getD 0 (0, 0)).2 = 0 ∧ emittingRound g 0 = some 0 ∧ (emittable g r 0)[0]? = some tRec1 ∧
    (tStream true [tRec1]).pkg = 0 ∧ tRec1.src = 0 ∧ routeCut (tGrp id) 0 0 = false ∧ stagingUsed g 0 + 16 ≤ 65536 ∧
    emittingRound full 0 = some 0 ∧ 65536 < stagingUsed full 0 + 16 := by decide +kernel

/-- A record in staging and its hart's posted region; an empty staging at the round's end; a region without room. -/
theorem test_hyp_RecordDelivery : let r := { tRound [(0, tStream true [tRec1])] true false with result := [([tRec1], 0), ([], 0)] }
    let staged := { r with dests := [(0, { emitted := 0, staging := [tRec1] })] }
    let ended := { r with dests := [(0, { emitted := 1, staging := [], got := 1 })] }
    let g := { tGroup with rounds := [staged] }
    let p : Posted := ⟨7, 0, [(poolKey 0 299008, 4128)], 0, 16, 0⟩
    let s := { tGrp (fun _ => g) with harts := [(0, { tHart 0 with posted := [p] }), (1, tHart 1)] }
    s.groups.find 7 = some g ∧ memberKey s 1 0 = some 0 ∧ (s.hart 0).posted = [p] ∧ pendingRound g 0 = some 0 ∧
    p.at_ + 16 ≤ g.rcap ∧ allEmitted g staged 0 = false ∧ inPool (poolKey 0 299008) = true ∧
    g.rcap ≤ (p.runs.map Prod.snd).sum ∧ allEmitted { g with rounds := [ended] } ended 0 = true ∧
    pendingRound { g with rounds := [ended] } 0 = some 0 ∧ g.rcap < ({ p with at_ := 4120 } : Posted).at_ + 16 := by decide +kernel

theorem test_hyp_Xsamp : let s := tGrp id
    (∃ t, writeBlock s (s.me.reg 3).toNat (16 + 32 * tGroup.dests.length) 8 8 (sampleBlock tGroup) = .ok t) ∧
    (let r := { tRound [(0, tStream true [tRec1])] true false with result := [([tRec1], 0), ([], 0)] }
     r.closed = true ∧ sentCount r < 2 ^ 64 ∧ r.nsamp < 2 ^ 32 ∧ r.j < 2 ^ 32 ∧ r.sentd.length = tGroup.dests.length ∧
      r.result.length = tGroup.dests.length) ∧
    (usr (fun h => { h with wait := some ⟨wExchange, 3, 2⟩ })).me.wait = some ⟨wExchange, 3, 2⟩ ∧
    s.me.wait ≠ some ⟨wExchange, 3, 2⟩ := by
  refine ⟨someOk ?_, ?_⟩ <;> decide +kernel

/-- XROUND of a round still open, one complete, one whose Capacity the hart has not been told of. -/
theorem test_hyp_Xround : let n := tRound [] false false
    let d := tRound [(0, tStream true [])] true true
    let o := { tRound [(0, tStream true [tRec1])] true true with result := [([], 1), ([], 0)] }
    n.completed = false ∧ d.completed = true ∧ firstOver d = none ∧
    firstOver o = some 0 ∧ tGroup.policy = 2 ∧ o.told.contains ((1 : Nat), (0 : Nat)) = false := by
  decide +kernel

/-! ## Experts -/

/-- Two rows of four binary32 scores; k = 2. -/
theorem test_hyp_TopK : let s := usr (fun h => withRegs [(2, 0x2000000000000000), (3, 2)] { h with csr := { h.csr with cf := 9 } })
    windowOf s s.cur 0x2000000000000000 32 = some (.pool (poolKey 0 299008)) ∧ eccHit s (poolKey 0 299008) 32 = false ∧
    s.me.cf = .f32 ∧ interlocked s 1024 [4, 5] = false ∧ (0x82 : Nat) % 32 = 2 ∧ (0x82 : Nat) / 32 % 2048 = 4 := by decide +kernel

/-- R302: scores 1.0, 3.0, -2.0, 3.0 in binary32: columns 1 and 3, in that order. -/
theorem test_topk : topK (fun c => scoreKey .f32 ([0x3F800000, 0x40400000, 0xC0000000, 0x40400000].getD c 0)) 2 4 = [1, 3] := by
  decide +kernel

theorem test_hyp_Xrtab : let s := tGrp id
    readOnce s 0 0x7000 32 8 8 = .ok (kept s 0 0, 0) ∧ groupNamed s 0x5000 = some (7, tGroup) ∧
    groupNamed (kept s 0 0) 0x5000 = some (7, tGroup) ∧ (kept s 0 0).groups.find 7 = some tGroup ∧
    waitingChanges (kept s 0 0) 7 = [] ∧ (0 : Nat).testBit 15 = false ∧
    (∀ d ∈ [0], d < tGroup.dests.length) ∧ tGroup.dests.length ≤ 2 ∧ (2 ^ 15 : Nat).testBit 15 = true ∧
    stagedCopying tGroup = false ∧ tGroup.versions.length < 4 ∧ tGroup.versions ≠ [] ∧
    stagedCopying { tGroup with mst := 1, staged := [(0, ⟨[0], 0⟩)] } = true := by
  refine ⟨okOf ?_, ?_⟩ <;> decide +kernel

theorem test_hyp_Xload : let s := tGrp (fun g => { g with home := List.replicate 256 0 })
    (∃ t, writeBlock s 0x8000 2064 8 8 tGroup.shown = .ok t) ∧ tGroup.lastDone = none ∧
    (span 0 256).all (fun e => (replicaOf { tGroup with home := List.replicate 256 0 } ⟨[], none⟩ e).dests.length == 1) = true := by
  refine ⟨someOk ?_, ?_⟩ <;> decide +kernel

/-- A control block with 64-byte weights that fits, and an all-zero one, which does not. -/
theorem test_hyp_Xpft : let x := 5 + 64 * 2 ^ 256
    let s := withBytes 0x7000 64 x (tGrp id)
    let c := readPft 0 x
    readBlock s 0 0x7000 64 8 8 = .ok (s, x) ∧ 16 ≤ c.wlen ∧ c.wlen ≤ 2097152 ∧ c.wlen % 16 = 0 ∧ c.woff % 1024 = 0 ∧
    passesScratch s tGroup (c.woff + 2 * c.wlen) = false ∧ inGlobal s (x / 2 ^ 64 % 2 ^ 64) = true ∧ inGlobal s (2 ^ 47) = false ∧ c.pfth ≠ 0 ∧
    (({ s with mods := [(0, { claim := some 3 })] } : State).mod 0).claim = some 3 ∧ launchModules s 1 = [0] ∧
    (s.mod 0).claim = none ∧ ¬(16 ≤ (readPft 0 0).wlen) := by
  refine ⟨okOf ?_, ?_⟩ <;> decide +kernel

/-- A granule of expert weights at 0x40000 for destination 0. -/
theorem test_hyp_WeightCopies : let s := tGrp id
    let k := poolKey 0 ((s.core 0).bnd1 + 0 + 0)
    (∀ j, j < 16 → deviceKey s 0 0 ((0x40000 + 0 + j) % 2 ^ 64) 1 rR = some (0x40000 + j)) ∧
    keysBad s ((span 0 16).map (fun j => 0x40000 + j)) [] = false ∧
    reachesAll s (corePkg (coreOf 0)) ((span 0 16).map (fun j => 0x40000 + j)) = true ∧ memberKey s 1 0 = some 0 ∧ inPool k = true ∧ k % 16 = 0 := by
  decide +kernel

/-! ## Collectives -/

/-- A group list of both harts at 0x7000, with no object. -/
def tList : State := withBytes 0x7000 24 (2 + 0x100000 * 2 ^ 160) (usr (withRegs [(2, 0x7000), (3, 0x1000000000007000)]))

theorem test_hyp_Grpset : let y := 0x100000 * 2 ^ 32
    let t1 := kept tList 0 2
    let t2 := kept t1 1 y
    (tList.me.reg 2).toNat < 2 ^ 60 ∧ 2 ^ 60 ≤ (tList.me.reg 3).toNat ∧
    readOnce tList 0 0x7000 16 16 4 = .ok (t1, 2) ∧ readOnce t1 1 0x7010 8 16 4 = .ok (t2, y) ∧
    (span 0 2).map (fun j => listedMember t2 (y / 2 ^ (32 * j) % 2 ^ 32)) = [0, 1].map some ∧
    windowOf t1 0 0x7000 (16 + 4 * 2) ≠ none ∧ windowOf t1 0 (2 ^ 42 - 16) 24 = none ∧
    [0, 1][0]? = some tList.me.mid ∧ readOnce (usr id) 0 0x7000 16 16 4 = .ok (kept (usr id) 0 0, 0) ∧
    none ∈ (span 0 2).map (fun j => listedMember (usr id) ([0, 0x300000].getD j 0)) ∧ waitColls tList 3 = .ok tList := by
  refine ⟨?_, ?_, okOf ?_, okOf ?_, ?_, ?_, ?_, ?_, okOf ?_, ?_, okOf ?_⟩ <;> decide +kernel

def tGrpReg : GroupReg := ⟨true, 0x7000, 2, 0, 0, 0, [0, 1]⟩

/-- A hart with a usable register 3, VL 2, binary32. -/
def tColl (f : State → State) : State :=
  f (usr (fun h => { vec2 9 [(1, .f32)] [] h with groups := [(3, tGrpReg)] }))

def tMember (rank : Nat) : CMember where
  launch := 1
  mid := rank
  reg := 3
  rank := rank
  size := 2
  kind := 1
  op := 0
  exact := false
  fmt := 9
  vl := 2
  root := 0
  n := 0
  vd := 4
  mask := none
  vlcap := 128
  sat4 := false
  bobj := 0
  list := [0, 1]
  src := [0x3F8000003F800000]
  deadline := 1000
  written := false
  seq := rank
  vs1 := 1
  due := false

def tInst (ms : List CMember) (st : Nat) : Coll := ⟨0x7000, 0, 1, ms, st, []⟩

/-- COLL with an unusable register, a format its operator does not take, eight open instances, and a good one. -/
theorem test_hyp_Coll : let s := tColl id
    let o := fun (n : Nat) => { s with
      owed := (span 0 n).map (fun i => ⟨1, 0, 3, i, none, none, 0⟩)
      colls := (span 0 n).map (fun i => (i, tInst [] 0)) }
    (s.me.group 3).usable = true ∧ (s.me.group 3).rank < (s.me.group 3).size ∧ (s.me.group 2).usable = false ∧ badSource .any s.me.cf s.me [1] = none ∧
    isFloat s.me.cf = true ∧ isGx s.me.cf = false ∧ isGx .gx8 = true ∧ openColls s = 0 ∧ 8 ≤ openColls (o 8) ∧
    registerDue s 1 0 1 s.seq = false ∧ registerDue { s with colls := [(5, tInst [{ tMember 0 with vd := 1 }] 1)] } 1 0 1 9 = true ∧
    collOk (tInst [tMember 0, tMember 1] 0) = true ∧
    collOk (tInst [tMember 0, { tMember 1 with vl := 3 }] 0) = false := by decide +kernel

/-- CWAIT on an instance still open, one owed a trap, one owed a deadline, and one that only brings flags. -/
theorem test_hyp_Cwait : let w := fun (c : Option (Nat × W64)) (d : Option W64) (cs : Tab Coll) =>
      { tColl id with owed := [⟨1, 0, 3, 5, c, d, 1⟩], colls := cs }
    (owedOn (w none none [(5, tInst [] 1)]) (tColl id).me 3).map (fun x => x.ended (w none none [(5, tInst [] 1)])) = [false] ∧
    (owedOn (w (some (0x0C, 7)) none []) (tColl id).me 3).map (fun x => (x.ended (w none none []), x.cause)) = [(true, some (0x0C, 7))] ∧
    (owedOn (w none (some 9) []) (tColl id).me 3).map (fun x => (x.ended (w none none []), x.cause, x.dl)) = [(true, none, some 9)] ∧
    (owedOn (w none none []) (tColl id).me 3).map (fun x => (x.ended (w none none []), x.cause, x.dl)) = [(true, none, none)] := by
  decide +kernel

/-- An instance that waits for staging, one that is staged with both parts unwritten, and the last part of one. -/
theorem test_hyp_CollectiveSteps : let c := tInst [tMember 0, tMember 1] 2
    let s := { tColl id with colls := [(5, tInst [tMember 0, tMember 1] 1), (6, c)] }
    stagingFits s (tInst [tMember 0, tMember 1] 1) = true ∧ c.members.find? (fun x => x.rank == 1 && !x.written) = some (tMember 1) ∧
    (s.colls.map Prod.fst).foldl readSources s = s ∧ readSources s 5 = s ∧ (tMember 0).pkg = 0 ∧ (memberHart s 1 1).isSome = true ∧ (tMember 1).bobj = 0 ∧ targetFree s (tMember 1) = true ∧
    targetFree { s with colls := [(5, tInst [{ tMember 1 with vs1 := 4, due := true, seq := 0 }] 1)] } (tMember 1) = false ∧
    (c.members.map CMember.seq).Nodup ∧ collWrites (tMember 1) = true ∧ registerDue s 1 1 1 1 = false ∧
    collWrites { tMember 1 with kind := 0 } = false ∧ routeCut s (memberPkg s 1 0) (memberPkg s 1 1) = false ∧
    c.members.all (fun x => x.written || x.rank == 1) = false ∧
    (tInst [{ tMember 0 with written := true }, tMember 1] 2).members.all (fun x => x.written || x.rank == 1) = true ∧
    (s.mod 0).gtime ≤ c.members.foldl (fun n x => min n x.deadline) (2 ^ 64) ∧
    c.members.foldl (fun n x => min n x.deadline) (2 ^ 64) < ({ gtime := 2000 } : Mod).gtime := by decide +kernel

/-- R324: 1.0 + 1.0 in binary32. -/
theorem test_allred : (redUnit (tInst [tMember 0, tMember 1] 2) (tMember 0) 0 1).1 = 0x40000000 := by decide +kernel

/-! ## Coordinate regions -/

/-- RANK 1, VFMT F32, EXT 16, a pool of 4,096 bytes at 0x20000. -/
def tShape : Nat := 1 + 9 * 2 ^ 8 + 16 * 2 ^ 64 + 0x20000 * 2 ^ 576 + 4096 * 2 ^ 640

/-- The live header: root 1, COUNT 1, NFREE 2. -/
def tHeader : Nat := tShape + 1 * 2 ^ 704 + 1 * 2 ^ 768 + 2 * 2 ^ 832

def tIndex : Region := ⟨[(0x20000, 4096)], [], 0, [(5, 0x3F800000)], [[(1, 1)]]⟩

/-- The region holds key 5; hart 0 has its pointer in s2, and integer keys in v2. -/
def tReg (f : Hart → Hart) : State :=
  let s := withBytes 0x20000 128 tHeader (withBytes 0x7000 128 tShape
    (usr (fun h => f (withRegs [(2, 0x4000000000020000), (3, 0x7000)] (vec2 9 [(1, .f32), (2, .i64)] [] h)))))
  { s with regions := [(0x20000, tIndex)] }

def tOpen : Opened := ⟨0x20000, 0x20000, tHeader, tIndex⟩

theorem test_hyp_Crinit : let s := tReg id
    (s.me.reg 3).toNat / 2 ^ 60 = 0 ∧ (s.me.reg 2).toNat / 2 ^ 60 ≠ 0 ∧ scalarBlockOnce s 0x7000 128 64 64 = .ok (kept s 0 tShape, tShape) ∧
    1 ≤ shRank tShape ∧ shVfmt tShape ≤ 13 ∧ shExt tShape 0 = 16 ∧ shVolume tShape = 16 ∧ shPool tShape = 0x20000 ∧
    shPsize tShape = 4096 ∧ shPool tShape / 2 ^ 48 % 2 ^ 12 = s.myPkg ∧ ¬(1 ≤ shRank 0) ∧
    poolPages s (4096 / 65536 + 2) 0x20000 4096 = .ok [(0x20000, 4096)] ∧ logInPool s 0x20000 4096 = false := by
  refine ⟨?_, ?_, okOf ?_, ?_, ?_, ?_, ?_, ?_, ?_, ?_, ?_, okOf ?_, ?_⟩ <;> decide +kernel

/-- CLD, CST and CSCAN on the region; a pointer of another window is refused. -/
theorem test_hyp_CoordinateReads : let s := tReg id
    openRegion s 0x4000000000020000 = .ok tOpen ∧ (∃ c v, openRegion s 0x20000 = .error (c, v)) ∧
    s.me.tag 2 = .i64 ∧ s.me.tag 1 ≠ .i64 ∧ s.me.tag 1 ≠ .u64 ∧ interlocked s 1024 [4, 5] = false ∧
    nodesTrap s 0x20000 rR (pathOf tIndex.shape (leafFor tIndex 0)).reverse = none ∧
    nodesTrap s 0x20000 rR (pathOf tIndex.shape (leafFor tIndex 5)).reverse = none ∧
    (nodesTrap { s with ecc := [(0x20400 / 8, 1)] } 0x20000 rR (pathOf tIndex.shape (leafFor tIndex 5)).reverse).isSome = true ∧
    (∀ k, k < 16 → k < shVolume tHeader) ∧ shVfmt tHeader ≤ 13 := by
  refine ⟨okOf ?_, ⟨0x08, 0x20000, errOf ?_⟩, ?_⟩ <;> decide +kernel

theorem nodes_ok (need : Nat) (h0 : nodesTrap (tReg id) 0x20000 need [0] = none) (h1 : nodesTrap (tReg id) 0x20000 need [1] = none)
    (h2 : nodesTrap (tReg id) 0x20000 need [2] = none) (h3 : nodesTrap (tReg id) 0x20000 need [3] = none) :
    ∀ l : List Nat, (∀ n ∈ l, n < 4) → nodesTrap (tReg id) 0x20000 need l = none
  | [], _ => rfl
  | n :: l, h => by
    have hl := nodes_ok need h0 h1 h2 h3 l (fun m hm => h m (List.mem_cons_of_mem _ hm))
    have hn : nodesTrap (tReg id) 0x20000 need [n] = none := by
      have := h n (List.mem_cons_self ..)
      obtain rfl | rfl | rfl | rfl : n = 0 ∨ n = 1 ∨ n = 2 ∨ n = 3 := by omega
      · exact h0
      · exact h1
      · exact h2
      · exact h3
    unfold nodesTrap at hn ⊢
    split at hn
    · simp at hn
    · exact hl

theorem test_hyp_StoreKey : (∀ l, (∀ n ∈ l, n < shPsize tOpen.x / 1024) →
      nodesTrap (tReg id) tOpen.base rR l = none ∧ nodesTrap (tReg id) tOpen.base (rR + rW) l = none) ∧
    2048 ≤ shPsize tOpen.x ∧ tOpen.r.shape ≠ [] ∧ (∀ n ∈ treeNodes tOpen.r.shape, n < shPsize tOpen.x / 1024) ∧
    (Tab.find tOpen.r.pairs 5).isSome = true ∧ (Tab.find tOpen.r.pairs 6).isSome = false ∧ shVolume tOpen.x ≤ 16 ∧
    6 < shVolume tOpen.x ∧ ((tOpen.r.shape.headD []).getD (leafFor tOpen.r 6) (0, 0)).2 < 60 := by
  refine ⟨fun l h => ?_, by decide +kernel⟩
  have h4 : shPsize tOpen.x / 1024 = 4 := by decide +kernel
  rw [h4] at h
  exact ⟨nodes_ok _ (by decide +kernel) (by decide +kernel) (by decide +kernel) (by decide +kernel) l h,
    nodes_ok _ (by decide +kernel) (by decide +kernel) (by decide +kernel) (by decide +kernel) l h⟩

/-- R341: a full leaf with no free node for its split. -/
theorem test_hyp_StoreKey_exhausted : let r : Region := { tIndex with pairs := (span 0 60).map (fun k => (k, 1)), shape := [[(1, 60)]] }
    60 ≤ ((r.shape.headD []).getD (leafFor r 100) (0, 0)).2 ∧ (Tab.find r.pairs 100).isSome = false ∧
    shNfree (tShape + 1 * 2 ^ 704 + 60 * 2 ^ 768) = 0 := by decide +kernel

/-- CST of one element, key 0: one that stores zero in an absent key, and one whose source format does not fit. -/
theorem test_hyp_Cst : let s := tReg (fun h => { h with csr := { h.csr with vl := 1 } })
    badSource .any .f32 s.me [1] = none ∧ badSource .any .f32 s.me [2] ≠ none ∧
    storeKey 0x4000000000020000 0 0 s = .ok s ∧ (∃ e, storeKey 0x4000000000020000 16 1 s = .error e) := by
  refine ⟨?_, ?_, okOf ?_, ⟨(0x08, 0x4000000000020000), errOf ?_⟩⟩ <;> decide +kernel

/-- A box of one element at 0x40000; a box past the extent. -/
theorem test_hyp_Cdense : let y := 1 * 2 ^ 512 + 4 * 2 ^ 1024 + 0x40000 * 2 ^ 1536
    let s := withBytes 0x8000 256 y (tReg id)
    scalarBlockOnce s 0x8000 256 8 8 = .ok (kept s 0 y, y) ∧ boxOrig y 0 + boxLen y 0 ≤ (shExts tHeader).getD 0 0 ∧
    ¬(boxOrig (16 + y) 0 + boxLen (16 + y) 0 ≤ (shExts tHeader).getD 0 0) ∧
    checkedPlace s true 4 4 0x40000 = .ok (.here [(⟨0x40000, some (0, 0x40000)⟩, 4)]) ∧
    storeWaits s (.here [(⟨0x40000, some (0, 0x40000)⟩, 4)]) = false ∧
    nodesTrap s 0x20000 rR (pathOf tIndex.shape (leafFor tIndex 0)).reverse = none ∧ pin s 0x40000 = s := by
  refine ⟨okOf ?_, ?_, ?_, okOf ?_, ?_⟩ <;> decide +kernel

/-- A region of two leaves, keys 0 and 1, and a box of both: the engine reads one leaf, then the other; a node that cannot
be read. -/
theorem test_hyp_Cdense_leaves : let r : Region := ⟨[(0x20000, 4096)], [], 0, [(0, 7), (1, 8)], [[(1, 1), (2, 1)], [(3, 2)]]⟩
    let b : Box := ⟨⟨0x20000, 0x20000, tHeader, r⟩, 2 * 2 ^ 512 + 4 * 2 ^ 1024 + 0x40000 * 2 ^ 1536, 4⟩
    let p := fun (j : Nat) => [((⟨0x40000 + 4 * j, some (0, 0x40000 + 4 * j)⟩ : Loc), 4)]
    let s := tReg id
    let w := b.readLeaf 0 s
    b.volume = 2 ∧ b.reach 0 = [0] ∧ b.reach 1 = [1] ∧ readAhead s.me 0 = none ∧ readAhead w.me 0 = some 7 ∧
    readAhead w.me 1 = none ∧ nodesTrap s 0x20000 rR (pathOf r.shape (b.leaf 0)).reverse = none ∧
    (nodesTrap { s with ecc := [(0x20C00 / 8, 1)] } 0x20000 rR (pathOf r.shape (b.leaf 0)).reverse).isSome = true ∧
    [0, 1].all (fun j => placeAgain s 4 (b.addr j) == .here (p j) && !storeWaits w (.here (p j)) &&
      (p j).all (fun q => !q.1.foreign s.myPkg && decide (pin s q.1.key = s))) = true ∧
    storing { s.me with wait := some ⟨wCoord, 1, 1⟩ } = some 1 ∧
    captured { s.me with remote := [(0, ⟨0, some (9, 0)⟩), (boxHeader, ⟨0, some (tHeader, 0)⟩)] } boxHeader = some tHeader ∧
    captured { s.me with remote := [(0, ⟨0, some (9, 0)⟩), (boxHeader, ⟨0, some (tHeader, 0)⟩)] } 0 = some 9 := by decide +kernel

/-- VSTC of two zeros at 0x40000: a count and one word of bits. -/
theorem test_hyp_Vstc : let s := usr (vec2 9 [(1, .f32)] [(2, 0x40000)])
    badSource .any s.me.cf s.me [1] = none ∧ isGx s.me.cf = false ∧ storing s.me = none ∧ interlocked s 1024 [1] = false ∧
    ([0x40000, 0x40008].all (fun a => match checkedPlace s true 8 8 a with
      | .ok p => p == .here [(⟨a, some (0, a)⟩, 8)] && !storeWaits s p | .error _ => false)) = true ∧ pin s 0x40000 = s := by
  decide +kernel

/-! ## Gathers -/

/-- One index, 0, at 0x40000; a table of one 8-byte row at 0x41000; a buffer at 0x42000. -/
def tHz : Nat := 0x40000 + 0x41000 * 2 ^ 64 + 0x42000 * 2 ^ 128 + 1 * 2 ^ 192 + 1 * 2 ^ 224 + 8 * 2 ^ 256

def tGather : Gather := ⟨span 0x40000 4, [0], [(0, span 0x42000 8)], [(0, span 0x41000 8)]⟩

theorem test_hyp_Gathers : let s := usr (fun h => h.setToken 2 { pending := true, work := some (.gather 0 tHz), seq := 1 })
    (s.harts.find 0).isSome = true ∧ (s.me.token 2).pending = true ∧ earlierDone s 0 1 = true ∧
    [0, 1, 2].all (fun fn => match gatherCheck s 0 fn tHz with
      | .ok g => g == tGather && !g.held s 0 fn [0] && g.held { s with ecc := [(0x8000, 1)] } 0 fn [0]
      | .error _ => false) = true ∧
    (∃ e, gatherCheck s 0 0 (tHz + 2) = .error e) ∧
    ((tGather.out ++ tGather.table).flatMap Prod.snd).Nodup ∧
    (∀ q ∈ (tGather.out ++ tGather.table).flatMap Prod.snd, pin s q = s) := by
  refine ⟨?_, ?_, ?_, ?_, ⟨(0x04, 0x40002), errOf ?_⟩, ?_⟩ <;> decide +kernel

/-- A gather of 513 indices outside its table: the middle tile, and the last. -/
theorem test_hyp_Gather_tiles : let s := usr id
    let idx := List.replicate 513 9
    let g := gatherAgain s 0 tHz idx
    g.idx.length = 513 ∧ g.held s 0 0 (range 512 513) = false ∧ 256 * (1 + 1) < 513 ∧ 513 ≤ 256 * (2 + 1) ∧
    objectHeld s 0 0x40000 = false ∧ hzN tHz ≤ 256 := by decide +kernel

theorem test_hyp_Gather_issue : let s := withBytes 0x7000 64 tHz (usr (withRegs [(2, 0x7000)]))
    scalarBlock s 0x7000 64 8 8 = .ok (s, tHz) ∧ interlocked s 1024 [] = false := by
  refine ⟨okOf ?_, ?_⟩ <;> decide +kernel

theorem test_hyp_addRows : isGx .f32 = false ∧ fmtBytes .f32 * (0 + 1) ≤ ([0, 0, 0, 0] : List Byte).length := by decide

/-! ## Ill-formed terms: one for each check -/

theorem test_ill_literal : (Instr.addi ⟨1, 2, 5, .lit 7⟩).check = some .literalField ∧
    (Instr.shli ⟨1, 2, 0, .lit 64⟩).check = some .badImm := by decide +kernel

theorem test_ill_registers : (Instr.vadd ⟨48, 1, 2, 15, none⟩).check = some .badVReg ∧
    (Instr.vadd ⟨3, 63, 2, 15, none⟩).check = some .badVReg ∧
    (Instr.vadd ⟨3, 1, 2, 12, none⟩).check = some .badMask ∧ (Instr.vcmpeq ⟨13, 1, 2, 15, none⟩).check = some .badMask ∧
    (Instr.tid ⟨1, 16, none⟩).check = some .badLevel ∧ (Instr.lnset ⟨6, 1, 2, none⟩).check = some .badLevel ∧
    (Instr.xtopk ⟨47, 2, 3, 15, tExt 0x82⟩).check = some .badVReg ∧
    (Instr.cpyrLoad ⟨45, 2, 3, tExt 4⟩).check = some .badVReg := by decide +kernel

theorem test_ill_selectors : (Instr.tseed ⟨1, 2, 5, 15, none⟩).check = some .badMinor ∧
    (Instr.tclr ⟨1, 5, 15, none⟩).check = some .badMinor ∧ (Instr.dual ⟨5⟩).check = some .badMinor ∧
    (Instr.vgredSum ⟨1, 2, 11, 15, none⟩).check = some .badMinor ∧ (Instr.grpset ⟨8, 1, none⟩).check = some .badMinor ∧
    (Instr.gth ⟨8, 1, 2, none⟩).check = some .badMinor ∧ (Instr.csrwBnd ⟨1, 0, none⟩).check = some .badMinor ∧
    (Instr.csrw ⟨1, 0x820, none⟩).check = some .badMinor ∧ (Instr.vgredSum ⟨1, 1, 3, 15, none⟩).check = some .overlap ∧
    (Instr.vperm ⟨1, 2, 1, 15, none⟩).check = some .overlap := by decide +kernel

theorem test_ill_immediates : (Instr.vextUniform ⟨1, 2, 15, { tExt 0x4000 with fd := 15, fa := 15, sub := 1 }⟩).check = some .badImm ∧
    (Instr.cpy ⟨1, 2, tExt 0⟩).check = some .badImm ∧ (Instr.cpyrLoad ⟨1, 2, 3, tExt 9⟩).check = some .badImm ∧
    (Instr.mcfg ⟨tExt 0x17⟩).check = some .badImm ∧ (Instr.xtopk ⟨1, 2, 3, 15, tExt 0x63⟩).check ≠ some .badVReg ∧
    (Instr.xtopk ⟨1, 2, 3, 15, tExt 0x31⟩).check = some .badImm ∧
    (Instr.atomAdd ⟨1, 2, 3, some (tExt 2)⟩).check = some .badImm ∧ (Instr.atomFaddd ⟨1, 2, 3, some (tExt 1)⟩).check = some .badImm ∧
    (Instr.collReduce ⟨1, 2, 3, 15, tExt 0x28⟩).check = some .badImm ∧
    (Instr.lnset ⟨1, 2, 3, some { tExt 0 with vs3 := 4 }⟩).check = some .reservedField := by decide +kernel

theorem test_ill_extended : (Instr.vadd ⟨1, 2, 3, 15, some (tExt 0)⟩).check = some .badFormats ∧
    (Instr.vadd ⟨1, 2, 3, 15, some { tExt 0 with fd := 15, fa := 15, rm := 5 }⟩).check = some .badRounding ∧
    (Instr.vfms ⟨1, 2, 3, 15, { tExt 0 with fd := 15, fa := 15, vs3 := 50, sub := 1 }⟩).check = some .badVs3 ∧
    (Instr.add ⟨1, 2, 3, some { tExt 0 with lvl := 1 }⟩).check = some .reservedField ∧
    (Instr.add ⟨1, 2, 3, some (tExt 1)⟩).check = some .reservedField ∧
    (Instr.add ⟨1, 2, 3, some { tExt 0 with sub := 1 }⟩).check = some .badMinor := by decide +kernel

/-- What the decoder refuses before there is an instruction. -/
theorem test_ill_words : decode [0x00000000] = .bad .neverMajor ∧ decode [0x1FC00000] = .bad .neverMajor ∧
    decode [0x05C00000] = .bad .reservedMajor ∧ decode [0x0040007F] = .bad .badMinor ∧ decode [] = .bad .short ∧
    decode [0x40400000, 0] = .bad .short ∧ decode [0x80400000, 0, 1] = .bad .literalForbidden ∧
    decode [0x17400000] = .bad .oneWordForbidden ∧ decode [0x33100000] = .bad .badPrefix := by decide +kernel

/-! ## Words written out from the encodings of the rules -/

/-- R113, R115, R117 (the FMA example), R118, R120-R122, R124, R125. -/
theorem test_decode_scalar :
    decode [0x00400000 + 1 * 2 ^ 17 + 2 * 2 ^ 12 + 3 * 2 ^ 7] = .ok ⟨.add ⟨1, 2, 3, none⟩, false, 1⟩ ∧
    decode [0x00800000 + 1 * 2 ^ 17 + 2 * 2 ^ 12 + 0xFFF] = .ok ⟨.addi ⟨1, 2, 0xFFF, .word⟩, false, 1⟩ ∧
    decode [0x4288528A, 0, 0x00820000] = .ok ⟨.fma ⟨4, 5, 5, 0, { tExt 0 with rm := 4, vs3 := 4 }⟩, false, 3⟩ := by decide +kernel

theorem test_decode_scalar_memory :
    decode [0x0B * 2 ^ 22 + 1 * 2 ^ 17 + 2 * 2 ^ 12 + 3 * 2 ^ 9 + 0x1FF] = .ok ⟨.ldd ⟨1, 2, 0x1FF, none⟩, false, 1⟩ ∧
    decode [0x0C * 2 ^ 22 + 1 * 2 ^ 17 + 2 * 2 ^ 12 + 0 * 2 ^ 9 + 7] = .ok ⟨.st ⟨1, 2, 7, none⟩, false, 1⟩ ∧
    decode [0x0600_0000 + 1 * 2 ^ 17 + 3 * 2 ^ 7 + 1] = .ok ⟨.qpeek ⟨1, 3, none⟩, false, 1⟩ ∧
    decode [0x0680_0000 + 2 * 2 ^ 12 + 0x820] = .ok ⟨.csrwCtxid ⟨2, none⟩, false, 1⟩ := by decide +kernel

/-- R97, R132, R144, R146. -/
theorem test_decode_tree_vector : decode [0x0700_0000 + 4 * 2 ^ 17 + 1 * 2 ^ 7 + 0] = .ok ⟨.tid ⟨4, 1, none⟩, false, 1⟩ ∧
    decode [0x0800_0000 + 1 * 2 ^ 17 + 2 * 2 ^ 12 + 9 * 2 ^ 8] = .ok ⟨.setvl ⟨1, 2, 9, none⟩, false, 1⟩ ∧
    decode [0x31 * 2 ^ 22 + 3 * 2 ^ 18 + 1 * 2 ^ 10 + 2 * 2 ^ 4 + 15] = .ok ⟨.vcmpeq ⟨3, 1, 2, 15, none⟩, false, 1⟩ ∧
    decode [0x0E00_0000 + 3 * 2 ^ 18 + 1 * 2 ^ 14 + 2 * 2 ^ 10] = .ok ⟨.mand ⟨3, 1, 2, none⟩, false, 1⟩ := by decide +kernel

/-- R156, R157, R159, R161, R162, R236. -/
theorem test_decode_rearrange : decode [0x1040_0000 + 1 * 2 ^ 16 + 2 * 2 ^ 10 + 3 * 2 ^ 5 + 15 * 2] = .ok ⟨.vslideDn ⟨1, 2, 3, 15, none⟩, false, 1⟩ ∧
    decode [0x10C0_0000 + 1 * 2 ^ 16 + 2 * 2 ^ 10 + 7] = .ok ⟨.vexpnd ⟨1, 2, 7, none⟩, false, 1⟩ ∧
    decode [0x1140_0000 + 1 * 2 ^ 16 + 2 * 2 ^ 10 + 2 * 2 ^ 4 + 15] = .ok ⟨.vredMax ⟨1, 2, 15, none⟩, false, 1⟩ ∧
    decode [0x11C0_0000 + 1 * 2 ^ 16 + 2 * 2 ^ 10 + 1 * 2 ^ 8 + 4 * 2 ^ 4 + 15] = .ok ⟨.vgredMin ⟨1, 2, 4, 15, none⟩, false, 1⟩ ∧
    decode [0x1200_0000 + 1 * 2 ^ 16 + 2 * 2 ^ 10 + 15] = .ok ⟨.vcvt ⟨1, 2, 15, none⟩, false, 1⟩ := by decide +kernel

/-- R181 (VLD at major 0x50), R184, R187-R189. -/
theorem test_decode_memory : decode [0x1580_0000 + 1 * 2 ^ 16 + 2 * 2 ^ 11 + 3 * 2 ^ 6 + 15 * 2 ^ 2] = .ok ⟨.vstb ⟨1, 2, 3, 15, none⟩, false, 1⟩ ∧
    decode [0x1640_0000 + 1 * 2 ^ 17 + 2 * 2 ^ 12 + 3 * 2 ^ 7 + 2] = .ok ⟨.spccastFrom ⟨1, 2, 3, none⟩, false, 1⟩ ∧
    decode [0x1680_0000 + 1 * 2 ^ 17 + 2 * 2 ^ 12 + 5] = .ok ⟨.prefL2 ⟨2, 5, none⟩, false, 1⟩ ∧
    decode [0x16C0_0000 + 2 * 2 ^ 12 + 5] = .ok ⟨.clwb ⟨2, 5, none⟩, false, 1⟩ := by decide +kernel

/-- R206, R207, R210, R212, R231, R232. -/
theorem test_decode_ordering_copy : decode [0x5740_0000 + 1 * 2 ^ 17 + 2 * 2 ^ 12 + 3 * 2 ^ 7, 1, 4 * 2 ^ 15] =
      .ok ⟨.cas ⟨1, 2, 3, { tExt 1 with vs3 := 4 }⟩, false, 3⟩ ∧
    decode [0x1780_0000 + 3 * 2 ^ 18 + 1 * 2 ^ 13] = .ok ⟨.fenceSc ⟨1, none⟩, false, 1⟩ ∧
    decode [0x17C0_0000 + 1 * 2 ^ 17 + 2 * 2 ^ 12 + 3 * 2 ^ 7] = .ok ⟨.boinit ⟨1, 2, 3, none⟩, false, 1⟩ ∧
    decode [0x1840_0000 + 1 * 2 ^ 17 + 2 * 2 ^ 12 + 3 * 2 ^ 7] = .ok ⟨.bowait ⟨1, 2, 3, none⟩, false, 1⟩ ∧
    decode [0x5940_0000 + 2 * 2 ^ 12 + 3 * 2 ^ 7, 2 * 2 ^ 16 + 1 * 2 ^ 13 + 8, 4 * 2 ^ 15] =
      .ok ⟨.cpy ⟨2, 3, { tExt (2 * 2 ^ 16 + 1 * 2 ^ 13 + 8) with vs3 := 4 }⟩, false, 3⟩ ∧
    decode [0x5980_0000 + 1 * 2 ^ 16 + 2 * 2 ^ 11 + 3 * 2 ^ 6 + 15 * 2 ^ 2, 2 + 5 * 2 ^ 4, 0] =
      .ok ⟨.cpyrLoad ⟨1, 2, 3, tExt 0x52⟩, false, 3⟩ := by decide +kernel

/-- R263, R267, R269, R303, R314, R334, R335. -/
theorem test_decode_units : decode [0x1A00_0000 + 2 * 2 ^ 12 + 3 * 2 ^ 7] = .ok ⟨.matt ⟨2, 3, none⟩, false, 1⟩ ∧
    decode [0x1B00_0000] = .ok ⟨.mswap ⟨none⟩, false, 1⟩ ∧
    decode [0x1B80_0000 + 1 * 2 ^ 17 + 2 * 2 ^ 12 + 3 * 2 ^ 7 + 1] = .ok ⟨.macst ⟨1, 2, 3, none⟩, false, 1⟩ ∧
    decode [0x5D40_0000 + 1 * 2 ^ 16 + 2 * 2 ^ 11 + 3 * 2 ^ 6 + 15 * 2 ^ 2, 2 + 4 * 2 ^ 5, 0] =
      .ok ⟨.xtopk ⟨1, 2, 3, 15, tExt 0x82⟩, false, 3⟩ ∧
    decode [0x1D80_0000 + 1 * 2 ^ 17 + 2 * 2 ^ 12 + 1] = .ok ⟨.xload ⟨1, 2, none⟩, false, 1⟩ ∧
    decode [0x1E40_0000 + 3 * 2 ^ 17 + 1] = .ok ⟨.cwait ⟨3, none⟩, false, 1⟩ ∧
    decode [0x5E00_0000 + 1 * 2 ^ 16 + 2 * 2 ^ 10 + 3 * 2 ^ 4 + 15, 1, 0xFF000000] =
      .ok ⟨.collAllred ⟨1, 2, 3, 15, { tExt 1 with fd := 15, fa := 15 }⟩, false, 3⟩ := by decide +kernel

/-- R345, R353, R354, R373, R374. -/
theorem test_decode_regions_system : decode [0x1E80_0000 + 1 * 2 ^ 17 + 2 * 2 ^ 12 + 4] = .ok ⟨.crinit ⟨1, 2, none⟩, false, 1⟩ ∧
    decode [0x1EC0_0000 + 2 * 2 ^ 17 + 3 * 2 ^ 12 + 4 * 2 ^ 7 + 2] = .ok ⟨.sctadd ⟨2, 3, 4, none⟩, false, 1⟩ ∧
    decode [0x1F00_0000 + 1 * 2 ^ 16 + 2 * 2 ^ 11 + 3 * 2 ^ 6 + 15 * 2 ^ 2] = .ok ⟨.vstc ⟨1, 2, 3, 15, none⟩, false, 1⟩ ∧
    decode [0x1F40_0000 + 2] = .ok ⟨.uret ⟨none⟩, false, 1⟩ ∧ decode [0x1F80_0000] = .ok ⟨.eret ⟨none⟩, false, 1⟩ := by
  decide +kernel

/-! ## Steps -/

/-- Hart 0 at 0x100 with these words, and a system hart at reset's pc with the same. -/
def tCode (w : List Nat) (f : Hart → Hart) : State :=
  (List.zip (span 0 w.length) w).foldl (fun s p => withBytes (0x100 + 4 * p.1) 4 p.2 s) (usr f)

theorem turn_of {s : State} (ha : s.agenda = []) (hf : (s.harts.find s.cur).isSome = true) (hg : regrant s s.myCore = s)
    (hc : canIssue s = true) (hn : s.me.ahead = none) (hd : dueDeadline s = none) : Turn s (atTurn s) := by
  refine ⟨s, .inl ⟨ha, rfl⟩, ?_⟩
  have e : rejoin s = s := by unfold rejoin; rw [hn]
  rw [hg]
  simp only [e]
  exact ⟨hf, hc, hn, hd, trivial⟩

/-- ADD s1, s2, s3 alone: the step is its meaning. -/
theorem test_hyp_StepRuns : let s := tCode [0x00400000 + 1 * 2 ^ 17 + 2 * 2 ^ 12 + 3 * 2 ^ 7] id
    Turn s (atTurn s) ∧ atTurn s = s ∧ DecodesAt s 0x100 ⟨.add ⟨1, 2, 3, none⟩, false, 1⟩ ∧
    memberTrap s (.add ⟨1, 2, 3, none⟩) 0x100 = none :=
  ⟨turn_of (by decide +kernel) (by decide +kernel) (by decide +kernel) (by decide +kernel) (by decide +kernel) (by decide +kernel), by decide +kernel,
    ⟨[0x00422180], okOf (by decide +kernel), by decide +kernel⟩, by decide +kernel⟩

/-- The turn of a hart that the agenda names. -/
theorem test_hyp_Turn_agenda : let s := { usr id with cur := 1, agenda := [.hart 0] }
    Turn s (atTurn { s with agenda := [], cur := 0 }) :=
  ⟨{ usr id with cur := 0, agenda := [] }, .inr ⟨0, [], rfl, rfl⟩, by decide +kernel, by decide +kernel, by decide +kernel, by decide +kernel, by decide +kernel⟩

/-- VADD v3, v1, v2 chained before VADD v4, v3, v3, at VL 2 on I64 elements. -/
def tChain : State := tCode [0x2843042F, 0x08440C3F] (vec2 0 [] [])

def tAdd1 : Instr := .vadd ⟨3, 1, 2, 15, none⟩
def tAdd2 : Instr := .vadd ⟨4, 3, 3, 15, none⟩

theorem test_hyp_Chain : let s := tChain
    let t1 := memberOf tAdd1 { s with cv := some {} }
    let c1 := t1.cv.getD {}
    let t2 := memberOf tAdd2 { t1 with cv := some { c1 with idx := 1 } }
    atTurn s = s ∧ DecodesAt s 0x100 ⟨tAdd1, true, 1⟩ ∧ DecodesAt s 0x104 ⟨tAdd2, false, 1⟩ ∧
    memberTrap s tAdd1 0x100 = none ∧ memberTrap s tAdd2 0x104 = none ∧ chainable tAdd1 = true ∧
    (writeSet 0 (uses tAdd2)).all (fun r => !(readSet 0 (uses tAdd1)).contains r) = true ∧
    regsHere s [tAdd1, tAdd2] = true ∧ t1.cv = some c1 ∧ c1.stop = none ∧ c1.idx = 0 ∧
    t2.cv = some (t2.cv.getD {}) ∧ (t2.cv.getD {}).stop = none ∧ hasRoom t2.me (t2.cv.getD {}).pushes = true := by
  refine ⟨by decide +kernel, ⟨[0x2843042F], okOf (by decide +kernel), by decide +kernel⟩,
    ⟨[0x08440C3F], okOf (by decide +kernel), by decide +kernel⟩, by decide +kernel⟩

/-- R128: the chained sum reaches v4 in one step. -/
theorem test_chain : (match step (tCode [0x2843042F, 0x08440C3F] (fun h => (vec2 0 [] [] h).vset 1 5)) with
    | .next t => (t.me.vget 4, t.me.pc) | .fault _ => (0, 0) | .refused _ => (0, 0)) = (10, 0x108) := by decide +kernel

/-- A fetch from an unmapped page, words that are no instruction, a plane above PLANES, an unassigned CSR, a privileged
instruction in user mode, a chain bit on a scalar instruction, and a chained pair in which the second writes a source. -/
theorem test_hyp_StepTraps :
    fetchInstr (usr (fun h => { h with pc := 0x20000000 })) 0x20000000 = .error (0x05, 0x20000000) ∧
    decode [0] = .bad .neverMajor ∧
    illegalPlane (usr id) (namedPlane (.dual ⟨3⟩)) = true ∧ badCsr (.csrr ⟨1, 0x7FF, none⟩) = true ∧ barsDual 0x13080000 = true ∧
    isPriv (.eret ⟨none⟩) = true ∧ illegalPlane (usr id) (namedPlane (.eret ⟨none⟩)) = false ∧
    chainable (.add ⟨1, 2, 3, none⟩) = false ∧ chainable (.vadd ⟨1, 2, 3, 15, none⟩) = true ∧
    (∃ r ∈ writeSet 0 (uses (.vadd ⟨2, 4, 5, 15, none⟩)), r ∈ readSet 0 (uses (.vadd ⟨1, 2, 3, 15, none⟩))) := by
  refine ⟨errOf ?_, ?_⟩ <;> decide +kernel

/-- A hart whose record is in service does not issue; a hart of a launch past its deadline raises it. -/
theorem test_hyp_NoIssue : canIssue (usr (fun h => { h with stat := .stopped })) = false ∧
    (let s := usr (fun h => { h with att := some { tAtt with rows := 256 } })
     let d := { s with
       cores := s.cores.map (fun c => (c.1, { c.2 with rowsDue := true }))
       harts := s.harts.put 8 { tHart 0 with att := some { tAtt with core := 1, rows := 16 } } }
     (d.core d.myCore).rowsDue = true ∧ freeRows d (quadOf d.myCore) < dueRows d d.myCore ∧ regrant (usr id) 0 = usr id) ∧
    (let l := { tLaunch with blk := { tBlk with deadline := 5, dlfault := true } }
     let s := { usr id with launches := [(1, l)], mods := [(0, { gtime := 6 })] }
     canIssue s = true ∧ s.launchOf s.me = some l ∧ l.blk.deadline < (s.mod s.myPkg).gtime ∧ s.me.wait = none ∧ s.me.dual = none ∧ s.me.ahead = none) := by
  decide +kernel

/-- An event of the agenda, and time. -/
theorem test_hyp_Events : isEvent (.remoteAck 9) = true ∧ isEvent (.add ⟨1, 2, 3, none⟩) = false ∧
    modOn State.reset 0 = true ∧ (0x10008 : Nat) % 8 = 0 ∧ (usr id).me.undispatched = true ∧
    (State.reset.mods.find 0).isSome = true ∧ (State.reset.mod 0).slow ≤ 5 := by decide +kernel

/-- Hart 0 keeps the word at 0x100 as it once was; a context keeps page 0 of its window; page 2^13 is not mapped. -/
def tKept (old : Bool) : State := usr (fun h => { h with fetched := [(0x100, (7, old))] })

theorem test_hyp_Kept : let s := tKept false
    fetchKey s 0x100 = .ok 0x100 ∧ fetchKey s 0x104 = .ok 0x104 ∧ s.me.fetched.find 0x100 = some (7, false) ∧
    s.me.fetched.find 0x104 = none ∧ eccHit s 0x104 4 = false ∧ (s.harts.find 0).isSome = true ∧
    (s.ctx 0 0).live = true ∧ walkNow s 0 0 (65536 * 0) = .ok (0x1F, 0) ∧ walkNow s 0 0 (65536 * 8192) = .error 0x05 := by
  refine ⟨okOf ?_, okOf ?_, ?_, ?_, ?_, ?_, ?_, okOf ?_, errOf ?_⟩ <;> decide +kernel

/-- R48: a jump before an acquire goes on with the old word, one after it does not. -/
theorem test_kept_word : ((tKept false).jump 0x100).me.fetched = [(0x100, (7, false))] ∧
    ((tKept true).jump 0x100).me.fetched = [] := by decide +kernel

/-- R364: a translation kept is used although the table has changed, and TLBINV of another page leaves it. -/
theorem test_kept_page : let s := { keepPage 0 0 0 (usr id) with mem := [] }
    translation s 0 0 0x123 = .ok (0x1F, 0x123) ∧ walkNow s 0 0 0x123 = .error 0x05 ∧
    translation (dropPages 0 0 (pageNamed 0x10000 0x10000) s) 0 0 0x123 = .ok (0x1F, 0x123) ∧
    translation (dropPages 0 0 (pageNamed 0xFFF 1) s) 0 0 0x123 = .error 0x05 := by
  refine ⟨okOf ?_, errOf ?_, okOf ?_, errOf ?_⟩ <;> decide +kernel

/-- QPOP s8, q0 (0x06100000) at an empty queue before a VST of v1 to the address in s4: the hart waits. -/
def tStall : State :=
  tCode [0x06100000, ((encode false (.vst ⟨1, 4, 0, 15, none⟩)).headD 0).toNat]
    (fun h => { (vec2 0 [] [(4, 0x40000)] h).vset 1 0x1122 with pc := 0x100, wait := some ⟨wQueue, 0, 0⟩ })

/-- The vector stream of that hart as it stands first, and as the step lets it go on. -/
def tAside (s : State) : Ahead := ⟨(s.me.done 4).side, [], s.me.under, [(s.me.pc, 8)]⟩

theorem test_hyp_Ahead : let s := tStall
    let i : Instr := .vst ⟨1, 4, 0, 15, none⟩
    let v := atTurn (s.setMe (s.me.streamed (tAside s)))
    let w := underway [⟨i, 0x104, 1⟩] v
    canIssue s = true ∧ s.me.ahead = none ∧ DecodesAt s 0x100 ⟨.qpop ⟨8, 0, none⟩, false, 1⟩ ∧
    (8 : BitVec 5) ∉ captures i ∧ (4 : BitVec 5) ∈ captures i ∧ passedOver i = none ∧
    goesAhead ((encode false i).headD 0).toNat i = true ∧
    DecodesAt v 0x104 ⟨i, false, 1⟩ ∧ memberTrap s (.qpop ⟨8, 0, none⟩) 0x100 = none ∧ memberTrap v i 0x104 = none ∧
    (match exec i w with | .next t => wentOn 4 w.me t.me && t.me.pc == 0x108 | _ => false) = true := by
  refine ⟨?_, ?_, ⟨[0x06100000], okOf ?_, ?_⟩, ?_, ?_, ?_, ?_, ⟨[(encode false (.vst ⟨1, 4, 0, 15, none⟩)).headD 0], okOf ?_, ?_⟩, ?_⟩ <;>
    decide +kernel

/-- The same before ADDI s9, s9, 1, which the vector stream passes, and its register with it. -/
theorem test_hyp_Ahead_past : let i : Instr := .addi ⟨9, 9, 1, .word⟩
    let s := tCode [0x06100000, ((encode false i).headD 0).toNat] (fun h => { h with wait := some ⟨wQueue, 0, 0⟩ })
    let v := atTurn (s.setMe (s.me.streamed (tAside s)))
    let a : Ahead := ⟨(s.me.done 8).side, [⟨0x100, 0x108, [(1, 7)]⟩], [], []⟩
    let u := tCode [] (fun h => { h with ahead := some a })
    passedOver i = some [9] ∧ DecodesAt v 0x104 ⟨i, false, 1⟩ ∧ memberTrap v i 0x104 = none ∧ u.me.ahead = some a ∧ u.me.pc = 0x100 ∧
    canIssue (regrant u u.myCore) = true := by
  refine ⟨by decide +kernel, ⟨[(encode false (.addi ⟨9, 9, 1, .word⟩)).headD 0], okOf ?_, ?_⟩, ?_⟩ <;> decide +kernel

/-- R14, R106: the store is performed, and the hart still waits at its QPOP. -/
theorem test_ahead : (match step { tStall with agenda := [.ahead 0] } with
    | .next t => ((t.byteAt 0x40000).toNat, t.me.pc == 0x100 && t.me.wait == some ⟨wQueue, 0, 0⟩)
    | _ => (0, false)) = (0x22, true) := by decide +kernel

/-- GTIME moves on by 5 ns. -/
theorem test_time : (passTime 5 State.reset).mod 0 = { ({} : Mod) with gtime := 5, synced := 5, age := 5 } := by decide +kernel

/-- A system hart after reset fetches at R359's start of the physical map; an instruction placed there runs first. -/
theorem test_first_instruction :
    (match step (State.reset.withFetchWord 96 (0x808A5000 + 7 * 2 ^ 32)) with
      | .next t => (t.me.reg 5, t.me.pc) | .fault _ => (0, 0) | .refused _ => (0, 0)) = (7, 0x0FFF00000000000C) := by decide +kernel

/-- A round trip with the chain bit, an extended form and a literal; a word that follows stays. -/
theorem test_hyp_RoundTrip : (Instr.vadd ⟨3, 1, 2, 2, none⟩).isWord = true ∧ (Instr.vadd ⟨3, 1, 2, 2, none⟩).check = none ∧
    (Instr.vadd ⟨3, 1, 2, 2, none⟩).isDual = false ∧ (Instr.dual ⟨2⟩).isDual = true ∧
    decode (encode true (.vadd ⟨3, 1, 2, 2, none⟩) ++ [7]) = .ok ⟨.vadd ⟨3, 1, 2, 2, none⟩, true, 1⟩ := by decide +kernel

theorem test_hyp_StepKeepsMemoryCanonical : State.reset.memOk = true ∧ (usr id).memOk = true ∧ tSort.memOk = true := by decide +kernel

/-! ## Other modules, pending units, and events that come while a team is away -/

/-- Context 0 spans modules 0 and 1; s2 names 0x100 of module 1. -/
def tFar (f : Hart → Hart) : State :=
  { usr (fun h => f (withRegs [(2, 2 ^ 48 + 0x100)] h)) with
    mods := [(0, {}), (1, {})]
    ctxs := [(0, { live := true, sptb := 0x10000, vht := [(0, 13)], tdeleg := 0x18, groupmods := 2, ngroups := 1 })] }

theorem test_hyp_RemoteScalar : let s := tFar id
    let l : Loc := ⟨2 ^ 42 + 0x100, some (1, 0x100)⟩
    scalarLoc s s.cur (scalarAddr s ⟨1, 2, 0, none⟩ 8) 8 8 rR = .ok l ∧ scalarLoc s s.cur (scalarAddr s ⟨1, 2, 0, none⟩ 8) 8 8 rW = .ok l ∧
    l.foreign s.myPkg = true ∧ eccHit s l.key 8 = false ∧ eccStoreHit s l.key 8 = false ∧ ownLogCovers s s.cur l 8 = false ∧
    matrixReads s.me l.key 8 = false ∧ s.me.remote.find 0 = none ∧
    (tFar (fun h => { h with remote := [(0, ⟨9, some (5, 0)⟩)] })).me.remote.find 0 = some ⟨9, some (5, 0)⟩ ∧
    (tFar (fun h => { h with remote := [(0, ⟨9, none⟩)] })).me.remote.find 0 = some ⟨9, none⟩ := by
  refine ⟨okOf ?_, okOf ?_, ?_⟩ <;> decide +kernel

theorem test_hyp_ScalarEcc : let s := { usr (withRegs [(2, 0x40000)]) with ecc := [(0x8000, 1)] }
    let l : Loc := ⟨0x40000, some (0, 0x40000)⟩
    scalarLoc s s.cur (scalarAddr s ⟨1, 2, 0, none⟩ 4) 4 4 rR = .ok l ∧ scalarLoc s s.cur (scalarAddr s ⟨1, 2, 0, none⟩ 4) 4 4 rW = .ok l ∧
    eccHit s l.key 4 = true ∧ eccStoreHit s l.key 4 = true := by
  refine ⟨okOf ?_, okOf ?_, ?_⟩ <;> decide +kernel

/-- Two binary64 elements at 0x40000, whose unit is pending. -/
def tPending : State :=
  { usr (vec2 8 [(1, .f64)] [(2, 0x40000)]) with ctxs := [(0, { live := true, sptb := 0x10000, vht := [(0, 15)], tdeleg := 0x18 })] }

theorem test_hyp_PendingUnits : let o : VMemOp := ⟨.unit, 1, 2, 0, 15, none⟩
    let t := tPending.waited 0
    let at_ := fun (j : Nat) => ([(0, VPlace.pending 0 (0x40000 + 8 * j))] : List (Nat × VPlace))
    [0, 1].all (fun e => t.activeUnit .f64 15 e && (addrOf o t.me 8 e).isSome) = true ∧
    [0, 1].all (fun e => [true, false].all (fun w =>
      match placesOf t w (elemSize .f64) (elemAlign .f64) (planeAddrs t ((addrOf o t.me 8 e).getD 0)) with
      | .ok ps => ps == at_ e && ps.any (fun p => p.2.isPending) | .error _ => false)) = true ∧
    badSource .any .f64 t.me [1] = none ∧ scOwed t (ticketPkg t) = false ∧ scOwedAt t (ticketPkg t) (fun k _ => k != t.myCore) = false ∧
    logUsed (t.core t.myCore).log + 2 * ((t.me.planesInForce + 1) * (16 + roundUp (elemSize .f64) 16)) ≤ 65536 := by
  decide +kernel

/-- An SC element of the core's log, or of another core's, is still to be performed. -/
theorem test_hyp_ScOrder : let e : LogEntry := { hart := 1, ctx := 0, cls := 1, pkg := 0, va := 0x40000, ptr := 0x40000, born := 3, data := [1], tick := some 0 }
    let s := withLog [e] (usr id)
    scOwed s 0 = true ∧ scOwedAt s 0 (fun k _ => k != 0) = false ∧ scWaits s 1 = true ∧ scWaits s 0 = false ∧ ticketPkg s = 0 ∧
    ([0, 1, 2].all (fun p => performedAt s p)) = true := by decide +kernel

/-- A wait on an empty granule that a fill satisfied before the team left; the fill is then no other hart's. -/
theorem test_hyp_FullEmpty_met : let g := (poolKey 0 (299008 + 16)) / 16
    let s := usr (fun h => { h with await := some ⟨[g], true, true⟩ })
    let u := { usr id with harts := [(0, tHart 0), (1, { tHart 1 with await := some ⟨[g], true, true⟩ })], fe := [(g, 1)] }
    (s.me.await.map Await.met) = some true ∧
    u.harts.any (fun e => e.1 != u.cur && (match e.2.await with | some w => w.met && w.clr && w.granules.contains g | none => false)) = true ∧
    u.fe.get g ≠ 0 ∧ u.me.await = none := by decide +kernel

/-- A system hart that waits in WFI on token 3: complete, and still pending. -/
theorem test_hyp_Wfi_token : let w := fun (p : Bool) => sys (fun h => { h.setToken 3 { pending := p } with wait := some ⟨wSystem, 8, 0⟩ })
    (w false).me.recs = [] ∧ (w false).me.wait = some ⟨wSystem, 8, 0⟩ ∧ (w false).me.sys.tstatus.getLsbD 11 = false ∧
    Nat.testBit 8 3 = true ∧ ((w false).me.token 3).pending = false ∧ ((w true).me.token 3).pending = true ∧
    (∀ k, k < 8 → Nat.testBit 8 k = true → ((w true).me.token k).pending = true) := by decide +kernel

/-- Requests that an invalidation of page 0 calls back, or waits for. -/
theorem test_hyp_Recalls : let op := fun (k : Nat) => ({ tStore 0 with kind := k, slot := 0, vas := [0x100] } : RemoteOp)
    let s := { serves 0x800 (tHart 0) with mods := [(0, {}), (1, {})], remote := [(9, op 0), (10, op 1)] }
    [op 0, op 1].all (fun o => o.state == 0 && corePkg o.core == s.myPkg && o.slot == 0 && reaches s s.myPkg o.pkg &&
      o.vas.any (fun va => pageNamed 0 1 (va / 65536))) = true ∧ s.me.system = true ∧ s.remote.find 9 = some (op 0) := by
  decide +kernel

/-- A request that has not arrived when it is to replay after another, and a store of the side log whose unit is bad. -/
theorem test_hyp_RemoteOrder : let o := { tStore 0 with keys := [2 ^ 42], vas := [0x100] }
    let later := { tStore 0 with keys := [2 ^ 42 + 1], vas := [0x101] }
    o.meets later = false ∧ o.meets o = true ∧ o.logged = false ∧ scMay (usr id) o = true ∧
    scOwed (withLog [⟨0, 0, 1, 0, 0x40000, 0x40000, 3, [1], false, some 0⟩] (usr id)) 0 = true ∧
    forwarded (withLog [⟨0, 0, 1, 0, 0x40000, 0x40000, 3, [7], false, none⟩] (usr id)) 0 0 0 0x40000 = some 7 ∧
    keysBad { usr id with ecc := [(0x8000, 1)] } [] [0x40000, 0x40001] = true ∧ keysBad (usr id) [] [0x40000] = false := by
  decide +kernel

/-- The swap area holds the image of a team that was swapped out. -/
theorem test_hyp_Area : let s := usr id
    ((saveTeam s 0 true).map (fun im => !(imagePieces s s.seq im).isEmpty)) = some true := by decide +kernel

/-- A copy of no bytes whose object cannot be reached; and one of some. -/
theorem test_hyp_CopyBytes : copyBytes (.bytes 0 0 8 [⟨0, 8, 8⟩]) = 0 ∧ copyBytes (.bytes 0 0 8 [⟨2, 8, 8⟩]) ≠ 0 := by decide +kernel

/-- Rows kept for a MATT of a team that was away. -/
theorem test_hyp_Granted : (usr (fun h => { h with wait := some ⟨wGrant, 64, 0⟩ })).me.granted ≠ 0 ∧ (usr id).me.granted = 0 := by
  decide +kernel

/-- A block that XSAMP or XLOAD has formed, and a unit of a module that is off. -/
theorem test_hyp_Posted : (kept (usr id) 0 7).me.remote.find 0 = some ⟨0, some (7, 0)⟩ ∧ (usr id).me.remote = [] ∧
    unitsAt (usr id) (.switchEmit 1 7 0) = [1] ∧ modOn { usr id with mods := [(0, {}), (1, { on := false })] } 1 = false ∧
    unitsAt (usr id) (.switchEmit 0 7 0) = [0] ∧ modOn (usr id) 0 = true := by decide +kernel

/-- The second row of XTOPK's block cannot be read. -/
theorem test_hyp_TopK_ecc : let s := { usr (withRegs [(2, 0x2000000000000000)]) with ecc := [((poolKey 0 299008 + 16) / 8, 1)] }
    eccHit s (poolKey 0 299008 + 1 * 4 * 4 + 0) 1 = true ∧ eccHit s (poolKey 0 299008 + 0 * 4 * 4 + 15) 1 = false := by decide +kernel

/-- CLWB of a line that an own entry of the side log covers, and of one that none covers. -/
theorem test_hyp_LineHeld : let s := withLog [⟨0, 0, 1, 0, 0x40010, 0x40010, 3, [1], false, none⟩] (usr id)
    cacheCheck s 0x40000 = none ∧ lineHeld s 0x40000 = true ∧ lineHeld s 0x40400 = false ∧ lineHeld (usr id) 0x40000 = false := by
  decide +kernel

/-- The fill of a granule of core 1's pool is a hart's that is away. -/
theorem test_hyp_FullEmpty_away : let g := (poolKey 1 (299008 + 16)) / 16
    ((saveTeam (usr (fun h => { h with await := some ⟨[g], true, true⟩ })) 0 true).map (fun im =>
      !im.loaded && !ofPool im.core g && im.harts.any (fun h => (match h.2.await with
        | some w => w.met && w.clr && w.granules.contains g | none => false)))) = some true := by decide +kernel

/-- A request of an SC atomic held at CORE and not at HART, and requests that meet an error. -/
theorem test_hyp_RemoteHeld : let e : LogEntry := ⟨0, 0, 1, 0, 0x40000, 0x40000, 3, [1], false, some 0⟩
    let o (i : Nat) : RemoteOp := { tStore 0 with kind := 2, tick := some 0, scope := some i }
    let s := { usr id with ecc := [(2 ^ 39, 1)] }
    scHeld (withLog [e] (usr id)) 0 1 0 = true ∧ scHeld (withLog [e] (usr id)) 0 0 0 = false ∧ (o 1).logged = false ∧
    (o 0).meetsError s = true ∧ (tStore 0).meetsError s = true ∧ (o 0).meetsError (usr id) = false := by decide +kernel

/-- A request of a vector stream that is ahead of its hart. -/
theorem test_hyp_RemoteAhead : let w : RemoteWait := ⟨9, none⟩
    let d : Side := { (tHart 0).side with pc := 0x104, remote := [(0, w)] }
    let h : Hart := { tHart 0 with ahead := some ⟨d, [], [], []⟩ }
    h.vector.remote.find 0 = some w ∧ h.remote.find 0 = none ∧ h.vector.pc = 0x104 := by decide +kernel

/-- A posted store of a hart whose context ends, every launch of it final. -/
theorem test_hyp_ContextEnd_posted : let o := { tStore 0 with keys := [0x40000], pkg := 0 }
    let s := { usr id with remote := [(9, o)], launches := [(1, { tLaunch with status := 2 })] }
    o.kind = 1 ∧ o.state = 0 ∧ o.carried s = true ∧ keysBad s [] o.keys = false ∧ o.keys.Nodup ∧ s.harts.find o.hart = some (tHart 0) ∧
    isSystemKey o.hart = false ∧ pkgOf o.hart ∈ (s.ctx 0 0).modules ∧ (tHart 0).ctx = 0 ∧ isFinal 2 = true := by decide +kernel

/-- CPYR mode 01, token 3, issued while CPYR mode 00, token 2, has group 3 of register 4 still to bring in. -/
theorem test_hyp_CopyBetween : let s := usr (fun h => (h.setToken 2 { pending := true, work := some (.regIn 4 1 0x40000), seq := 1 }).setToken 3
      { pending := true, work := some (.regOut 4 1 0x41000 [0]), seq := 2 })
    let t := s.me.token 3
    groupDue s.me t (.regOut 4 1 0x41000 [0]) 3 = true ∧ groupDue s.me (s.me.token 2) (.regIn 4 1 0x40000) 3 = false ∧
    t.pending = true ∧ (s.me.token 2).seq < t.seq ∧ t.done.contains (16 * (4 + 3 / 16 - 4) + 3 % 16) = false ∧ (3 : Nat) ≠ 2 ∧
    (copying s 0 2).isSome = true ∧ 4 + 3 / 16 - 4 < ([0] : List VReg).length ∧
    collHolds s (regsOf (.cpyrStore ⟨4, 2, 0, tExt 1⟩)) = false := by decide +kernel

/-- A team leaves with a hart in XOPEN, whose stream can be opened, or waits for the round that is open. -/
theorem test_hyp_LeavesAs : let s := { usr (fun h => { h with wait := some ⟨wOpen, 7, 0⟩ }) with groups := [(7, tGroup)] }
    let g := { tGroup with rounds := [tRound [(0, tStream true [])] false false] }
    ((saveTeam s 0 true).map (fun im => im.harts.map (fun e => (e.1, e.2.vector.wait)))) = some [(0, some ⟨wOpen, 7, 0⟩), (1, none)] ∧
    s.groups.find 7 = some tGroup ∧ canOpen s 7 0 tGroup = true ∧ canOpen { s with groups := [(7, g)] } 7 0 g = false := by decide +kernel

/-- An EMPTY block with a PACKAGE level while a store to another module is unacknowledged. -/
theorem test_hyp_Launch_far :
    let s := { tBytes [(0x10, 1), (0x104, 6)] with remote := [(9, tStore 1)] }
    bindBlock (s.ctx 0 0) (tRead s) = .empty ∧ ((readLpb (tRead s)).levels.any (fun l => decide (6 ≤ l.phys)) && !performedAt s 7) = true := by
  decide +kernel

/-- Instance 5 must write v4 after instance 6 has read it, and both wait for staging. -/
theorem test_hyp_StagingClear : let c := tInst [{ tMember 0 with seq := 9 }] 1
    let s := { tColl id with colls := [(5, c), (6, tInst [{ tMember 0 with vd := 9, vs1 := 4, due := true, seq := 2 }] 1)] }
    targetBehind s c = true ∧ targetBehind { s with colls := [(5, c)] } c = false ∧ wantsStaging s c = false ∧
    wantsStaging { s with colls := [(5, c)] } c = true := by decide +kernel

/-- Chunks of an ALLRED between the harts of one module. -/
theorem test_hyp_CollRoutes : let c := tInst [tMember 0, tMember 1] 2
    collRoutes (usr id) c (tMember 1) ≠ [] ∧ ∀ r ∈ collRoutes (usr id) c (tMember 1), routeCut (usr id) r.1 r.2 = false := by
  decide +kernel

/-- VSTC of a register of which CPYR still brings the first group in. -/
theorem test_hyp_Vstc_lacks : let s := usr (fun h => (vec2 9 [(1, .f32)] [(2, 0x40000)] h).setToken 2
      { pending := true, work := some (.regIn 1 1 0x40000), seq := 1 })
    s.ready (instrWtk (.vstc ⟨1, 2, 0, 15, none⟩)) ∧ collHolds s [1] = false ∧ badSource .any s.me.cf s.me [1] = none ∧
    s.me.lacks 1 0 (vstcNeed s.me.cf (s.me.tag 1) ((List.range s.me.csr.vl).filter (fun _ => true))) = true ∧
    s.me.lacks 1 0 0 = false := by
  refine ⟨fun k _ h => ?_, by decide +kernel⟩
  rw [show instrWtk (.vstc ⟨1, 2, 0, 15, none⟩) = 0 from rfl, Nat.zero_testBit] at h
  exact absurd h (by decide)

/-- The last record of a destination, the other one ended or not; a region with an object that is at hand; and an XROUND whose
round had completed as its group was released. -/
theorem test_hyp_Delivery_end : let r := { tRound [(0, tStream true [tRec1])] true false with result := [([tRec1], 0), ([], 0)] }
    let last := { r with dests := [(0, { emitted := 1, staging := [tRec1] }), (1, { ended := true })] }
    let g := { tGroup with rounds := [last] }
    let p : Posted := ⟨7, 0, [(poolKey 0 299008, 4128)], 0x40000, 16, 0⟩
    allEmitted g last 0 = true ∧ pendingRound g 0 = some 0 ∧ (last.dests.getD 0 {}).staging = [tRec1] ∧
    objectHeld (tGrp id) 0 p.bobj.toNat = false ∧ (p.bobj = 0) = False ∧
    (last.dests.getD 1 {}).ended = true ∧ (r.dests.getD 1 {}).ended = false ∧
    ((usr (fun h => { h with wait := some ⟨wRounded, 7, 1⟩ })).me.wait = some ⟨wRounded, 7, 1⟩) ∧
    ((usr (fun h => { h with wait := some ⟨wOpened, 7, 0⟩ })).me.wait.any (fun w => w.kind == wOpened)) = true ∧
    ((usr (fun h => { h with wait := some ⟨wRound, 7, 0⟩ })).harts.find 0).isSome = true := by
  refine ⟨?_, ?_, ?_, ?_, by simp, ?_⟩ <;> decide +kernel

/-- SLSTAT's STUCK: a unit outside the physical map. -/
theorem test_hyp_Stuck :
    let s := withLog [⟨0, 0, 1, 0, 0x10, 0x10, 3, [1], false, none⟩]
      { usr id with ctxs := [(0, { live := true, sptb := 0x10000, vht := [(0, BitVec.ofNat 64 (2 ^ 39 + 13))] })] }
    (logStuck s 0) = true := by decide +kernel
end Sys2Proof.Tests
end

section
/-!
PROOF. The integer instructions (R113-R116): each writes a value of the hart's registers alone, which a wait on tokens
does not change, and each operation of `Machine/Alu.lean` is the one that the statement names.
-/
namespace Sys2Proof.Machine

/-! ## The shared forms -/

/-- An instruction that waits for its tokens and then writes a value of the registers, which the wait leaves as they are. -/
theorem writes_of_regs {i : Instr} {d : BitVec 5} (v : (BitVec 5 → W64) → W64) {w : State → W64}
    (he : ∀ s, exec i s = gated (instrWtk i) s (fun t => t.wr (instrLen i) d (v t.me.reg)))
    (hv : ∀ s : State, v s.me.reg = w s) : Writes i d w := by
  intro s hr
  have hregs : (s.waited (instrWtk i)).me.reg = s.me.reg := funext (waited_reg hr)
  rw [he, gated_of_ready hr, hregs, hv]

/-- The same for an instruction without a literal. -/
theorem writes_of_scalar {i : Instr} {d : BitVec 5} {x : Option Ext} (v : (BitVec 5 → W64) → W64) {w : State → W64}
    (hf : i.form = ofOption x) (he : ∀ s, exec i s = scalar x s (fun t => t.wr (lenOf x) d (v t.me.reg)))
    (hv : ∀ s : State, v s.me.reg = w s) : Writes i d w := by
  have hw : instrWtk i = wtkOf x := by rw [instrWtk, hf]; exact (lform_ofOption x).2
  refine writes_of_regs v (fun s => ?_) hv
  rw [hw, instrLen_of hf, he, scalar]

/-- An instruction of two registers whose arm in `exec` is `aluR o f` writes `f` of them. -/
theorem aluR_writes {i : Instr} {o : OpR} (f : W64 → W64 → W64) {w : State → W64}
    (hv : ∀ s : State, f (s.me.reg o.a) (s.me.reg o.b) = w s)
    (hf : i.form = ofOption o.x := by rfl) (he : ∀ s, exec i s = aluR o f s := by intro; rfl) : Writes i o.d w :=
  writes_of_scalar (fun r => f (r o.a) (r o.b)) hf he hv

/-- An instruction of one register whose arm is `aluU o f`. -/
theorem aluU_writes {i : Instr} {o : OpDA} (f : W64 → W64) {w : State → W64}
    (hv : ∀ s : State, f (s.me.reg o.a) = w s)
    (hf : i.form = ofOption o.x := by rfl) (he : ∀ s, exec i s = aluU o f s := by intro; rfl) : Writes i o.d w :=
  writes_of_scalar (fun r => f (r o.a)) hf he hv

/-- An immediate or literal form whose arm is `aluI o f`. -/
theorem aluI_writes {i : Instr} {o : OpI} (f : W64 → W64 → W64) {w : State → W64}
    (hv : ∀ s : State, f (s.me.reg o.a) (immOf o.i o.form) = w s)
    (hf : i.form = o.form := by rfl) (he : ∀ s, exec i s = aluI o f s := by intro; rfl) : Writes i o.d w :=
  writes_of_regs (fun r => f (r o.a) (immOf o.i o.form)) (fun s => by rw [he, instrWtk, instrLen, hf, aluI]) hv

/-- A shift by an immediate or literal amount whose arm is `aluSh o f`. -/
theorem aluSh_writes {i : Instr} {o : OpSh} (f : W64 → Nat → W64) {w : State → W64}
    (hv : ∀ s : State, f (s.me.reg o.a) (amountOf o.n o.form) = w s)
    (hf : i.form = o.form := by rfl) (he : ∀ s, exec i s = aluSh o f s := by intro; rfl) : Writes i o.d w :=
  writes_of_regs (fun r => f (r o.a) (amountOf o.n o.form)) (fun s => by rw [he, instrWtk, instrLen, hf, aluSh]) hv

theorem immOf_eq (i : BitVec 12) (f : LForm) :
    immOf i f = match f.literal with | none => i.signExtend 64 | some v => v := by
  unfold immOf
  cases f.literal <;> rfl

theorem immOf_literal {i : BitVec 12} {f : LForm} {v : W64} (h : f.literal = some v) : immOf i f = v := by
  simp [immOf, h]

/-! ## The operations -/

/-- R113 states ROTR by two shifts and keeps n = 0 apart. -/
theorem rotr_eq_rotateRight (a b : W64) : rotr a (shiftOf b) = a.rotateRight (b.toNat % 64) := by
  have hmod : b.toNat % 64 % 64 = b.toNat % 64 := Nat.mod_mod _ _
  unfold rotr shiftOf BitVec.rotateRight BitVec.rotateRightAux
  rw [hmod]
  split
  · next h => simp [h]
  · rfl

/-- Two choices between `a` and `b` agree when they differ only on a tie. -/
theorem ite_eq_ite_of_tie {α : Type} {p q : Prop} [Decidable p] [Decidable q] {a b : α} (hpq : p → q)
    (htie : ¬p → q → a = b) : (if p then a else b) = if q then a else b := by
  by_cases hp : p
  · rw [if_pos hp, if_pos (hpq hp)]
  · by_cases hq : q
    · rw [if_neg hp, if_pos hq, htie hp hq]
    · rw [if_neg hp, if_neg hq]

theorem ite_slt_eq_ite_le (a b : W64) : (if a.slt b then a else b) = if a.toInt ≤ b.toInt then a else b := by
  refine ite_eq_ite_of_tie (fun h => Int.le_of_lt (BitVec.slt_iff_toInt_lt.mp h)) fun hn hle => ?_
  rw [BitVec.slt_iff_toInt_lt] at hn
  exact BitVec.eq_of_toInt_eq (by omega)

theorem ite_slt_swap_eq_ite_le (a b : W64) : (if a.slt b then b else a) = if b.toInt ≤ a.toInt then a else b := by
  simp only [BitVec.slt_iff_toInt_lt, ← Int.not_lt (a := a.toInt), ite_not]

theorem ite_ult_eq_ite_le (a b : W64) : (if a < b then a else b) = if a.toNat ≤ b.toNat then a else b := by
  refine ite_eq_ite_of_tie (fun h => Nat.le_of_lt (BitVec.lt_def.mp h)) fun hn hle => ?_
  rw [BitVec.lt_def] at hn
  exact BitVec.eq_of_toNat_eq (by omega)

theorem ite_ult_swap_eq_ite_le (a b : W64) : (if a < b then b else a) = if b.toNat ≤ a.toNat then a else b := by
  simp only [BitVec.lt_def, ← Nat.not_lt (a := a.toNat), ite_not]

theorem mulHigh_natCast (m n : Nat) : mulHigh m n = BitVec.ofNat 64 (m * n / 2 ^ 64) := by
  unfold mulHigh
  rw [← Int.natCast_mul, ← Int.natCast_ediv, BitVec.ofInt_natCast]

theorem truth_decide (p : Prop) [Decidable p] : truth (decide p) = if p then 1 else 0 := by simp [truth]

theorem truth_not_decide (p : Prop) [Decidable p] : truth (!decide p) = if p then 0 else 1 := by
  by_cases h : p <;> simp [truth, h]

theorem ofNat_clz (a : W64) : BitVec.ofNat 64 (clz 64 a.toNat) =
    if a = 0 then 64 else BitVec.ofNat 64 (63 - Nat.log2 a.toNat) := by
  have hmod : a.toNat % 2 ^ 64 = a.toNat := Nat.mod_eq_of_lt a.isLt
  have hzero : a.toNat = 0 ↔ a = 0 := by rw [← BitVec.toNat_inj]; rfl
  unfold clz
  rw [hmod, apply_ite (BitVec.ofNat 64)]
  simp only [hzero]
  rfl

theorem lowBitFrom_eq_find? (x i n : Nat) : lowBitFrom x i n = (span i n).find? x.testBit := by
  induction n generalizing i with
  | zero => rfl
  | succ n ih => rw [lowBitFrom, span, List.find?_cons, ih]; cases x.testBit i <;> rfl

theorem ctz_eq_find? (x w : Nat) : ctz w x = ((List.range w).find? x.testBit).getD w := by
  rw [ctz, lowBitFrom_eq_find?, span_zero_eq]

theorem popCount_eq_countP (x n : Nat) : popCount x n = (List.range n).countP x.testBit := by
  induction n with
  | zero => rfl
  | succ n ih => rw [popCount, List.range_succ, List.countP_append, List.countP_singleton, ih, Nat.add_comm]

/-! ## The instructions -/

/-- Settles O2: every form writes a value of the registers alone, and each operation is the one stated. -/
theorem scalarArithmetic : Obligations.ScalarArithmetic := by
  refine ⟨fun o => ?twoRegisters, fun o => ?oneRegister, fun o => ?select, fun o => ?immediate, fun o => ?shift,
    fun o v h => ?literal⟩
  case twoRegisters =>
    exact ⟨aluR_writes (fun a b => a + b) fun _ => rfl,
      aluR_writes (fun a b => a - b) fun _ => rfl,
      aluR_writes (fun a b => a &&& b) fun _ => rfl,
      aluR_writes (fun a b => a ||| b) fun _ => rfl,
      aluR_writes (fun a b => a ^^^ b) fun _ => rfl,
      aluR_writes (fun a b => a &&& ~~~b) fun _ => rfl,
      aluR_writes (fun a b => a <<< shiftOf b) fun _ => rfl,
      aluR_writes (fun a b => a >>> shiftOf b) fun _ => rfl,
      aluR_writes (fun a b => a.sshiftRight (shiftOf b)) fun _ => rfl,
      aluR_writes (fun a b => rotr a (shiftOf b)) fun _ => rotr_eq_rotateRight _ _,
      aluR_writes (fun a b => if a.slt b then a else b) fun _ => ite_slt_eq_ite_le _ _,
      aluR_writes (fun a b => if a.slt b then b else a) fun _ => ite_slt_swap_eq_ite_le _ _,
      aluR_writes (fun a b => if a < b then a else b) fun _ => ite_ult_eq_ite_le _ _,
      aluR_writes (fun a b => if a < b then b else a) fun _ => ite_ult_swap_eq_ite_le _ _,
      aluR_writes (fun a b => a * b) fun _ => rfl,
      aluR_writes (fun a b => mulHigh a.toInt b.toInt) fun _ => rfl,
      aluR_writes (fun a b => mulHigh a.toNat b.toNat) fun _ => mulHigh_natCast _ _,
      aluR_writes divS fun _ => rfl,
      aluR_writes divU fun _ => rfl,
      aluR_writes remS fun _ => rfl,
      aluR_writes remU fun _ => rfl,
      aluR_writes (fun a b => truth (a == b)) fun _ => truth_decide _,
      aluR_writes (fun a b => truth (a != b)) fun _ => truth_not_decide _,
      aluR_writes (fun a b => truth (a.slt b)) fun _ => truth_decide _,
      aluR_writes (fun a b => truth (!a.slt b)) fun _ => truth_not_decide _,
      aluR_writes (fun a b => truth (decide (a < b))) fun _ => truth_decide _,
      aluR_writes (fun a b => truth (!decide (a < b))) fun _ => truth_not_decide _⟩
  case oneRegister =>
    exact ⟨aluU_writes (fun a => BitVec.ofNat 64 (clz 64 a.toNat)) fun _ => ofNat_clz _,
      aluU_writes (fun a => BitVec.ofNat 64 (ctz 64 a.toNat)) fun _ =>
        congrArg (BitVec.ofNat 64) (ctz_eq_find? _ 64),
      aluU_writes (fun a => BitVec.ofNat 64 (popCount a.toNat 64)) fun _ =>
        congrArg (BitVec.ofNat 64) (popCount_eq_countP _ 64)⟩
  case select =>
    exact writes_of_scalar (x := some o.x) (fun r => if r (scOf o.x) ≠ 0 then r o.a else r o.b) rfl (fun _ => rfl)
      fun _ => ite_not ..
  case immediate =>
    exact ⟨aluI_writes (fun a b => a + b) fun _ => congrArg (_ + ·) (immOf_eq _ _),
      aluI_writes (fun a b => a &&& b) fun _ => congrArg (_ &&& ·) (immOf_eq _ _),
      aluI_writes (fun a b => a ||| b) fun _ => congrArg (_ ||| ·) (immOf_eq _ _),
      aluI_writes (fun a b => a ^^^ b) fun _ => congrArg (_ ^^^ ·) (immOf_eq _ _)⟩
  case shift =>
    exact ⟨aluSh_writes (fun a n => a <<< n) fun _ => rfl,
      aluSh_writes (fun a n => a >>> n) fun _ => rfl,
      aluSh_writes (fun a n => a.sshiftRight n) fun _ => rfl⟩
  case literal =>
    exact writes_of_regs (fun _ => immOf 0 o.form) (fun _ => rfl) fun _ => immOf_literal h

end Sys2Proof.Machine
end

section
/-!
PROOF. The window instructions (R187). None of them accesses memory, so each is a function of a register and of COREID,
and a wait on tokens changes neither.
-/
namespace Sys2Proof.Machine

/-! ## Fields of a pointer -/

/-- Bits `hi` to `lo` as the statements write them. -/
theorem bitsOf_eq_div_mod (x hi lo : Nat) : bitsOf x hi lo = x / 2 ^ lo % 2 ^ (hi + 1 - lo) := by
  rw [bitsOf, Nat.shiftRight_eq_div_pow]

/-- COREID (R51) is the same after a wait. -/
theorem waited_coreId {s : State} {w : Nat} (h : s.ready w) : readCsr (s.waited w) 0x041 = readCsr s 0x041 := by
  simp [readCsr, h]

/-- The five windows of R167. -/
theorem window_cases {w : BitVec 5} (h : w.toNat < 5) : w = 0 ∨ w = 1 ∨ w = 2 ∨ w = 3 ∨ w = 4 := by
  revert w
  decide

theorem windowBits_of_getElem? {w b : Nat} (h : [60, 32, 24, 24, 48][w]? = some b) : windowBits w = b := by
  obtain ⟨hw, rfl⟩ := List.getElem?_eq_some_iff.mp h
  match w, hw with
  | 0, _ | 1, _ | 2, _ | 3, _ | 4, _ => rfl

/-- The pointer `a` is of window `w`, and of the core `core` when that window has an owner core (R187). -/
def OfWindow (core : Nat) (w : BitVec 5) (a : W64) : Prop :=
  a.toNat / 2 ^ 60 = w.toNat ∧ (w = 2 → a.toNat / 2 ^ 48 % 256 = core)

/-- The pointer of window `w` that SPCCAST.FROM makes of `a` on the core `core` (R187). -/
def windowPointer (core : Nat) (w : BitVec 5) (a : Nat) : Nat :=
  if w = 0 then 0x0FFF * 2 ^ 48 + a % 2 ^ 42 else if w = 1 then 2 ^ 60 + a % 2 ^ 32
  else if w = 2 then 2 * 2 ^ 60 + core * 2 ^ 48 + a % 2 ^ 24
  else if w = 3 then 3 * 2 ^ 60 + a % 2 ^ 24 else 4 * 2 ^ 60 + a % 2 ^ 48

/-- The test by which SPCCAST.TO refuses a pointer. -/
theorem not_ofWindow_iff (core : Nat) (w : BitVec 5) (a : W64) : ¬OfWindow core w a ↔
    (a.toNat >>> 60 ≠ w.toNat ∨ (w.toNat = 2 ∧ bitsOf a.toNat 55 48 ≠ core)) := by
  have hw : w.toNat = 2 ↔ w = 2 := BitVec.toNat_inj (y := 2#5)
  have hcode : a.toNat >>> 60 = a.toNat / 2 ^ 60 := Nat.shiftRight_eq_div_pow _ _
  have howner : bitsOf a.toNat 55 48 = a.toNat / 2 ^ 48 % 256 := bitsOf_eq_div_mod _ _ _
  simp only [OfWindow, Classical.not_and_iff_not_or_not, Classical.not_imp, ne_eq, hcode, howner, hw]

/-! ## The instructions -/

/-- A window number above 4 fails the check of the field. -/
theorem windowField_eq_false {w : BitVec 5} (h : 4 < w.toNat) : windowField w = false :=
  decide_eq_false (Nat.not_le.mpr h)

theorem spccastTo_check_ne_none {o : OpR} (h : 4 < o.b.toNat) : (Instr.spccastTo o).check ≠ none := by
  simp [Instr.check, fieldCheck, firstErr, need, windowField_eq_false h]

theorem spccastFrom_check_ne_none {o : OpR} (h : 4 < o.b.toNat) : (Instr.spccastFrom o).check ≠ none := by
  simp [Instr.check, fieldCheck, firstErr, need, windowField_eq_false h]

theorem spctest_writes (o : OpDA) :
    Writes (.spctest o) o.d (fun s => BitVec.ofNat 64 ((s.me.reg o.a).toNat / 2 ^ 60)) := by
  refine writes_of_scalar (fun r => r o.a >>> 60) rfl (fun _ => rfl) fun s => BitVec.eq_of_toNat_eq ?_
  have hlt : (s.me.reg o.a).toNat / 2 ^ 60 < 2 ^ 64 := Nat.lt_of_le_of_lt (Nat.div_le_self _ _) (BitVec.isLt _)
  rw [BitVec.toNat_ushiftRight, Nat.shiftRight_eq_div_pow, BitVec.toNat_ofNat, Nat.mod_eq_of_lt hlt]

/-- SPCCAST.TO of a pointer of its window gives the offset. -/
theorem spccastTo_answers_offset {o : OpR} {s : State}
    (h : OfWindow (readCsr s 0x041).toNat o.b (s.me.reg o.a)) :
    Answers (.spccastTo o) s fun t => t.wr (instrLen (.spccastTo o)) o.d
      (zext64 (windowBits o.b.toNat) (s.me.reg o.a).toNat) := by
  intro hr
  have hkeep := mt (not_ofWindow_iff _ _ _).mpr (Classical.not_not.mpr h)
  rw [scalar_exec _ rfl rfl hr, waited_reg hr, waited_coreId hr, if_neg hkeep, instrLen_of (x := o.x) rfl]

/-- SPCCAST.TO of any other pointer raises Space with the pointer. -/
theorem spccastTo_answers_space {o : OpR} {s : State}
    (h : ¬OfWindow (readCsr s 0x041).toNat o.b (s.me.reg o.a)) :
    Answers (.spccastTo o) s (raise 0x08 (s.me.reg o.a)) := by
  intro hr
  rw [scalar_exec _ rfl rfl hr, waited_reg hr, waited_coreId hr, if_pos ((not_ofWindow_iff _ _ _).mp h), cSpace]

/-- SPCCAST.FROM writes the pointer of its window, one case per window. -/
theorem spccastFrom_answers {o : OpR} (s : State) (hb : o.b.toNat < 5) :
    Answers (.spccastFrom o) s fun t => t.wr (instrLen (.spccastFrom o)) o.d
      (BitVec.ofNat 64 (windowPointer (readCsr s 0x041).toNat o.b (s.me.reg o.a).toNat)) := by
  intro hr
  rw [scalar_exec _ rfl rfl hr, waited_reg hr, waited_coreId hr, instrLen_of (x := o.x) rfl]
  rcases window_cases hb with hw | hw | hw | hw | hw <;>
    simp [hw, windowPointer, bitsOf_eq_div_mod, Nat.shiftLeft_eq]

/-- Settles O30: the field check refuses a window above 4, and each instruction's answer is the pointer field stated. -/
theorem windowInstructions : Obligations.WindowInstructions := by
  refine ⟨fun o hb => ⟨spccastTo_check_ne_none hb, spccastFrom_check_ne_none hb⟩, spctest_writes,
    fun o s b hb hbits => ⟨fun h => ?_, spccastTo_answers_space, spccastFrom_answers s hb⟩⟩
  rw [← windowBits_of_getElem? hbits]
  exact spccastTo_answers_offset h

end Sys2Proof.Machine
end
